-- ==== Sys2Proof/Word.lean ====
section
/-! DEFINITION. The word types of the machine and the shape of its sparse tables (00_scope.md R4). -/
namespace Sys2Proof

/-- A 64-bit register or memory word. -/
abbrev Word := BitVec 64
/-- One byte of any memory. -/
abbrev Byte := BitVec 8
/-- A 48-bit engine word (03_words.md R55). -/
abbrev EWord := BitVec 48

/-- A sparse table: entries in strictly rising key order, see `Machine.tblWf`. -/
abbrev Tbl (α : Type) := List (Nat × α)

end Sys2Proof
end

