-- ==== Sys2Proof/Syntax.lean ====
section
/-! DEFINITION. The instruction set as syntax: one constructor of `Instr` for each row of
opcode_table.json. Sequencer instructions and engine words carry the fields of their encodings
(03_words.md); events carry what their step is about. -/
namespace Sys2Proof

/-- The five engines in the order of 01_module.md R24. -/
inductive Engine where
  | cp | ld | mx | vx | st
  deriving DecidableEq, Repr

/-- The frame of an engine word without its opcode and payload (03_words.md R56). -/
structure Frame where
  pl : Bool
  pr : Bool
  hl : Bool
  hr : Bool
  k : BitVec 2
  rep : BitVec 6
  deriving DecidableEq, Repr

/-- Payload of a VX word (03_words.md R59). -/
structure VxFields where
  guard : BitVec 3
  n : Bool
  d : BitVec 4
  a : BitVec 4
  b : BitVec 4
  c : BitVec 4
  fmt : BitVec 4
  sa : BitVec 2
  step : BitVec 2
  deriving DecidableEq, Repr

/-- Payload of an LD or ST word (03_words.md R59); `fmt` holds AOP in am words. -/
structure LsFields where
  guard : BitVec 3
  n : Bool
  slot : BitVec 4
  es : BitVec 3
  fmt : BitVec 4
  sa : Bool
  off : BitVec 12
  deriving DecidableEq, Repr

/-- Payload of an MX word (03_words.md R59); the reserved bit is 0. -/
structure MxFields where
  a : BitVec 3
  b : BitVec 3
  t : BitVec 3
  acc : Bool
  md : BitVec 4
  imm : BitVec 13
  deriving DecidableEq, Repr

/-- Payload of a CP word (03_words.md R59); the reserved bits are 0. -/
structure CpFields where
  ch : BitVec 3
  es : BitVec 3
  sa : Bool
  card : BitVec 13
  deriving DecidableEq, Repr

/-- The three operations of Zicsr (12_sequencer.md R260). -/
inductive CsrOp where
  | rw | rs | rc
  deriving DecidableEq, Repr

/-- Register-register operations of RV64IM. -/
inductive RrOp where
  | add | sub | sll | slt | sltu | xor | srl | sra | or | and
  | addw | subw | sllw | srlw | sraw
  | mul | mulh | mulhsu | mulhu | div | divu | rem | remu
  | mulw | divw | divuw | remw | remuw
  deriving DecidableEq, Repr

/-- Register-immediate operations with a 12-bit immediate. -/
inductive ImmOp where
  | addi | slti | sltiu | xori | ori | andi | addiw
  deriving DecidableEq, Repr

/-- Shifts by an immediate; the W forms use five bits of it. -/
inductive ShOp where
  | slli | srli | srai | slliw | srliw | sraiw
  deriving DecidableEq, Repr

/-- The forms of SCALAR_ALU. -/
inductive AluForm where
  | rr (op : RrOp) (rd rs1 rs2 : BitVec 5)
  | imm (op : ImmOp) (rd rs1 : BitVec 5) (i : BitVec 12)
  | shift (op : ShOp) (rd rs1 : BitVec 5) (sh : BitVec 6)
  | lui (rd : BitVec 5) (i : BitVec 20)
  | auipc (rd : BitVec 5) (i : BitVec 20)
  deriving DecidableEq, Repr

/-- Widths of loads; `u` forms extend with zeros. -/
inductive LoadWidth where
  | b | h | w | d | bu | hu | wu
  deriving DecidableEq, Repr

/-- Widths of stores. -/
inductive StoreWidth where
  | b | h | w | d
  deriving DecidableEq, Repr

/-- Branch conditions. -/
inductive BranchOp where
  | beq | bne | blt | bge | bltu | bgeu
  deriving DecidableEq, Repr

/-- The forms of SCALAR_BRANCH_JUMP; immediates are the encoded bits, offset bits 12:1 or 20:1. -/
inductive JumpForm where
  | branch (op : BranchOp) (rs1 rs2 : BitVec 5) (i : BitVec 12)
  | jal (rd : BitVec 5) (i : BitVec 20)
  | jalr (rd rs1 : BitVec 5) (i : BitVec 12)
  deriving DecidableEq, Repr

/-- Who reaches the hub register space (25_service.md R419, R420). -/
inductive HubAgent where
  | hypervisor
  | management
  | partition (p : Nat)
  deriving DecidableEq, Repr

/-- The result of a self-test: the units it found failing (25_service.md R408). -/
structure SelfTest where
  /-- physical cores, as (cluster, physical index 0 to 16) -/
  cores : List (Nat × Nat)
  /-- bank units, as (sole die, pseudo-channel) -/
  units : List (Nat × Nat)
  /-- link lanes, as (link, direction, module, lane) -/
  lanes : List (Nat × Nat × Nat × Nat)
  /-- sole dies that failed -/
  soles : List Nat
  hub : Bool
  deriving DecidableEq, Repr

/-- What a debugger writes (19_faults.md R357). -/
inductive DebugTarget where
  | slot (n : Nat) (data : BitVec 1024) (tag : BitVec 4)
  | tileByte (t addr : Nat) (v : Byte)
  | accElem (a i : Nat) (v : BitVec 32)
  | guard (g : Nat) (v : Word)
  deriving DecidableEq, Repr

/-- An operation arriving over WSL at a port of compute die `die` (21_links.md R370, R373). -/
structure WslOp where
  die : Nat
  part : Nat
  atomic : Bool
  scratch : Bool
  aop : Nat
  ch : Nat
  pcore : Nat
  dst : Nat
  data : List Byte
  deriving DecidableEq, Repr

/-- A write of the host over PCIe (21_links.md R375, 25_service.md R407, R419, R420). -/
inductive HostWrite where
  /-- device memory, through the partition of the function; `ro` is the Relaxed Ordering attribute -/
  | mem (part : Nat) (dva : Nat) (data : List Byte) (ro : Bool)
  /-- BAR0 of PF0: `width` bytes -/
  | bar (off width : Nat) (v : Word)
  /-- BAR0 of the VF of a partition, by VF offset -/
  | vfBar (part off width : Nat) (v : Word)
  /-- bit 0 of the PF0 reset register -/
  | reset (v : Bool)
  deriving DecidableEq, Repr

/-- A read of the host over PCIe. -/
inductive HostRead where
  | mem (part dva len : Nat)
  | bar (off width : Nat)
  | vfBar (part off width : Nat)
  deriving DecidableEq, Repr

/-- An access to a hub register, `width` bytes wide (25_service.md R419). -/
inductive HubAccess where
  | write (width : Nat) (v : Word)
  | read (width : Nat)
  deriving DecidableEq, Repr

/-- Where a flit meets a CRC error: at a die link, or at a WSL port, whose forward error correction may also have found it
beyond repair (21_links.md R364, R370, R373). -/
inductive FlitSite where
  | link (l : Nat)
  | wsl (d p : Nat) (unrepaired : Bool)
  deriving DecidableEq, Repr

/-- What happens at an Ethernet port (21_links.md R376). -/
inductive EthOp where
  /-- the hypervisor runs the port as one, two or eight parts and assigns each to a partition -/
  | assign (owners : List Nat)
  /-- a partition sends, or receives, a frame on a part of the port -/
  | frame (part sub : Nat) (out : Bool)
  deriving DecidableEq, Repr

/-- Where an uncorrectable error strikes (19_faults.md R352). -/
inductive SoftLoc where
  | hbm (unit : Nat)
  | weight (d unit : Nat)
  | scratch (c unit : Nat)
  | slot (c s unit : Nat)
  | tile (c t unit : Nat)
  | tileScale (c t unit : Nat)
  | acc (c a elem : Nat)
  | partialSum (c a elem : Nat)
  | remData (c pos : Nat)
  | remMeta (c pos : Nat)
  | control (c k : Nat)
  deriving DecidableEq, Repr

/-- The words of VX, by the names of the opcode map. -/
inductive VxOp where
  | add | sub | mul | fma | fms | fnma | min | max | abs | neg
  | clamp | rcp | rsq | exp2 | log2 | and | or | xor | not | shl
  | shr | sra | adds | muls | fmas | mulh | mins | maxs | ceq | cne
  | clt | cle | cgt | cge | cun | ccl | sel | gand | gor | gxor
  | gandn | gmov | gtov | vtog | cvt | cvtb | tag | reda | redx | redn
  | redd | mov | swz | lrot | bcst | zip | uzp | slide | splat | acrd
  | sret | sretc | rmulq | umulq | rsra | usra | rnrw | unrw | rleak | uleak
  | raddq | usubq | rmix | umix | rmark | rchk | rdrop
  deriving DecidableEq, Repr

/-- The words of LD, by the names of the opcode map. -/
inductive LdOp where
  | v | vb | vg | ln | gd | vd | t | tw | td | sc
  | tr | am
  deriving DecidableEq, Repr

/-- The words of ST, by the names of the opcode map. -/
inductive StOp where
  | v | vs | ln | gd | vd | ve | t | rc | rd | am
  deriving DecidableEq, Repr

/-- The words of MX, by the names of the opcode map. -/
inductive MxOp where
  | mzero | mma | mmac | mmat | mman | mscl | mpre | mtrn | mcpy | mfil
  | mret | mrcv | mswp | madd | welt
  deriving DecidableEq, Repr

/-- The words of CP, by the names of the opcode map. -/
inductive CpOp where
  | copy | rcopy | ramo | wswr | bcast | fill | gath | scat | bgemv | bgemva
  | batom | bqry
  deriving DecidableEq, Repr

/-- Every instruction and event of opcode_table.json; the steps that reach the module from outside stand last. -/
inductive Instr where
  /-- R7. A sequencer CSR write to a register that has no row of its own, including W1C clears, acts per the register's Access codes. -/
  | csrWrite (op : CsrOp) (imm : Bool) (csr : BitVec 12) (rs rd : BitVec 5)
  /-- R214. A write to RSTK waits for VX to drain, checks DEPTH against CAP, flushes the on-core entries, and sets CAP and DEPTH. -/
  | rstkWrite (op : CsrOp) (imm : Bool) (rs rd : BitVec 5)
  /-- R215. A write to RSMARK waits for the context's VX entries to drain and then sets the depth marks. -/
  | rsmarkWrite (op : CsrOp) (imm : Bool) (rs rd : BitVec 5)
  /-- R165. A sequencer write to GRDn lands between two cycles, overwriting engine guard writes of the earlier cycle. -/
  | grdWrite (op : CsrOp) (imm : Bool) (g : BitVec 3) (rs rd : BitVec 5)
  /-- R350. A write to SAVEB waits until the context is not suspended, then sets the save-image base and EN. -/
  | savebWrite (op : CsrOp) (imm : Bool) (rs rd : BitVec 5)
  /-- R328. A write to BOOST.REQ stores the claim, with 3 stored as 2, for the next boundary. -/
  | boostWrite (op : CsrOp) (imm : Bool) (rs rd : BitVec 5)
  /-- R400. Writing CLR = 1 to QHSEL sets every queue-head counter to 0. -/
  | qhselClr (op : CsrOp) (imm : Bool) (rs rd : BitVec 5)
  /-- R403. A write to TRCTL sets EN and WRAP, and setting EN from 0 to 1 clears COUNT and ACT. -/
  | trctlWrite (op : CsrOp) (imm : Bool) (rs rd : BitVec 5)
  /-- R402. At the lap boundary after a stop request, the core is held, its contexts stop at instruction boundaries, and HEADS is recorded. -/
  | debugStopTake (c : Nat)
  /-- R260. An RV64IM arithmetic, logic or multiply-divide instruction executes on the x registers. -/
  | scalarAlu (a : AluForm)
  /-- R294. A sequencer load reads device memory through the locked table, possibly from the cache, or reads scratchpad through the window. -/
  | scalarLoad (w : LoadWidth) (rd rs1 : BitVec 5) (imm : BitVec 12)
  /-- R294. A sequencer store writes through to its home in device memory or scratchpad. -/
  | scalarStore (w : StoreWidth) (rs1 rs2 : BitVec 5) (imm : BitVec 12)
  /-- R260. A branch or jump changes the PC, or takes the misaligned-access trap when its target is not 4-byte aligned. -/
  | scalarBranchJump (j : JumpForm)
  /-- R260. FENCE and FENCE.TSO act as FENCE.S SYSTEM. -/
  | fence (imm : BitVec 12) (rs1 rd : BitVec 5)
  /-- R260. ECALL takes an environment-call trap. -/
  | ecall
  /-- R260. EBREAK takes a breakpoint trap. -/
  | ebreak
  /-- R71. FENCE.I makes earlier stores to code ranges visible to entries enqueued after it. -/
  | fenceI (imm : BitVec 12) (rs1 rd : BitVec 5)
  /-- R76. An encoding outside the supported set, or a trap cell or a non-zero unused field, takes the illegal-instruction trap precisely. -/
  | illegalInstruction (w : BitVec 32)
  /-- R264. FORK reads a descriptor and enqueues one entry on each named engine with the current generation and snapshot. -/
  | fork (m s d : BitVec 5)
  /-- R68. Once every named queue has room, a waiting FORK enqueues its entries in one cycle. -/
  | forkEnqueue (c k : Nat)
  /-- R265. RENDV waits until the named engines have drained the context's entries up to the given generation. -/
  | rendv (m s : BitVec 5)
  /-- R265. A waiting RENDV returns once the last awaited entry has drained. -/
  | rendvReturn (c k : Nat)
  /-- R266. GENF places a generation fence in all five queues, captures the PREPT mask and advances the generation. -/
  | genf (d : BitVec 5)
  /-- R267. ESET writes an es register from an x register. -/
  | eset (s : BitVec 5) (e : BitVec 3)
  /-- R267. ESETI writes an es register with a sign-extended immediate. -/
  | eseti (i : BitVec 12) (e : BitVec 3)
  /-- R268. TSHAPE sets a tile's row count and row length. -/
  | tshape (s : BitVec 5) (t : BitVec 3)
  /-- R269. QALIGN places a marker in the LD and ST queues that orders the entries ahead of it before those behind it. -/
  | qalign
  /-- R280. TTLOAD waits for the core to quiesce, then checks an image and replaces the locked translation table. -/
  | ttload (b s d : BitVec 5)
  /-- R91. Once its wait has ended, TTLOAD reads and checks the image, replaces the table or returns a failure status. -/
  | ttloadReplace (c k : Nat)
  /-- R272. WAITC.W drains the context, then compares and arms a 4-byte watched word, or returns status 1 or 3. -/
  | waitcW (b s d : BitVec 5)
  /-- R272. WAITC.D drains the context, then compares and arms an 8-byte watched word, or returns status 1 or 3. -/
  | waitcD (b s d : BitVec 5)
  /-- R272. After the drain, WAITC compares and arms at the word's home as one operation, and the task retires. -/
  | waitcArm (c k : Nat)
  /-- R275. SIGNL.W stores a 4-byte word and wakes every continuation watching an overlapping word. -/
  | signlW (b s d : BitVec 5)
  /-- R275. SIGNL.D stores an 8-byte word and wakes every continuation watching an overlapping word. -/
  | signlD (b s d : BitVec 5)
  /-- R316. When the task queue has room, a woken continuation enters it as a new task and its slot is freed. -/
  | continuationEnqueue (id : Nat)
  /-- R276. JOIN adds the task to a group, creating the group if needed, and returns the member count. -/
  | join (s d : BitVec 5)
  /-- R276. LEAVE removes the task from a group, dissolving the group at count 0. -/
  | leave (s d : BitVec 5)
  /-- R277. SSTEP drains the context, fences at DEVICE and enters the group's barrier on a route tag. -/
  | sstep (t : BitVec 3) (s d : BitVec 5)
  /-- R320. 64 ticks after the last member enters, the barrier completes, every SSTEP returns, and the plan for the current class starts. -/
  | barrierComplete (t : Nat)
  /-- R278. EXWAIT waits for the current exchange on a tag and returns the count of late deliveries. -/
  | exwait (t : BitVec 3) (d : BitVec 5)
  /-- R278. Once the last deadline has passed and every delivery to the core has landed, a waiting EXWAIT returns. -/
  | exwaitReturn (c k : Nat)
  /-- R279. EXPLAN reads and installs an exchange plan set for a group on a route tag. -/
  | explan (t : BitVec 3) (b s d : BitVec 5)
  /-- R271. RQPOP takes the oldest scalar return queue entry, waiting unless nowait is set. -/
  | rqpop (n : Bool) (d : BitVec 5)
  /-- R271. A waiting RQPOP returns when an entry is pushed or the context's VX queue empties. -/
  | rqpopReturn (c k : Nat)
  /-- R283. PIN fetches and pins the code-cache lines of a range, up to the lockable capacity. -/
  | pin (l : Bool) (b s d : BitVec 5)
  /-- R283. UNPIN removes the context's pins on the lines of a range. -/
  | unpin (l : Bool) (b s d : BitVec 5)
  /-- R283. IPREF starts fetching the lines of a range and returns at once. -/
  | ipref (l : Bool) (b s : BitVec 5)
  /-- R95. PROBE waits for empty queues, walks the pages of a range and returns the first leaf, or takes a probe fault. -/
  | probe (b s d : BitVec 5)
  /-- R125. BFENCE places bank markers at the tails of the LD, ST and CP queues, ordering bank jobs against ordinary accesses at a scope. -/
  | bfence (c : BitVec 3)
  /-- R281. FENCE.S orders and publishes the context's accesses at a scope and invalidates cache lines of covered classes. -/
  | fenceS (c : BitVec 3)
  /-- R282. AMO.S performs an atomic operation at the word's atomic unit or bank ALU and returns the old value. -/
  | amoS (o : BitVec 4) (c : BitVec 3) (b s d : BitVec 5)
  /-- R285. SEGB opens a segment with an expected issue-cycle count and places markers in all five queues. -/
  | segb (s : BitVec 5)
  /-- R285. SEGE closes the segment and checks the measured count and signature. -/
  | sege (s d : BitVec 5)
  /-- R356. Once every engine has passed the closing marker, SEGE compares its measures, re-measures from the windows if they differ, and passes or traps. -/
  | segeMeasure (c k : Nat)
  /-- R270. PREPT records the live-tile mask that later fences capture. -/
  | prept (m : BitVec 10)
  /-- R286. TRAPR 0 drains the context, leaves its groups, releases pins and the stack, and frees the context. -/
  | traprEnd
  /-- R286. TRAPR with a code from 0x001 to 0x7FF takes a software trap to the runtime, and 0x800 to 0xFFF traps as illegal. -/
  | trapr (code : BitVec 12)
  /-- R286. After the drain that TRAPR 0 awaits, the task ends and its context is freed. -/
  | taskEnd (c k : Nat)
  /-- R287. HALT.D stops the context and reports its code when a debugger is attached, and does nothing otherwise. -/
  | haltD (code : BitVec 12)
  /-- R63. An engine reaching a trap cell, a bad payload or an odd code address stops at that word and takes the illegal-word trap. -/
  | illegalWord (w : EWord) (sub : BitVec 2)
  /-- R64. NOP honours sync and REP and does nothing else. -/
  | engineNop (f : Frame)
  /-- R64. Cells 0xF1 to 0xFE act as NOP whatever their payload. -/
  | engineIgnoredWord (lo : BitVec 4) (f : Frame) (p : BitVec 28)
  /-- R57. At a word's finish its pushes are made, lap-stalling if a queue is full. -/
  | wordFinish (c id : Nat)
  /-- R159. A lap stall ends at the first lap boundary after every cause has cleared. -/
  | lapStallEnd (c : Nat)
  /-- R421. After 65,536 laps of stall spent waiting only on tokens, the core takes a token-deadlock fault. -/
  | tokenDeadlockFault (c : Nat)
  /-- R333. A detected engine fault is taken at the next command boundary, and the core is held. -/
  | engineFaultTaken (c : Nat)
  /-- R334. At the first lap boundary after the runtime acts, the fault hold ends. -/
  | holdRelease (c : Nat)
  /-- R338. The hub writes a record into the partition's fault queue once it has room, then raises the fault interrupt. -/
  | faultRecordPost (p : Nat)
  /-- R153. A VX source slot is read when it passes the operand's eyelet. -/
  | vxSourceRead (c id : Nat)
  /-- R154. A VX result is written to slot D at eyelet 14, or to a guard or the return queue at the end of cycle x. -/
  | vxResultWrite (c id : Nat)
  /-- R155. An LD word writes its slot when the slot passes eyelet 0, no earlier than its latency. -/
  | ldSlotWrite (c id : Nat)
  /-- R155. An ST word reads its slot when the slot passes eyelet 12. -/
  | stSlotRead (c id : Nat)
  /-- R170. An ST ring store writes scratchpad two cycles after its slot read. -/
  | stWriteAccess (c id : Nat)
  /-- R178. A tile, scale or retire-convert transfer finishes its last beat at end_i. -/
  | transferComplete (c : Nat) (e : Engine)
  /-- R182. ld.vd or ld.td data arrive from device memory, ending any lap stall that awaited them. -/
  | dvaReadArrival (c id : Nat)
  /-- R182. A posted st.vd or st.rd write becomes visible at its page's class, and the word finishes. -/
  | dvaStoreVisible (c id : Nat)
  /-- R190. add forms a + b per lane and rounds once. -/
  | vxAdd (f : Frame) (p : VxFields)
  /-- R190. sub forms a − b per lane and rounds once. -/
  | vxSub (f : Frame) (p : VxFields)
  /-- R190. mul forms a × b per lane and rounds once. -/
  | vxMul (f : Frame) (p : VxFields)
  /-- R190. fma forms a × b + c per lane, rounded once. -/
  | vxFma (f : Frame) (p : VxFields)
  /-- R190. fms forms a × b − c per lane, rounded once. -/
  | vxFms (f : Frame) (p : VxFields)
  /-- R190. fnma forms −(a × b) + c per lane, rounded once. -/
  | vxFnma (f : Frame) (p : VxFields)
  /-- R192. min takes the per-lane minimum. -/
  | vxMin (f : Frame) (p : VxFields)
  /-- R192. max takes the per-lane maximum. -/
  | vxMax (f : Frame) (p : VxFields)
  /-- R192. abs clears the sign of FP lanes, or takes the integer magnitude under R51. -/
  | vxAbs (f : Frame) (p : VxFields)
  /-- R192. neg flips the sign of FP and CF16 lanes, or negates integers under R51. -/
  | vxNeg (f : Frame) (p : VxFields)
  /-- R192. clamp computes min(max(a, b), c) per lane. -/
  | vxClamp (f : Frame) (p : VxFields)
  /-- R193. rcp returns 1/a per lane, rounded once. -/
  | vxRcp (f : Frame) (p : VxFields)
  /-- R193. rsq returns 1/√a per lane, rounded once. -/
  | vxRsq (f : Frame) (p : VxFields)
  /-- R193. exp2 returns 2^a per lane, rounded once. -/
  | vxExp2 (f : Frame) (p : VxFields)
  /-- R193. log2 returns log2 a per lane, rounded once. -/
  | vxLog2 (f : Frame) (p : VxFields)
  /-- R196. and computes a AND b. -/
  | vxAnd (f : Frame) (p : VxFields)
  /-- R196. or computes a OR b. -/
  | vxOr (f : Frame) (p : VxFields)
  /-- R196. xor computes a XOR b. -/
  | vxXor (f : Frame) (p : VxFields)
  /-- R196. not computes NOT a. -/
  | vxNot (f : Frame) (p : VxFields)
  /-- R196. shl shifts integer lanes left. -/
  | vxShl (f : Frame) (p : VxFields)
  /-- R196. shr shifts integer lanes right, filling with zeros. -/
  | vxShr (f : Frame) (p : VxFields)
  /-- R196. sra shifts integer lanes right, filling with sign bits. -/
  | vxSra (f : Frame) (p : VxFields)
  /-- R195. adds adds a scalar es value to every lane. -/
  | vxAdds (f : Frame) (p : VxFields)
  /-- R195. muls multiplies every lane by a scalar es value. -/
  | vxMuls (f : Frame) (p : VxFields)
  /-- R195. fmas computes a × s + c with a scalar s. -/
  | vxFmas (f : Frame) (p : VxFields)
  /-- R191. mulh returns the high half of the exact signed product. -/
  | vxMulh (f : Frame) (p : VxFields)
  /-- R195. mins takes the minimum of each lane and a scalar. -/
  | vxMins (f : Frame) (p : VxFields)
  /-- R195. maxs takes the maximum of each lane and a scalar. -/
  | vxMaxs (f : Frame) (p : VxFields)
  /-- R197. ceq writes a true guard and a false guard for a = b. -/
  | vxCeq (f : Frame) (p : VxFields)
  /-- R197. cne writes the two guards for a ≠ b. -/
  | vxCne (f : Frame) (p : VxFields)
  /-- R197. clt writes the two guards for a < b. -/
  | vxClt (f : Frame) (p : VxFields)
  /-- R197. cle writes the two guards for a ≤ b. -/
  | vxCle (f : Frame) (p : VxFields)
  /-- R197. cgt writes the two guards for a > b. -/
  | vxCgt (f : Frame) (p : VxFields)
  /-- R197. cge writes the two guards for a ≥ b. -/
  | vxCge (f : Frame) (p : VxFields)
  /-- R197. cun writes the two guards for a or b being NaN. -/
  | vxCun (f : Frame) (p : VxFields)
  /-- R198. ccl writes the two guards by testing each lane's class against a mask. -/
  | vxCcl (f : Frame) (p : VxFields)
  /-- R199. sel picks a or b per lane by a guard. -/
  | vxSel (f : Frame) (p : VxFields)
  /-- R200. gand ANDs two guards into a guard. -/
  | vxGand (f : Frame) (p : VxFields)
  /-- R200. gor ORs two guards. -/
  | vxGor (f : Frame) (p : VxFields)
  /-- R200. gxor XORs two guards. -/
  | vxGxor (f : Frame) (p : VxFields)
  /-- R200. gandn computes A AND NOT B on guards. -/
  | vxGandn (f : Frame) (p : VxFields)
  /-- R200. gmov copies a guard. -/
  | vxGmov (f : Frame) (p : VxFields)
  /-- R201. gtov expands guard bits into 16-bit lane masks. -/
  | vxGtov (f : Frame) (p : VxFields)
  /-- R201. vtog sets guard bits where lanes are non-zero. -/
  | vxVtog (f : Frame) (p : VxFields)
  /-- R202. cvt converts lanes between formats, placing them by part p. -/
  | vxCvt (f : Frame) (p : VxFields)
  /-- R203. cvtb converts with a block scale taken from an es value. -/
  | vxCvtb (f : Frame) (p : VxFields)
  /-- R204. TAG copies bits and sets a new format tag. -/
  | vxTag (f : Frame) (p : VxFields)
  /-- R205. reda sums the active lanes by the pairwise tree. -/
  | vxReda (f : Frame) (p : VxFields)
  /-- R205. redx takes the maximum of the active lanes. -/
  | vxRedx (f : Frame) (p : VxFields)
  /-- R205. redn takes the minimum of the active lanes. -/
  | vxRedn (f : Frame) (p : VxFields)
  /-- R205. redd sums the products of two slots by the tree. -/
  | vxRedd (f : Frame) (p : VxFields)
  /-- R206. mov copies lanes. -/
  | vxMov (f : Frame) (p : VxFields)
  /-- R206. swz permutes lanes by an index slot. -/
  | vxSwz (f : Frame) (p : VxFields)
  /-- R206. lrot rotates lanes by a scalar. -/
  | vxLrot (f : Frame) (p : VxFields)
  /-- R206. bcst broadcasts one lane to every lane. -/
  | vxBcst (f : Frame) (p : VxFields)
  /-- R206. zip interleaves halves of two slots. -/
  | vxZip (f : Frame) (p : VxFields)
  /-- R206. uzp de-interleaves two slots. -/
  | vxUzp (f : Frame) (p : VxFields)
  /-- R206. slide shifts lanes across two slots by a scalar. -/
  | vxSlide (f : Frame) (p : VxFields)
  /-- R206. splat writes an es value into every lane. -/
  | vxSplat (f : Frame) (p : VxFields)
  /-- R207. acrd copies a chunk of an accumulator row into a slot. -/
  | vxAcrd (f : Frame) (p : VxFields)
  /-- R209. sret pushes lane 0 of a slot into the scalar return queue. -/
  | vxSret (f : Frame) (p : VxFields)
  /-- R209. sretc pushes the count and the lowest index of the active lanes. -/
  | vxSretc (f : Frame) (p : VxFields)
  /-- R225. rmulq keeps the middle bits of a product and pushes the discarded bits. -/
  | vxRmulq (f : Frame) (p : VxFields)
  /-- R225. umulq pops the remainder and rebuilds the operand by exact division. -/
  | vxUmulq (f : Frame) (p : VxFields)
  /-- R226. rsra shifts right arithmetically and pushes the shifted-out bits. -/
  | vxRsra (f : Frame) (p : VxFields)
  /-- R226. usra pops the remainder and rebuilds the shifted operand. -/
  | vxUsra (f : Frame) (p : VxFields)
  /-- R227. rnrw narrows a format and pushes the XOR with the back-conversion. -/
  | vxRnrw (f : Frame) (p : VxFields)
  /-- R227. unrw pops the remainder and restores the wide source bit for bit. -/
  | vxUnrw (f : Frame) (p : VxFields)
  /-- R226. rleak shifts negative lanes and pushes their low bits. -/
  | vxRleak (f : Frame) (p : VxFields)
  /-- R226. uleak pops the remainder and restores the leaked lanes. -/
  | vxUleak (f : Frame) (p : VxFields)
  /-- R228. raddq writes the wrapped sum a + b. -/
  | vxRaddq (f : Frame) (p : VxFields)
  /-- R228. usubq writes the wrapped difference a − b. -/
  | vxUsubq (f : Frame) (p : VxFields)
  /-- R229. rmix writes the halved sum and difference and pushes the parity bit. -/
  | vxRmix (f : Frame) (p : VxFields)
  /-- R229. umix pops the parity bit and restores the two operands. -/
  | vxUmix (f : Frame) (p : VxFields)
  /-- R230. rmark sets a depth mark to DEPTH. -/
  | vxRmark (f : Frame) (p : VxFields)
  /-- R230. rchk faults when the depth since a mark differs from the expected value. -/
  | vxRchk (f : Frame) (p : VxFields)
  /-- R230. rdrop discards the stack entries above a mark. -/
  | vxRdrop (f : Frame) (p : VxFields)
  /-- R217. While more than 48 entries are on core, the spill machine moves the lowest one to the region. -/
  | remainderSpill (c : Nat)
  /-- R217. While fewer than 16 entries are on core and more exist, the spill machine moves one back. -/
  | remainderRefill (c : Nat)
  /-- R173. ld.v loads 128 scratchpad bytes into a slot. -/
  | ldV (f : Frame) (p : LsFields)
  /-- R173. ld.vb broadcasts one element into every lane. -/
  | ldVb (f : Frame) (p : LsFields)
  /-- R175. ld.vg gathers lanes from addresses given by an index slot. -/
  | ldVg (f : Frame) (p : LsFields)
  /-- R173. ld.ln unpacks 96 bytes of packed LN6 into a slot. -/
  | ldLn (f : Frame) (p : LsFields)
  /-- R176. ld.gd loads 8 bytes into a guard register. -/
  | ldGd (f : Frame) (p : LsFields)
  /-- R173. ld.vd loads 128 bytes of device memory into a slot. -/
  | ldVd (f : Frame) (p : LsFields)
  /-- R177. ld.t fills a tile from scratchpad. -/
  | ldT (f : Frame) (p : LsFields)
  /-- R177. ld.tw fills a tile from the weight store. -/
  | ldTw (f : Frame) (p : LsFields)
  /-- R177. ld.td fills a tile from device memory. -/
  | ldTd (f : Frame) (p : LsFields)
  /-- R177. ld.sc loads a tile's 512-byte scale store. -/
  | ldSc (f : Frame) (p : LsFields)
  /-- R177. ld.tr fills a tile with a transpose. -/
  | ldTr (f : Frame) (p : LsFields)
  /-- R180. ld.am performs a per-lane bank-ALU atomic and loads the old values. -/
  | ldAm (f : Frame) (p : LsFields)
  /-- R174. st.v stores a slot's active lanes to scratchpad. -/
  | stV (f : Frame) (p : LsFields)
  /-- R175. st.vs scatters lanes to addresses given by an index slot. -/
  | stVs (f : Frame) (p : LsFields)
  /-- R174. st.ln packs LN6 lanes into 96 bytes. -/
  | stLn (f : Frame) (p : LsFields)
  /-- R176. st.gd stores a guard register as 8 bytes. -/
  | stGd (f : Frame) (p : LsFields)
  /-- R174. st.vd posts a slot's active lanes to device memory. -/
  | stVd (f : Frame) (p : LsFields)
  /-- R174. st.ve stores the active lanes compacted. -/
  | stVe (f : Frame) (p : LsFields)
  /-- R177. st.t stores a tile to scratchpad. -/
  | stT (f : Frame) (p : LsFields)
  /-- R179. st.rc converts an accumulator and stores it to scratchpad. -/
  | stRc (f : Frame) (p : LsFields)
  /-- R179. st.rd converts an accumulator and posts it to device memory. -/
  | stRd (f : Frame) (p : LsFields)
  /-- R180. st.am performs a per-lane bank-ALU atomic with slot operands. -/
  | stAm (f : Frame) (p : LsFields)
  /-- R247. mzero clears an accumulator and any open block. -/
  | mxMzero (f : Frame) (p : MxFields)
  /-- R245. mma adds the row products of two tiles into an accumulator. -/
  | mxMma (f : Frame) (p : MxFields)
  /-- R246. mmac adds complex CF16 products. -/
  | mxMmac (f : Frame) (p : MxFields)
  /-- R245. mmat adds products and then closes the open block. -/
  | mxMmat (f : Frame) (p : MxFields)
  /-- R245. mman subtracts the row products. -/
  | mxMman (f : Frame) (p : MxFields)
  /-- R248. mscl scales an accumulator by 2^e. -/
  | mxMscl (f : Frame) (p : MxFields)
  /-- R248. mpre preloads accumulator rows from a tile. -/
  | mxMpre (f : Frame) (p : MxFields)
  /-- R249. mtrn transposes one tile into another. -/
  | mxMtrn (f : Frame) (p : MxFields)
  /-- R249. mcpy copies one tile into another. -/
  | mxMcpy (f : Frame) (p : MxFields)
  /-- R249. mfil fills a tile with a byte. -/
  | mxMfil (f : Frame) (p : MxFields)
  /-- R248. mret closes any open block and retires the accumulator and its window. -/
  | mxMret (f : Frame) (p : MxFields)
  /-- R248. mrcv retires the accumulator and converts part of it into a tile. -/
  | mxMrcv (f : Frame) (p : MxFields)
  /-- R249. mswp exchanges the storage, scales and shapes of two tiles. -/
  | mxMswp (f : Frame) (p : MxFields)
  /-- R248. madd adds the other accumulator into this one. -/
  | mxMadd (f : Frame) (p : MxFields)
  /-- R250. welt marks the accumulator's tile-start point for replay. -/
  | mxWelt (f : Frame) (p : MxFields)
  /-- R242. An MX issue's effects complete at the end of its duration, and the next issue may start. -/
  | mxIssueEnd (c : Nat)
  /-- R255. On an uncorrectable error with a restorable welt, MX clears the accumulator and re-executes the words from the welt. -/
  | mxReplay (c : Nat)
  /-- R145. COPY copies LEN bytes between device memory and local scratchpad. -/
  | cpCopy (f : Frame) (p : CpFields)
  /-- R145. RCOPY copies bytes to another core's scratchpad. -/
  | cpRcopy (f : Frame) (p : CpFields)
  /-- R146. RAMO performs atomics at a core's bank ALUs and returns the old values. -/
  | cpRamo (f : Frame) (p : CpFields)
  /-- R100. WSWR writes the weight store, or is dropped when a kernel of the partition is live. -/
  | cpWswr (f : Frame) (p : CpFields)
  /-- R145. BCAST copies bytes to the same address on every masked core of a cluster. -/
  | cpBcast (f : Frame) (p : CpFields)
  /-- R145. FILL fills a destination with an 8-byte pattern. -/
  | cpFill (f : Frame) (p : CpFields)
  /-- R145. GATH gathers indexed rows into local scratchpad. -/
  | cpGath (f : Frame) (p : CpFields)
  /-- R145. SCAT scatters rows to indexed destinations. -/
  | cpScat (f : Frame) (p : CpFields)
  /-- R115. BGEMV launches a bank-unit matrix-vector product that delivers y. -/
  | cpBgemv (f : Frame) (p : CpFields)
  /-- R115. BGEMVA launches a bank-unit product that accumulates into y. -/
  | cpBgemva (f : Frame) (p : CpFields)
  /-- R120. BATOM launches atomics at the sole dies' atomic units. -/
  | cpBatom (f : Frame) (p : CpFields)
  /-- R123. BQRY delivers a 64-byte report describing a DVA range. -/
  | cpBqry (f : Frame) (p : CpFields)
  /-- R304. When an earlier job's overlapping access completes, the held parts of a later job proceed. -/
  | footprintEdgeRelease (c j : Nat)
  /-- R148. When the gating channel's CHWP reaches GVAL, a gated job starts reading its sources. -/
  | gatedJobRelease (c j : Nat)
  /-- R135. A job writes destination bytes and advances the channel's CHWP. -/
  | cpJobDelivery (c j : Nat)
  /-- R150. A row-0x0 job writes its final c7 and frees its slot, letting a pushing word finish. -/
  | cpJobComplete (c j : Nat)
  /-- R117. A bank unit delivers a result element to DCORE's scratchpad and advances CHWP. -/
  | bankJobDelivery (c j : Nat)
  /-- R112. A bank job writes its final c7 after every delivery. -/
  | bankJobComplete (c j : Nat)
  /-- R121. An atomic unit performs one indivisible read-modify-write on a device-memory word. -/
  | atomicUnitOp (c j : Nat)
  /-- R139. A scratchpad bank ALU performs one indivisible atomic on its word. -/
  | bankAluAtomic (c j : Nat)
  /-- R140. A remote write arrives at the destination core and is performed in issue order per channel. -/
  | remoteWriteArrival (m : Nat)
  /-- R88. A walk unit reads page tables, handing off across stacks, and returns a leaf or a failure. -/
  | pageWalk (c k : Nat)
  /-- R101. A weight-store bank's refresh window opens, and reads of the bank are held. -/
  | wsRefreshWindowOpen (d b : Nat)
  /-- R104. A refresh window closes and the held reads and WSWR writes proceed. -/
  | wsRefreshWindowClose (d b : Nat)
  /-- R348. Engine ownership passes to a waiting context at once or at a fence, with or without a save. -/
  | ownershipPass (c : Nat)
  /-- R349. With all engines waiting at a fence and MX at a pre-emption point, the owner is saved to its image. -/
  | contextSwitch (c : Nat)
  /-- R311. A launch unit reads a valid packet, checks it and places its tasks, or records it as bad. -/
  | launchPacket (d q : Nat)
  /-- R312. Every 1,600 ticks the launch unit re-reads a not-yet-valid p7, parking after eight failures. -/
  | launchSeqReread (d q : Nat)
  /-- R315. A task is placed in a core's task queue once that queue has room. -/
  | taskPlace (d q : Nat)
  /-- R317. The dispatcher gives a free context to the chosen queued task with its initial state. -/
  | taskDispatch (c : Nat)
  /-- R322. An exchange record's data land at the destination scratchpad. -/
  | exchangeDelivery (t r : Nat)
  /-- R322. When a deadline passes with its delivery missing, the destination lap-stalls and counts it late. -/
  | exchangeDeadline (t r : Nat)
  /-- R326. Every 8,000 ticks each die grants clock states to its clusters and charges permits. -/
  | boostBoundary
  /-- R366. A link retrain ends, the new width and rate take effect and the class is recomputed. -/
  | linkRetrainEnd (l : Nat)
  /-- R368. Every 65,536 ticks link classes are recomputed and rate fallback applies. -/
  | linkWindowBoundary
  /-- R372. A WSL send-queue descriptor is performed at the peer in queue order. -/
  | wslDescriptor (d q : Nat)
  /-- R151. Each delivered arithmetic-clock pulse advances the ring phase, counts the queue-head classes and evaluates the trace triggers. -/
  | cycle (c : Nat)
  /-- R294. A buffered sequencer store reaches its home atomic unit or bank and becomes visible there, possibly waking continuations and completing fences. -/
  | storePerformedAtHome (c k i : Nat)
  /-- R322. When every record has landed and the plan's largest DEADLINE has passed, the exchange on the tag ends. -/
  | exchangeEnd (t : Nat)
  /-- R371. Every 1,600 ticks a WSL send queue re-reads a descriptor whose SEQ is not yet valid, parking the queue after eight failures. -/
  | sendQueueSeqReread (d q : Nat)
  /-- R416. Every 8,000 ticks the management core reads each cluster's temperature and applies its band's action. -/
  | thermalSample (cl : Nat) (reading : BitVec 8)
  /-- R417. At each reset and every 2^40 ticks, drift is measured and the ageing limit set. -/
  | ageingMeasure (cl drift : Nat)
  /-- R407. Applying power sets every field to its reset value and starts the module from reset. -/
  | powerOnReset
  /-- R407. A PF0 reset-register write or a management request resets every field but keeps the non-volatile store, the lifetime records and the retirement maps. -/
  | warmReset
  /-- R408. After a reset, logic and memory self-test run, retire failing cores, units and lanes, and set STPASS. -/
  | selfTest (res : SelfTest)
  /-- R409. The boot ROM and the firmware verify and start the management firmware, the hypervisor and the partition images in order. -/
  | boot (firmware hypervisor : Bool) (images : BitVec 8)
  /-- R410. On request, the management core returns a signed report of measurements, STPASS, FTICK and the nonce. -/
  | attestationReport (nonce : BitVec 256)
  /-- R419. A write to a hub-die register or CSR that has no behaviour of its own sets the fields its map allows. -/
  | hubRegWrite (who : HubAgent) (off : Nat) (a : HubAccess)
  /-- R308. A hypervisor write to LQCFG configures a launch queue, and setting EN from 0 to 1 zeroes HEAD and clears PARKED. -/
  | lqcfgWrite (d q : Nat) (v : Word)
  /-- R310. A write of TAIL to LQKICK announces packets, clears PARKED, or sets OVERRUN and PARKED when TAIL runs too far ahead. -/
  | lqkickWrite (who : HubAgent) (d q : Nat) (tail : BitVec 32)
  /-- R314. Writing 1 to BPHALT releases a breakpoint-halted queue and places the held packet's tasks without checking breakpoints again. -/
  | lqstatBphaltRelease (who : HubAgent) (d q : Nat)
  /-- R337. A hypervisor write to FQCFG configures the fault queue, and setting EN from 0 to 1 zeroes TAIL and FQHEAD. -/
  | fqcfgWrite (p : Nat) (v : Word)
  /-- R319. A write to RTBIND binds a route tag to a group, and it resets a partly entered barrier so that each entered SSTEP returns −2. -/
  | rtbindWrite (who : HubAgent) (t : Nat) (v : Word)
  /-- R344. A TACT write with ACTION RESUME acts on the matching record as its cause gives and ends the hold. -/
  | tactResume (p : Nat) (setx : Bool) (c k : Nat) (seq : BitVec 32)
  /-- R344. A TACT write with ACTION SKIP resumes, treating an illegal word as a NOP or continuing a sequencer trap at PC + 4. -/
  | tactSkip (p : Nat) (setx : Bool) (c k : Nat) (seq : BitVec 32)
  /-- R344. A TACT write with ACTION ABANDON abandons the context's work and continues the context at the recorded PC. -/
  | tactAbandon (p : Nat) (setx : Bool) (c k : Nat) (seq : BitVec 32)
  /-- R344. A TACT write with ACTION END abandons the context's work and ends the task without draining. -/
  | tactEnd (p : Nat) (setx : Bool) (c k : Nat) (seq : BitVec 32)
  /-- R362. A write to LKCTL.RATE sets the requested link rate and starts a retrain. -/
  | lkctlRateWrite (l : Nat) (v : Word)
  /-- R362. Writing RTR = 1 to LKCTL retrains the link at RATE. -/
  | lkctlRetrain (l : Nat)
  /-- R362. Writing GO = 1 to LKRET retires the named data lane under R361. -/
  | lkretRetire (l dir m lane : Nat)
  /-- R402. Setting DBGCTL.STOP requests that the core stop at the next lap boundary. -/
  | dbgctlStop (c : Nat)
  /-- R402. Clearing DBGCTL.STOP releases a stopped core at the next lap boundary. -/
  | dbgctlRelease (c : Nat)
  /-- R164. A debugger read of a slot returns its contents as the slot passes port 8. -/
  | debugSlotRead (c slot : Nat)
  /-- R357. A debugger write to a slot, tile, accumulator element or guard takes effect once the outstanding writers have finished. -/
  | debugWrite (c : Nat) (target : DebugTarget)
  /-- R371. A hypervisor write to WSQCFG configures a WSL send queue as LQCFG does. -/
  | wsqcfgWrite (d q : Nat) (v : Word)
  /-- R371. A write of TAIL to WSQKICK announces send descriptors to the WSL queue. -/
  | wsqkickWrite (who : HubAgent) (d q : Nat) (tail : BitVec 32)
  /-- R364. A flit received with a CRC error is discarded, and the sender replays from it. -/
  | flitCrcError (site : FlitSite) (dir m lane : Nat)
  /-- R372. When the peer acknowledges, the descriptor's STATUS is written. -/
  | wslAck (d q : Nat) (refused : Bool) (old : Word)
  /-- R372. A port going down reroutes its traffic, or marks it peer-unreachable. -/
  | wslPortDown (d p : Nat)
  /-- R373. An incoming WSL write or atomic is translated and performed, or refused. -/
  | wslInboundOp (op : WslOp)
  /-- R302. A host PCIe write is performed at its home under PCIe ordering. -/
  | hostPcieWrite (w : HostWrite)
  /-- R375. A host PCIe read of device memory is translated and returned, or completes with Unsupported Request. -/
  | hostPcieRead (r : HostRead)
  /-- R376. An Ethernet frame is sent or received on a port assigned to a partition. -/
  | ethernetFrame (port : Nat) (op : EthOp) (frame : List Byte)
  /-- R416. 1 ms after a critical reading, the module powers down. -/
  | criticalPowerDown
  /-- R406. The management core samples each counter source and adds its increase to the lifetime records. -/
  | lifetimeSample
  /-- R406. The lifetime store is written back at least every 2^32 ticks and at shutdown. -/
  | lifetimeWriteback
  /-- R413. Retiring a core holds its cluster, ends its tasks and brings in the spare, or takes the cluster out of service. -/
  | coreRetire (c : Nat)
  /-- R106. A retired bank unit is replaced by a spare or shared with unit p XOR 1. -/
  | bankUnitRetire (sd u : Nat)
  /-- R414. A sole die copies a row to a spare row, delaying accesses for up to 2 µs. -/
  | hbmRowRepair (sd row : Nat)
  /-- R294. A line leaves the scalar data cache by eviction, so later loads read at the home. -/
  | scalarCacheEviction (c line : Nat)
  /-- R284. A code-cache line that a switched-out context pins only softly is evicted, so the restore later drops the pin and sets PINST.LOST. -/
  | softPinEviction (c : Nat) (lvl : Bool) (line : Nat)
  /-- R352. A bit error arises in protected storage or control state; a later read corrects it or consumes it as uncorrectable. -/
  | softError (at_ : SoftLoc)
  /-- R406. Power is removed without an orderly shutdown, and the lifetime counts gathered since the last write-back are lost. -/
  | powerLoss
  deriving DecidableEq, Repr

/-- The instruction of a VX word. -/
def VxOp.toInstr (o : VxOp) (f : Frame) (p : VxFields) : Instr :=
  match o with
  | .add => .vxAdd f p
  | .sub => .vxSub f p
  | .mul => .vxMul f p
  | .fma => .vxFma f p
  | .fms => .vxFms f p
  | .fnma => .vxFnma f p
  | .min => .vxMin f p
  | .max => .vxMax f p
  | .abs => .vxAbs f p
  | .neg => .vxNeg f p
  | .clamp => .vxClamp f p
  | .rcp => .vxRcp f p
  | .rsq => .vxRsq f p
  | .exp2 => .vxExp2 f p
  | .log2 => .vxLog2 f p
  | .and => .vxAnd f p
  | .or => .vxOr f p
  | .xor => .vxXor f p
  | .not => .vxNot f p
  | .shl => .vxShl f p
  | .shr => .vxShr f p
  | .sra => .vxSra f p
  | .adds => .vxAdds f p
  | .muls => .vxMuls f p
  | .fmas => .vxFmas f p
  | .mulh => .vxMulh f p
  | .mins => .vxMins f p
  | .maxs => .vxMaxs f p
  | .ceq => .vxCeq f p
  | .cne => .vxCne f p
  | .clt => .vxClt f p
  | .cle => .vxCle f p
  | .cgt => .vxCgt f p
  | .cge => .vxCge f p
  | .cun => .vxCun f p
  | .ccl => .vxCcl f p
  | .sel => .vxSel f p
  | .gand => .vxGand f p
  | .gor => .vxGor f p
  | .gxor => .vxGxor f p
  | .gandn => .vxGandn f p
  | .gmov => .vxGmov f p
  | .gtov => .vxGtov f p
  | .vtog => .vxVtog f p
  | .cvt => .vxCvt f p
  | .cvtb => .vxCvtb f p
  | .tag => .vxTag f p
  | .reda => .vxReda f p
  | .redx => .vxRedx f p
  | .redn => .vxRedn f p
  | .redd => .vxRedd f p
  | .mov => .vxMov f p
  | .swz => .vxSwz f p
  | .lrot => .vxLrot f p
  | .bcst => .vxBcst f p
  | .zip => .vxZip f p
  | .uzp => .vxUzp f p
  | .slide => .vxSlide f p
  | .splat => .vxSplat f p
  | .acrd => .vxAcrd f p
  | .sret => .vxSret f p
  | .sretc => .vxSretc f p
  | .rmulq => .vxRmulq f p
  | .umulq => .vxUmulq f p
  | .rsra => .vxRsra f p
  | .usra => .vxUsra f p
  | .rnrw => .vxRnrw f p
  | .unrw => .vxUnrw f p
  | .rleak => .vxRleak f p
  | .uleak => .vxUleak f p
  | .raddq => .vxRaddq f p
  | .usubq => .vxUsubq f p
  | .rmix => .vxRmix f p
  | .umix => .vxUmix f p
  | .rmark => .vxRmark f p
  | .rchk => .vxRchk f p
  | .rdrop => .vxRdrop f p

/-- The instruction of a LD word. -/
def LdOp.toInstr (o : LdOp) (f : Frame) (p : LsFields) : Instr :=
  match o with
  | .v => .ldV f p
  | .vb => .ldVb f p
  | .vg => .ldVg f p
  | .ln => .ldLn f p
  | .gd => .ldGd f p
  | .vd => .ldVd f p
  | .t => .ldT f p
  | .tw => .ldTw f p
  | .td => .ldTd f p
  | .sc => .ldSc f p
  | .tr => .ldTr f p
  | .am => .ldAm f p

/-- The instruction of a ST word. -/
def StOp.toInstr (o : StOp) (f : Frame) (p : LsFields) : Instr :=
  match o with
  | .v => .stV f p
  | .vs => .stVs f p
  | .ln => .stLn f p
  | .gd => .stGd f p
  | .vd => .stVd f p
  | .ve => .stVe f p
  | .t => .stT f p
  | .rc => .stRc f p
  | .rd => .stRd f p
  | .am => .stAm f p

/-- The instruction of a MX word. -/
def MxOp.toInstr (o : MxOp) (f : Frame) (p : MxFields) : Instr :=
  match o with
  | .mzero => .mxMzero f p
  | .mma => .mxMma f p
  | .mmac => .mxMmac f p
  | .mmat => .mxMmat f p
  | .mman => .mxMman f p
  | .mscl => .mxMscl f p
  | .mpre => .mxMpre f p
  | .mtrn => .mxMtrn f p
  | .mcpy => .mxMcpy f p
  | .mfil => .mxMfil f p
  | .mret => .mxMret f p
  | .mrcv => .mxMrcv f p
  | .mswp => .mxMswp f p
  | .madd => .mxMadd f p
  | .welt => .mxWelt f p

/-- The instruction of a CP word. -/
def CpOp.toInstr (o : CpOp) (f : Frame) (p : CpFields) : Instr :=
  match o with
  | .copy => .cpCopy f p
  | .rcopy => .cpRcopy f p
  | .ramo => .cpRamo f p
  | .wswr => .cpWswr f p
  | .bcast => .cpBcast f p
  | .fill => .cpFill f p
  | .gath => .cpGath f p
  | .scat => .cpScat f p
  | .bgemv => .cpBgemv f p
  | .bgemva => .cpBgemva f p
  | .batom => .cpBatom f p
  | .bqry => .cpBqry f p

end Sys2Proof
end

