-- ==== Sys2Proof/Decode.lean ====
section
/-! DEFINITION. Decoding, total on any word and rejecting by name, and after it the encoder, both
written from the encoding tables of 03_words.md and the field tables of the engine chapters. -/
namespace Sys2Proof

/-- The opcode of a VX word (03_words.md R65). -/
def VxOp.code : VxOp → BitVec 8
  | .add => 0x01
  | .sub => 0x02
  | .mul => 0x03
  | .fma => 0x04
  | .fms => 0x05
  | .fnma => 0x06
  | .min => 0x07
  | .max => 0x08
  | .abs => 0x09
  | .neg => 0x0A
  | .clamp => 0x0B
  | .rcp => 0x0C
  | .rsq => 0x0D
  | .exp2 => 0x0E
  | .log2 => 0x0F
  | .and => 0x10
  | .or => 0x11
  | .xor => 0x12
  | .not => 0x13
  | .shl => 0x14
  | .shr => 0x15
  | .sra => 0x16
  | .adds => 0x17
  | .muls => 0x18
  | .fmas => 0x19
  | .mulh => 0x1A
  | .mins => 0x1B
  | .maxs => 0x1C
  | .ceq => 0x20
  | .cne => 0x21
  | .clt => 0x22
  | .cle => 0x23
  | .cgt => 0x24
  | .cge => 0x25
  | .cun => 0x26
  | .ccl => 0x27
  | .sel => 0x28
  | .gand => 0x29
  | .gor => 0x2A
  | .gxor => 0x2B
  | .gandn => 0x2C
  | .gmov => 0x2D
  | .gtov => 0x2E
  | .vtog => 0x2F
  | .cvt => 0x30
  | .cvtb => 0x31
  | .tag => 0x32
  | .reda => 0x40
  | .redx => 0x41
  | .redn => 0x42
  | .redd => 0x43
  | .mov => 0x50
  | .swz => 0x51
  | .lrot => 0x52
  | .bcst => 0x53
  | .zip => 0x54
  | .uzp => 0x55
  | .slide => 0x56
  | .splat => 0x57
  | .acrd => 0x60
  | .sret => 0x61
  | .sretc => 0x62
  | .rmulq => 0x80
  | .umulq => 0x81
  | .rsra => 0x82
  | .usra => 0x83
  | .rnrw => 0x84
  | .unrw => 0x85
  | .rleak => 0x86
  | .uleak => 0x87
  | .raddq => 0x88
  | .usubq => 0x89
  | .rmix => 0x8A
  | .umix => 0x8B
  | .rmark => 0x8C
  | .rchk => 0x8D
  | .rdrop => 0x8E

/-- The VX map (03_words.md R65) read backwards; no entry is a trap cell. -/
def VxOp.ofCode (b : BitVec 8) : Option VxOp :=
  match b.toNat with
  | 0x01 => some .add
  | 0x02 => some .sub
  | 0x03 => some .mul
  | 0x04 => some .fma
  | 0x05 => some .fms
  | 0x06 => some .fnma
  | 0x07 => some .min
  | 0x08 => some .max
  | 0x09 => some .abs
  | 0x0A => some .neg
  | 0x0B => some .clamp
  | 0x0C => some .rcp
  | 0x0D => some .rsq
  | 0x0E => some .exp2
  | 0x0F => some .log2
  | 0x10 => some .and
  | 0x11 => some .or
  | 0x12 => some .xor
  | 0x13 => some .not
  | 0x14 => some .shl
  | 0x15 => some .shr
  | 0x16 => some .sra
  | 0x17 => some .adds
  | 0x18 => some .muls
  | 0x19 => some .fmas
  | 0x1A => some .mulh
  | 0x1B => some .mins
  | 0x1C => some .maxs
  | 0x20 => some .ceq
  | 0x21 => some .cne
  | 0x22 => some .clt
  | 0x23 => some .cle
  | 0x24 => some .cgt
  | 0x25 => some .cge
  | 0x26 => some .cun
  | 0x27 => some .ccl
  | 0x28 => some .sel
  | 0x29 => some .gand
  | 0x2A => some .gor
  | 0x2B => some .gxor
  | 0x2C => some .gandn
  | 0x2D => some .gmov
  | 0x2E => some .gtov
  | 0x2F => some .vtog
  | 0x30 => some .cvt
  | 0x31 => some .cvtb
  | 0x32 => some .tag
  | 0x40 => some .reda
  | 0x41 => some .redx
  | 0x42 => some .redn
  | 0x43 => some .redd
  | 0x50 => some .mov
  | 0x51 => some .swz
  | 0x52 => some .lrot
  | 0x53 => some .bcst
  | 0x54 => some .zip
  | 0x55 => some .uzp
  | 0x56 => some .slide
  | 0x57 => some .splat
  | 0x60 => some .acrd
  | 0x61 => some .sret
  | 0x62 => some .sretc
  | 0x80 => some .rmulq
  | 0x81 => some .umulq
  | 0x82 => some .rsra
  | 0x83 => some .usra
  | 0x84 => some .rnrw
  | 0x85 => some .unrw
  | 0x86 => some .rleak
  | 0x87 => some .uleak
  | 0x88 => some .raddq
  | 0x89 => some .usubq
  | 0x8A => some .rmix
  | 0x8B => some .umix
  | 0x8C => some .rmark
  | 0x8D => some .rchk
  | 0x8E => some .rdrop
  | _ => none

/-- The opcode of a LD word (03_words.md R66). -/
def LdOp.code : LdOp → BitVec 8
  | .v => 0x01
  | .vb => 0x02
  | .vg => 0x03
  | .ln => 0x04
  | .gd => 0x05
  | .vd => 0x06
  | .t => 0x08
  | .tw => 0x09
  | .td => 0x0A
  | .sc => 0x0B
  | .tr => 0x0C
  | .am => 0x10

/-- The LD map (03_words.md R66) read backwards; no entry is a trap cell. -/
def LdOp.ofCode (b : BitVec 8) : Option LdOp :=
  match b.toNat with
  | 0x01 => some .v
  | 0x02 => some .vb
  | 0x03 => some .vg
  | 0x04 => some .ln
  | 0x05 => some .gd
  | 0x06 => some .vd
  | 0x08 => some .t
  | 0x09 => some .tw
  | 0x0A => some .td
  | 0x0B => some .sc
  | 0x0C => some .tr
  | 0x10 => some .am
  | _ => none

/-- The opcode of a ST word (03_words.md R66). -/
def StOp.code : StOp → BitVec 8
  | .v => 0x01
  | .vs => 0x02
  | .ln => 0x03
  | .gd => 0x04
  | .vd => 0x05
  | .ve => 0x06
  | .t => 0x08
  | .rc => 0x09
  | .rd => 0x0A
  | .am => 0x10

/-- The ST map (03_words.md R66) read backwards; no entry is a trap cell. -/
def StOp.ofCode (b : BitVec 8) : Option StOp :=
  match b.toNat with
  | 0x01 => some .v
  | 0x02 => some .vs
  | 0x03 => some .ln
  | 0x04 => some .gd
  | 0x05 => some .vd
  | 0x06 => some .ve
  | 0x08 => some .t
  | 0x09 => some .rc
  | 0x0A => some .rd
  | 0x10 => some .am
  | _ => none

/-- The opcode of a MX word (03_words.md R67). -/
def MxOp.code : MxOp → BitVec 8
  | .mzero => 0x01
  | .mma => 0x02
  | .mmac => 0x03
  | .mmat => 0x04
  | .mman => 0x05
  | .mscl => 0x08
  | .mpre => 0x09
  | .mtrn => 0x0A
  | .mcpy => 0x0B
  | .mfil => 0x0C
  | .mret => 0x10
  | .mrcv => 0x11
  | .mswp => 0x12
  | .madd => 0x13
  | .welt => 0x18

/-- The MX map (03_words.md R67) read backwards; no entry is a trap cell. -/
def MxOp.ofCode (b : BitVec 8) : Option MxOp :=
  match b.toNat with
  | 0x01 => some .mzero
  | 0x02 => some .mma
  | 0x03 => some .mmac
  | 0x04 => some .mmat
  | 0x05 => some .mman
  | 0x08 => some .mscl
  | 0x09 => some .mpre
  | 0x0A => some .mtrn
  | 0x0B => some .mcpy
  | 0x0C => some .mfil
  | 0x10 => some .mret
  | 0x11 => some .mrcv
  | 0x12 => some .mswp
  | 0x13 => some .madd
  | 0x18 => some .welt
  | _ => none

/-- The opcode of a CP word (03_words.md R67). -/
def CpOp.code : CpOp → BitVec 8
  | .copy => 0x01
  | .rcopy => 0x02
  | .ramo => 0x03
  | .wswr => 0x04
  | .bcast => 0x05
  | .fill => 0x06
  | .gath => 0x07
  | .scat => 0x08
  | .bgemv => 0x10
  | .bgemva => 0x11
  | .batom => 0x12
  | .bqry => 0x13

/-- The CP map (03_words.md R67) read backwards; no entry is a trap cell. -/
def CpOp.ofCode (b : BitVec 8) : Option CpOp :=
  match b.toNat with
  | 0x01 => some .copy
  | 0x02 => some .rcopy
  | 0x03 => some .ramo
  | 0x04 => some .wswr
  | 0x05 => some .bcast
  | 0x06 => some .fill
  | 0x07 => some .gath
  | 0x08 => some .scat
  | 0x10 => some .bgemv
  | 0x11 => some .bgemva
  | 0x12 => some .batom
  | 0x13 => some .bqry
  | _ => none


/-- Lanes of a format in a slot (02_numbers.md R31); FMT 0x0 is read as 64 lanes of 16 bits
(09_vector.md R186). -/
def lanesOf (fmt : BitVec 4) : Nat :=
  match fmt.toNat with
  | 0 => 64 | 1 => 32 | 2 => 64 | 3 => 64 | 4 => 32 | 5 => 64 | 6 => 128 | 7 => 256 | 8 => 128
  | 9 => 32
  | _ => 64

/-- A format code between two codes. -/
def fmtIn (fmt : BitVec 4) (lo hi : Nat) : Bool := lo ≤ fmt.toNat && fmt.toNat ≤ hi

/-- 0x1 to 0x5 and 0x9. -/
def fmtArith (fmt : BitVec 4) : Bool := fmtIn fmt 1 5 || fmt == 9

/-- 0x4 and 0x5. -/
def fmtInt (fmt : BitVec 4) : Bool := fmtIn fmt 4 5

/-- A field that names a guard or an es register (09_vector.md R185). -/
def reg8 (x : BitVec 4) : Bool := x.toNat < 8

/-- The pairs that rnrw and unrw accept (10_reversible.md R227). -/
def narrows (src tgt : BitVec 4) : Bool :=
  match src.toNat with
  | 1 | 4 => tgt == 2 || tgt == 3 || tgt == 5 || tgt == 6 || tgt == 7 || tgt == 8
  | 2 | 3 | 5 => tgt == 6 || tgt == 7 || tgt == 8
  | 6 | 8 => tgt == 7
  | _ => false

/-- The immediate p of cvt lies in the range of 09_vector.md R202. -/
def cvtPart (src tgt p : BitVec 4) : Bool :=
  let ns := lanesOf src
  let nd := lanesOf tgt
  p.toNat < (if ns = nd then 1 else if nd < ns then ns / nd else nd / ns)

/-- The field rules of the VX words (03_words.md R60, R61; 09_vector.md R185 to R211;
10_reversible.md R224). DESIGN CHOICE (log 106). -/
def VxOp.fieldsOk (o : VxOp) (p : VxFields) : Bool :=
  (p.sa != 0 || p.step == 0) &&
  match o with
  | .add | .sub | .mul => fmtArith p.fmt && p.c == 0
  | .fma | .fms | .fnma | .clamp => fmtIn p.fmt 1 5
  | .min | .max => fmtIn p.fmt 1 5 && p.c == 0
  | .abs => fmtIn p.fmt 1 5 && p.b == 0 && p.c == 0
  | .neg => fmtArith p.fmt && p.b == 0 && p.c == 0
  | .rcp | .rsq | .exp2 | .log2 => fmtIn p.fmt 1 3 && p.b == 0 && p.c == 0
  | .adds | .muls => fmtArith p.fmt && reg8 p.b && p.c == 0
  | .fmas => fmtIn p.fmt 1 5 && reg8 p.b
  | .mulh => fmtInt p.fmt && p.c == 0
  | .mins | .maxs => fmtIn p.fmt 1 5 && reg8 p.b && p.c == 0
  | .and | .or | .xor => fmtIn p.fmt 0 9 && p.c == 0
  | .not => fmtIn p.fmt 0 9 && p.b == 0 && p.c == 0
  | .shl | .shr | .sra => fmtInt p.fmt && p.c == 0
  | .ceq | .cne => fmtIn p.fmt 0 5 && reg8 p.d && reg8 p.c && (p.d != p.c || p.d == 0)
  | .clt | .cle | .cgt | .cge => fmtIn p.fmt 1 5 && reg8 p.d && reg8 p.c && (p.d != p.c || p.d == 0)
  | .cun => fmtIn p.fmt 1 3 && reg8 p.d && reg8 p.c && (p.d != p.c || p.d == 0)
  | .ccl => fmtIn p.fmt 1 5 && reg8 p.d && reg8 p.c && (p.d != p.c || p.d == 0) && reg8 p.b
  | .sel => fmtIn p.fmt 0 9 && reg8 p.c
  | .gand | .gor | .gxor | .gandn => p.fmt == 0 && reg8 p.d && reg8 p.a && reg8 p.b && p.c == 0
  | .gmov => p.fmt == 0 && reg8 p.d && reg8 p.a && p.b == 0 && p.c == 0
  | .gtov => p.fmt == 0 && reg8 p.a && p.b == 0 && p.c == 0
  | .vtog => (fmtIn p.fmt 0 5 || p.fmt == 9) && reg8 p.d && p.b == 0 && p.c == 0
  | .cvt => fmtIn p.fmt 1 8 && fmtIn p.c 1 8 && cvtPart p.fmt p.c p.b
  | .cvtb => fmtIn p.fmt 1 8 && fmtIn p.c 1 8 && reg8 p.b
  | .tag | .mov => fmtIn p.fmt 0 9 && p.b == 0 && p.c == 0
  | .reda | .redx | .redn => fmtIn p.fmt 1 5 && p.b == 0 && p.c == 0
  | .redd => fmtIn p.fmt 1 5 && p.c == 0
  | .swz => (fmtIn p.fmt 0 5 || p.fmt == 9) && p.c == 0
  | .lrot | .bcst => fmtIn p.fmt 0 9 && reg8 p.b && p.c == 0
  | .zip | .uzp => fmtIn p.fmt 0 9 && p.c.toNat ≤ 1
  | .slide => fmtIn p.fmt 0 9 && reg8 p.c
  | .splat => fmtIn p.fmt 0 9 && p.a == 0 && reg8 p.b && p.c == 0
  | .acrd => fmtIn p.fmt 1 3 && p.a.toNat ≤ 1 && reg8 p.b && p.c.toNat ≤ (if p.fmt == 1 then 7 else 3)
  | .sret => fmtIn p.fmt 0 9 && p.guard == 0 && !p.n && p.d == 0 && p.b == 0 && p.c == 0
  | .sretc => fmtIn p.fmt 0 9 && p.d == 0 && p.a == 0 && p.b == 0 && p.c == 0
  | .rmulq | .umulq => fmtInt p.fmt && (reg8 p.c || reg8 p.b)
  | .rsra | .usra | .rleak | .uleak => fmtInt p.fmt && reg8 p.b && p.c == 0
  | .rnrw | .unrw => narrows p.fmt p.c && cvtPart p.fmt p.c p.b
  | .raddq | .usubq => fmtInt p.fmt && p.c == 0
  | .rmix | .umix => fmtInt p.fmt && p.c != p.d
  | .rmark | .rdrop => p.fmt == 0 && p.guard == 0 && !p.n && p.sa == 0 && p.d.toNat ≤ 3 && p.a == 0 &&
      p.b == 0 && p.c == 0
  | .rchk => p.fmt == 0 && p.guard == 0 && !p.n && p.sa == 0 && p.d.toNat ≤ 3 && p.a == 0 &&
      reg8 p.b && p.c == 0

/-- No guard, and a register of eight in the slot field (08_load_store.md R171). -/
def LsFields.plain8 (p : LsFields) : Bool := p.guard == 0 && !p.n && reg8 p.slot

/-- The field rules of the LD words (08_load_store.md R169, R171). -/
def LdOp.fieldsOk (o : LdOp) (p : LsFields) : Bool :=
  match o with
  | .v | .vd => fmtIn p.fmt 0 9
  | .vb => fmtIn p.fmt 1 9
  | .vg => fmtArith p.fmt
  | .ln => p.fmt == 8
  | .gd | .sc => p.fmt == 0 && p.plain8
  | .t | .tw | .td => fmtIn p.fmt 0 9 && p.plain8
  | .tr => fmtArith p.fmt && p.plain8
  | .am => fmtIn p.fmt 0 11

/-- The field rules of the ST words (08_load_store.md R170, R171). -/
def StOp.fieldsOk (o : StOp) (p : LsFields) : Bool :=
  match o with
  | .v | .vd => fmtIn p.fmt 0 9
  | .vs | .ve => fmtArith p.fmt
  | .ln => p.fmt == 8
  | .gd => p.fmt == 0 && p.plain8
  | .t => fmtIn p.fmt 0 9 && p.plain8
  | .rc | .rd => fmtIn p.fmt 1 8 && p.guard == 0 && !p.n && p.slot.toNat ≤ 1
  | .am => fmtIn p.fmt 0 11

/-- The modifiers of the mma family. -/
def mdMma (md : BitVec 4) : Bool := md == 2 || md == 3 || md == 6 || md == 7 || md == 8

/-- The field rules of the MX words (11_matrix.md R244). -/
def MxOp.fieldsOk (o : MxOp) (p : MxFields) : Bool :=
  match o with
  | .mzero | .mret | .madd | .welt =>
    p.a == 0 && p.b == 0 && p.t == 0 && p.md == 0 && p.imm == 0
  | .mma | .mmat | .mman => p.t == 0 && mdMma p.md && p.imm == 0
  | .mmac => p.t == 0 && p.md == 9 && p.imm == 0
  | .mscl => p.a == 0 && p.b == 0 && p.t == 0 && p.md == 0 && p.imm.toNat < 256
  | .mpre => p.a == 0 && p.b == 0 && fmtIn p.md 1 3 && p.imm.toNat < 256
  | .mtrn => p.b == 0 && !p.acc && (fmtIn p.md 1 6 || p.md == 9) && p.imm == 0 && p.t != p.a
  | .mcpy | .mswp => p.b == 0 && !p.acc && p.md == 0 && p.imm == 0
  | .mfil => p.a == 0 && p.b == 0 && !p.acc && fmtIn p.md 0 9 && p.imm.toNat < 256
  | .mrcv => p.a == 0 && p.b == 0 && fmtIn p.md 1 8 && p.imm.toNat < 512

/-! ## Engine words -/

/-- The frame of a word (03_words.md R56). -/
def frameOf (w : EWord) : Frame :=
  { pl := w.getLsbD 39, pr := w.getLsbD 38, hl := w.getLsbD 37, hr := w.getLsbD 36,
    k := w.extractLsb' 34 2, rep := w.extractLsb' 28 6 }

/-- The VX payload (03_words.md R59). -/
def vxFieldsOf (p : BitVec 28) : VxFields :=
  { guard := p.extractLsb' 25 3, n := p.getLsbD 24, d := p.extractLsb' 20 4,
    a := p.extractLsb' 16 4, b := p.extractLsb' 12 4, c := p.extractLsb' 8 4,
    fmt := p.extractLsb' 4 4, sa := p.extractLsb' 2 2, step := p.extractLsb' 0 2 }

/-- The LD and ST payload (R59). -/
def lsFieldsOf (p : BitVec 28) : LsFields :=
  { guard := p.extractLsb' 25 3, n := p.getLsbD 24, slot := p.extractLsb' 20 4,
    es := p.extractLsb' 17 3, fmt := p.extractLsb' 13 4, sa := p.getLsbD 12,
    off := p.extractLsb' 0 12 }

/-- The MX payload (R59), without its reserved bit. -/
def mxFieldsOf (p : BitVec 28) : MxFields :=
  { a := p.extractLsb' 25 3, b := p.extractLsb' 22 3, t := p.extractLsb' 19 3,
    acc := p.getLsbD 18, md := p.extractLsb' 14 4, imm := p.extractLsb' 0 13 }

/-- The CP payload (R59), without its reserved bits. -/
def cpFieldsOf (p : BitVec 28) : CpFields :=
  { ch := p.extractLsb' 25 3, es := p.extractLsb' 22 3, sa := p.getLsbD 21,
    card := p.extractLsb' 0 13 }

/-- Why a word is illegal (03_words.md R63, 19_faults.md R341). -/
inductive WordFate where
  | mapCell
  | payload
  | codeBit
  deriving DecidableEq, Repr

/-- The sub-cause of the record (19_faults.md R341). -/
def WordFate.sub : WordFate → BitVec 2
  | .mapCell => 1
  | .payload => 2
  | .codeBit => 3

/-- Keep a decoded word whose payload obeys its rules. -/
def keep (ok : Bool) (i : Instr) : Except WordFate Instr := if ok then .ok i else .error .payload

/-- Rows 0x0 to 0xE of an engine's map (R65 to R67). -/
def decodeOp (e : Engine) (op : BitVec 8) (f : Frame) (p : BitVec 28) : Except WordFate Instr :=
  match e with
  | .vx =>
    match VxOp.ofCode op with
    | some o => keep (o.fieldsOk (vxFieldsOf p)) (o.toInstr f (vxFieldsOf p))
    | none => .error .mapCell
  | .ld =>
    match LdOp.ofCode op with
    | some o => keep (o.fieldsOk (lsFieldsOf p)) (o.toInstr f (lsFieldsOf p))
    | none => .error .mapCell
  | .st =>
    match StOp.ofCode op with
    | some o => keep (o.fieldsOk (lsFieldsOf p)) (o.toInstr f (lsFieldsOf p))
    | none => .error .mapCell
  | .mx =>
    match MxOp.ofCode op with
    | some o =>
      keep (!p.getLsbD 13 && o.fieldsOk (mxFieldsOf p)) (o.toInstr f (mxFieldsOf p))
    | none => .error .mapCell
  | .cp =>
    match CpOp.ofCode op with
    | some o => keep (p.extractLsb' 13 8 == 0) (o.toInstr f (cpFieldsOf p))
    | none => .error .mapCell

/-- The engine's decoder with the fates of R63 and R64, from the fields of a word. -/
def decodeFrame (e : Engine) (op : BitVec 8) (f : Frame) (p : BitVec 28) :
    Except WordFate Instr :=
  if op.extractLsb' 4 4 = 0xF then
    if op = 0xF0 then keep (p == 0) (.engineNop f)
    else if op = 0xFF then .error .mapCell
    else .ok (.engineIgnoredWord (op.extractLsb' 0 4) f p)
  else decodeOp e op f p

/-- What an engine makes of a word, or why it is illegal. -/
def decodeWord? (e : Engine) (w : EWord) : Except WordFate Instr :=
  decodeFrame e (w.extractLsb' 40 8) (frameOf w) (w.extractLsb' 0 28)

/-- The engine's decoder, total: an illegal word is a word that traps by name (R63). -/
def decodeWord (e : Engine) (w : EWord) : Instr :=
  match decodeWord? e w with
  | .ok i => i
  | .error r => .illegalWord w r.sub

/-! ## Sequencer instructions -/

/-- The CSR numbers that the manual defines (12_sequencer.md R260). DEDUCED (log 17). -/
def csrKnown (n : Nat) : Bool :=
  (0x810 ≤ n && n ≤ 0x848) || (0x850 ≤ n && n ≤ 0x860) || n == 0x868 || (0x870 ≤ n && n ≤ 0x88F)

/-- The row of a CSR access, by its number. -/
def csrInstr (op : CsrOp) (imm : Bool) (csr : BitVec 12) (rs rd : BitVec 5) : Option Instr :=
  let n := csr.toNat
  if !csrKnown n then none
  else if n = 0x821 then some (.rstkWrite op imm rs rd)
  else if n = 0x823 then some (.rsmarkWrite op imm rs rd)
  else if 0x840 ≤ n ∧ n ≤ 0x847 then some (.grdWrite op imm (csr.extractLsb' 0 3) rs rd)
  else if n = 0x837 then some (.savebWrite op imm rs rd)
  else if n = 0x836 then some (.boostWrite op imm rs rd)
  else if n = 0x859 then some (.qhselClr op imm rs rd)
  else if n = 0x85B then some (.trctlWrite op imm rs rd)
  else some (.csrWrite op imm csr rs rd)

/-- Register-register operations by funct7 and funct3, opcode 0x33. -/
def rrOf (f7 f3 : Nat) : Option RrOp :=
  match f7, f3 with
  | 0, 0 => some .add | 0x20, 0 => some .sub | 0, 1 => some .sll | 0, 2 => some .slt
  | 0, 3 => some .sltu | 0, 4 => some .xor | 0, 5 => some .srl | 0x20, 5 => some .sra
  | 0, 6 => some .or | 0, 7 => some .and
  | 1, 0 => some .mul | 1, 1 => some .mulh | 1, 2 => some .mulhsu | 1, 3 => some .mulhu
  | 1, 4 => some .div | 1, 5 => some .divu | 1, 6 => some .rem | 1, 7 => some .remu
  | _, _ => none

/-- The same for opcode 0x3B. -/
def rrwOf (f7 f3 : Nat) : Option RrOp :=
  match f7, f3 with
  | 0, 0 => some .addw | 0x20, 0 => some .subw | 0, 1 => some .sllw | 0, 5 => some .srlw
  | 0x20, 5 => some .sraw | 1, 0 => some .mulw | 1, 4 => some .divw | 1, 5 => some .divuw
  | 1, 6 => some .remw | 1, 7 => some .remuw
  | _, _ => none

/-- Opcode 0x0B, custom-0 (03_words.md R74). -/
def decodeCustom0 (f7 : BitVec 7) (b s : BitVec 5) (f3 : BitVec 3) (d : BitVec 5) : Option Instr :=
  match f3.toNat with
  | 0 => if f7.extractLsb' 5 2 = 0 ∧ b = 0 then some (.fork (f7.extractLsb' 0 5) s d) else none
  | 1 => if f7 = 0 ∧ d = 0 then some (.rendv b s) else none
  | 2 => if f7 = 0 ∧ b = 0 ∧ s = 0 then some (.genf d) else none
  | 3 => if f7 = 0 ∧ b = 0 ∧ d.extractLsb' 3 2 = 0 then some (.eset s (d.extractLsb' 0 3)) else none
  | 4 => if s = 0 ∧ d.extractLsb' 3 2 = 0 then some (.eseti (f7 ++ b) (d.extractLsb' 0 3)) else none
  | 5 => if f7 = 0 ∧ b = 0 ∧ d.extractLsb' 3 2 = 0 then some (.tshape s (d.extractLsb' 0 3)) else none
  | 6 => if f7 = 0 ∧ b = 0 ∧ s = 0 ∧ d = 0 then some .qalign else none
  | _ => if f7 = 0 then some (.ttload b s d) else none

/-- Opcode 0x2B, custom-1. -/
def decodeCustom1 (f7 : BitVec 7) (b s : BitVec 5) (f3 : BitVec 3) (d : BitVec 5) : Option Instr :=
  match f3.toNat with
  | 0 => if f7 = 0 then some (.waitcW b s d) else if f7 = 1 then some (.waitcD b s d) else none
  | 1 => if f7 = 0 then some (.signlW b s d) else if f7 = 1 then some (.signlD b s d) else none
  | 2 => if f7 = 0 ∧ b = 0 then some (.join s d) else none
  | 3 => if f7 = 0 ∧ b = 0 then some (.leave s d) else none
  | 4 => if f7 = 0 ∧ b.extractLsb' 3 2 = 0 then some (.sstep (b.extractLsb' 0 3) s d) else none
  | 5 => if f7 = 0 ∧ b.extractLsb' 3 2 = 0 ∧ s = 0 then some (.exwait (b.extractLsb' 0 3) d) else none
  | 6 => if f7.extractLsb' 3 4 = 0 then some (.explan (f7.extractLsb' 0 3) b s d) else none
  | _ => if f7 = 0 ∧ b.extractLsb' 1 4 = 0 ∧ s = 0 then some (.rqpop (b.getLsbD 0) d) else none

/-- Opcode 0x5B, custom-2; scopes and operations of R75. -/
def decodeCustom2 (f7 : BitVec 7) (b s : BitVec 5) (f3 : BitVec 3) (d : BitVec 5) : Option Instr :=
  match f3.toNat with
  | 0 => if f7.extractLsb' 1 6 = 0 then some (.pin (f7.getLsbD 0) b s d) else none
  | 1 => if f7.extractLsb' 1 6 = 0 then some (.unpin (f7.getLsbD 0) b s d) else none
  | 2 => if f7.extractLsb' 1 6 = 0 ∧ d = 0 then some (.ipref (f7.getLsbD 0) b s) else none
  | 3 => if f7 = 0 then some (.probe b s d) else none
  | 4 => if f7 = 0 ∧ b.toNat ≤ 4 ∧ s = 0 ∧ d = 0 then some (.bfence (b.extractLsb' 0 3)) else none
  | 5 => if f7 = 0 ∧ b.toNat ≤ 4 ∧ s = 0 ∧ d = 0 then some (.fenceS (b.extractLsb' 0 3)) else none
  | 6 =>
    if (f7.extractLsb' 3 4).toNat ≤ 11 ∧ (f7.extractLsb' 0 3).toNat ≤ 4 then
      some (.amoS (f7.extractLsb' 3 4) (f7.extractLsb' 0 3) b s d)
    else none
  | _ => none

/-- Opcode 0x7B, custom-3. -/
def decodeCustom3 (f7 : BitVec 7) (b s : BitVec 5) (f3 : BitVec 3) (d : BitVec 5) : Option Instr :=
  match f3.toNat with
  | 0 => if f7 = 0 ∧ b = 0 ∧ d = 0 then some (.segb s) else none
  | 1 => if f7 = 0 ∧ b = 0 then some (.sege s d) else none
  | 2 =>
    if f7.extractLsb' 5 2 = 0 ∧ s = 0 ∧ d = 0 then some (.prept (f7.extractLsb' 0 5 ++ b)) else none
  | 3 =>
    if s = 0 ∧ d = 0 then
      if f7 = 0 ∧ b = 0 then some .traprEnd else some (.trapr (f7 ++ b))
    else none
  | 4 => if s = 0 ∧ d = 0 then some (.haltD (f7 ++ b)) else none
  | _ => none

/-- The offset bits of a branch, from its fields. -/
def branchImm (f7 : BitVec 7) (d : BitVec 5) : BitVec 12 :=
  f7.extractLsb' 6 1 ++ d.extractLsb' 0 1 ++ f7.extractLsb' 0 6 ++ d.extractLsb' 1 4

/-- The offset bits of a JAL, from its upper 20 bits. -/
def jalImm (u : BitVec 20) : BitVec 20 :=
  u.extractLsb' 19 1 ++ u.extractLsb' 0 8 ++ u.extractLsb' 8 1 ++ u.extractLsb' 9 10

/-- OP-IMM, opcode 0x13. -/
def decodeOpImm (f7 : BitVec 7) (b s : BitVec 5) (f3 : BitVec 3) (d : BitVec 5) : Option Instr :=
  let i : BitVec 12 := f7 ++ b
  let sh : BitVec 6 := f7.extractLsb' 0 1 ++ b
  let f6 := (f7.extractLsb' 1 6).toNat
  match f3.toNat with
  | 0 => some (.scalarAlu (.imm .addi d s i))
  | 1 => if f6 = 0 then some (.scalarAlu (.shift .slli d s sh)) else none
  | 2 => some (.scalarAlu (.imm .slti d s i))
  | 3 => some (.scalarAlu (.imm .sltiu d s i))
  | 4 => some (.scalarAlu (.imm .xori d s i))
  | 5 =>
    if f6 = 0 then some (.scalarAlu (.shift .srli d s sh))
    else if f6 = 0x10 then some (.scalarAlu (.shift .srai d s sh)) else none
  | 6 => some (.scalarAlu (.imm .ori d s i))
  | _ => some (.scalarAlu (.imm .andi d s i))

/-- OP-IMM-32, opcode 0x1B. -/
def decodeOpImmW (f7 : BitVec 7) (b s : BitVec 5) (f3 : BitVec 3) (d : BitVec 5) : Option Instr :=
  let sh : BitVec 6 := 0#1 ++ b
  match f3.toNat with
  | 0 => some (.scalarAlu (.imm .addiw d s (f7 ++ b)))
  | 1 => if f7 = 0 then some (.scalarAlu (.shift .slliw d s sh)) else none
  | 5 =>
    if f7 = 0 then some (.scalarAlu (.shift .srliw d s sh))
    else if f7 = 0x20 then some (.scalarAlu (.shift .sraiw d s sh)) else none
  | _ => none

/-- SYSTEM, opcode 0x73: only ECALL, EBREAK and Zicsr (12_sequencer.md R260). -/
def decodeSystem (f7 : BitVec 7) (b s : BitVec 5) (f3 : BitVec 3) (d : BitVec 5) : Option Instr :=
  let csr : BitVec 12 := f7 ++ b
  match f3.toNat with
  | 0 =>
    if s = 0 ∧ d = 0 then
      if csr = 0 then some .ecall else if csr = 1 then some .ebreak else none
    else none
  | 1 => csrInstr .rw false csr s d
  | 2 => csrInstr .rs false csr s d
  | 3 => csrInstr .rc false csr s d
  | 5 => csrInstr .rw true csr s d
  | 6 => csrInstr .rs true csr s d
  | 7 => csrInstr .rc true csr s d
  | _ => none

/-- A legal sequencer instruction from its fields (12_sequencer.md R260, 03_words.md R73 to R76). -/
def decodeFields (f7 : BitVec 7) (b s : BitVec 5) (f3 : BitVec 3) (d : BitVec 5) (op : BitVec 7) :
    Option Instr :=
  let i : BitVec 12 := f7 ++ b
  let u : BitVec 20 := f7 ++ b ++ s ++ f3
  match op.toNat with
  | 0x37 => some (.scalarAlu (.lui d u))
  | 0x17 => some (.scalarAlu (.auipc d u))
  | 0x6F => some (.scalarBranchJump (.jal d (jalImm u)))
  | 0x67 => if f3 = 0 then some (.scalarBranchJump (.jalr d s i)) else none
  | 0x63 =>
    let o : BitVec 12 := branchImm f7 d
    match f3.toNat with
    | 0 => some (.scalarBranchJump (.branch .beq s b o))
    | 1 => some (.scalarBranchJump (.branch .bne s b o))
    | 4 => some (.scalarBranchJump (.branch .blt s b o))
    | 5 => some (.scalarBranchJump (.branch .bge s b o))
    | 6 => some (.scalarBranchJump (.branch .bltu s b o))
    | 7 => some (.scalarBranchJump (.branch .bgeu s b o))
    | _ => none
  | 0x03 =>
    match f3.toNat with
    | 0 => some (.scalarLoad .b d s i)
    | 1 => some (.scalarLoad .h d s i)
    | 2 => some (.scalarLoad .w d s i)
    | 3 => some (.scalarLoad .d d s i)
    | 4 => some (.scalarLoad .bu d s i)
    | 5 => some (.scalarLoad .hu d s i)
    | 6 => some (.scalarLoad .wu d s i)
    | _ => none
  | 0x23 =>
    match f3.toNat with
    | 0 => some (.scalarStore .b s b (f7 ++ d))
    | 1 => some (.scalarStore .h s b (f7 ++ d))
    | 2 => some (.scalarStore .w s b (f7 ++ d))
    | 3 => some (.scalarStore .d s b (f7 ++ d))
    | _ => none
  | 0x13 => decodeOpImm f7 b s f3 d
  | 0x1B => decodeOpImmW f7 b s f3 d
  | 0x33 => (rrOf f7.toNat f3.toNat).map fun o => .scalarAlu (.rr o d s b)
  | 0x3B => (rrwOf f7.toNat f3.toNat).map fun o => .scalarAlu (.rr o d s b)
  | 0x0F =>
    match f3.toNat with
    | 0 => some (.fence i s d)
    | 1 => some (.fenceI i s d)
    | _ => none
  | 0x73 => decodeSystem f7 b s f3 d
  | 0x0B => decodeCustom0 f7 b s f3 d
  | 0x2B => decodeCustom1 f7 b s f3 d
  | 0x5B => decodeCustom2 f7 b s f3 d
  | 0x7B => decodeCustom3 f7 b s f3 d
  | _ => none

/-- A legal sequencer instruction, if the word is one. -/
def decodeSeq? (w : BitVec 32) : Option Instr :=
  decodeFields (w.extractLsb' 25 7) (w.extractLsb' 20 5) (w.extractLsb' 15 5) (w.extractLsb' 12 3)
    (w.extractLsb' 7 5) (w.extractLsb' 0 7)

/-- The sequencer's decoder, total: every other word is an illegal instruction by name (R76). -/
def decodeSeq (w : BitVec 32) : Instr := (decodeSeq? w).getD (.illegalInstruction w)

/-- The host's decoder: the instruction the sequencer reads from a word of at most 32 bits, numbered
as opcode_table.json numbers them; none where it is illegal. Rows that the table gives no bits are
engine words or events, and no word of at most 32 bits is one. -/
def decodeTableWord (nbits w : Nat) : Option Instr :=
  if nbits ≤ 32 then decodeSeq? (BitVec.ofNat 32 w) else none

/-! ## The encoder -/

/-- Format XR (03_words.md R73), with the fields from high to low. -/
def xr (f7 : BitVec 7) (b s : BitVec 5) (f3 : BitVec 3) (d : BitVec 5) (op : BitVec 7) : BitVec 32 :=
  f7 ++ b ++ s ++ f3 ++ d ++ op

/-- Format XI (R73). -/
def xi (i : BitVec 12) (s : BitVec 5) (f3 : BitVec 3) (d : BitVec 5) (op : BitVec 7) : BitVec 32 :=
  i ++ s ++ f3 ++ d ++ op

/-- funct7, funct3 and opcode of a register-register operation. -/
def RrOp.fields : RrOp → BitVec 7 × BitVec 3 × BitVec 7
  | .add => (0, 0, 0x33) | .sub => (0x20, 0, 0x33) | .sll => (0, 1, 0x33) | .slt => (0, 2, 0x33)
  | .sltu => (0, 3, 0x33) | .xor => (0, 4, 0x33) | .srl => (0, 5, 0x33) | .sra => (0x20, 5, 0x33)
  | .or => (0, 6, 0x33) | .and => (0, 7, 0x33)
  | .addw => (0, 0, 0x3B) | .subw => (0x20, 0, 0x3B) | .sllw => (0, 1, 0x3B)
  | .srlw => (0, 5, 0x3B) | .sraw => (0x20, 5, 0x3B)
  | .mul => (1, 0, 0x33) | .mulh => (1, 1, 0x33) | .mulhsu => (1, 2, 0x33) | .mulhu => (1, 3, 0x33)
  | .div => (1, 4, 0x33) | .divu => (1, 5, 0x33) | .rem => (1, 6, 0x33) | .remu => (1, 7, 0x33)
  | .mulw => (1, 0, 0x3B) | .divw => (1, 4, 0x3B) | .divuw => (1, 5, 0x3B) | .remw => (1, 6, 0x3B)
  | .remuw => (1, 7, 0x3B)

/-- funct3 and opcode of a register-immediate operation. -/
def ImmOp.fields : ImmOp → BitVec 3 × BitVec 7
  | .addi => (0, 0x13) | .slti => (2, 0x13) | .sltiu => (3, 0x13) | .xori => (4, 0x13)
  | .ori => (6, 0x13) | .andi => (7, 0x13) | .addiw => (0, 0x1B)

/-- funct7 bits [6:1], funct3 and opcode of a shift by an immediate. -/
def ShOp.fields : ShOp → BitVec 6 × BitVec 3 × BitVec 7
  | .slli => (0, 1, 0x13) | .srli => (0, 5, 0x13) | .srai => (0x10, 5, 0x13)
  | .slliw => (0, 1, 0x1B) | .srliw => (0, 5, 0x1B) | .sraiw => (0x10, 5, 0x1B)

/-- funct3 of a load. -/
def LoadWidth.f3 : LoadWidth → BitVec 3
  | .b => 0 | .h => 1 | .w => 2 | .d => 3 | .bu => 4 | .hu => 5 | .wu => 6

/-- funct3 of a store. -/
def StoreWidth.f3 : StoreWidth → BitVec 3
  | .b => 0 | .h => 1 | .w => 2 | .d => 3

/-- funct3 of a branch. -/
def BranchOp.f3 : BranchOp → BitVec 3
  | .beq => 0 | .bne => 1 | .blt => 4 | .bge => 5 | .bltu => 6 | .bgeu => 7

/-- The word of an AluForm. -/
def encodeAlu : AluForm → BitVec 32
  | .rr op d s b => xr op.fields.1 b s op.fields.2.1 d op.fields.2.2
  | .imm op d s i => xi i s op.fields.1 d op.fields.2
  | .shift op d s sh => xi (op.fields.1 ++ sh) s op.fields.2.1 d op.fields.2.2
  | .lui d i => i ++ d ++ 0x37#7
  | .auipc d i => i ++ d ++ 0x17#7

/-- The word of a JumpForm. -/
def encodeJump : JumpForm → BitVec 32
  | .branch op s b i =>
    xr (i.extractLsb' 11 1 ++ i.extractLsb' 4 6) b s op.f3 (i.extractLsb' 0 4 ++ i.extractLsb' 10 1)
      0x63
  | .jal d i =>
    i.extractLsb' 19 1 ++ i.extractLsb' 0 10 ++ i.extractLsb' 10 1 ++ i.extractLsb' 11 8 ++ d ++ 0x6F#7
  | .jalr d s i => xi i s 0 d 0x67

/-- funct3 of a CSR access. -/
def csrF3 (op : CsrOp) (imm : Bool) : BitVec 3 :=
  match op, imm with
  | .rw, false => 1 | .rs, false => 2 | .rc, false => 3
  | .rw, true => 5 | .rs, true => 6 | .rc, true => 7

/-- The word of a CSR access. -/
def encodeCsr (op : CsrOp) (imm : Bool) (csr : BitVec 12) (rs rd : BitVec 5) : BitVec 32 :=
  xi csr rs (csrF3 op imm) rd 0x73

/-- The 32-bit word of a sequencer instruction; an event or an engine word has none. -/
def encodeSeq : Instr → Option (BitVec 32)
  | .csrWrite op imm csr rs rd => some (encodeCsr op imm csr rs rd)
  | .rstkWrite op imm rs rd => some (encodeCsr op imm 0x821 rs rd)
  | .rsmarkWrite op imm rs rd => some (encodeCsr op imm 0x823 rs rd)
  | .grdWrite op imm g rs rd => some (encodeCsr op imm (0x108#9 ++ g) rs rd)
  | .savebWrite op imm rs rd => some (encodeCsr op imm 0x837 rs rd)
  | .boostWrite op imm rs rd => some (encodeCsr op imm 0x836 rs rd)
  | .qhselClr op imm rs rd => some (encodeCsr op imm 0x859 rs rd)
  | .trctlWrite op imm rs rd => some (encodeCsr op imm 0x85B rs rd)
  | .scalarAlu a => some (encodeAlu a)
  | .scalarLoad w rd rs1 i => some (xi i rs1 w.f3 rd 0x03)
  | .scalarStore w rs1 rs2 i =>
    some (xr (i.extractLsb' 5 7) rs2 rs1 w.f3 (i.extractLsb' 0 5) 0x23)
  | .scalarBranchJump j => some (encodeJump j)
  | .fence i s d => some (xi i s 0 d 0x0F)
  | .fenceI i s d => some (xi i s 1 d 0x0F)
  | .ecall => some (xi 0 0 0 0 0x73)
  | .ebreak => some (xi 1 0 0 0 0x73)
  | .illegalInstruction w => some w
  | .fork m s d => some (xr (0#2 ++ m) 0 s 0 d 0x0B)
  | .rendv m s => some (xi (0#7 ++ m) s 1 0 0x0B)
  | .genf d => some (xi 0 0 2 d 0x0B)
  | .eset s e => some (xr 0 0 s 3 (0#2 ++ e) 0x0B)
  | .eseti i e => some (xi i 0 4 (0#2 ++ e) 0x0B)
  | .tshape s t => some (xr 0 0 s 5 (0#2 ++ t) 0x0B)
  | .qalign => some (xi 0 0 6 0 0x0B)
  | .ttload b s d => some (xr 0 b s 7 d 0x0B)
  | .waitcW b s d => some (xr 0 b s 0 d 0x2B)
  | .waitcD b s d => some (xr 1 b s 0 d 0x2B)
  | .signlW b s d => some (xr 0 b s 1 d 0x2B)
  | .signlD b s d => some (xr 1 b s 1 d 0x2B)
  | .join s d => some (xr 0 0 s 2 d 0x2B)
  | .leave s d => some (xr 0 0 s 3 d 0x2B)
  | .sstep t s d => some (xi (0#9 ++ t) s 4 d 0x2B)
  | .exwait t d => some (xi (0#9 ++ t) 0 5 d 0x2B)
  | .explan t b s d => some (xr (0#4 ++ t) b s 6 d 0x2B)
  | .rqpop n d => some (xi (0#11 ++ BitVec.ofBool n) 0 7 d 0x2B)
  | .pin l b s d => some (xr (0#6 ++ BitVec.ofBool l) b s 0 d 0x5B)
  | .unpin l b s d => some (xr (0#6 ++ BitVec.ofBool l) b s 1 d 0x5B)
  | .ipref l b s => some (xr (0#6 ++ BitVec.ofBool l) b s 2 0 0x5B)
  | .probe b s d => some (xr 0 b s 3 d 0x5B)
  | .bfence c => some (xi (0#9 ++ c) 0 4 0 0x5B)
  | .fenceS c => some (xi (0#9 ++ c) 0 5 0 0x5B)
  | .amoS o c b s d => some (xr (o ++ c) b s 6 d 0x5B)
  | .segb s => some (xr 0 0 s 0 0 0x7B)
  | .sege s d => some (xr 0 0 s 1 d 0x7B)
  | .prept m => some (xi (0#2 ++ m) 0 2 0 0x7B)
  | .traprEnd => some (xi 0 0 3 0 0x7B)
  | .trapr code => some (xi code 0 3 0 0x7B)
  | .haltD code => some (xi code 0 4 0 0x7B)
  | _ => none

/-- The frame and opcode of a word over its payload (03_words.md R56). -/
def encodeFrame (op : BitVec 8) (f : Frame) (p : BitVec 28) : EWord :=
  op ++ BitVec.ofBool f.pl ++ BitVec.ofBool f.pr ++ BitVec.ofBool f.hl ++ BitVec.ofBool f.hr ++ f.k ++
    f.rep ++ p

/-- The payload bits of each engine (R59). -/
def VxFields.bits (p : VxFields) : BitVec 28 :=
  p.guard ++ BitVec.ofBool p.n ++ p.d ++ p.a ++ p.b ++ p.c ++ p.fmt ++ p.sa ++ p.step

@[inherit_doc VxFields.bits]
def LsFields.bits (p : LsFields) : BitVec 28 :=
  p.guard ++ BitVec.ofBool p.n ++ p.slot ++ p.es ++ p.fmt ++ BitVec.ofBool p.sa ++ p.off

@[inherit_doc VxFields.bits]
def MxFields.bits (p : MxFields) : BitVec 28 :=
  p.a ++ p.b ++ p.t ++ BitVec.ofBool p.acc ++ p.md ++ 0#1 ++ p.imm

@[inherit_doc VxFields.bits]
def CpFields.bits (p : CpFields) : BitVec 28 :=
  p.ch ++ p.es ++ BitVec.ofBool p.sa ++ 0#8 ++ p.card

/-- The engine word of each family. -/
def VxOp.encode (o : VxOp) (f : Frame) (p : VxFields) : EWord := encodeFrame o.code f p.bits
@[inherit_doc VxOp.encode]
def LdOp.encode (o : LdOp) (f : Frame) (p : LsFields) : EWord := encodeFrame o.code f p.bits
@[inherit_doc VxOp.encode]
def StOp.encode (o : StOp) (f : Frame) (p : LsFields) : EWord := encodeFrame o.code f p.bits
@[inherit_doc VxOp.encode]
def MxOp.encode (o : MxOp) (f : Frame) (p : MxFields) : EWord := encodeFrame o.code f p.bits
@[inherit_doc VxOp.encode]
def CpOp.encode (o : CpOp) (f : Frame) (p : CpFields) : EWord := encodeFrame o.code f p.bits

/-- The engine and the 48-bit word of an engine instruction; NOP and ignored words are the same in every
engine (R64) and are given as words of `e`. -/
def encodeWord (e : Engine) : Instr → Option (Engine × EWord)
  | .engineNop f => some (e, encodeFrame 0xF0 f 0)
  | .engineIgnoredWord lo f p => some (e, encodeFrame (0xF#4 ++ lo) f p)
  | .illegalWord w _ => some (e, w)
  | .vxAdd f p => some (.vx, VxOp.encode .add f p)
  | .vxSub f p => some (.vx, VxOp.encode .sub f p)
  | .vxMul f p => some (.vx, VxOp.encode .mul f p)
  | .vxFma f p => some (.vx, VxOp.encode .fma f p)
  | .vxFms f p => some (.vx, VxOp.encode .fms f p)
  | .vxFnma f p => some (.vx, VxOp.encode .fnma f p)
  | .vxMin f p => some (.vx, VxOp.encode .min f p)
  | .vxMax f p => some (.vx, VxOp.encode .max f p)
  | .vxAbs f p => some (.vx, VxOp.encode .abs f p)
  | .vxNeg f p => some (.vx, VxOp.encode .neg f p)
  | .vxClamp f p => some (.vx, VxOp.encode .clamp f p)
  | .vxRcp f p => some (.vx, VxOp.encode .rcp f p)
  | .vxRsq f p => some (.vx, VxOp.encode .rsq f p)
  | .vxExp2 f p => some (.vx, VxOp.encode .exp2 f p)
  | .vxLog2 f p => some (.vx, VxOp.encode .log2 f p)
  | .vxAnd f p => some (.vx, VxOp.encode .and f p)
  | .vxOr f p => some (.vx, VxOp.encode .or f p)
  | .vxXor f p => some (.vx, VxOp.encode .xor f p)
  | .vxNot f p => some (.vx, VxOp.encode .not f p)
  | .vxShl f p => some (.vx, VxOp.encode .shl f p)
  | .vxShr f p => some (.vx, VxOp.encode .shr f p)
  | .vxSra f p => some (.vx, VxOp.encode .sra f p)
  | .vxAdds f p => some (.vx, VxOp.encode .adds f p)
  | .vxMuls f p => some (.vx, VxOp.encode .muls f p)
  | .vxFmas f p => some (.vx, VxOp.encode .fmas f p)
  | .vxMulh f p => some (.vx, VxOp.encode .mulh f p)
  | .vxMins f p => some (.vx, VxOp.encode .mins f p)
  | .vxMaxs f p => some (.vx, VxOp.encode .maxs f p)
  | .vxCeq f p => some (.vx, VxOp.encode .ceq f p)
  | .vxCne f p => some (.vx, VxOp.encode .cne f p)
  | .vxClt f p => some (.vx, VxOp.encode .clt f p)
  | .vxCle f p => some (.vx, VxOp.encode .cle f p)
  | .vxCgt f p => some (.vx, VxOp.encode .cgt f p)
  | .vxCge f p => some (.vx, VxOp.encode .cge f p)
  | .vxCun f p => some (.vx, VxOp.encode .cun f p)
  | .vxCcl f p => some (.vx, VxOp.encode .ccl f p)
  | .vxSel f p => some (.vx, VxOp.encode .sel f p)
  | .vxGand f p => some (.vx, VxOp.encode .gand f p)
  | .vxGor f p => some (.vx, VxOp.encode .gor f p)
  | .vxGxor f p => some (.vx, VxOp.encode .gxor f p)
  | .vxGandn f p => some (.vx, VxOp.encode .gandn f p)
  | .vxGmov f p => some (.vx, VxOp.encode .gmov f p)
  | .vxGtov f p => some (.vx, VxOp.encode .gtov f p)
  | .vxVtog f p => some (.vx, VxOp.encode .vtog f p)
  | .vxCvt f p => some (.vx, VxOp.encode .cvt f p)
  | .vxCvtb f p => some (.vx, VxOp.encode .cvtb f p)
  | .vxTag f p => some (.vx, VxOp.encode .tag f p)
  | .vxReda f p => some (.vx, VxOp.encode .reda f p)
  | .vxRedx f p => some (.vx, VxOp.encode .redx f p)
  | .vxRedn f p => some (.vx, VxOp.encode .redn f p)
  | .vxRedd f p => some (.vx, VxOp.encode .redd f p)
  | .vxMov f p => some (.vx, VxOp.encode .mov f p)
  | .vxSwz f p => some (.vx, VxOp.encode .swz f p)
  | .vxLrot f p => some (.vx, VxOp.encode .lrot f p)
  | .vxBcst f p => some (.vx, VxOp.encode .bcst f p)
  | .vxZip f p => some (.vx, VxOp.encode .zip f p)
  | .vxUzp f p => some (.vx, VxOp.encode .uzp f p)
  | .vxSlide f p => some (.vx, VxOp.encode .slide f p)
  | .vxSplat f p => some (.vx, VxOp.encode .splat f p)
  | .vxAcrd f p => some (.vx, VxOp.encode .acrd f p)
  | .vxSret f p => some (.vx, VxOp.encode .sret f p)
  | .vxSretc f p => some (.vx, VxOp.encode .sretc f p)
  | .vxRmulq f p => some (.vx, VxOp.encode .rmulq f p)
  | .vxUmulq f p => some (.vx, VxOp.encode .umulq f p)
  | .vxRsra f p => some (.vx, VxOp.encode .rsra f p)
  | .vxUsra f p => some (.vx, VxOp.encode .usra f p)
  | .vxRnrw f p => some (.vx, VxOp.encode .rnrw f p)
  | .vxUnrw f p => some (.vx, VxOp.encode .unrw f p)
  | .vxRleak f p => some (.vx, VxOp.encode .rleak f p)
  | .vxUleak f p => some (.vx, VxOp.encode .uleak f p)
  | .vxRaddq f p => some (.vx, VxOp.encode .raddq f p)
  | .vxUsubq f p => some (.vx, VxOp.encode .usubq f p)
  | .vxRmix f p => some (.vx, VxOp.encode .rmix f p)
  | .vxUmix f p => some (.vx, VxOp.encode .umix f p)
  | .vxRmark f p => some (.vx, VxOp.encode .rmark f p)
  | .vxRchk f p => some (.vx, VxOp.encode .rchk f p)
  | .vxRdrop f p => some (.vx, VxOp.encode .rdrop f p)
  | .ldV f p => some (.ld, LdOp.encode .v f p)
  | .ldVb f p => some (.ld, LdOp.encode .vb f p)
  | .ldVg f p => some (.ld, LdOp.encode .vg f p)
  | .ldLn f p => some (.ld, LdOp.encode .ln f p)
  | .ldGd f p => some (.ld, LdOp.encode .gd f p)
  | .ldVd f p => some (.ld, LdOp.encode .vd f p)
  | .ldT f p => some (.ld, LdOp.encode .t f p)
  | .ldTw f p => some (.ld, LdOp.encode .tw f p)
  | .ldTd f p => some (.ld, LdOp.encode .td f p)
  | .ldSc f p => some (.ld, LdOp.encode .sc f p)
  | .ldTr f p => some (.ld, LdOp.encode .tr f p)
  | .ldAm f p => some (.ld, LdOp.encode .am f p)
  | .stV f p => some (.st, StOp.encode .v f p)
  | .stVs f p => some (.st, StOp.encode .vs f p)
  | .stLn f p => some (.st, StOp.encode .ln f p)
  | .stGd f p => some (.st, StOp.encode .gd f p)
  | .stVd f p => some (.st, StOp.encode .vd f p)
  | .stVe f p => some (.st, StOp.encode .ve f p)
  | .stT f p => some (.st, StOp.encode .t f p)
  | .stRc f p => some (.st, StOp.encode .rc f p)
  | .stRd f p => some (.st, StOp.encode .rd f p)
  | .stAm f p => some (.st, StOp.encode .am f p)
  | .mxMzero f p => some (.mx, MxOp.encode .mzero f p)
  | .mxMma f p => some (.mx, MxOp.encode .mma f p)
  | .mxMmac f p => some (.mx, MxOp.encode .mmac f p)
  | .mxMmat f p => some (.mx, MxOp.encode .mmat f p)
  | .mxMman f p => some (.mx, MxOp.encode .mman f p)
  | .mxMscl f p => some (.mx, MxOp.encode .mscl f p)
  | .mxMpre f p => some (.mx, MxOp.encode .mpre f p)
  | .mxMtrn f p => some (.mx, MxOp.encode .mtrn f p)
  | .mxMcpy f p => some (.mx, MxOp.encode .mcpy f p)
  | .mxMfil f p => some (.mx, MxOp.encode .mfil f p)
  | .mxMret f p => some (.mx, MxOp.encode .mret f p)
  | .mxMrcv f p => some (.mx, MxOp.encode .mrcv f p)
  | .mxMswp f p => some (.mx, MxOp.encode .mswp f p)
  | .mxMadd f p => some (.mx, MxOp.encode .madd f p)
  | .mxWelt f p => some (.mx, MxOp.encode .welt f p)
  | .cpCopy f p => some (.cp, CpOp.encode .copy f p)
  | .cpRcopy f p => some (.cp, CpOp.encode .rcopy f p)
  | .cpRamo f p => some (.cp, CpOp.encode .ramo f p)
  | .cpWswr f p => some (.cp, CpOp.encode .wswr f p)
  | .cpBcast f p => some (.cp, CpOp.encode .bcast f p)
  | .cpFill f p => some (.cp, CpOp.encode .fill f p)
  | .cpGath f p => some (.cp, CpOp.encode .gath f p)
  | .cpScat f p => some (.cp, CpOp.encode .scat f p)
  | .cpBgemv f p => some (.cp, CpOp.encode .bgemv f p)
  | .cpBgemva f p => some (.cp, CpOp.encode .bgemva f p)
  | .cpBatom f p => some (.cp, CpOp.encode .batom f p)
  | .cpBqry f p => some (.cp, CpOp.encode .bqry f p)
  | _ => none

/-- The VX word an instruction is. -/
def Instr.vx? : Instr → Option (VxOp × Frame × VxFields)
  | .vxAdd f p => some (.add, f, p)
  | .vxSub f p => some (.sub, f, p)
  | .vxMul f p => some (.mul, f, p)
  | .vxFma f p => some (.fma, f, p)
  | .vxFms f p => some (.fms, f, p)
  | .vxFnma f p => some (.fnma, f, p)
  | .vxMin f p => some (.min, f, p)
  | .vxMax f p => some (.max, f, p)
  | .vxAbs f p => some (.abs, f, p)
  | .vxNeg f p => some (.neg, f, p)
  | .vxClamp f p => some (.clamp, f, p)
  | .vxRcp f p => some (.rcp, f, p)
  | .vxRsq f p => some (.rsq, f, p)
  | .vxExp2 f p => some (.exp2, f, p)
  | .vxLog2 f p => some (.log2, f, p)
  | .vxAnd f p => some (.and, f, p)
  | .vxOr f p => some (.or, f, p)
  | .vxXor f p => some (.xor, f, p)
  | .vxNot f p => some (.not, f, p)
  | .vxShl f p => some (.shl, f, p)
  | .vxShr f p => some (.shr, f, p)
  | .vxSra f p => some (.sra, f, p)
  | .vxAdds f p => some (.adds, f, p)
  | .vxMuls f p => some (.muls, f, p)
  | .vxFmas f p => some (.fmas, f, p)
  | .vxMulh f p => some (.mulh, f, p)
  | .vxMins f p => some (.mins, f, p)
  | .vxMaxs f p => some (.maxs, f, p)
  | .vxCeq f p => some (.ceq, f, p)
  | .vxCne f p => some (.cne, f, p)
  | .vxClt f p => some (.clt, f, p)
  | .vxCle f p => some (.cle, f, p)
  | .vxCgt f p => some (.cgt, f, p)
  | .vxCge f p => some (.cge, f, p)
  | .vxCun f p => some (.cun, f, p)
  | .vxCcl f p => some (.ccl, f, p)
  | .vxSel f p => some (.sel, f, p)
  | .vxGand f p => some (.gand, f, p)
  | .vxGor f p => some (.gor, f, p)
  | .vxGxor f p => some (.gxor, f, p)
  | .vxGandn f p => some (.gandn, f, p)
  | .vxGmov f p => some (.gmov, f, p)
  | .vxGtov f p => some (.gtov, f, p)
  | .vxVtog f p => some (.vtog, f, p)
  | .vxCvt f p => some (.cvt, f, p)
  | .vxCvtb f p => some (.cvtb, f, p)
  | .vxTag f p => some (.tag, f, p)
  | .vxReda f p => some (.reda, f, p)
  | .vxRedx f p => some (.redx, f, p)
  | .vxRedn f p => some (.redn, f, p)
  | .vxRedd f p => some (.redd, f, p)
  | .vxMov f p => some (.mov, f, p)
  | .vxSwz f p => some (.swz, f, p)
  | .vxLrot f p => some (.lrot, f, p)
  | .vxBcst f p => some (.bcst, f, p)
  | .vxZip f p => some (.zip, f, p)
  | .vxUzp f p => some (.uzp, f, p)
  | .vxSlide f p => some (.slide, f, p)
  | .vxSplat f p => some (.splat, f, p)
  | .vxAcrd f p => some (.acrd, f, p)
  | .vxSret f p => some (.sret, f, p)
  | .vxSretc f p => some (.sretc, f, p)
  | .vxRmulq f p => some (.rmulq, f, p)
  | .vxUmulq f p => some (.umulq, f, p)
  | .vxRsra f p => some (.rsra, f, p)
  | .vxUsra f p => some (.usra, f, p)
  | .vxRnrw f p => some (.rnrw, f, p)
  | .vxUnrw f p => some (.unrw, f, p)
  | .vxRleak f p => some (.rleak, f, p)
  | .vxUleak f p => some (.uleak, f, p)
  | .vxRaddq f p => some (.raddq, f, p)
  | .vxUsubq f p => some (.usubq, f, p)
  | .vxRmix f p => some (.rmix, f, p)
  | .vxUmix f p => some (.umix, f, p)
  | .vxRmark f p => some (.rmark, f, p)
  | .vxRchk f p => some (.rchk, f, p)
  | .vxRdrop f p => some (.rdrop, f, p)
  | _ => none

/-- The LD word an instruction is. -/
def Instr.ld? : Instr → Option (LdOp × Frame × LsFields)
  | .ldV f p => some (.v, f, p)
  | .ldVb f p => some (.vb, f, p)
  | .ldVg f p => some (.vg, f, p)
  | .ldLn f p => some (.ln, f, p)
  | .ldGd f p => some (.gd, f, p)
  | .ldVd f p => some (.vd, f, p)
  | .ldT f p => some (.t, f, p)
  | .ldTw f p => some (.tw, f, p)
  | .ldTd f p => some (.td, f, p)
  | .ldSc f p => some (.sc, f, p)
  | .ldTr f p => some (.tr, f, p)
  | .ldAm f p => some (.am, f, p)
  | _ => none

/-- The ST word an instruction is. -/
def Instr.st? : Instr → Option (StOp × Frame × LsFields)
  | .stV f p => some (.v, f, p)
  | .stVs f p => some (.vs, f, p)
  | .stLn f p => some (.ln, f, p)
  | .stGd f p => some (.gd, f, p)
  | .stVd f p => some (.vd, f, p)
  | .stVe f p => some (.ve, f, p)
  | .stT f p => some (.t, f, p)
  | .stRc f p => some (.rc, f, p)
  | .stRd f p => some (.rd, f, p)
  | .stAm f p => some (.am, f, p)
  | _ => none

/-- The MX word an instruction is. -/
def Instr.mx? : Instr → Option (MxOp × Frame × MxFields)
  | .mxMzero f p => some (.mzero, f, p)
  | .mxMma f p => some (.mma, f, p)
  | .mxMmac f p => some (.mmac, f, p)
  | .mxMmat f p => some (.mmat, f, p)
  | .mxMman f p => some (.mman, f, p)
  | .mxMscl f p => some (.mscl, f, p)
  | .mxMpre f p => some (.mpre, f, p)
  | .mxMtrn f p => some (.mtrn, f, p)
  | .mxMcpy f p => some (.mcpy, f, p)
  | .mxMfil f p => some (.mfil, f, p)
  | .mxMret f p => some (.mret, f, p)
  | .mxMrcv f p => some (.mrcv, f, p)
  | .mxMswp f p => some (.mswp, f, p)
  | .mxMadd f p => some (.madd, f, p)
  | .mxWelt f p => some (.welt, f, p)
  | _ => none

/-- The CP word an instruction is. -/
def Instr.cp? : Instr → Option (CpOp × Frame × CpFields)
  | .cpCopy f p => some (.copy, f, p)
  | .cpRcopy f p => some (.rcopy, f, p)
  | .cpRamo f p => some (.ramo, f, p)
  | .cpWswr f p => some (.wswr, f, p)
  | .cpBcast f p => some (.bcast, f, p)
  | .cpFill f p => some (.fill, f, p)
  | .cpGath f p => some (.gath, f, p)
  | .cpScat f p => some (.scat, f, p)
  | .cpBgemv f p => some (.bgemv, f, p)
  | .cpBgemva f p => some (.bgemva, f, p)
  | .cpBatom f p => some (.batom, f, p)
  | .cpBqry f p => some (.bqry, f, p)
  | _ => none

end Sys2Proof
end

