-- ==== Sys2Proof/Machine/Bits.lean ====
section
/-! DEFINITION. Bit fields, byte order and sign extension (00_scope.md R4, R12). -/
namespace Sys2Proof.Machine

/-- Bits `[hi:lo]` of a number, unsigned (R12). -/
def fld (v lo n : Nat) : Nat := (v >>> lo) % 2 ^ n

/-- Bit `i` of a number. -/
def bit (v i : Nat) : Bool := fld v i 1 == 1

/-- Bits of a word as a number. -/
def wfld (w : Word) (lo n : Nat) : Nat := fld w.toNat lo n

/-- A Boolean as a number. -/
def b2n (b : Bool) : Nat := if b then 1 else 0

/-- Place a number at a bit position of a word. -/
def at64 (v lo : Nat) : Word := BitVec.ofNat 64 (v <<< lo)

/-- The `n` bytes of a number, least significant first (R4). -/
def bytesLe : Nat → Nat → List Byte
  | 0, _ => []
  | n + 1, v => BitVec.ofNat 8 v :: bytesLe n (v >>> 8)

/-- The number whose bytes, least significant first, are given. -/
def ofBytesLe : List Byte → Nat
  | [] => 0
  | b :: r => b.toNat + ofBytesLe r <<< 8

/-- `n`-bit two's complement of a number, as an integer. -/
def sintOf (n v : Nat) : Int := if 2 ^ (n - 1) ≤ v % 2 ^ n ∧ 0 < n then (v % 2 ^ n : Int) - 2 ^ n else (v % 2 ^ n : Int)

/-- The `n`-bit two's complement of an integer. -/
def natOf (n : Nat) (v : Int) : Nat := (v % (2 ^ n : Int)).toNat

/-- Sign-extend the low `n` bits of a number to 64 bits (R12). -/
def sext64 (n v : Nat) : Word := BitVec.ofInt 64 (sintOf n v)

/-- Rounded-up quotient. -/
def ceilDiv (a b : Nat) : Nat := (a + b - 1) / b

/-- Add with saturation at a bound. -/
def satAdd (a b m : Nat) : Nat := min (a + b) m

/-- Ranges [a, a+m) and [b, b+n) have a byte in common. -/
def overlaps (a m b n : Nat) : Bool := decide (a < b + n) && decide (b < a + m) && decide (0 < m) && decide (0 < n)

/-- Round up to a multiple. -/
def roundUp (a m : Nat) : Nat := ceilDiv a m * m

/-- The distance of a register W1C count field: a write with any bit of the field set clears it. -/
def w1cCount (old written : Nat) : Nat := if written = 0 then old else 0

/-- Replace the byte list `xs` from index `i` by `ys`, as far as it reaches. -/
def overlay {α : Type} : List α → Nat → List α → List α
  | [], _, _ => []
  | x :: xs, 0, y :: ys => y :: overlay xs 0 ys
  | x :: xs, 0, [] => x :: xs
  | x :: xs, i + 1, ys => x :: overlay xs i ys

/-- Change the entry `i` of a list. -/
def setAt {α : Type} : List α → Nat → α → List α
  | [], _, _ => []
  | _ :: xs, 0, v => v :: xs
  | x :: xs, i + 1, v => x :: setAt xs i v

/-- Numbers lo, lo+1, …, n of them. -/
def upFrom (lo : Nat) : Nat → List Nat
  | 0 => []
  | n + 1 => lo :: upFrom (lo + 1) n

end Sys2Proof.Machine
end

