-- ==== Sys2Proof/Machine/Flags.lean ====
section
/-! DEFINITION. The sticky flags of NUMST (02_numbers.md R52) and the integer results that set them
(R51). -/
namespace Sys2Proof.Machine

/-- A set of NUMST flags, bit by bit as R52 lays them out. -/
abbrev Flg := BitVec 7

def flNone : Flg := 0
def flInexact : Flg := 0x01
def flUnderflow : Flg := 0x02
def flOverflow : Flg := 0x04
def flInvalid : Flg := 0x08
def flSat : Flg := 0x10
def flPoison : Flg := 0x20
def flFmism : Flg := 0x40

/-- A flag when a condition holds. -/
def flIf (c : Bool) (f : Flg) : Flg := if c then f else 0

/-- An exact integer delivered to `w` bits under WRAP (R51): the code and its flags. -/
def intResult (w : Nat) (wrap : Bool) (v : Int) : Nat × Flg :=
  let lo : Int := -(2 ^ (w - 1))
  let hi : Int := 2 ^ (w - 1) - 1
  if lo ≤ v ∧ v ≤ hi then (natOf w v, 0)
  else if wrap then (natOf w v, flOverflow)
  else (natOf w (if v < lo then lo else hi), flOverflow ||| flSat)

end Sys2Proof.Machine
end

