-- ==== Sys2Proof/Machine/Num.lean ====
section
/-! DEFINITION. Numbers to the last bit (02_numbers.md): the formats, exact values, rounding,
conversions, and floating-point arithmetic with its flags. Codes are natural numbers below
2 to the format's width. -/
namespace Sys2Proof.Machine

/-- An exact value, or a non-number (R26 to R28). `nan` keeps its sign and its fraction of `w` bits. -/
inductive Val where
  | nan (neg : Bool) (frac w : Nat)
  | nar
  | inf (neg : Bool)
  /-- (−1)^neg × m × 2^e -/
  | fin (neg : Bool) (m : Nat) (e : Int)
  deriving DecidableEq, Repr

/-- The format codes of R33. -/
abbrev Fmt := BitVec 4

/-- Bits of an element in a slot lane (R31): LN6 lanes take eight bits. -/
def laneBits (f : Fmt) : Nat :=
  match f.toNat with
  | 1 => 32 | 2 => 16 | 3 => 16 | 4 => 32 | 5 => 16 | 6 => 8 | 7 => 4 | 8 => 8 | 9 => 32
  | _ => 16

/-- Bits of an element packed in storage (R26, R30). -/
def packBits (f : Fmt) : Nat :=
  match f.toNat with
  | 1 => 32 | 2 => 16 | 3 => 16 | 4 => 32 | 5 => 16 | 6 => 8 | 7 => 4 | 8 => 6 | 9 => 32
  | _ => 8

/-- The three floating-point formats. -/
def isFp (f : Fmt) : Bool := f == 1 || f == 2 || f == 3

/-- Exponent bits and fraction bits of a floating-point format (R26). -/
def fpShape (f : Fmt) : Nat × Nat :=
  match f.toNat with
  | 2 => (5, 10)
  | 3 => (8, 7)
  | _ => (8, 23)

/-- The exponent bias. -/
def fpBias (f : Fmt) : Int := 2 ^ ((fpShape f).1 - 1) - 1

/-- The canonical quiet NaN (R27). -/
def qnan (f : Fmt) : Nat :=
  match f.toNat with
  | 2 => 0x7E00
  | 3 => 0x7FC0
  | _ => 0x7FC00000

/-- The void value of a format (R44); BITS voids to zero bits (19_faults.md R352). -/
def voidOf (f : Fmt) : Nat :=
  match f.toNat with
  | 1 => 0x7FC00000 | 2 => 0x7E00 | 3 => 0x7FC0 | 9 => 0x7E007E00 | 6 => 0x80 | 7 => 0x8 | 8 => 0x20
  | _ => 0

/-- T of R29. -/
def ln6T (j : Nat) : Nat :=
  match j with
  | 0 => 4096 | 1 => 4871 | 2 => 5793 | _ => 6889

/-- H of R29. -/
def ln6H (j : Nat) : Nat :=
  match j with
  | 0 => 4467 | 1 => 5312 | 2 => 6317 | _ => 7512

/-- The value of a floating-point code (R26, R27). -/
def fpVal (f : Fmt) (c : Nat) : Val :=
  let (eb, fb) := fpShape f
  let s := bit c (eb + fb)
  let ex := fld c fb eb
  let fr := fld c 0 fb
  if ex = 2 ^ eb - 1 then
    if fr = 0 then .inf s else .nan s fr fb
  else if ex = 0 then .fin s fr (1 - fpBias f - fb)
  else .fin s (fr + 2 ^ fb) ((ex : Int) - fpBias f - fb)

/-- An integer as a value. -/
def intVal (v : Int) : Val := .fin (decide (v < 0)) v.natAbs 0

/-- The value of a code of formats 0x1 to 0x8 (R26 to R28). -/
def valOf (f : Fmt) (c : Nat) : Val :=
  match f.toNat with
  | 1 | 2 | 3 => fpVal f c
  | 4 => intVal (sintOf 32 c)
  | 5 => intVal (sintOf 16 c)
  | 6 => let n := 2 * sintOf 8 c + 1; .fin (decide (n < 0)) n.natAbs (-1)
  | 7 => let n := 2 * sintOf 4 c + 1; .fin (decide (n < 0)) n.natAbs (-1)
  | 8 =>
    let s := bit c 5
    let fl := fld c 0 5
    if fl = 0 then (if s then .nar else .fin false 0 0)
    else
      let q : Int := ((fl : Int) - 16) / 4
      let j := (((fl : Int) - 16) % 4).toNat
      .fin s (ln6T j) (q - 12)
  | _ => .fin false c 0

/-- Number of bits of a number. -/
def bitLen (m : Nat) : Nat := if m = 0 then 0 else Nat.log2 m + 1

/-- Drop `sh` bits of a magnitude under a rounding mode (R35): the result and whether it changed. -/
def roundShift (mode : Nat) (neg : Bool) (m sh : Nat) : Nat × Bool :=
  let r := m >>> sh
  let rem := m % 2 ^ sh
  let up :=
    match mode with
    | 0 => decide (2 ^ sh < 2 * rem) || (decide (2 * rem = 2 ^ sh) && decide (0 < sh) && r % 2 == 1)
    | 1 => false
    | 2 => decide (0 < rem) && !neg
    | _ => decide (0 < rem) && neg
  (if up then r + 1 else r, decide (0 < rem))

/-- Round (−1)^neg × m × 2^e once to a floating-point format (R38): overflow by mode, subnormals kept,
tininess detected after rounding. -/
def roundFp (f : Fmt) (mode : Nat) (neg : Bool) (m : Nat) (e : Int) : Nat × Flg :=
  let (eb, fb) := fpShape f
  let sgn := b2n neg <<< (eb + fb)
  if m = 0 then (sgn, 0)
  else
    let top : Int := e + bitLen m - 1
    let emin : Int := 1 - fpBias f
    let q : Int := (if top < emin then emin else top) - fb
    let (sig, inexact) :=
      if q ≤ e then (m <<< (e - q).toNat, false) else roundShift mode neg m (q - e).toNat
    let code := (q + fb + fpBias f - 1).toNat <<< fb
    let code := code + sig
    let infCode := (2 ^ eb - 1) <<< fb
    if infCode ≤ code then
      let toInf := mode == 0 || (mode == 2 && !neg) || (mode == 3 && neg)
      (sgn + (if toInf then infCode else infCode - 1), flOverflow ||| flInexact)
    else
      let q1 : Int := top - fb
      let sig1 := if q1 ≤ e then m <<< (e - q1).toNat else (roundShift mode neg m (q1 - e).toNat).1
      let tiny := decide (top < emin) && !(decide (top + 1 = emin) && decide (2 ^ (fb + 1) ≤ sig1))
      (sgn + code, flIf inexact flInexact ||| flIf (tiny && inexact) flUnderflow)

/-- A NaN moved to a floating-point format (R39): sign and quiet bit kept, never quieted. -/
def nanTo (f : Fmt) (neg : Bool) (frac w : Nat) : Nat :=
  let (eb, fb) := fpShape f
  let fr :=
    if w ≤ fb then frac <<< (fb - w)
    else
      let t := frac >>> (w - fb)
      if t = 0 then 1 else t
  b2n neg <<< (eb + fb) + (2 ^ eb - 1) <<< fb + fr

/-- The code of an infinity. -/
def infOf (f : Fmt) (neg : Bool) : Nat :=
  let (eb, fb) := fpShape f
  b2n neg <<< (eb + fb) + (2 ^ eb - 1) <<< fb

/-- Conversion to a floating-point format (R37 to R39, R43). -/
def toFp (f : Fmt) (mode : Nat) (v : Val) : Nat × Flg :=
  match v with
  | .nan s fr w => (nanTo f s fr w, 0)
  | .nar => (qnan f, 0)
  | .inf s => (infOf f s, 0)
  | .fin s m e => roundFp f mode s m e

/-- An exact finite value rounded to an integer under a mode (R40 step 1). -/
def roundInt (mode : Nat) (neg : Bool) (m : Nat) (e : Int) : Int × Bool :=
  let (r, ch) := if 0 ≤ e then (m <<< e.toNat, false) else roundShift mode neg m (-e).toNat
  (if neg then -(r : Int) else r, ch)

/-- Conversion to an integer of `w` bits (R40, R43). -/
def toInt (w mode : Nat) (wrap : Bool) (v : Val) : Nat × Flg :=
  match v with
  | .nan _ _ _ => (0, flInvalid)
  | .nar => (0, flInvalid)
  | .inf s => (natOf w (if s then -(2 ^ (w - 1)) else 2 ^ (w - 1) - 1), flOverflow ||| flSat)
  | .fin s m e =>
    let (i, ch) := roundInt mode s m e
    let (c, fl) := intResult w wrap i
    (c, fl ||| flIf ch flInexact)

/-- The half-step code number chosen for an exact non-zero value, and whether the value changed
(R41 steps 1 and 2). -/
def halfStep (mode : Nat) (neg : Bool) (m : Nat) (e : Int) : Int × Bool :=
  let k := (-e).toNat + 1
  let mag : Nat := m <<< (e + k).toNat
  let x : Int := (if neg then -(mag : Int) else mag) - 2 ^ (k - 1)
  let lo : Int := x / 2 ^ k
  let rem : Int := x % 2 ^ k
  if rem = 0 then (lo, false)
  else
    let n :=
      match mode with
      | 0 =>
        if 2 * rem < 2 ^ k then lo else if 2 ^ k < 2 * rem then lo + 1
        else if lo % 2 = 0 then lo else lo + 1
      | 1 => if lo = -1 then (if neg then lo else lo + 1) else if 0 ≤ lo then lo else lo + 1
      | 2 => lo + 1
      | _ => lo
    (n, true)

/-- Conversion to HS8 (`w` = 8) or HS4 (`w` = 4) (R41, R43). -/
def toHs (w mode : Nat) (wrap : Bool) (v : Val) : Nat × Flg :=
  match v with
  | .nan _ _ _ => (2 ^ (w - 1), flInvalid)
  | .nar => (2 ^ (w - 1), flInvalid)
  | .inf s => (if s then 2 ^ (w - 1) else 2 ^ (w - 1) - 1, flOverflow ||| flSat)
  | .fin s m e =>
    if m = 0 then (if s then 2 ^ w - 1 else 0, 0)
    else
      let (n, ch) := halfStep mode s m e
      let (c, fl) := intResult w wrap n
      (c, fl ||| flIf ch flInexact)

/-- Conversion to LN6 (R42, R43). -/
def toLn6 (v : Val) : Nat × Flg :=
  match v with
  | .nan _ _ _ => (0x20, 0)
  | .nar => (0x20, 0)
  | .inf s => (b2n s * 32 + 31, flOverflow ||| flSat)
  | .fin s m e =>
    if m = 0 then (0, 0)
    else
      let n := bitLen m
      let ex : Int := e + n - 1
      -- M < H[j] with M = m / 2^(n−1) × 4096, compared exactly
      let below (j : Nat) : Bool := decide (m * 4096 < ln6H j * 2 ^ (n - 1))
      let (q, j) : Int × Nat :=
        if below 0 then (ex, 0) else if below 1 then (ex, 1) else if below 2 then (ex, 2)
        else if below 3 then (ex, 3) else (ex + 1, 0)
      let f : Int := 4 * q + j + 16
      let sg := b2n s * 32
      if 32 ≤ f then (sg + 31, flOverflow ||| flSat)
      else if 1 ≤ f then
        -- the value changed unless m × 2^e = T[j] × 2^(q−12)
        let d : Int := e - (q - 12)
        let same := if 0 ≤ d then decide (m <<< d.toNat = ln6T j) else decide (m = ln6T j <<< (-d).toNat)
        (sg + f.toNat, flIf (!same) flInexact)
      else if f = 0 then (sg + 1, flInexact)
      else (0, flUnderflow ||| flInexact)

/-- Conversion of a value to a format of 0x1 to 0x8 (R37 to R43). -/
def convVal (tgt : Fmt) (mode : Nat) (wrap : Bool) (v : Val) : Nat × Flg :=
  match tgt.toNat with
  | 1 | 2 | 3 => toFp tgt mode v
  | 4 => toInt 32 mode wrap v
  | 5 => toInt 16 mode wrap v
  | 6 => toHs 8 mode wrap v
  | 7 => toHs 4 mode wrap v
  | _ => toLn6 v

/-- Conversion of a code (R37). -/
def conv (src tgt : Fmt) (mode : Nat) (wrap : Bool) (c : Nat) : Nat × Flg :=
  convVal tgt mode wrap (valOf src c)

/-- A value scaled exactly by 2^e (R46 step 2, 09_vector.md R203). -/
def scaleVal (v : Val) (e : Int) : Val :=
  match v with
  | .fin s m x => .fin s m (x + e)
  | o => o

/-! ## Floating-point arithmetic (R49) -/

/-- The quiet bit of a NaN. -/
def nanQuiet (frac w : Nat) : Bool := bit frac (w - 1)

/-- A signalling NaN. -/
def isSnan : Val → Bool
  | .nan _ f w => !nanQuiet f w
  | _ => false

/-- Any NaN. -/
def isNan : Val → Bool
  | .nan _ _ _ => true
  | _ => false

/-- A NaN with its quiet bit set and its payload kept, as a code of its own format. -/
def quieted (f : Fmt) : Val → Nat
  | .nan s fr w => nanTo f s (fr ||| 2 ^ (w - 1)) w
  | _ => qnan f

/-- The first NaN of the sources, in order. DEDUCED (log 38). -/
def firstNan : List Val → Option Val
  | [] => none
  | v :: r => if isNan v then some v else firstNan r

/-- An exact result: a value, or an invalid operation. -/
inductive Exact where
  | ok (v : Val)
  | invalid
  deriving DecidableEq, Repr

/-- The sign of a value. -/
def isNeg : Val → Bool
  | .nan s _ _ => s
  | .nar => false
  | .inf s => s
  | .fin s _ _ => s

/-- The opposite value. -/
def negVal : Val → Val
  | .nan s f w => .nan (!s) f w
  | .nar => .nar
  | .inf s => .inf (!s)
  | .fin s m e => .fin (!s) m e

/-- The exact sum of two finite numbers; a zero sum takes its sign from IEEE 754 for the mode. -/
def addFin (mode : Nat) (s1 : Bool) (m1 : Nat) (e1 : Int) (s2 : Bool) (m2 : Nat) (e2 : Int) : Val :=
  let e : Int := if e1 < e2 then e1 else e2
  let a : Int := (m1 <<< (e1 - e).toNat : Nat)
  let b : Int := (m2 <<< (e2 - e).toNat : Nat)
  let v : Int := (if s1 then -a else a) + (if s2 then -b else b)
  if v = 0 then
    .fin (if s1 = s2 then s1 else mode == 3) 0 0
  else .fin (decide (v < 0)) v.natAbs e

/-- The exact sum. -/
def addVal (mode : Nat) (a b : Val) : Exact :=
  match a, b with
  | .inf s, .inf t => if s = t then .ok (.inf s) else .invalid
  | .inf s, _ => .ok (.inf s)
  | _, .inf t => .ok (.inf t)
  | .fin s m e, .fin t n g => .ok (addFin mode s m e t n g)
  | _, _ => .invalid

/-- The exact product. -/
def mulVal (a b : Val) : Exact :=
  match a, b with
  | .inf s, .inf t => .ok (.inf (s != t))
  | .inf s, .fin t n _ => if n = 0 then .invalid else .ok (.inf (s != t))
  | .fin s m _, .inf t => if m = 0 then .invalid else .ok (.inf (s != t))
  | .fin s m e, .fin t n g => .ok (.fin (s != t) (m * n) (e + g))
  | _, _ => .invalid

/-- Deliver an operation on sources (R49): the first NaN quieted, INVALID for a signalling one or an
invalid operation, one rounding otherwise. -/
def deliver (f : Fmt) (mode : Nat) (srcs : List Val) (r : Exact) : Nat × Flg :=
  let sn := flIf (srcs.any isSnan) flInvalid
  match firstNan srcs with
  | some v => (quieted f v, sn)
  | none =>
    match r with
    | .invalid => (qnan f, flInvalid)
    | .ok v => toFp f mode v

/-- a + b. -/
def fpAdd (f : Fmt) (mode a b : Nat) : Nat × Flg :=
  let x := fpVal f a
  let y := fpVal f b
  deliver f mode [x, y] (addVal mode x y)

/-- a − b. -/
def fpSub (f : Fmt) (mode a b : Nat) : Nat × Flg :=
  let x := fpVal f a
  let y := fpVal f b
  deliver f mode [x, y] (addVal mode x (negVal y))

/-- a × b. -/
def fpMul (f : Fmt) (mode a b : Nat) : Nat × Flg :=
  let x := fpVal f a
  let y := fpVal f b
  deliver f mode [x, y] (mulVal x y)

/-- Fused ±(a × b) ± c, one rounding; 0 × ∞ is invalid even when c is a quiet NaN (09_vector.md
R190). -/
def fpFma (f : Fmt) (mode : Nat) (negP negC : Bool) (a b c : Nat) : Nat × Flg :=
  let x := fpVal f a
  let y := fpVal f b
  let z := fpVal f c
  let p := mulVal x y
  let bad := !isNan x && !isNan y && p == .invalid
  let r : Exact :=
    match p with
    | .invalid => .invalid
    | .ok v => addVal mode (if negP then negVal v else v) (if negC then negVal z else z)
  let (code, fl) := deliver f mode [x, y, z] r
  (code, fl ||| flIf bad flInvalid)

/-- Order of finite and infinite values, −0 below +0 when `zeros` holds (R192), equal otherwise. -/
def valLt (zeros : Bool) (a b : Val) : Bool :=
  match a, b with
  | .inf s, .inf t => s && !t
  | .inf s, .fin _ _ _ => s
  | .fin _ _ _, .inf t => !t
  | .fin s m e, .fin t n g =>
    match addFin 0 s m e (!t) n g with
    | .fin neg k _ => if k = 0 then zeros && m == 0 && s && !t else neg
    | _ => false
  | _, _ => false

/-- min or max of FP lanes (09_vector.md R192). -/
def fpMinMax (f : Fmt) (mx : Bool) (a b : Nat) : Nat × Flg :=
  let x := fpVal f a
  let y := fpVal f b
  let sn := flIf (isSnan x || isSnan y) flInvalid
  if isNan x then (if isNan y then quieted f x else b, sn)
  else if isNan y then (a, sn)
  else if valLt true x y then (if mx then b else a, sn)
  else (if mx then a else b, sn)

/-- The class bit of R198. -/
def fpClass (f : Fmt) (c : Nat) : Nat :=
  let (eb, fb) := fpShape f
  match fpVal f c with
  | .inf s => if s then 0 else 7
  | .nan _ fr w => if nanQuiet fr w then 9 else 8
  | .fin s m _ =>
    if m = 0 then (if s then 3 else 4)
    else if fld c fb eb = 0 then (if s then 2 else 5)
    else (if s then 1 else 6)
  | .nar => 9

end Sys2Proof.Machine
end

