-- ==== Sys2Proof/Machine/Func.lean ====
section
/-! DEFINITION. The four functions of 09_vector.md R193, each rounded once. The exact value is held as
a truncated binary number with a sticky bit below it, with far more bits than any format needs. -/
namespace Sys2Proof.Machine

/-- Round a truncated value: `m` with a set bit appended stands strictly between m and m + 1. -/
def roundSticky (f : Fmt) (mode : Nat) (neg : Bool) (m : Nat) (e : Int) (sticky : Bool) : Nat × Flg :=
  roundFp f mode neg (2 * m + b2n sticky) (e - 1)

/-- Integer square root of a number of at most `2 n` bits. -/
def isqrt : Nat → Nat → Nat
  | 0, _ => 0
  | n + 1, v =>
    let r := 2 * isqrt n (v / 4)
    if (r + 1) * (r + 1) ≤ v then r + 1 else r

/-- 1/a. -/
def fpRcp (f : Fmt) (mode a : Nat) : Nat × Flg :=
  let v := fpVal f a
  match v with
  | .fin s m e =>
    if m = 0 then (infOf f s, flOverflow)
    else
      let k := 2 * bitLen m + 80
      roundSticky f mode s (2 ^ k / m) (-(k : Int) - e) (decide (2 ^ k % m ≠ 0))
  | .inf s => (b2n s <<< (laneBits f - 1), 0)
  | o => deliver f mode [o] .invalid

/-- 1/√a. -/
def fpRsq (f : Fmt) (mode a : Nat) : Nat × Flg :=
  let v := fpVal f a
  match v with
  | .fin s m e =>
    if m = 0 then (infOf f s, flOverflow)
    else if s then (qnan f, flInvalid)
    else
      -- a = m' × 2^(2h), so 1/√a = √(2^(2k)/m') × 2^(−k−h)
      let m' := if e % 2 = 0 then m else 2 * m
      let h : Int := if e % 2 = 0 then e / 2 else (e - 1) / 2
      let k := bitLen m' + 80
      let q := 2 ^ (2 * k) / m'
      let r := isqrt (k + 1) q
      roundSticky f mode false r (-(k : Int) - h) (decide (r * r * m' ≠ 2 ^ (2 * k)))
  | .inf s => if s then (qnan f, flInvalid) else (0, 0)
  | o => deliver f mode [o] .invalid

/-- Fraction bits of the fixed-point work of exp2 and log2. -/
def fxBits : Nat := 256

/-- ln 2 × 2^256, truncated: the sum of 1/(k 2^k), with guard bits. -/
def ln2Sum : Nat → Nat → Nat
  | 0, _ => 0
  | n + 1, k => 2 ^ (fxBits + 32) / (k * 2 ^ k) + ln2Sum n (k + 1)

/-- ln 2 in fixed point. -/
def ln2Fx : Nat := ln2Sum 300 1 >>> 32

/-- Σ y^k / k! from term `t` on, in fixed point. -/
def expSum : Nat → Nat → Nat → Nat → Nat
  | 0, _, _, _ => 0
  | n + 1, k, t, y => t + expSum n (k + 1) ((t * y) >>> fxBits / (k + 1)) y

/-- 2^a. -/
def fpExp2 (f : Fmt) (mode a : Nat) : Nat × Flg :=
  match fpVal f a with
  | .fin s m e =>
    if m = 0 then roundFp f mode false 1 0
    else
      let big := decide ((12 : Int) < e + bitLen m)
      if big then (if s then roundSticky f mode false 1 (-5000) true else roundFp f mode false 1 5000)
      else
        let k := (-e).toNat
        let mag : Int := (m <<< (e + k).toNat : Nat)
        let x : Int := if s then -mag else mag
        let n : Int := x / 2 ^ k
        let r : Nat := (x % 2 ^ k).toNat
        if r = 0 then roundFp f mode false 1 n
        else
          let y := (r * 2 ^ fxBits / 2 ^ k * ln2Fx) >>> fxBits
          roundSticky f mode false (expSum 80 0 (2 ^ fxBits) y) (n - fxBits) true
  | .inf s => if s then (0, 0) else (infOf f false, 0)
  | o => deliver f mode [o] .invalid

/-- Bits of log2 of a fixed-point number between 1 and 2, by repeated squaring. -/
def logBits : Nat → Nat → Nat → Nat
  | 0, _, acc => acc
  | n + 1, y, acc =>
    let z := (y * y) >>> 320
    if 2 ^ 321 ≤ z then logBits n (z / 2) (2 * acc + 1) else logBits n z (2 * acc)

/-- log2 a. -/
def fpLog2 (f : Fmt) (mode a : Nat) : Nat × Flg :=
  match fpVal f a with
  | .fin s m e =>
    if m = 0 then (infOf f true, flOverflow)
    else if s then (qnan f, flInvalid)
    else
      let n := bitLen m
      let ex : Int := e + n - 1
      if m = 2 ^ (n - 1) then roundFp f mode (decide (ex < 0)) ex.natAbs 0
      else
        let l := logBits 200 (m * 2 ^ 320 / 2 ^ (n - 1)) 0
        let v : Int := ex * 2 ^ 200 + l
        if v < 0 then roundSticky f mode true (v.natAbs - 1) (-200) true
        else roundSticky f mode false v.natAbs (-200) true
  | .inf s => if s then (qnan f, flInvalid) else (infOf f false, 0)
  | o => deliver f mode [o] .invalid

end Sys2Proof.Machine
end

