-- ==== Sys2Proof/Config.lean ====
section
/-! DEFINITION. What one module fixes, and the free values: constants without a body, so that a
statement about them holds for every value they may have. -/
namespace Sys2Proof

/-- What moves next. The list in `State.turns` holds the moves already due; where it is empty the
choice is free (`Config.nextTurn`, assumption DESIGN CHOICE, log 4). -/
inductive Turn where
  /-- one period of the fabric clock (00_scope.md R5) -/
  | tick
  /-- one delivered pulse of the arithmetic clock at a core -/
  | pulse (c : Nat)
  /-- the sequencer of a core issues one instruction of a ready context (12_sequencer.md R261) -/
  | sequencer (c : Nat)
  /-- an engine of a core makes the issue it is due -/
  | engine (c : Nat) (e : Engine)
  /-- the reads, accesses and writes of a cycle after its issues -/
  | settle (c : Nat)
  /-- the scratchpad access of a load that is due -/
  | access (c id : Nat)
  /-- a beat of the transfer path of LD or ST -/
  | beat (c : Nat) (e : Engine)
  /-- the ends of the words that have finished in a cycle -/
  | finish (c : Nat)
  /-- a step of opcode_table.json that is no instruction of an agent -/
  | event (i : Instr)
  deriving DecidableEq, Repr, Inhabited

/-- The profile of the PZG-480 (22_assembler.md R389, R392). DESIGN CHOICE (log 105). -/
def Config.profile : Nat := 3

/-- DESIGN CHOICE (log 4). What moves next where nothing is due: free. -/
opaque Config.nextTurn : Nat → Turn
/-- The byte a location of device memory not written since reset returns (25_service.md R407): free
at each read, by draw and address (DESIGN CHOICE, log 1). -/
opaque Config.unwrittenByte : Nat → Nat → Byte
/-- Whether such a read also meets an uncorrectable error (25_service.md R407): free (DESIGN CHOICE, log 1). -/
opaque Config.unwrittenBad : Nat → Nat → Bool
/-- A choice the manual leaves to the machine between two stated outcomes: free, by draw (DESIGN CHOICE, log 5). -/
opaque Config.freeBool : Nat → Bool
/-- A number the manual leaves to the machine: free, by draw; users bound it (DESIGN CHOICE, log 5). -/
opaque Config.freeNat : Nat → Nat
/-- The SM3 hash of a string of bytes (25_service.md R409, R410; DESIGN CHOICE, log 29). -/
opaque Config.sm3 : List Byte → BitVec 256
/-- The SM2 signature, made with the device identity key, of a string of bytes (DESIGN CHOICE, log 29). -/
opaque Config.sm2Sign : List Byte → BitVec 512
/-- The module's serial number (25_service.md R410; DESIGN CHOICE, log 29). -/
opaque Config.serial : Word
/-- The identity public key x and y (25_service.md R410; DESIGN CHOICE, log 29). -/
opaque Config.publicKey : BitVec 512
/-- The SM3 hash of image `n`: 0 firmware, 1 hypervisor, 2 to 9 partitions (DESIGN CHOICE, log 29). -/
opaque Config.imageHash : Nat → BitVec 256
/-- The module number in the management core's store (21_links.md R370; DESIGN CHOICE, log 30). -/
opaque Config.wslId : BitVec 12
/-- The peer module of a port of a die, in the management core's store (DESIGN CHOICE, log 30). -/
opaque Config.wslPeer : Nat → Nat → BitVec 12
/-- The peer module and partition of an index of the hypervisor's list (21_links.md R371; DESIGN CHOICE, log 30). -/
opaque Config.peerList : Nat → BitVec 12
/-- The retirement maps as a string of bytes: cores, bank units, rows and lanes (25_service.md R410; DESIGN CHOICE, log 29). -/
opaque Config.mapsImage : List (Nat × Nat) → List (Nat × Nat) → List (Nat × Nat) → List (Nat × Nat × Nat × Nat) → List Byte
/-- The largest number of WSL hops between the modules of a route tag's barrier (R374; DESIGN CHOICE, log 30). -/
opaque Config.wslHops : Nat → Nat
/-- Additional ticks after which the members on other modules have all entered (R374; DESIGN CHOICE, log 30). -/
opaque Config.remoteEntered : Nat → Nat

end Sys2Proof
end

