-- ==== Sys2Proof/Machine/State.lean ====
section
/-! DEFINITION. The state of the module as plain data, and the state right after reset. Every piece
the spec names is here; INVENTORY.md lists each with its rule and reset value. Sparse tables list
only the entries that differ from what an unlisted key reads as. -/
namespace Sys2Proof.Machine

/-- Why a step can stop with a fault. -/
inductive Fault where
  /-- Raised by the meaning of an instruction of an agent when `State.at` names no agent of that
  kind. `step` never runs one so. Safe: nothing is concluded about such a call. -/
  | noAgent
  deriving DecidableEq, Repr

/-- Why a step can be refused. -/
inductive Refusal where
  /-- No meaning for the instruction of this mnemonic. Safe. -/
  | notModelled (mnemonic : String)
  deriving DecidableEq, Repr

/-- Whose instruction is executed. -/
inductive Agent where
  | none
  | seq (core ctx : Nat)
  | engine (core : Nat) (e : Engine)
  deriving DecidableEq, Repr

/-- A ring slot (07_ring.md R151); `bad` lists its 8-byte units with an uncorrectable error. -/
structure Slot where
  data : BitVec 1024
  tag : BitVec 4
  bad : List Nat
  deriving DecidableEq, Repr

/-- A tile (11_matrix.md R235): element storage, scale store, shape and tag. -/
structure Tile where
  bytes : Tbl Byte
  scales : Tbl Byte
  rows : BitVec 8
  width : BitVec 8
  tag : BitVec 4
  bad : List Nat
  badScales : List Nat
  deriving DecidableEq, Repr

/-- A 48-bit block partial and its void mark (02_numbers.md R46, R47). -/
structure Partial where
  p : BitVec 48
  void : Bool
  deriving DecidableEq, Repr

/-- The open block of an accumulator (11_matrix.md R239). -/
structure OpenBlock where
  fmt : BitVec 4
  ra : Nat
  rb : Nat
  parts : Tbl Partial
  latA : List Byte
  latB : List Byte
  deriving DecidableEq, Repr

/-- What a welt recorded (11_matrix.md R250, R255): the MX word it was and the state at it. -/
structure Welt where
  word : Nat
  form : Bool
  dep : Nat
  hadOpen : Bool
  restorable : Option Bool
  deriving DecidableEq, Repr

/-- An accumulator (11_matrix.md R239); `struck` says that an error has been replayed since its
last retirement (R256). -/
structure Acc where
  elems : Tbl (BitVec 32)
  form : Bool
  kpos : Nat
  dep : Nat
  blk : Option OpenBlock
  welt : Option Welt
  struck : Bool
  bad : List Nat
  badParts : List Nat
  deriving DecidableEq, Repr

/-- An entry of an engine queue (03_words.md R68). `fork` is the FORK number of its context
(19_faults.md R351), `order` the order of FORKs on the core (14_consistency.md R305). -/
structure Entry where
  id : Nat
  ctx : Nat
  code : BitVec 52
  words : Nat
  iters : Nat
  gen : BitVec 8
  es : List Word
  mode : BitVec 4
  fork : Nat
  order : Nat
  deriving DecidableEq, Repr

/-- What stands in an engine queue (19_faults.md R351). -/
inductive QItem where
  | entry (e : Entry)
  | fence (id : Nat) (mask : BitVec 10)
  | qalign (id : Nat)
  | bank (id : Nat) (scope : BitVec 3)
  | seg (close : Bool)
  deriving DecidableEq, Repr

/-- The stream unit's place in a started entry (03_words.md R69). -/
structure Cursor where
  entry : Entry
  iter : Nat
  word : Nat
  issue : Nat
  /-- the word being issued, once fetched -/
  code : Option EWord
  /-- its live word, once issued -/
  live : Nat
  /-- it is an illegal word that a SKIP lets pass as a NOP (19_faults.md R344) -/
  skip : Bool
  deriving DecidableEq, Repr

/-- An engine queue: what has not started, the entry being run, and the entries that have issued
their last word and still have a word in flight. -/
structure EngQ where
  items : List QItem
  run : Option Cursor
  drain : List Entry
  /-- the last bank marker crossed (05_bank_units.md R125) -/
  gate : Nat
  /-- word after the last one issued, for an idle engine's HEADS (19_faults.md R339) -/
  last : Nat
  deriving DecidableEq, Repr

/-- A bank marker that has not been passed (05_bank_units.md R125 to R127): which queues have crossed
it, the bank jobs it waits for, and the stores its scope covers that are not yet visible. -/
structure BankGate where
  id : Nat
  scope : BitVec 3
  cpCrossed : Bool
  ldCrossed : Bool
  stCrossed : Bool
  jobs : List Nat
  copies : List Nat
  stWords : List Nat
  stores : List Nat
  deriving DecidableEq, Repr

/-- A word that has started and not finished (03_words.md R57). -/
structure LiveWord where
  id : Nat
  eng : Engine
  entry : Nat
  ctx : Nat
  gen : BitVec 8
  hl : Bool
  hr : Bool
  k : Nat
  /-- its last issue has been made -/
  issued : Bool
  /-- issues whose effects are not complete -/
  pending : Nat
  word : Nat
  iter : Nat
  code : BitVec 52
  op : BitVec 8
  /-- the word itself -/
  bits : EWord
  faulted : Bool
  /-- order of its entry's FORK on the core (14_consistency.md R305) -/
  order : Nat
  /-- S of a stepped tile word: the bytes of its issue 0 (08_load_store.md R177) -/
  size : Nat
  /-- the accumulator that an mret or mrcv retires when it finishes (11_matrix.md R257) -/
  retires : Option Nat
  deriving DecidableEq, Repr

/-- A read of a slot that a word in flight will make, or has made (07_ring.md R153). `role`: 0 A,
1 B, 2 C, 3 data at position 12, 4 index at position 12. -/
structure SlotRead where
  role : Nat
  slot : Nat
  due : Nat
  got : Option Slot
  deriving DecidableEq, Repr

/-- A remainder-stack entry (10_reversible.md R212). -/
structure RemEnt where
  data : BitVec 1024
  tag : BitVec 16
  gen : BitVec 8
  abn : Bool
  /-- the issue that pushed it, 0 for one that has come back from the region -/
  id : Nat
  /-- the issue that will still write the data, 0 for none (R219) -/
  writer : Nat
  bad : List Nat
  badMeta : Bool
  deriving DecidableEq, Repr

/-- An issue of VX, LD or ST in flight on the ring or at its scratchpad access. Cycles are schedule
cycles (07_ring.md R153). -/
structure Flight where
  id : Nat
  live : Nat
  eng : Engine
  instr : Instr
  issue : Nat
  t : Nat
  es : List Word
  mode : BitVec 4
  ctx : Nat
  gen : BitVec 8
  /-- the guard after N -/
  g : BitVec 64
  /-- guards read at issue in other roles -/
  g2 : BitVec 64
  g3 : BitVec 64
  d : Nat
  c : Nat
  reads : List SlotRead
  addr : Nat
  /-- access cycle, none when no access is due or it has been made -/
  acc : Option Nat
  /-- bytes loaded, with their void marks -/
  data : List (Byte × Bool)
  /-- steps made of an access that takes several -/
  done : Nat
  x : Nat
  w : Nat
  w2 : Nat
  /-- the issue writes nothing (format fault, alignment fault) -/
  quiet : Bool
  /-- DVA data has arrived or store is visible -/
  arrived : Bool
  /-- bank marker in front of it -/
  gate : Nat
  rem : Option RemEnt
  /-- results formed at cycle x, for slots D and C: bits, the bits written, tag -/
  res : Option (BitVec 1024 × BitVec 1024 × BitVec 4)
  res2 : Option (BitVec 1024 × BitVec 1024 × BitVec 4)
  deriving DecidableEq, Repr

/-- A tile, scale or retire-convert transfer (08_load_store.md R178). -/
structure Xfer where
  id : Nat
  live : Nat
  eng : Engine
  instr : Instr
  /-- its issue of the word (19_faults.md R340) -/
  issue : Nat
  t : Nat
  mode : BitVec 4
  ctx : Nat
  tile : Nat
  base : Nat
  rows : Nat
  width : Nat
  fmt : BitVec 4
  total : Nat
  rate : Nat
  /-- the first cycle a beat may be made -/
  start : Nat
  done : Nat
  quiet : Bool
  gate : Nat
  /-- data of a read from device memory have arrived (08_load_store.md R182) -/
  visible : Bool
  /-- bytes of st.rd that are not yet visible, or of the 128-byte unit that ld.tw or ld.td fills, with their error marks -/
  buf : List (Byte × Bool)
  /-- the element that the last beat's edge cuts: its code as read, in a retire-convert word; present in a tile word when a
  bad byte has made it void -/
  cut : Option Nat
  deriving DecidableEq, Repr

/-- The MX issue in progress (11_matrix.md R242). -/
structure MxRun where
  instr : Instr
  live : Nat
  issue : Nat
  start : Nat
  dur : Nat
  mode : BitVec 4
  ctx : Nat
  serial : Nat
  /-- shapes at issue: A, B, T as (rows, width) -/
  shA : Nat × Nat
  shB : Nat × Nat
  shT : Nat × Nat
  fault : Bool
  replayed : Bool
  deriving DecidableEq, Repr

/-- A word of a retained window (11_matrix.md R254, 19_faults.md R355). -/
structure WinRec where
  serial : Nat
  word : EWord
  issues : Nat
  mode : BitVec 4
  /-- the segment it is counted in, 0 for none -/
  seg : Nat
  deriving DecidableEq, Repr

/-- An open segment (12_sequencer.md R285); engines by their number. -/
structure Seg where
  id : Nat
  expect : BitVec 32
  count : Nat
  crc : Tbl (BitVec 32)
  opened : List Nat
  closed : List Nat
  /-- words of the segment by engine -/
  words : Tbl Nat
  deriving DecidableEq, Repr

/-- The remainder stack with RSTK and RSMARK (10_reversible.md R212 to R216). `ents` holds the
on-core entries by position. -/
structure Stack where
  cap : Nat
  depth : Nat
  ents : Tbl RemEnt
  marks : Tbl (BitVec 16)
  base : Nat
  /-- refills held back after a write of RSTK (15_program_reversible.md R307) -/
  hold : Bool
  deriving DecidableEq, Repr

/-- An entry of the scalar return queue (09_vector.md R209). -/
structure RqEnt where
  value : Word
  tag : BitVec 4
  gen : BitVec 8
  deriving DecidableEq, Repr

/-- The state a context switch saves (12_sequencer.md R262). -/
structure Own where
  ring : Tbl Slot
  g : Tbl Word
  es : Tbl Word
  off : Nat
  sigma : Nat
  slap : Nat
  tiles : Tbl Tile
  accs : Tbl Acc
  stack : Stack
  tokens : Tbl Nat
  rq : List RqEnt
  rqOvf : Bool
  q : Tbl EngQ
  live : List LiveWord
  flights : List Flight
  xfers : List Xfer
  mx : Option MxRun
  /-- an MX word has issued since the context took ownership or was abandoned (11_matrix.md R258) -/
  mxUsed : Bool
  /-- MX stands at the finish of a retirement that left no block open (R258) -/
  mxAtPoint : Bool
  win : Tbl (List WinRec)
  seg : Option Seg
  gates : List BankGate
  deriving DecidableEq, Repr

/-- A store of a context that has not been performed at its home (14_consistency.md R294): to the scratchpad
of its core, or to device memory at a DPA. `cls` is the scope class of its page; `fenced` says that a FENCE.S has published
it to its core (R292, R300). `born` and `since` order its execution and its publication among all that the machine does. DEDUCED (log 6). -/
structure BufStore where
  id : Nat
  scratch : Bool
  addr : Nat
  data : List Byte
  cls : Nat
  fenced : Bool
  born : Nat
  since : Nat
  deriving DecidableEq, Repr

/-- A fault or trap with all that its record names (19_faults.md R339). -/
structure Record where
  cause : BitVec 8
  eng : Nat
  gen : BitVec 8
  ctx : Nat
  core : Nat
  task : BitVec 32
  status : BitVec 32
  word : Nat
  iter : Nat
  code : BitVec 52
  pc : Word
  addr : Word
  heads : List Nat
  tick : Nat
  lost : Nat
  /-- destination register of the trapping instruction (segment check) -/
  rd : BitVec 5
  /-- cycle of detection and the word's issue id, for order and for one record a word (R336) -/
  det : Nat
  live : Nat
  deriving DecidableEq, Repr

/-- A record posted for a context and not acted on (R336), with its SEQ once written. -/
structure OutRec where
  r : Record
  seq : Option (BitVec 32)
  deriving DecidableEq, Repr

/-- The instruction a context waits in (12_sequencer.md R261). -/
inductive Wait where
  | none
  /-- the instruction itself goes on when it can: it is tried again as it was fetched -/
  | again
  | fork (mask : BitVec 5) (recs : List (Word × Word)) (rd : BitVec 5)
  | rendv (mask : BitVec 5) (gen : BitVec 8)
  | ttload (dva n : Nat) (rd : BitVec 5)
  | waitc (wide : Bool) (addr : Word) (expect : Word) (rd : BitVec 5)
  | sstep (t : Nat) (group : BitVec 16) (entered : Bool) (rd : BitVec 5)
  | exwait (t : Nat) (rd : BitVec 5)
  | rqpop (rd : BitVec 5)
  | probe (base next stop : Nat) (write : Bool) (leaf : Word) (rd : BitVec 5)
  | sege (expect : BitVec 32) (again : Bool) (rd : BitVec 5)
  | taskEnd
  | halted (code : BitVec 12)
  deriving DecidableEq, Repr

/-- What the hardware keeps beside a save image, which has no place for it: the scopes of bank markers and
what they wait for (05_bank_units.md R127), the markers each queue has crossed, the engines that stand inside
the open segment, and the base of the remainder stack. -/
structure SaveSide where
  /-- profile of the module that saved the image (22_assembler.md R392) -/
  profile : Nat
  gates : List BankGate
  qgates : Tbl Nat
  seg : Option Seg
  base : Nat
  hold : Bool
  deriving DecidableEq, Repr

/-- A line that a context has pinned (12_sequencer.md R283): at the die level or the core's, by the key of its
physical address; `soft` once the context has been switched out (R284). -/
structure Pin where
  die : Bool
  line : Nat
  soft : Bool
  deriving DecidableEq, Repr

/-- A task context (12_sequencer.md R261, R263). -/
structure Ctx where
  live : Bool
  pc : Word
  x : Tbl Word
  numMode : BitVec 4
  numSt : BitVec 7
  task : BitVec 32
  prio : BitVec 8
  kernel : Bool
  gen : BitVec 8
  wmask : BitVec 32
  pins : List Pin
  lost : Bool
  segLast : Word
  rqLast : Word
  exLate : BitVec 32
  exClass : BitVec 2
  exEvt : BitVec 8
  boost : BitVec 2
  saveb : Word
  prept : BitVec 10
  forks : Nat
  wait : Wait
  /-- the instruction it executes, or waits in -/
  cur : BitVec 32
  /-- order in which it began to wait for ownership -/
  want : Option Nat
  trapped : Option OutRec
  saved : Bool
  /-- an abandonment has acted while the context was switched out (19_faults.md R345): it acts on the
  image's entries at the restore -/
  aband : Bool
  stores : List BufStore
  groups : List (BitVec 16)
  /-- order on the core of the FORKs of the entries in its saved image (14_consistency.md R305) -/
  orders : Tbl Nat
  side : Option SaveSide
  deriving DecidableEq, Repr

/-- A range of bytes in a space: 0 DVA, 1 scratchpad of core `who`, 2 weight store of die `who`. -/
structure Range where
  space : Nat
  who : Nat
  lo : Nat
  len : Nat
  deriving DecidableEq, Repr

/-- A job of a CP word (06_copy_scratchpad.md R147, 05_bank_units.md R113). Output bytes are numbered from
0 in delivery order; a destination is named by its core, by 512 for device memory, by 513 for the weight
store. -/
structure Job where
  id : Nat
  ctx : Nat
  /-- task of the issuing context, so that flags of an ended task are discarded (02_numbers.md R52) -/
  task : BitVec 32
  /-- the CP word as it issued -/
  lw : LiveWord
  op : CpOp
  ch : Nat
  card : Nat
  /-- the eight words of the card, once read -/
  c : List Word
  /-- last code of the page at WBASE, and of the page at SBASE -/
  code : Nat
  scode : Nat
  /-- order of its entry's FORK on the core (14_consistency.md R305) -/
  order : Nat
  kernel : Bool
  /-- its issue of the word (19_faults.md R340) -/
  issue : Nat
  /-- 0 in step 1 of R113 and R147, 1 before its checks, 2 while its inputs are read, 3 before the sole dies accept it,
  4 launched -/
  stage : Nat
  gated : Bool
  /-- bank marker in front of it -/
  gate : Nat
  /-- operands, or packed x -/
  inp : List Byte
  /-- index array, or x scales -/
  inp2 : List Byte
  /-- pieces read ahead with their error marks: of weights and scales, 64 bytes by DVA / 64; of a source, by the number
  of their first output byte -/
  pieces : Tbl (List (Byte × Bool))
  /-- output bytes from number `lo` on that are known and not yet sent everywhere -/
  buf : List Byte
  lo : Nat
  /-- output bytes sent, and delivered and counted, by destination -/
  snt : Tbl Nat
  land : Tbl Nat
  /-- elements performed at their unit, or records summed -/
  acts : Nat
  /-- the row sum in progress (05_bank_units.md R115) -/
  sum : BitVec 32
  poison : Bool
  deriving DecidableEq, Repr

/-- A tile word of an LD entry as a stage set sees it (14_consistency.md R305): the address of its issue 0, whether it
steps, its issues, the runs of it that have not begun, the issue that the run under way makes next with its S, what its
issues have been found to read as (address, bytes), and the runs that have not finished. -/
structure StageTile where
  word : Nat
  base : Nat
  steps : Bool
  issues : Nat
  left : Nat
  next : Nat
  size : Nat
  read : List (Nat × Nat)
  open_ : Nat
  deriving DecidableEq, Repr

/-- The stage set of an MX entry (14_consistency.md R305). `order` names the FORK on the core; `tiles` are the tile words
of its LD entry. -/
structure Stage where
  order : Nat
  ctx : Nat
  tiles : List StageTile
  /-- accumulators its words write that have not retired -/
  accs : List Nat
  /-- runs of words that write an accumulator and have not begun; none are left when the entry has left its queue -/
  writes : Nat
  mxDone : Bool
  ldDone : Bool
  deriving DecidableEq, Repr

/-- A queued task (16_scheduling.md R315 to R318). -/
structure QTask where
  entry : Word
  prio : BitVec 8
  kernel : Bool
  task : BitVec 32
  x : Tbl Word
  groups : List (BitVec 16)
  waited : Nat
  /-- an enqueued continuation of a task that has begun, no task of a launch packet (12_sequencer.md R273) -/
  cont : Bool
  deriving DecidableEq, Repr

/-- Why the core lap-stalls (07_ring.md R159). -/
inductive Cause where
  | token
  | bank
  | refresh
  | stack
  | exchange
  | port
  | late
  | fault
  | stop
  | repair
  | gather
  | segment
  deriving DecidableEq, Repr

/-- A lap stall in progress (07_ring.md R159): the physical cycle its present lap began, the causes
that held then, and the consecutive laps whose every cause was a token wait (03_words.md R421). -/
structure Stall where
  begin_ : Nat
  causes : List Cause
  tokenLaps : Nat
  deriving DecidableEq, Repr

/-- A burst that holds banks of the scratchpad (06_copy_scratchpad.md R133). -/
structure Burst where
  banks : List Nat
  until_ : Nat
  deriving DecidableEq, Repr

/-- A beat of a granted burst that is written in a later cycle of it (06_copy_scratchpad.md R133): its bytes count on
channel `ch`, and for job `job` of core `src`. -/
structure Beat where
  due : Nat
  addr : Nat
  data : List Byte
  ch : Nat
  src : Nat
  job : Nat
  deriving DecidableEq, Repr

/-- A move of the spill machine under way (10_reversible.md R217): of the entry at `pos`, to the region or back; which of its
use of port 8 and its two accesses have been made, and the entry as far as it is known. DEDUCED (log 32). -/
structure SpillMove where
  spill : Bool
  pos : Nat
  port : Bool
  data : Bool
  info : Bool
  ent : RemEnt
  deriving DecidableEq, Repr

/-- A change of owner under way (07_ring.md R163): who takes the engines, and the cycles that the save and the restore still
take through port 8. -/
structure Swap where
  next : Nat
  left : Nat
  deriving DecidableEq, Repr

/-- What a cycle has done so far. -/
structure CycInfo where
  /-- the word each engine has issued -/
  issued : Tbl EWord
  /-- where those words are stored -/
  places : Tbl Nat
  stallBegan : Bool
  faultTaken : Bool
  /-- the sequencer has issued its instruction (12_sequencer.md R261) -/
  seq : Bool
  /-- slots written this cycle, by eyelet position and slot -/
  wrote : List (Nat × Nat)
  /-- guards written by VX this cycle, as they stood before it (07_ring.md R165) -/
  gOld : Tbl Word
  /-- port 8 has been used (R164) -/
  port : Bool
  /-- the class of each engine that makes no issue, with the counter of the queue it waits on (24_debug.md R399) -/
  classes : Tbl (Nat × Nat)
  deriving DecidableEq, Repr

/-- A debugger request that waits for its cycle (07_ring.md R164, 19_faults.md R357). DESIGN CHOICE (log 108). -/
inductive DebugReq where
  | readSlot (s : Nat)
  | write (t : DebugTarget)
  deriving DecidableEq, Repr

/-- A trace record (24_debug.md R404). -/
structure TraceRec where
  ringph : Word
  ftick : Nat
  words : Tbl EWord
  classes : BitVec 10
  deriving DecidableEq, Repr

/-- One core. -/
structure CoreSt where
  p : Nat
  owner : Option Nat
  own : Own
  ctxs : Tbl Ctx
  rr : Nat
  waitNo : Nat
  stall : Option Stall
  /-- laps owed by a gather or scatter of many granules (08_load_store.md R175) -/
  owed : Nat
  /-- laps that a re-measure of a segment still takes (19_faults.md R356) -/
  segLaps : Nat
  holdFault : Bool
  stop : Bool
  /-- a repair of the cluster will hold the core from its next lap boundary on, or holds it, until this tick (25_service.md
  R413) -/
  repairDue : Option Nat
  repair : Option Nat
  /-- the hold of a fault ends at the next lap boundary (19_faults.md R334) -/
  release : Bool
  sp : Tbl Byte
  spBad : List Nat
  pend : List Nat
  pendMode : Bool
  noslot : Nat
  uce : Nat
  bstall : Nat
  chwp : Tbl (BitVec 64)
  bursts : List Burst
  beats : List Beat
  jobs : List Job
  stages : List Stage
  nextJob : Nat
  forkOrder : Nat
  colLast : BitVec 4
  colCount : Nat
  ctrap : Bool
  rsSpill : Nat
  rsRefill : Nat
  rsSlap : Nat
  mxDrop : Nat
  mxReplay : Nat
  void : Nat
  segOk : Nat
  segTrap : Nat
  /-- laps stalled, for the lifetime record no program reads (24_debug.md R405) -/
  lapCount : Nat
  tt : List (Word × Word)
  /-- data cache: 64-byte lines by DPA / 64, with the scope class -/
  dcache : Tbl (List Byte × BitVec 3)
  /-- lines of the data cache that engines of the core have written at home since they were filled (12_sequencer.md R281) -/
  dstale : List Nat
  /-- instruction cache: the lines of 128 bytes present, by their key, each with the DPA and the byte of every cell
  as it was fetched; a FENCE.I leaves the line present and its bytes unknown (03_words.md R71) -/
  icache : Tbl (List (Nat × Byte))
  /-- stores of tasks that have left their context, on their way to their homes -/
  posted : List BufStore
  faults : List Record
  kept : List Record
  taskQ : List QTask
  qhEn : Bool
  qhFrz : Bool
  qhIdx : BitVec 6
  qh : Tbl Nat
  trEn : Bool
  trAct : Bool
  trWrap : Bool
  trace : List TraceRec
  trStart : Word
  trStop : Word
  trRd : BitVec 13
  cyc : CycInfo
  dbg : List DebugReq
  move : Option SpillMove
  swap : Option Swap
  /-- the physical core out of use marks its logical index as out of service -/
  inService : Bool
  deriving DecidableEq, Repr

/-- The timed domain of a cluster (16_scheduling.md R325 to R328). -/
structure Cluster where
  state : BitVec 2
  permits : Nat
  idle : Nat
  bmax : BitVec 2
  swal : Nat
  nextSwal : Nat
  /-- pulses given in the interval -/
  pulses : Nat
  /-- a context held a task at some tick of the interval -/
  busy : Bool
  /-- thermal band of the last reading and tick of the last SWAL change (25_service.md R416) -/
  band : Nat
  lastSwal : Nat
  thermalMax : BitVec 2
  ageMax : BitVec 2
  /-- steps of supply voltage above nominal (25_service.md R417); no program reads it -/
  volt : Nat
  spareUsed : Bool
  inService : Bool
  deriving DecidableEq, Repr

/-- Position of a launch queue or send queue inside its packet (16_scheduling.md R311, R312). -/
structure LqPos where
  /-- re-reads made of an invalid SEQ, and the tick of the next -/
  rereads : Nat
  nextRead : Option Nat
  /-- packet being placed: its words and the next task -/
  placing : Option (List Word × Nat)
  /-- descriptor sent to the peer: its words -/
  sent : Option (List Word)
  deriving DecidableEq, Repr

/-- A die link (21_links.md R360 to R368). -/
structure Link where
  curr : Nat
  /-- retired lanes: (direction, module, lane) -/
  ret : List (Nat × Nat × Nat)
  width0 : Nat
  width1 : Nat
  mup : BitVec 4
  spuse : BitVec 12
  cls : BitVec 2
  /-- end tick of the retrain under way -/
  train : Option Nat
  /-- rate code that the retrain under way sets -/
  toRate : Nat
  /-- retirements that arrived during it, for a further retrain (R366) -/
  again : List (Nat × Nat × Nat)
  /-- replays in this window, in the last window, consecutive windows above RTHR -/
  wReplay : Nat
  lastOver : Bool
  overs : Nat
  /-- CRC errors of the window by lane key 512 dir + 128 m + lane -/
  errs : Tbl Nat
  deriving DecidableEq, Repr

/-- A byte of device memory that an atomic unit has written for job `job` of context `ctx` of core `core`, and that an
access may still find as it was, `old`, which is none for a byte not written since reset (05_bank_units.md R124). `own` says
that the engines of the core are ordered after the write (R125), `seq` that its sequencer is (12_sequencer.md R281). -/
structure Missed where
  addr : Nat
  core : Nat
  ctx : Nat
  job : Nat
  own : Bool
  seq : Bool
  old : Option Byte
  deriving DecidableEq, Repr

/-- A record of an exchange plan (16_scheduling.md R321). -/
structure ExRec where
  deadline : Nat
  dstc : Nat
  srcc : Nat
  dst : Nat
  src : Nat
  len : Nat
  /-- bytes read at the source, those of them on their way, and bytes landed -/
  sent : Nat
  buf : List Byte
  done : Nat
  late : Bool
  deriving DecidableEq, Repr

/-- A plan set as EXPLAN read it for a group: the record list of each link class. -/
structure PlanSet where
  part : Nat
  group : BitVec 16
  plans : List (List ExRec)
  deriving DecidableEq, Repr

/-- The barrier and the exchange of a route tag (R320, R322). Members are (core, context). -/
structure TagSt where
  entered : List (Nat × Nat)
  tlast : Option Nat
  release : Option Nat
  /-- ticks of T0 and records while an exchange runs -/
  t0 : Option Nat
  recs : List ExRec
  /-- installed plan sets by core -/
  sets : Tbl PlanSet
  late : Tbl Nat
  /-- the partition and the group whose exchange runs -/
  run : Option (Nat × BitVec 16)
  deriving DecidableEq, Repr

/-- A group of a partition (12_sequencer.md R276): member tasks by TASK number. -/
structure Group where
  part : Nat
  num : BitVec 16
  members : List (BitVec 32)
  deriving DecidableEq, Repr

/-- A continuation (12_sequencer.md R272, R273). -/
structure Cont where
  id : Nat
  core : Nat
  scratch : Bool
  addr : Nat
  wide : Bool
  expect : Word
  pc : Word
  rd : BitVec 5
  x : Tbl Word
  task : BitVec 32
  prio : BitVec 8
  kernel : Bool
  groups : List (BitVec 16)
  /-- woken: 0 by a write, 2 by a SIGNL -/
  woken : Option Nat
  deriving DecidableEq, Repr

/-- A remote write on its way (06_copy_scratchpad.md R140). -/
structure Msg where
  id : Nat
  src : Nat
  dst : Nat
  ch : Nat
  job : Nat
  addr : Nat
  data : List Byte
  /-- FP32 elements are added at the bank ALU (05_bank_units.md R115) -/
  add : Bool
  /-- ranges to be marked pending when it arrives, in the first message of a job (R142) -/
  marks : List (Nat × Nat)
  deriving DecidableEq, Repr

/-- What the module gives to the outside. DESIGN CHOICE (log 31). DESIGN CHOICE (log 88). -/
inductive Output where
  | faultIrq (part core : Nat)
  | serviceIrq (part core : Nat)
  | readData (part dva : Nat) (data : List Byte)
  | unsupported (part dva : Nat)
  | barData (off : Nat) (v : Word)
  | slotData (core slot : Nat) (data : BitVec 1024) (tag : BitVec 4)
  | report (bytes : List Byte)
  | frame (port sub : Nat) (bytes : List Byte)
  | wslRequest (die queue : Nat) (desc : List Word) (data : List Byte)
  | wslReply (refused : Bool) (old : Word)
  | linkRecord (link : Nat) (old new : BitVec 2) (tick : Nat)
  | thermalAlert (cluster band : Nat)
  | haltCode (core ctx : Nat) (code : BitVec 12)
  | bootStopped
  deriving DecidableEq, Repr

/-- The management core's store (24_debug.md R405, 25_service.md R407). -/
structure Store where
  /-- lifetime records by the key of LRSEL -/
  life : Tbl Word
  /-- last samples by the same key -/
  last : Tbl Nat
  retCores : List (Nat × Nat)
  retUnits : List (Nat × Nat)
  retRows : List (Nat × Nat)
  retLanes : List (Nat × Nat × Nat × Nat)
  deriving DecidableEq, Repr

/-- The management core's running state. -/
structure Svc where
  nv : Store
  /-- lifetime records as held in its own SRAM since the last write-back -/
  ram : Tbl Word
  /-- M0 to M11 -/
  slots : Tbl (BitVec 256)
  /-- the management firmware has been verified and runs (25_service.md R409) -/
  verified : Bool
  booted : Bool
  stopped : Bool
  tested : Bool
  /-- partitions whose system image has been verified and started -/
  parts : List Nat
  /-- power-down countdown of R416 -/
  downAt : Option Nat
  /-- ticks, modulo 2^32, from the power-on reset to the last reset, from which samples and write-backs of the lifetime
  records are counted (24_debug.md R406) -/
  lifeBase : Nat
  unitSpares : Tbl Nat
  shared : List (Nat × Nat)
  unitsOut : List (Nat × Nat)
  /-- map from logical index to physical core, by cluster * 16 + index, where it is not the identity -/
  physMap : Tbl Nat
  deriving DecidableEq, Repr

/-- The module. -/
structure State where
  power : Bool
  ftick : Nat
  at_ : Agent
  turns : List Turn
  draws : Nat
  /-- device memory by DPA -/
  mem : Tbl Byte
  memBad : List Nat
  /-- bytes of device memory that the module has stored and not made visible to readers outside it, with what such a
  reader still finds there (14_consistency.md R302); none stands for a byte not written since reset -/
  unseen : List (Nat × Option Byte)
  /-- writes of bank atomics that ordinary accesses may still miss (05_bank_units.md R124) -/
  missed : List Missed
  /-- weight store by die * 2^28 + WSA -/
  ws : Tbl Byte
  wsBad : List Nat
  wsOpen : List (Nat × Nat)
  /-- tick of the last beat of an ld.tw at a bank of the weight store, by die * 32 + bank (08_load_store.md R178) -/
  wsTook : Tbl Nat
  cores : Tbl CoreSt
  hub : Tbl Word
  clusters : Tbl Cluster
  diePtr : Tbl Nat
  /-- the launch queue of a die whose turn it is (16_scheduling.md R311) -/
  lqTurn : Tbl Nat
  lqs : Tbl LqPos
  sqs : Tbl LqPos
  tasksMade : Tbl Nat
  links : Tbl Link
  groups : List Group
  tags : Tbl TagSt
  conts : List Cont
  nextCont : Nat
  msgs : List Msg
  nextMsg : Nat
  /-- whole jobs that own a channel: (destination core, channel, source core, job) (05_bank_units.md R117) -/
  chanLock : List (Nat × Nat × Nat × Nat)
  held : List Record
  svc : Svc
  /-- lines present in the die code caches, by die -/
  dlines : List (Nat × Nat)
  /-- WSL flits replayed, by port 12 d + p (24_debug.md R405) -/
  wslReplays : Tbl Nat
  /-- the partitions to which the parts of an Ethernet port are assigned (21_links.md R376) -/
  eth : Tbl (List Nat)
  out : List Output
  deriving DecidableEq, Repr

/-- An empty ring slot (02_numbers.md R33). -/
def Slot.zero : Slot := { data := 0, tag := 0, bad := [] }

/-- A tile at reset (11_matrix.md R235). -/
def Tile.reset : Tile :=
  { bytes := [], scales := [], rows := 0x7F, width := 0xFF, tag := 0, bad := [], badScales := [] }

/-- An accumulator at reset (R239). -/
def Acc.reset : Acc :=
  { elems := [], form := false, kpos := 0, dep := 0, blk := none, welt := none, struck := false,
    bad := [], badParts := [] }

/-- A queue with nothing in it. -/
def EngQ.empty : EngQ := { items := [], run := none, drain := [], gate := 0, last := 0 }

/-- A remainder stack at reset (10_reversible.md R213, R215). -/
def Stack.reset : Stack :=
  { cap := 0, depth := 0, ents := [], marks := [], base := 0, hold := false }

/-- Owner state at reset. -/
def Own.reset : Own :=
  { ring := [], g := [], es := [], off := 0, sigma := 0, slap := 0, tiles := [], accs := [],
    stack := .reset, tokens := [], rq := [], rqOvf := false, q := [], live := [], flights := [],
    xfers := [], mx := none, mxUsed := false, mxAtPoint := false, win := [], seg := none,
    gates := [] }

/-- A free context; every register at 0 (DESIGN CHOICE, log 3), the live-item mask naming every item (R259).
DESIGN CHOICE (log 3). -/
def Ctx.reset : Ctx :=
  { live := false, pc := 0, x := [], numMode := 0, numSt := 0, task := 0, prio := 0,
    kernel := false, gen := 0, wmask := 0, pins := [], lost := false, segLast := 0,
    rqLast := 0, exLate := 0, exClass := 0, exEvt := 0, boost := 0, saveb := 0, prept := 0x3FF,
    forks := 0, wait := .none, cur := 0, want := none, trapped := none, saved := false, aband := false, stores := [],
    groups := [], orders := [], side := none }

/-- A cycle in which nothing has happened yet. -/
def CycInfo.empty : CycInfo :=
  { issued := [], places := [], stallBegan := false, faultTaken := false, seq := false, wrote := [], gOld := [], port := false
    classes := [] }

/-- A core at reset. DESIGN CHOICE (log 2). DESIGN CHOICE (log 10). DESIGN CHOICE (log 11).
DESIGN CHOICE (log 12). -/
def CoreSt.reset : CoreSt :=
  { p := 0, owner := none, own := .reset, ctxs := [], rr := 0, waitNo := 0, stall := none, owed := 0, segLaps := 0,
    holdFault := false, stop := false, repairDue := none, repair := none, release := false, sp := [], spBad := [],
    pend := [], pendMode := false, noslot := 0, uce := 0, bstall := 0, chwp := [], bursts := [], beats := [],
    jobs := [], stages := [], nextJob := 1, forkOrder := 0, colLast := 0, colCount := 0,
    ctrap := false, rsSpill := 0, rsRefill := 0, rsSlap := 0, mxDrop := 0, mxReplay := 0,
    void := 0, segOk := 0, segTrap := 0, lapCount := 0, tt := [], dcache := [], dstale := [], icache := [],
    posted := [], faults := [], kept := [], taskQ := [], qhEn := false, qhFrz := false, qhIdx := 0,
    qh := [], trEn := false, trAct := false, trWrap := false, trace := [], trStart := 0,
    trStop := 0, trRd := 0, cyc := .empty, dbg := [], move := none, swap := none, inService := true }

/-- A cluster at reset (16_scheduling.md R327, R328). -/
def Cluster.reset : Cluster :=
  { state := 0, permits := 64, idle := 0, bmax := 2, swal := 0, nextSwal := 0, pulses := 0,
    busy := false, band := 0, lastSwal := 0, thermalMax := 2, ageMax := 2, volt := 0,
    spareUsed := false, inService := true }

/-- A queue position at reset. -/
def LqPos.reset : LqPos := { rereads := 0, nextRead := none, placing := none, sent := none }

/-- A link at reset (21_links.md R363); that no lane is retired until self-test is the model's choice (DESIGN CHOICE,
log 13). -/
def Link.reset : Link :=
  { curr := 0, ret := [], width0 := 256, width1 := 256, mup := 0xF, spuse := 0, cls := 0,
    train := none, toRate := 0, again := [], wReplay := 0, lastOver := false, overs := 0, errs := [] }

/-- A route tag at reset. -/
def TagSt.reset : TagSt :=
  { entered := [], tlast := none, release := none, t0 := none, recs := [], sets := [], late := [], run := none }

/-- The store of a new part (DESIGN CHOICE, log 13). -/
def Store.new : Store :=
  { life := [], last := [], retCores := [], retUnits := [], retRows := [], retLanes := [] }

/-- The management core before boot. DESIGN CHOICE (log 13). -/
def Svc.reset : Svc :=
  { nv := .new, ram := [], slots := [], verified := false, booted := false, stopped := false, tested := false,
    parts := [], downAt := none, lifeBase := 0, unitSpares := [], shared := [], unitsOut := [], physMap := [] }

/-- The module right after power-on reset (25_service.md R407). DESIGN CHOICE (log 10). DESIGN CHOICE (log 11).
DESIGN CHOICE (log 12). -/
def State.reset : State :=
  { power := true, ftick := 0, at_ := .none, turns := [], draws := 0, mem := [], memBad := [], unseen := [], missed := [],
    ws := [], wsBad := [], wsOpen := [(0, 0), (1, 0), (2, 0), (3, 0)], wsTook := [], cores := [], hub := [], clusters := [], diePtr := [], lqTurn := [],
    lqs := [], sqs := [], tasksMade := [], links := [], groups := [], tags := [], conts := [],
    nextCont := 1, msgs := [], nextMsg := 1, chanLock := [], held := [], svc := .reset,
    dlines := [], wslReplays := [], eth := [], out := [] }

end Sys2Proof.Machine
end

