-- ==== Sys2Proof/Machine/Tbl.lean ====
section
/-! DEFINITION. Sparse tables in one canonical form: keys strictly rising, and no entry equal to what
an unlisted key reads as. Device memory, scratchpads, tiles and register files are such tables. -/
namespace Sys2Proof.Machine

/-- The entry of a key, if one is listed. -/
def tblFind {α : Type} : Tbl α → Nat → Option α
  | [], _ => none
  | (k, v) :: r, i => if i = k then some v else tblFind r i

/-- The value of a key; `d` is what an unlisted key reads as. -/
def tblGet {α : Type} (d : α) (t : Tbl α) (i : Nat) : α := (tblFind t i).getD d

/-- List an entry, in its place. -/
def tblPut {α : Type} : Tbl α → Nat → α → Tbl α
  | [], i, v => [(i, v)]
  | (k, w) :: r, i, v =>
    if i < k then (i, v) :: (k, w) :: r
    else if i = k then (i, v) :: r
    else (k, w) :: tblPut r i v

/-- Remove the entry of a key. -/
def tblErase {α : Type} (t : Tbl α) (i : Nat) : Tbl α := t.filter fun e => e.1 != i

/-- Write a value: an entry equal to what an unlisted key reads as is not listed. -/
def tblSet {α : Type} [DecidableEq α] (d : α) (t : Tbl α) (i : Nat) (v : α) : Tbl α :=
  if v = d then tblErase t i else tblPut t i v

/-- Change a value in place. -/
def tblMod {α : Type} [DecidableEq α] (d : α) (t : Tbl α) (i : Nat) (f : α → α) : Tbl α :=
  tblSet d t i (f (tblGet d t i))

/-- Every key of the table is above `b`, and the keys rise strictly. -/
def tblRising {α : Type} : Nat → Tbl α → Bool
  | _, [] => true
  | b, (k, _) :: r => decide (b ≤ k) && tblRising (k + 1) r

/-- The canonical form of a table whose unlisted keys have no value. -/
def tblWf {α : Type} (t : Tbl α) : Bool := tblRising 0 t

/-- The canonical form of a table whose unlisted keys read as `d`. -/
def tblWfD {α : Type} [DecidableEq α] (d : α) (t : Tbl α) : Bool :=
  tblRising 0 t && t.all fun e => decide (e.2 ≠ d)

/-- `n` consecutive entries of a table that has none below `lo`. -/
def tblRun {α : Type} : Tbl α → Nat → Nat → List (Option α)
  | _, _, 0 => []
  | [], lo, n + 1 => none :: tblRun [] (lo + 1) n
  | (k, v) :: r, lo, n + 1 =>
    if k = lo then some v :: tblRun r (lo + 1) n else none :: tblRun ((k, v) :: r) (lo + 1) n

/-- `n` consecutive entries. -/
def tblSpan {α : Type} (t : Tbl α) (lo n : Nat) : List (Option α) := tblRun (t.dropWhile fun e => decide (e.1 < lo)) lo n

/-- Read `n` consecutive values. -/
def tblRange {α : Type} (d : α) (t : Tbl α) (lo n : Nat) : List α := (tblSpan t lo n).map fun v => v.getD d

/-- Consecutive keys for a list of values. -/
def keyed {α : Type} : Nat → List α → Tbl α
  | _, [] => []
  | i, v :: r => (i, v) :: keyed (i + 1) r

/-- Put entries in the place of those with keys from `lo` to `lo + n - 1`. -/
def tblSplice {α : Type} (t : Tbl α) (lo n : Nat) (new : Tbl α) : Tbl α :=
  (t.takeWhile fun e => decide (e.1 < lo)) ++ new ++ t.dropWhile fun e => decide (e.1 < lo + n)

/-- Write consecutive values. -/
def tblSetRange {α : Type} [DecidableEq α] (d : α) (t : Tbl α) (lo : Nat) (vs : List α) : Tbl α :=
  tblSplice t lo vs.length ((keyed lo vs).filter fun e => decide (e.2 ≠ d))

/-- Write consecutive values into a table whose unlisted keys have no value. -/
def tblPutRange {α : Type} (t : Tbl α) (lo : Nat) (vs : List α) : Tbl α := tblSplice t lo vs.length (keyed lo vs)

/-- The memory form of the host: cells in canonical form. -/
abbrev Memory := List Host.Cell

/-- Device memory is in canonical form: strictly rising addresses; an unlisted byte has no value. -/
def memWf (m : Memory) : Bool := tblWf m

end Sys2Proof.Machine
end

