-- ==== Sys2Proof/Machine/Ops.lean ====
section
/-! DEFINITION. The named operations over registers, memories and records: the one home of each
register, the byte memories, translation, waking of continuations, and taking a trap or a fault. -/
namespace Sys2Proof.Machine

/-! ## Cores, contexts and owner state -/

def State.core (s : State) (c : Nat) : CoreSt := tblGet CoreSt.reset s.cores c

def State.setCore (s : State) (c : Nat) (v : CoreSt) : State :=
  { s with cores := tblSet CoreSt.reset s.cores c v }

def State.modCore (s : State) (c : Nat) (f : CoreSt → CoreSt) : State := s.setCore c (f (s.core c))

def CoreSt.ctx (k : CoreSt) (i : Nat) : Ctx := tblGet Ctx.reset k.ctxs i

def CoreSt.setCtx (k : CoreSt) (i : Nat) (v : Ctx) : CoreSt :=
  { k with ctxs := tblSet Ctx.reset k.ctxs i v }

def State.ctx (s : State) (c k : Nat) : Ctx := (s.core c).ctx k

def State.setCtx (s : State) (c k : Nat) (v : Ctx) : State := s.modCore c fun x => x.setCtx k v

def State.modCtx (s : State) (c k : Nat) (f : Ctx → Ctx) : State := s.setCtx c k (f (s.ctx c k))

def State.own (s : State) (c : Nat) : Own := (s.core c).own

def State.modOwn (s : State) (c : Nat) (f : Own → Own) : State :=
  s.modCore c fun k => { k with own := f k.own }

/-- A fresh draw for a free value. -/
def State.draw (s : State) : Nat × State := (s.draws, { s with draws := s.draws + 1 })

/-- Give something to the outside. DESIGN CHOICE (log 31). -/
def State.emit (s : State) (o : Output) : State := { s with out := s.out ++ [o] }

/-- A move that is due next. -/
def State.push (s : State) (ts : List Turn) : State := { s with turns := ts ++ s.turns }

/-! ## Registers -/

/-- Read xn; x0 reads as zero (12_sequencer.md R261). -/
def Ctx.reg (k : Ctx) (r : BitVec 5) : Word := if r = 0 then 0 else tblGet 0 k.x r.toNat

/-- Write xn; a write to x0 is discarded. -/
def Ctx.setReg (k : Ctx) (r : BitVec 5) (v : Word) : Ctx :=
  if r = 0 then k else { k with x := tblSet 0 k.x r.toNat v }

/-- Read a guard register; g0 reads all-true (01_module.md R25). -/
def Own.guard (o : Own) (g : Nat) : BitVec 64 :=
  if g = 0 then BitVec.allOnes 64 else tblGet 0 o.g g

/-- Write a guard register; a write to g0 is discarded (07_ring.md R165). -/
def Own.setGuard (o : Own) (g : Nat) (v : BitVec 64) : Own :=
  if g = 0 then o else { o with g := tblSet 0 o.g g v }

/-- The es file as a snapshot takes it (03_words.md R68). -/
def Own.esList (o : Own) : List Word := (upFrom 0 8).map fun i => tblGet 0 o.es i

def Own.slot (o : Own) (i : Nat) : Slot := tblGet Slot.zero o.ring i

def Own.setSlot (o : Own) (i : Nat) (v : Slot) : Own := { o with ring := tblSet Slot.zero o.ring i v }

def Own.tile (o : Own) (i : Nat) : Tile := tblGet Tile.reset o.tiles i

def Own.setTile (o : Own) (i : Nat) (v : Tile) : Own := { o with tiles := tblSet Tile.reset o.tiles i v }

def Own.acc (o : Own) (i : Nat) : Acc := tblGet Acc.reset o.accs i

def Own.setAcc (o : Own) (i : Nat) (v : Acc) : Own := { o with accs := tblSet Acc.reset o.accs i v }

def Own.queue (o : Own) (e : Nat) : EngQ := tblGet EngQ.empty o.q e

def Own.setQueue (o : Own) (e : Nat) (v : EngQ) : Own := { o with q := tblSet EngQ.empty o.q e v }

/-- The number of an engine: 0 CP, 1 LD, 2 MX, 3 VX, 4 ST (19_faults.md R339). -/
def engNo : Engine → Nat
  | .cp => 0 | .ld => 1 | .mx => 2 | .vx => 3 | .st => 4

/-- The engine of a number. -/
def engOf : Nat → Engine
  | 0 => .cp | 1 => .ld | 2 => .mx | 3 => .vx | _ => .st

/-- NUMST flags of a context (02_numbers.md R52); those of a task that has ended are discarded. -/
def State.flag (s : State) (c k : Nat) (f : Flg) : State :=
  if f = 0 ∨ (s.ctx c k).live = false then s else s.modCtx c k fun x => { x with numSt := x.numSt ||| f }

/-! ## The hub register space (25_service.md R419) -/

def offPtroot (p : Nat) : Nat := 8 * p
def offPassign (p : Nat) : Nat := 0x100 + 8 * p
def offPgrant (p n : Nat) : Nat := 0x200 + 64 * p + 8 * n
def offStpass : Nat := 0x400
def offWslid : Nat := 0x408
def offWslcnt : Nat := 0x410
def offXrt (t : Nat) : Nat := 0x500 + 8 * t
def offLrsel : Nat := 0x600
def offLrdat : Nat := 0x608
def offThcfg (d : Nat) : Nat := 0x700 + 8 * d
def offLkctl (l : Nat) : Nat := 0x10000 + 0x100 * l
def offLkcnt (l : Nat) : Nat := 0x10018 + 0x100 * l
def offWslport (d p : Nat) : Nat := 0x20000 + 0x80 * d + 8 * p
def offLqcfg (d q : Nat) : Nat := 0x30000 + 0x400 * d + 0x40 * q
def offLqkick (d q : Nat) : Nat := 0x30008 + 0x400 * d + 0x40 * q
def offLqstat (d q : Nat) : Nat := 0x30010 + 0x400 * d + 0x40 * q
def offWsqcfg (d q : Nat) : Nat := 0x40000 + 0x400 * d + 0x40 * q
def offWsqkick (d q : Nat) : Nat := 0x40008 + 0x400 * d + 0x40 * q
def offWsqstat (d q : Nat) : Nat := 0x40010 + 0x400 * d + 0x40 * q
def offLbp (d n : Nat) : Nat := 0x50000 + 0x40 * d + 8 * n
def offDbgctl (c : Nat) : Nat := 0x60000 + 16 * c
def offDbghead (c : Nat) : Nat := 0x60008 + 16 * c
def offWsstat (d : Nat) : Nat := 0x70000 + 0x1000 * d
def offBustat (sd : Nat) : Nat := 0x80000 + 8 * sd
def offFqcfg (p : Nat) : Nat := 0x100000 + 0x1000 * p
def offFqhead (p : Nat) : Nat := 0x100008 + 0x1000 * p
def offFqstat (p : Nat) : Nat := 0x100010 + 0x1000 * p
def offTrval (p : Nat) : Nat := 0x100018 + 0x1000 * p
def offTact (p : Nat) : Nat := 0x100020 + 0x1000 * p
def offSvcevt (p : Nat) : Nat := 0x100028 + 0x1000 * p
def offRtbind (t : Nat) : Nat := 0x108000 + 8 * t

/-- The reset value of a hub register, from its own map. DESIGN CHOICE (log 13). -/
def hubReset (off : Nat) : Word :=
  if 0x700 ≤ off ∧ off < 0x720 ∧ off % 8 = 0 then 0x73695F                     -- THCFG: 115, 105, 95
  else if 0x10000 ≤ off ∧ off < 0x10800 ∧ off % 0x100 = 0 then 0x40_0000_0006   -- LKCTL: RTHR 64, AUTO, FB
  else if 0x30000 ≤ off ∧ off < 0x31000 ∧ off % 0x40 = 0 then 0x0400_0000_0000_0000  -- LQCFG.SIZE 4
  else if 0x40000 ≤ off ∧ off < 0x41000 ∧ off % 0x40 = 0 then 0x0400_0000_0000_0000  -- WSQCFG.SIZE 4
  else if 0x100000 ≤ off ∧ off < 0x108000 ∧ off % 0x1000 = 0 then 0x0040_0000_0000_0000 -- FQCFG.SIZE 4
  else 0

def State.hubGet (s : State) (off : Nat) : Word := tblGet (hubReset off) s.hub off

def State.hubPut (s : State) (off : Nat) (v : Word) : State :=
  { s with hub := tblSet (hubReset off) s.hub off v }

/-- Add to a count field of a hub register, saturating. -/
def State.hubCount (s : State) (off lo n k : Nat) : State :=
  let w := (s.hubGet off).toNat
  let v := satAdd (fld w lo n) k (2 ^ n - 1)
  s.hubPut off (BitVec.ofNat 64 (w - fld w lo n <<< lo + v <<< lo))

/-- Set a field of a hub register. -/
def State.hubField (s : State) (off lo n v : Nat) : State :=
  let w := (s.hubGet off).toNat
  s.hubPut off (BitVec.ofNat 64 (w - fld w lo n <<< lo + (v % 2 ^ n) <<< lo))

def State.cluster (s : State) (cl : Nat) : Cluster := tblGet Cluster.reset s.clusters cl

def State.modCluster (s : State) (cl : Nat) (f : Cluster → Cluster) : State :=
  { s with clusters := tblMod Cluster.reset s.clusters cl f }

/-- A step of SWAL in the band that a cluster is in (25_service.md R416). DEDUCED (log 69). -/
def Cluster.step (u : Cluster) : Cluster :=
  match u.band with
  | 0 => { u with nextSwal := u.nextSwal - 2 }
  | 3 => { u with nextSwal := min 12 (u.nextSwal + 2) }
  | _ => u

/-- SWAL takes its next step 64 µs after the last one, while the readings stay in the band (25_service.md R416). -/
def Cluster.swallow (u : Cluster) (now : Nat) : Cluster :=
  if u.lastSwal + 102400 = now then { u with lastSwal := now }.step else u

def State.link (s : State) (l : Nat) : Link := tblGet Link.reset s.links l

def State.modLink (s : State) (l : Nat) (f : Link → Link) : State :=
  { s with links := tblMod Link.reset s.links l f }

def State.tag (s : State) (t : Nat) : TagSt := tblGet TagSt.reset s.tags t

def State.modTag (s : State) (t : Nat) (f : TagSt → TagSt) : State :=
  { s with tags := tblMod TagSt.reset s.tags t f }

/-- The compute die of a core (01_module.md R19). -/
def dieOf (c : Nat) : Nat := c / 128

/-- The cluster number of a core. -/
def clusterOf (c : Nat) : Nat := c / 16

/-- The partition that PASSIGN gives a core (25_service.md R411); 8 when none does (DESIGN CHOICE, log 8). -/
def State.partOf (s : State) (c : Nat) : Nat :=
  ((upFrom 0 8).find? fun p => bit (s.hubGet (offPassign p)).toNat (clusterOf c)).getD 8

/-- A core number in service. -/
def State.inService (s : State) (c : Nat) : Bool :=
  decide (c < 512) && (s.cluster (clusterOf c)).inService && (s.core c).inService

/-- Raise an interrupt to the application core of R411. -/
def State.irqCore (s : State) (p : Nat) : Nat :=
  let w := (s.hubGet (offPassign p)).toNat
  let acore := fld w 48 16
  let irq := fld w 44 4
  if bit acore irq then irq else ((upFrom 0 16).find? fun a => bit acore a).getD irq

/-! ## Scratchpad (06_copy_scratchpad.md R129 to R131) -/

/-- CHWPn of a core (R134). -/
def CoreSt.chw (k : CoreSt) (n : Nat) : BitVec 64 := tblGet 0 k.chwp n

/-- One byte of a core's scratchpad; the pointer words read as CHWP (R131). DESIGN CHOICE (log 2).
DEDUCED (log 9). -/
def CoreSt.spByte (k : CoreSt) (a : Nat) : Byte :=
  if 0x7FFC0 ≤ a then BitVec.ofNat 8 ((k.chw ((a - 0x7FFC0) / 8)).toNat >>> (8 * (a % 8)))
  else tblGet 0 k.sp a

/-- Consecutive scratchpad bytes. -/
def CoreSt.spBytes (k : CoreSt) (a n : Nat) : List Byte :=
  let m := min n (0x7FFC0 - a)
  tblRange 0 k.sp a m ++ (upFrom (a + m) (n - m)).map k.spByte

/-- Consecutive scratchpad bytes with their uncorrectable marks. -/
def CoreSt.spRead (k : CoreSt) (a n : Nat) : List (Byte × Bool) :=
  ((k.spBytes a n).zip (upFrom a n)).map fun e => (e.1, k.spBad.contains (e.2 / 8))

/-- The first pending word that a read touches (R142). DEDUCED (log 90). -/
def CoreSt.pendingAt (k : CoreSt) (a n : Nat) : Option Nat :=
  if k.pendMode then ((upFrom (a / 4) (n / 4 + 2)).find? fun w => k.pend.contains w && decide (4 * w < a + n)).map (4 * ·)
  else none

/-- Write bytes; those in a pointer word or beyond the scratchpad are discarded (R131). A word written is no longer
pending (R142). DEDUCED (log 9). DEDUCED (log 90). -/
def CoreSt.spPutAll (k : CoreSt) (a : Nat) (bs : List Byte) : CoreSt :=
  let bs := bs.take (0x7FFC0 - a)
  { k with
    sp := tblSetRange 0 k.sp a bs
    pend := if k.pend.isEmpty then [] else k.pend.filter fun w => !overlaps (4 * w) 4 a bs.length }

/-- Units of 8 bytes that a write covers whole. -/
def wholeUnits (a n : Nat) : List Nat :=
  let lo := ceilDiv a 8
  upFrom lo ((a + n) / 8 - lo)

/-- Write bytes: a unit written whole loses its uncorrectable mark (19_faults.md R352). -/
def CoreSt.spWriteRaw (k : CoreSt) (a : Nat) (bs : List Byte) : CoreSt :=
  let k := CoreSt.spPutAll k a bs
  if k.spBad.isEmpty then k
  else { k with spBad := k.spBad.filter fun u => !(wholeUnits a bs.length).contains u }

/-- A continuation watches bytes that a write changed. -/
def Cont.watches (k : Cont) (scratch : Bool) (core a n : Nat) : Bool :=
  k.woken.isNone && k.scratch == scratch && (!scratch || k.core == core) &&
    overlaps k.addr (if k.wide then 8 else 4) a n

/-- The watched word as it stands. -/
def State.watched (s : State) (k : Cont) : Nat :=
  let n := if k.wide then 8 else 4
  if k.scratch then ofBytesLe ((s.core k.core).spBytes k.addr n)
  else ofBytesLe ((upFrom k.addr n).map fun i => (tblFind s.mem i).getD (Config.unwrittenByte s.draws i))

/-- After a write: wake every continuation whose word now differs from its expected value
(12_sequencer.md R273). -/
def State.wake (s : State) (scratch : Bool) (core a n : Nat) : State :=
  if s.conts.isEmpty then s
  else
    { s with conts := s.conts.map fun k =>
        if k.watches scratch core a n && s.watched k != (k.expect.toNat % 2 ^ (if k.wide then 64 else 32))
        then { k with woken := some 0 } else k }

/-- A write to a core's scratchpad by any agent. -/
def State.spWrite (s : State) (c a : Nat) (bs : List Byte) : State :=
  if bs.isEmpty then s
  else (s.modCore c fun k => k.spWriteRaw a bs).wake true c a bs.length

/-- Advance CHWPn (R135), which changes its pointer word (R131). -/
def State.chwAdd (s : State) (c ch n : Nat) : State :=
  if n = 0 then s
  else
    (s.modCore c fun k => { k with chwp := tblSet 0 k.chwp ch (k.chw ch + BitVec.ofNat 64 n) }).wake true c
      (0x7FFC0 + 8 * ch) 8

/-! ## Device memory (04_device_memory.md R79) -/

/-- Populated bytes. -/
def dpaLimit : Nat := 576 * 2 ^ 30

/-- One byte of device memory and its mark; a byte not written since reset is free (25_service.md
R407, DESIGN CHOICE, log 1). -/
def State.memCell (s : State) (a : Nat) (v : Option Byte) : Byte × Bool :=
  match v with
  | some v => (v, s.memBad.contains (a / 8))
  | none =>
    (Config.unwrittenByte s.draws a, s.memBad.contains (a / 8) || Config.unwrittenBad s.draws (a / 8))

/-- One byte of device memory. -/
def State.memByte (s : State) (a : Nat) : Byte × Bool := s.memCell a (tblFind s.mem a)

/-- Bytes of a run, with their marks. -/
def State.memRun (s : State) (a n : Nat) : List (Byte × Bool) :=
  ((tblSpan s.mem a n).zip (upFrom a n)).map fun e => s.memCell e.2 e.1


/-- What a reader outside the module finds in one byte of device memory (14_consistency.md R302). -/
def State.outByte (s : State) (a : Nat) : Byte × Bool :=
  match s.unseen.find? fun e => e.1 == a with
  | some e => s.memCell a e.2
  | none => s.memByte a

/-- Bytes that the module stores stay as they were to readers outside it (R302). -/
def State.hide (s : State) (ws : List (Nat × Byte)) : State :=
  { s with unseen := s.unseen ++ ws.map fun w => (w.1, tblFind s.mem w.1) }

/-- Readers outside the module see the bytes that `p` names as they now stand. -/
def State.reveal (s : State) (p : Nat → Bool) : State := { s with unseen := s.unseen.filter fun e => !p e.1 }

/-- Runs of consecutive addresses in a list of bytes. -/
def runsOf {α : Type} : List (Nat × α) → List (Nat × List α)
  | [] => []
  | (a, v) :: r =>
    match runsOf r with
    | (b, vs) :: rs => if b = a + 1 then (a, v :: vs) :: rs else (a, [v]) :: (b, vs) :: rs
    | [] => [(a, [v])]

/-- Read bytes at given physical addresses. -/
def State.memRead (s : State) (as : List Nat) : List (Byte × Bool) × State :=
  ((runsOf (as.map fun a => (a, ()))).flatMap fun r => s.memRun r.1 r.2.length, s.draw.2)

/-- Write bytes into a memory. -/
def memPutAll (m : Tbl Byte) (ws : List (Nat × Byte)) : Tbl Byte :=
  (runsOf ws).foldl (fun m r => tblPutRange m r.1 r.2) m

/-- Write bytes at given physical addresses, at their home (14_consistency.md R294). -/
def State.memWrite (s : State) (ws : List (Nat × Byte)) : State :=
  match ws with
  | [] => s
  | (a, _) :: _ =>
    let as := ws.map (·.1)
    let full (u : Nat) : Bool := (upFrom (8 * u) 8).all fun i => as.contains i
    let s :=
      { s with
        mem := memPutAll s.mem ws
        missed := if s.missed.isEmpty then [] else s.missed.filter fun e => !as.contains e.addr
        memBad := if s.memBad.isEmpty then [] else s.memBad.filter fun u => !full u }
    if s.conts.isEmpty then s
    else (ws.map fun w => w.1).foldl (fun s i => s.wake false 0 i 1) (s.wake false 0 a 1)

/-- Write bytes from outside the module, or from its hub: readers outside see them at once (R302). -/
def State.memWriteOut (s : State) (ws : List (Nat × Byte)) : State :=
  (s.memWrite ws).reveal fun a => ws.any fun w => w.1 == a

/-- Address bits of a page size code (R82). -/
def pageBits (size : Nat) : Nat :=
  match size with
  | 0 => 12 | 1 => 16 | 2 => 21 | 3 => 25 | 4 => 29 | 5 => 33 | _ => 37

/-- The offset in a page at which a last code places a byte (R85, R86; 05_bank_units.md R107, R108):
the storage cell of row codes and COLIL, named by the offset that LINEAR gives that cell. Codes 0 and
6 to 15, and pages too small to hold a whole permutation, are placed as LINEAR (DEDUCED, log 14). -/
def placeIn (last bits o : Nat) : Nat :=
  if 1 ≤ last ∧ last ≤ 4 ∧ 18 ≤ bits then
    (o >>> 18) <<< 18 + (fld o 8 4) <<< 14 + (fld o 12 6) <<< 8 + fld o 0 8
  else if last = 5 ∧ 14 ≤ bits then
    (o >>> 14) <<< 14 + (fld o 6 6) <<< 8 + (fld o 12 2) <<< 6 + fld o 0 6
  else o

/-- The physical byte of a DVA under a leaf (R83). DEDUCED (log 14). -/
def leafDpa (leaf : Word) (dva : Nat) : Nat :=
  let n := pageBits (wfld leaf 4 3)
  (wfld leaf 12 28) <<< 12 + placeIn (wfld leaf 60 4) n (dva % 2 ^ n)

/-! ## The locked translation table (R90 to R93) -/

/-- The table entry whose page holds a DVA. -/
def findPage (tt : List (Word × Word)) (dva : Nat) : Option (Word × Word) :=
  tt.find? fun e => wfld e.1 12 40 <<< 12 / 2 ^ pageBits (wfld e.2 4 3) == dva / 2 ^ pageBits (wfld e.2 4 3)

/-- Check every byte of a range (R93, 19_faults.md R346): none, or the sub-cause and the first byte
that fails. `fuel` bounds the pages stepped over. -/
def checkPages (tt : List (Word × Word)) (wr : Bool) : Nat → Nat → Nat → Option (Nat × Nat)
  | 0, _, _ => none
  | fuel + 1, dva, n =>
    if n = 0 then none
    else
      match findPage tt dva with
      | none => some (1, dva)
      | some (_, leaf) =>
        if !wr && !bit leaf.toNat 2 then some (2, dva)
        else if wr && !bit leaf.toNat 3 then some (3, dva)
        else
          let sz := 2 ^ pageBits (wfld leaf 4 3)
          let step := sz - dva % sz
          if n ≤ step then none else checkPages tt wr fuel (dva + step) (n - step)

/-- The check of an access of a core (R93). -/
def CoreSt.check (k : CoreSt) (wr : Bool) (dva n : Nat) : Option (Nat × Nat) :=
  checkPages k.tt wr (n / 4096 + 2) dva n

/-- The physical bytes of a checked range. -/
def CoreSt.dpas (k : CoreSt) (dva n : Nat) : List Nat :=
  (upFrom dva n).filterMap fun a => (findPage k.tt a).map fun e => leafDpa e.2 a

/-- The scope class of the page that holds a DVA (R84). DEDUCED (log 53). -/
def CoreSt.scopeAt (k : CoreSt) (dva : Nat) : BitVec 3 :=
  match findPage k.tt dva with
  | some (_, leaf) => leaf.extractLsb' 56 3
  | none => 1

/-! ## Paths between dies (01_module.md R15, R16) -/

/-- WIDTH of a link: the smaller of its directions' (21_links.md R363). -/
def State.linkWidth (s : State) (l : Nat) : Nat := min (s.link l).width0 (s.link l).width1

/-- The paths between two compute dies, in order of preference, as the links they cross. -/
def diePaths (a b : Nat) : List (List Nat) :=
  match min a b, max a b with
  | 0, 1 => [[0], [3, 2, 1], [4, 5]]
  | 1, 3 => [[1], [0, 3, 2], [5, 7]]
  | 2, 3 => [[2], [3, 0, 1], [6, 7]]
  | 0, 2 => [[3], [0, 1, 2], [4, 6]]
  | 0, 3 => [[0, 1], [3, 2], [4, 7]]
  | 1, 2 => [[0, 3], [1, 2], [5, 6]]
  | _, _ => [[]]

/-- The paths between the hub and a compute die: its hub link, or compute-die links to a die whose hub link works
(21_links.md R366). DEDUCED (log 76). -/
def hubPaths (d : Nat) : List (List Nat) :=
  [4 + d] :: ((upFrom 0 4).filter (· != d)).flatMap fun e =>
    ((diePaths d e).filter fun p => p.all (· < 4)).map fun p => p ++ [4 + e]

/-- The paths between two sites: a compute die by its number, the hub as 4. DEDUCED (log 76). -/
def sitePaths (a b : Nat) : List (List Nat) :=
  if a = b then [[]] else if a = 4 then hubPaths b else if b = 4 then hubPaths a else diePaths a b

/-- The path that traffic between two sites takes, if one is left. -/
def State.diePath (s : State) (a b : Nat) : Option (List Nat) :=
  (sitePaths a b).find? fun p => p.all fun l => decide (0 < s.linkWidth l)

/-- Traffic between two sites has a path. -/
def State.diesMeet (s : State) (a b : Nat) : Bool := s.links.isEmpty || (s.diePath a b).isSome

/-- Traffic between two sites waits at its sender: a link of its path retrains (21_links.md R366). -/
def State.pathHeld (s : State) (a b : Nat) : Bool :=
  !s.links.isEmpty && ((s.diePath a b).getD []).any fun l => (s.link l).train.isSome

/-- The compute die that a byte of device memory stands at (R17, 04_device_memory.md R79). -/
def homeDie (a : Nat) : Nat := a / (144 * 2 ^ 30)

/-- Read device memory from a compute die: what it cannot reach is an uncorrectable read (R16). -/
def State.memReadFrom (s : State) (die : Nat) (as : List Nat) : List (Byte × Bool) × State :=
  if as.all fun a => s.diesMeet die (homeDie a) then s.memRead as
  else (as.map fun a => if s.diesMeet die (homeDie a) then s.memByte a else (0, true), s.draw.2)

/-- Write device memory from a compute die: a write that cannot reach its home is discarded (R16). -/
def State.memWriteFrom (s : State) (die : Nat) (ws : List (Nat × Byte)) : State :=
  let ws := ws.filter fun w => s.diesMeet die (homeDie w.1)
  (s.hide ws).memWrite ws

/-- A store covers one of the bytes. -/
def BufStore.covers (b : BufStore) (as : List Nat) : Bool :=
  as.any fun a => decide (b.addr ≤ a) && decide (a < b.addr + b.data.length)

/-- Stores of a core that have not reached their homes. -/
def CoreSt.onTheWay (q : CoreSt) : List BufStore := q.posted ++ q.ctxs.flatMap fun x => x.2.stores

/-- A store published to its core before an access of an agent of that core covers one of its bytes: the access comes
after it (R292). -/
def State.fencedStore (s : State) (c before : Nat) (as : List Nat) : Bool :=
  (s.core c).onTheWay.any fun b => b.fenced && decide (b.since < before) && b.covers as

/-- No link on the way from a core to the bytes retrains (21_links.md R366). -/
def State.wayOpen (s : State) (c : Nat) (as : List Nat) : Bool := as.all fun a => !s.pathHeld (dieOf c) (homeDie a)

/-- An access of an engine or a job of a core, or an atomic, may be performed now at bytes of device memory. -/
def State.reaches (s : State) (c : Nat) (as : List Nat) : Bool :=
  !s.fencedStore c (s.draws + 1) as && s.wayOpen c as

/-- Read device memory through the locked table, at its home. -/
def State.dvaRead (s : State) (c dva n : Nat) : List (Byte × Bool) × State :=
  s.memReadFrom (dieOf c) ((s.core c).dpas dva n)

/-- Who reads device memory on a core. -/
inductive Reader where
  | engine
  | sequencer
  | job
  deriving DecidableEq, Repr

/-- A reader of a core is ordered after the write of a bank atomic: its engines behind a bank marker (05_bank_units.md R125),
its sequencer after a FENCE.S (12_sequencer.md R281), its jobs as their footprints say (14_consistency.md R303). -/
def Missed.ordered (e : Missed) (c : Nat) (r : Reader) : Bool :=
  e.core == c &&
    match r with
    | .engine => e.own
    | .sequencer => e.seq
    | .job => true

/-- What an access of a core finds in bytes that have been read at their homes: each unit of 8 bytes that a bank atomic has
written without an order is found as it was, or as it is, which every later access then finds (R124, R291). Which is
free (DESIGN CHOICE, log 5). -/
def State.missOrSettle (s : State) (c : Nat) (r : Reader) (as : List Nat) (bs : List (Byte × Bool)) :
    List (Byte × Bool) × State :=
  let hit (e : Missed) : Bool := as.contains e.addr && !e.ordered c r
  let us := ((s.missed.filter hit).map fun e => e.addr / 8).eraseDups
  if us.isEmpty then (bs, s)
  else
    let (d, s) := s.draw
    let misses (u : Nat) : Bool := us.contains u && (Config.freeNat d).testBit (us.idxOf u)
    ((as.zip bs).map fun b =>
        match s.missed.find? fun e => e.addr == b.1 && !e.ordered c r && misses (b.1 / 8) with
        | some e => s.memCell b.1 e.old
        | none => b.2,
      { s with missed := s.missed.filter fun e => !(us.contains (e.addr / 8) && !misses (e.addr / 8)) })

/-- Read device memory at its home for a reader of a core, which may miss a write of a bank atomic that nothing orders before it
(R124). -/
def State.look (s : State) (c : Nat) (r : Reader) (as : List Nat) : List (Byte × Bool) × State :=
  let (bs, s) := s.memReadFrom (dieOf c) as
  if s.missed.isEmpty then (bs, s) else s.missOrSettle c r as bs

/-- Read device memory through the locked table for a reader of a core. -/
def State.dvaLook (s : State) (c : Nat) (r : Reader) (dva n : Nat) : List (Byte × Bool) × State :=
  s.look c r ((s.core c).dpas dva n)

/-- What a context's bank jobs have written before a bank marker of scope `n` is missed no more: by the engines of its core,
and from DEVICE on by nobody (R125, 17_program_gemv.md R330). -/
def State.settleMissed (s : State) (c k n : Nat) : State :=
  if s.missed.isEmpty then s
  else
    { s with missed := (s.missed.filter fun e => e.core != c || e.ctx != k || decide (n < 3)).map fun e =>
        if e.core = c ∧ e.ctx = k then { e with own := true } else e }

/-- What jobs of a core that are over have written is missed no more by its sequencer behind a FENCE.S (R281, step 4). -/
def State.fenceMissed (s : State) (c : Nat) : State :=
  if s.missed.isEmpty then s
  else
    let isOver (e : Missed) : Bool := e.core == c && (s.core c).jobs.all fun j => j.id != e.job
    { s with missed := s.missed.map fun e => if isOver e then { e with seq := true } else e }

/-- Bytes that an atomic unit has written for a job of a core, with what stood there, may be missed, unless a bank marker of
scope DEVICE or wider stands behind the job: `n` is the largest scope of one, none where there is none (R330). -/
def State.maybeMiss (s : State) (c : Nat) (j : Job) (n : Option Nat) (olds : List (Nat × Option Byte)) : State :=
  if n.getD 0 < 3 then
    { s with missed := s.missed ++ olds.map fun e =>
        { addr := e.1, core := c, ctx := j.ctx, job := j.id, own := n.isSome, seq := false, old := e.2 } }
  else s

/-- Write device memory through the locked table. -/
def State.dvaWrite (s : State) (c dva : Nat) (bs : List Byte) : State :=
  s.memWriteFrom (dieOf c) (((s.core c).dpas dva bs.length).zip bs)

/-- Drop the lines of the scalar data cache that hold one of the bytes. -/
def CoreSt.dropData (q : CoreSt) (as : List Nat) : CoreSt :=
  if q.dcache.isEmpty then q
  else { q with dcache := q.dcache.filter fun e => !as.any fun a => a / 64 == e.1 }

/-- An engine or a job of the core has written bytes at their homes: lines of class CORE, which no FENCE.S drops, do not
outlive the write (04_device_memory.md R87), and the others go with the next FENCE.S (12_sequencer.md R281, step 4). -/
def CoreSt.engineWrote (q : CoreSt) (as : List Nat) : CoreSt :=
  if q.dcache.isEmpty then q
  else
    let hit (l : Nat) : Bool := as.any fun a => a / 64 == l
    { q with
      dcache := q.dcache.filter fun e => !(decide (e.2.2.toNat < 2) && hit e.1)
      dstale := q.dstale ++ ((q.dcache.map (·.1)).filter fun l => hit l && !q.dstale.contains l) }

/-! ## Walk units (R82 to R89) -/

/-- Bits indexed at a level: lowest bit and width. -/
def levelBits (l : Nat) : Nat × Nat :=
  match l with
  | 0 => (37, 15) | 1 => (33, 4) | 2 => (29, 4) | 3 => (25, 4) | 4 => (21, 4) | 5 => (16, 5)
  | _ => (12, 4)

/-- Alignment in bits of a table of a level (R82). -/
def tableBits (l : Nat) : Nat :=
  match l with
  | 0 => 18 | 5 => 8 | _ => 7

/-- A leaf that R84 calls malformed, at a level, with V = 1. DEDUCED (log 92). -/
def leafMalformed (l : Nat) (w : Word) : Bool :=
  let n := pageBits (6 - l)
  let pa := (wfld w 12 28) <<< 12
  let sc := wfld w 56 3
  wfld w 40 16 != 0 || wfld w 7 5 != 0 || wfld w 4 3 != 6 - l || (!bit w.toNat 2 && bit w.toNat 3) ||
    sc == 0 || decide (5 ≤ sc) || pa % 2 ^ n != 0 || decide (dpaLimit < pa + 2 ^ n)

/-- A pointer that R84 calls malformed, at a level. That RD, WR, BE and SCOPE shall be 0 in it, and that the next table shall
lie in populated memory, is the model's choice. DEDUCED (log 92). -/
def ptrMalformed (l : Nat) (w : Word) : Bool :=
  let next := (wfld w 12 28) <<< 12 + (wfld w 7 5) <<< 7
  decide (6 ≤ l) || wfld w 40 24 != 0 || wfld w 2 5 != 0 || next % 2 ^ tableBits (l + 1) != 0 ||
    decide (dpaLimit ≤ next)

/-- A walk's end: a leaf with its level, or the failing cause (1 not mapped, 2 malformed; R95). -/
inductive Walk where
  | leaf (w : Word) (level : Nat)
  | fail (cause : Nat)
  deriving DecidableEq, Repr

/-- A table word as a walk that stands at a site reads it (R88). A word that meets an uncorrectable error, or that no path
reaches, is free (DESIGN CHOICE, log 93). -/
def State.tableWord (s : State) (site a : Nat) : Word :=
  let bs := (upFrom a 8).map s.memByte
  if bs.any (·.2) || !s.diesMeet site (homeDie a) then BitVec.ofNat 64 (Config.freeNat (s.draws + a))
  else BitVec.ofNat 64 (ofBytesLe (bs.map (·.1)))

/-- Walk from a table at a level; `n` is 7 minus the level. The walk passes to the walk units of each table's stack, from the
site it stands at (R88). A table beyond the populated memory ends it as malformed (DEDUCED, log 92).
DESIGN CHOICE (log 93). -/
def walkFrom (s : State) (dva : Nat) : Nat → Nat → Nat → Walk
  | 0, _, _ => .fail 2
  | n + 1, site, table =>
    let l := 6 - n
    let (lo, w) := levelBits l
    let a := table + 8 * fld dva lo w
    let e := s.tableWord site a
    if dpaLimit ≤ a then .fail 2
    else if !bit e.toNat 0 then .fail 1
    else if bit e.toNat 1 then (if leafMalformed l e then .fail 2 else .leaf e l)
    else if ptrMalformed l e then .fail 2
    else walkFrom s dva n (homeDie a) ((wfld e 12 28) <<< 12 + (wfld e 7 5) <<< 7)

/-- Walk a DVA with the root of a partition, for a requester at a site (R88, R89). DESIGN CHOICE (log 8). -/
def State.walk (s : State) (site p dva : Nat) : Walk :=
  let r := s.hubGet (offPtroot p)
  if p ≥ 8 ∨ dva ≥ 2 ^ 52 ∨ !bit r.toNat 0 then .fail 1
  else walkFrom s dva 7 site ((wfld r 18 22) <<< 18)

/-- The physical bytes of a range through the walk units, with a test of each leaf. -/
def State.walkDpas (s : State) (site p : Nat) (ok : Word → Bool) : Nat → Nat → Option (List Nat)
  | _, 0 => some []
  | dva, n + 1 =>
    match s.walk site p dva with
    | .leaf w _ =>
      if ok w then (s.walkDpas site p ok (dva + 1) n).map fun r => leafDpa w dva :: r else none
    | .fail _ => none

/-- Reads of the hub at SYSTEM scope: a page that may be read. -/
def leafReads (w : Word) : Bool := bit w.toNat 2
/-- A page that may be written. -/
def leafWrites (w : Word) : Bool := bit w.toNat 3
/-- A page of class SYSTEM. -/
def leafSystem (w : Word) : Bool := wfld w 56 3 == 4

/-- Some table of the walk of a DVA stands behind a link that retrains, from where the walk stands then (21_links.md R366). -/
def tableHeld (s : State) (dva : Nat) : Nat → Nat → Nat → Bool
  | 0, _, _ => false
  | n + 1, site, table =>
    let l := 6 - n
    let (lo, w) := levelBits l
    let a := table + 8 * fld dva lo w
    let e := s.tableWord site a
    if dpaLimit ≤ a then false
    else if s.pathHeld site (homeDie a) then true
    else if !bit e.toNat 0 || bit e.toNat 1 || ptrMalformed l e then false
    else tableHeld s dva n (homeDie a) ((wfld e 12 28) <<< 12 + (wfld e 7 5) <<< 7)

/-- The walk of a DVA waits for a link that retrains. DESIGN CHOICE (log 57). -/
def State.walkHeld (s : State) (site p dva : Nat) : Bool :=
  !s.links.isEmpty && decide (p < 8) && bit (s.hubGet (offPtroot p)).toNat 0 &&
    tableHeld s dva 7 site ((wfld (s.hubGet (offPtroot p)) 18 22) <<< 18)

/-- An access to a range through the walk units, from a site, waits for a link that retrains on the way of its walks or of its
bytes. DESIGN CHOICE (log 57). -/
def State.rangeHeld (s : State) (site p dva n : Nat) : Bool :=
  !s.links.isEmpty &&
    (upFrom dva n).any fun a =>
      s.walkHeld site p a ||
        match s.walk site p a with
        | .leaf w _ => s.pathHeld site (homeDie (leafDpa w a))
        | .fail _ => false

/-- Read device memory for a reader outside the module, which enters it at a site, or for a send queue of a die: what has been
made visible to readers outside (14_consistency.md R302). -/
def State.outRead (s : State) (site : Nat) (as : List Nat) : List (Byte × Bool) × State :=
  (as.map fun a => if s.diesMeet site (homeDie a) then s.outByte a else (0, true), s.draw.2)

/-- Write device memory from outside, or from the hub, at a site: a write that cannot reach its home is discarded. -/
def State.outWrite (s : State) (site : Nat) (ws : List (Nat × Byte)) : State :=
  s.memWriteOut (ws.filter fun w => s.diesMeet site (homeDie w.1))

/-- A byte that meets an uncorrectable error is free. DESIGN CHOICE (log 82). -/
def freeBytes (d : Nat) : List (Byte × Bool) → List Byte
  | [] => []
  | (b, bad) :: r => (if bad then BitVec.ofNat 8 (Config.freeNat d) else b) :: freeBytes (d + 1) r

/-- Read a little-endian word through the walk units, for a requester at a site; what meets an uncorrectable error in it is free.
DEDUCED (log 76). DESIGN CHOICE (log 93). -/
def State.walkWord (s : State) (site p dva : Nat) : Option Word :=
  (s.walkDpas site p leafReads dva 8).map fun as =>
    BitVec.ofNat 64 (ofBytesLe (freeBytes (s.draws + dva) (s.memReadFrom site as).1))

/-- The hub, or a send queue of a die, writes a little-endian word through the walk units; nothing happens on an unmapped page,
nor on a die that no path reaches. DEDUCED (log 76). -/
def State.walkPut (s : State) (site p dva : Nat) (v : Word) : State :=
  match s.walkDpas site p leafWrites dva 8 with
  | some as => s.outWrite site (as.zip (bytesLe 8 v.toNat))
  | none => s

/-! ## Traps, faults and records (19_faults.md) -/

/-- What a record of a context holds, before its cause is filled in. -/
def State.blankRecord (s : State) (c k : Nat) : Record :=
  let x := s.ctx c k
  { cause := 0, eng := 5, gen := x.gen, ctx := k, core := c, task := x.task, status := 0, word := 0,
    iter := 0, code := 0, pc := x.pc, addr := 0, heads := [], tick := s.ftick, lost := 0, rd := 0,
    det := (s.core c).p, live := 0 }

def QItem.isEntry : QItem → Bool
  | .entry _ => true
  | _ => false

/-- The word an engine would issue next, for HEADS (R339): the first of an entry that it has not started, also where it waits
at a marker or fence in front of it. -/
def EngQ.head (q : EngQ) : Nat :=
  match q.run with
  | some r => r.word
  | none => if q.items.any QItem.isEntry then 0 else q.last

def Own.heads (o : Own) : List Nat := (upFrom 0 5).map fun e => (o.queue e).head

/-- Insert a fault in the order of R336. -/
def insertFault (r : Record) : List Record → List Record
  | [] => [r]
  | x :: xs =>
    if r.det < x.det ∨ (r.det = x.det ∧ r.eng < x.eng) then r :: x :: xs else x :: insertFault r xs

/-- Keep a record behind an outstanding one, in the order of detection, at most 16; further ones are only counted (R336). -/
def keepRecord (ks : List Record) (r : Record) : List Record :=
  if ks.length < 16 then insertFault r ks
  else
    match ks.reverse with
    | last :: rest => (({ last with lost := satAdd last.lost 1 255 }) :: rest).reverse
    | [] => ks

/-- Stop a waiting instruction, which is executed again from its start (R334): a barrier that it has
entered loses the member until then (DEDUCED, log 15). -/
def State.unwait (s : State) (c k : Nat) : State :=
  let x := s.ctx c k
  let w : Wait := match x.wait with | .halted h => .halted h | _ => .none
  let s := s.setCtx c k { x with wait := w }
  match x.wait with
  | .sstep t _ true _ =>
    s.modTag t fun b =>
      { b with entered := b.entered.filter (· != (c, k)), tlast := none, release := none }
  | _ => s

/-- Post a record for a context, or keep it behind the outstanding one (R336, R338). -/
def State.postRecord (s : State) (r : Record) : State :=
  let x := s.ctx r.core r.ctx
  match x.trapped with
  | some _ => s.modCore r.core fun k => { k with kept := keepRecord k.kept r }
  | none =>
    let s := (s.unwait r.core r.ctx).modCtx r.core r.ctx fun y =>
      { y with trapped := some { r := r, seq := none } }
    { s with held := s.held ++ [r] }

/-- A record that accepts no action: it only goes to the queue (R341). -/
def State.postPlain (s : State) (r : Record) : State := { s with held := s.held ++ [r] }

/-- Take a sequencer trap precisely at its instruction (R335): the context is suspended at its pc,
nothing else of it changes. -/
def State.seqTrap (s : State) (c k : Nat) (cause : BitVec 8) (status : BitVec 32) (addr : Word)
    (rd : BitVec 5 := 0) : State :=
  s.postRecord
    { s.blankRecord c k with
      cause := cause, status := status, addr := addr, rd := rd, heads := (s.own c).heads }

/-- The illegal-instruction trap (03_words.md R76). -/
def State.illegal (s : State) (c k : Nat) (w : BitVec 32) : State := s.seqTrap c k 0x20 w 0

/-- The misaligned-access trap (12_sequencer.md R260). -/
def State.misaligned (s : State) (c k : Nat) (addr : Word) : State := s.seqTrap c k 0x21 0 addr

/-- A record that names a word of an engine (19_faults.md R339). -/
def Record.ofWord (r : Record) (lw : LiveWord) : Record :=
  { r with eng := engNo lw.eng, gen := lw.gen, word := lw.word, iter := lw.iter, code := lw.code }

/-- Detect an engine fault (R333): it is taken at a later command boundary. A word gives one
record. -/
def State.engFault (s : State) (c : Nat) (lw : LiveWord) (cause : BitVec 8) (status : BitVec 32)
    (addr : Word) : State :=
  if lw.faulted then s
  else
    let r : Record :=
      { (s.blankRecord c lw.ctx).ofWord lw with cause := cause, status := status, addr := addr, live := lw.id }
    s.modCore c fun k =>
      { k with
        faults := k.faults ++ [r]
        own := { k.own with
          live := k.own.live.map fun w => if w.id = lw.id then { w with faulted := true } else w } }

/-- The default status word (R340). -/
def statusWord (op : BitVec 8) (sub issue word : Nat) : BitVec 32 :=
  BitVec.ofNat 32 (op.toNat <<< 24 + (sub % 16) <<< 20 + (issue % 64) <<< 14 + word % 4096)

/-- The status word of a CP word (R340). -/
def statusCp (op : BitVec 8) (code word : Nat) : BitVec 32 :=
  BitVec.ofNat 32 (op.toNat <<< 24 + (code % 256) <<< 16 + word % 4096)

/-- Free a context after its task has ended (12_sequencer.md R261). Stores that it has made still reach their
homes. -/
def State.freeCtx (s : State) (c k : Nat) : State :=
  s.modCore c fun q => { q with posted := q.posted ++ (q.ctx k).stores }.setCtx k Ctx.reset

end Sys2Proof.Machine
end

