-- ==== Sys2Proof/Machine/Operands.lean ====
section
/-! DEFINITION. The operand forms of the engine words: lanes of slots under guards (02_numbers.md R31),
tag checks (R34), slot stepping (03_words.md R61), snapshot scalars, and what a word writes. -/
namespace Sys2Proof.Machine

/-- The guard bit that governs lane `k` of a format (R31). -/
def govBit (f : Fmt) (k : Nat) : Nat :=
  match laneBits f with
  | 32 => 2 * k
  | 16 => k
  | 8 => k / 2
  | _ => k / 4

/-- Lane `k` is active under a guard (09_vector.md R186). -/
def laneOn (f : Fmt) (g : BitVec 64) (k : Nat) : Bool := bit g.toNat (govBit f k)

/-- The bits of lane `k`; the top bits of an LN6 lane are ignored (R31). -/
def laneOf (f : Fmt) (d : BitVec 1024) (k : Nat) : Nat :=
  let v := fld d.toNat (laneBits f * k) (laneBits f)
  if f = 8 then v % 64 else v

/-- Lane `k` lies in a unit with an uncorrectable error (19_faults.md R352). -/
def laneBad (f : Fmt) (s : Slot) (k : Nat) : Bool := s.bad.contains (laneBits f * k / 64)

/-- The tag check of R34: the operand's format in the encoding against its tag. -/
def tagPass (f tag : Fmt) : Bool := decide (tag.toNat ≤ 9) && (f == 0 || f == tag)

/-- The tag that a word writes which copies its source's: a reserved tag, which only the counting mode lets through, goes on
as bits, since hardware never produces one (R33). DESIGN CHOICE (log 98). -/
def copiedTag (tag : Fmt) : Fmt := if tag.toNat ≤ 9 then tag else 0

/-- The guard as a word reads it: inverted by N (03_words.md R60). -/
def guardN (o : Own) (g : BitVec 3) (n : Bool) : BitVec 64 :=
  let v := o.guard g.toNat
  if n then ~~~v else v

/-- A snapshot scalar (03_words.md R70). -/
def esAt (es : List Word) (i : Nat) : Word := es.getD i 0

/-- What one lane of a result is. -/
structure LaneOut where
  val : Nat
  fl : Flg
  void : Bool
  deriving DecidableEq, Repr

/-- A lane computed without error. -/
def LaneOut.ok (r : Nat × Flg) : LaneOut := { val := r.1, fl := r.2, void := false }

/-- A lane lost to an uncorrectable error, in a format. -/
def LaneOut.lost (f : Fmt) : LaneOut := { val := voidOf f, fl := flPoison, void := true }

/-- What a word writes into a slot: bits, which bits, flags and voided lanes. -/
structure SlotOut where
  data : Nat
  mask : Nat
  fl : Flg
  voids : Nat
  deriving DecidableEq, Repr

/-- Gather lanes `k`, `k + 1`, … of a format; `none` is a lane not written. -/
def buildLanes (f : Fmt) : Nat → List (Option LaneOut) → SlotOut
  | _, [] => { data := 0, mask := 0, fl := 0, voids := 0 }
  | k, o :: r =>
    let t := buildLanes f (k + 1) r
    match o with
    | none => t
    | some l =>
      let w := laneBits f
      let v := if f = 8 then l.val % 64 else l.val % 2 ^ w
      { data := t.data + v <<< (w * k)
        mask := t.mask + (2 ^ w - 1) <<< (w * k)
        fl := t.fl ||| l.fl
        voids := t.voids + b2n l.void }

/-- One lane after another: `on` says which lanes are written. -/
def lanesFrom (f : Fmt) (on : Nat → Bool) (fn : Nat → LaneOut) : SlotOut :=
  buildLanes f 0 ((upFrom 0 (lanesOf f)).map fun k => if on k then some (fn k) else none)

/-- A lane function over the lanes of one format with the marks of its sources. -/
def mapLanes (f : Fmt) (g : BitVec 64) (bad : Nat → Bool) (fn : Nat → Nat × Flg) : SlotOut :=
  lanesFrom f (laneOn f g) fun k => if bad k then .lost f else .ok (fn k)

/-- Change the masked bits of a slot and set its tag; a unit written whole loses its mark. -/
def Slot.merge (s : Slot) (data mask : BitVec 1024) (tag : Fmt) : Slot :=
  { data := (s.data &&& ~~~mask) ||| (data &&& mask)
    tag := tag
    bad := if s.bad.isEmpty then [] else s.bad.filter fun u => fld mask.toNat (64 * u) 64 != 2 ^ 64 - 1 }

/-- The amount of a step field (R61), modulo 16. -/
def stepAmount (st : BitVec 2) : BitVec 4 :=
  match st.toNat with
  | 0 => 1 | 1 => 2 | 2 => 4 | _ => 15

/-- A stepped slot name (R61). -/
def stepName (f : BitVec 4) (on : Bool) (issue : Nat) (st : BitVec 2) : BitVec 4 :=
  if on then f + BitVec.ofNat 4 issue * stepAmount st else f

/-- read(t, s, e) of 07_ring.md R153. -/
def readCycle (t s e : Nat) : Nat := t + 1 + (e + 48 - s - (t + 1) % 16) % 16

/-- The first cycle at or after `x` at which slot `s` stands at position `e` (R154, R155). -/
def meetCycle (x s e : Nat) : Nat := x + (e + 32 - s - x % 16) % 16

/-- The rounding mode of a snapshot (02_numbers.md R35). -/
def modeR (m : BitVec 4) : Nat := (m.extractLsb' 0 2).toNat
/-- WRAP of a snapshot. -/
def modeWrap (m : BitVec 4) : Bool := m.getLsbD 2
/-- FCHK of a snapshot. -/
def modeCount (m : BitVec 4) : Bool := m.getLsbD 3

/-- The atomic operations of 05_bank_units.md R120 on an element: old and operand give the new value.
Code 12, CAS.D, takes the compare value as operand and `new` beside it. -/
def atomicNew (op : Nat) (old x new : Nat) : Nat :=
  let s32 := sintOf 64
  match op with
  | 0 => (old + x) % 2 ^ 32
  | 1 => (old + x) % 2 ^ 64
  | 2 => x % 2 ^ 32
  | 3 => x % 2 ^ 64
  | 4 => old &&& x
  | 5 => old ||| x
  | 6 => old ^^^ x
  | 7 => if s32 x < s32 old then x else old
  | 8 => if s32 old < s32 x then x else old
  | 9 => if x < old then x else old
  | 10 => if old < x then x else old
  | 11 => (fpAdd 1 0 old x).1
  | _ => if old = x then new else old

/-- Element size in bytes of an atomic operation (R120). -/
def atomicSize (op : Nat) : Nat := if op = 0 ∨ op = 2 ∨ op = 11 then 4 else 8

/-- The old value returned when the read half meets an uncorrectable error (R122, 06 R140). -/
def atomicLost (op : Nat) : Nat := if op = 11 then 0x7FC00000 else 0

end Sys2Proof.Machine
end

