-- ==== Sys2Proof/Machine/Trap.lean ====
section
/-! DEFINITION. Abandoning a context's work (19_faults.md R345), ending a task (12_sequencer.md R286) and
the fatal context errors (R346), with what they need: groups, barriers and the spilled stack. -/
namespace Sys2Proof.Machine

/-! ## Groups and barriers (12_sequencer.md R276, 16_scheduling.md R320) -/

/-- The group of a partition by number. -/
def State.group? (s : State) (p : Nat) (n : BitVec 16) : Option Group :=
  s.groups.find? fun g => g.part == p && g.num == n

/-- Members of a group. -/
def State.members (s : State) (p : Nat) (n : BitVec 16) : List (BitVec 32) :=
  ((s.group? p n).map (·.members)).getD []

/-- The group a route tag is bound to (R319). -/
def State.bound (s : State) (t : Nat) : Option (Nat × BitVec 16) :=
  let r := s.hubGet (offRtbind t)
  if bit r.toNat 63 then some (wfld r 60 3, r.extractLsb' 0 16) else none

/-- Ticks that a cross-module barrier adds (21_links.md R374), with those after which the members of
other modules have entered, which are free (DESIGN CHOICE, log 30). -/
def State.xlat (s : State) (t : Nat) : Nat :=
  if bit (s.hubGet (offXrt t)).toNat 63 then 96 + 256 * Config.wslHops t + Config.remoteEntered s.draws else 0

/-- When every member of the bound group has entered, this tick is Tlast and T0 is fixed (R320).
DEDUCED (log 15). -/
def State.barrierCheck (s : State) (t : Nat) : State :=
  match s.bound t with
  | none => s
  | some (p, n) =>
    let b := s.tag t
    let ms := s.members p n
    let ins := b.entered.map fun e => (s.ctx e.1 e.2).task
    if b.tlast.isNone && !b.entered.isEmpty && (ms.all fun m => ins.contains m) then
      s.modTag t fun b => { b with tlast := some s.ftick, release := some (s.ftick + 64 + s.xlat t) }
    else s

/-- Check every barrier. -/
def State.barrierChecks (s : State) : State := (upFrom 0 8).foldl State.barrierCheck s

/-- Remove a task from a group of its partition; a group without members is dissolved. -/
def State.groupDrop (s : State) (p : Nat) (n : BitVec 16) (task : BitVec 32) : State :=
  let gs := s.groups.map fun g =>
    if g.part = p ∧ g.num = n then { g with members := g.members.filter (· != task) } else g
  { s with groups := gs.filter fun g => !g.members.isEmpty }

/-- A task that ends leaves every group it belongs to (R276). -/
def State.leaveAll (s : State) (c k : Nat) : State :=
  let x := s.ctx c k
  let p := s.partOf c
  let s := x.groups.foldl (fun s n => s.groupDrop p n x.task) s
  let s := (upFrom 0 8).foldl (fun s t =>
    s.modTag t fun b => { b with entered := b.entered.filter (· != (c, k)) }) s
  s.barrierChecks

/-! ## The remainder stack in its region (10_reversible.md R216) -/

/-- Address of the data of a position. -/
def Stack.dataAt (k : Stack) (i : Nat) : Nat := k.base + 128 * i
/-- Address of the metadata of a position. -/
def Stack.metaAt (k : Stack) (i : Nat) : Nat := k.base + 128 * k.cap + 8 * i

/-- Metadata word of an entry. -/
def RemEnt.metaWord (e : RemEnt) : Nat := e.tag.toNat + e.gen.toNat <<< 16 + b2n e.abn <<< 24

/-- The first byte at or above the scratchpad's end that the record of a position touches. -/
def Stack.beyond (k : Stack) (i : Nat) : Option Nat :=
  if 0x80000 < k.dataAt i + 128 then some (max 0x80000 (k.dataAt i))
  else if 0x80000 < k.metaAt i + 8 then some (max 0x80000 (k.metaAt i))
  else none

/-- Write the record of a position to the region. -/
def State.spillOne (s : State) (c i : Nat) (e : RemEnt) : State :=
  let k := (s.own c).stack
  let s := s.spWrite c (k.dataAt i) (bytesLe 128 e.data.toNat)
  let s := s.spWrite c (k.metaAt i) (bytesLe 8 e.metaWord)
  -- marks of the entry go with its data
  let s := s.modCore c fun q => { q with
    spBad := q.spBad ++ (e.bad.map fun u => k.dataAt i / 8 + u) ++
      (if e.badMeta then [k.metaAt i / 8] else []) }
  s.modCore c fun q => { q with rsSpill := satAdd q.rsSpill 1 (2 ^ 24 - 1) }

/-- An entry has left the core. -/
def CoreSt.dropEnt (q : CoreSt) (i : Nat) : CoreSt :=
  { q with own := { q.own with stack := { q.own.stack with ents := tblErase q.own.stack.ents i } } }

/-- Spill entries below CAP whose data have been written, each of which leaves the core; those whose record would leave the
scratchpad stay, and the first such address is returned (R217, R231). -/
def State.spillAll (s : State) (c : Nat) : List (Nat × RemEnt) → Option Nat → State × Option Nat
  | [], f => (s, f)
  | (i, e) :: r, f =>
    let k := (s.own c).stack
    if k.cap ≤ i then State.spillAll s c r f
    else
      match k.beyond i with
      | some a => State.spillAll s c r (if f.isSome then f else some a)
      | none =>
        if e.writer ≠ 0 then State.spillAll s c r f
        else State.spillAll ((s.spillOne c i e).modCore c fun q => q.dropEnt i) c r f

/-- Spill the on-core entries of the owner; a move that the spill machine has under way is done with. -/
def State.flushStack (s : State) (c : Nat) : State × Option Nat :=
  let s := s.modCore c fun q => { q with move := none }
  s.spillAll c (s.own c).stack.ents none

/-- Spill the entries of an ended task whose data have now been written (R217, R231, 19_faults.md R345). -/
def State.spillOrphans (s : State) (c : Nat) : State :=
  if (s.core c).owner.isSome then s else (s.flushStack c).1

/-! ## Abandonment -/

/-- The generations of entries that have not finished. -/
def Own.unfinished (o : Own) : List (BitVec 8) :=
  (upFrom 0 5).flatMap fun e =>
    let q := o.queue e
    (q.items.filterMap fun i => match i with | .entry x => some x.gen | _ => none) ++
      (q.run.map fun r => r.entry.gen).toList ++ q.drain.map (·.gen)

/-- Mark region records of abandoned generations (10 R234). -/
def State.markRegion (s : State) (c : Nat) (gens : List (BitVec 8)) : Nat → State
  | 0 => s
  | i + 1 =>
    let s := State.markRegion s c gens i
    let k := (s.own c).stack
    let a := k.metaAt i
    let w := ofBytesLe ((s.core c).spBytes a 8)
    if 0x80000 < a + 8 then s
    else if gens.contains (BitVec.ofNat 8 (w >>> 16)) then
      s.spWrite c a (bytesLe 8 (w ||| 0x1000000))
    else s

/-- MX state after an abandonment (R345 step 5). -/
def Acc.abandon (a : Acc) : Acc :=
  { a with blk := none, kpos := 0, dep := 0, form := false, welt := none, struck := false, badParts := [] }

/-- Abandonment on the owner state (R345). Issues already made complete. -/
def Own.abandon (o : Own) : Own :=
  { o with
    q := []
    live := []
    tokens := []
    rq := []
    accs := (upFrom 0 2).foldl (fun t i =>
      tblSet Acc.reset t i (tblGet Acc.reset o.accs i).abandon) o.accs
    win := tblErase o.win 2
    mxUsed := false
    mxAtPoint := false
    seg := none
    gates := [] }

/-- Abandon the work of a context (R345). For a context that is switched out, its image's entries go when
it is restored. -/
def State.abandon (s : State) (c k : Nat) : State :=
  let q := s.core c
  let s := s.modCore c fun q =>
    { q with
      kept := q.kept.filter (·.ctx != k)
      move := if q.owner = some k then none else q.move
      faults := q.faults.filter (·.ctx != k)
      jobs := q.jobs.filter fun j => !(j.ctx == k && decide (j.stage < 4)) }
  if q.owner = some k then
    let o := q.own
    let gens := o.unfinished
    let s := s.modCore c fun q =>
      { q with
        own :=
          { o.abandon with
            stack := { o.stack with ents := (o.stack.ents.map fun e =>
              if gens.contains e.2.gen then (e.1, { e.2 with abn := true }) else e) } }
        stages := q.stages.filter fun g => g.ctx != k }
    if gens.isEmpty then s
    else s.markRegion c gens (o.stack.depth - o.stack.ents.length)
  else if (s.ctx c k).saved then s.modCtx c k fun x => { x with aband := true }
  else s

/-! ## The end of a task -/

/-- An issue of the owner is in flight (12_sequencer.md R262). -/
def Own.inFlight (o : Own) : Bool := !o.flights.isEmpty || !o.xfers.isEmpty || o.mx.isSome

/-- Owner state of which only the retained windows are left: each engine keeps its newest words whoever issued them
(19_faults.md R355). DEDUCED (log 36). -/
def Own.freshWith (win : Tbl (List WinRec)) : Own := { Own.reset with win := win }

/-- The entries of an ended task that its words in flight will still write: those below CAP, to be spilled then. -/
def Stack.unwritten (k : Stack) : Stack :=
  { Stack.reset with
    cap := k.cap, base := k.base
    ents := k.ents.filter fun e => decide (e.1 < k.cap) && e.2.writer != 0 && (k.beyond e.1).isNone }

/-- The owner state when its task ends: it is discarded (R348), once the issues already made have
completed their reads and writes (R345). Context 8 stands for none. DEDUCED (log 36). -/
def Own.orphan (o : Own) : Own :=
  if o.inFlight then
    { o.abandon with
      stack := o.stack.unwritten
      flights := o.flights.map fun f => { f with ctx := 8 }
      xfers := o.xfers.map fun x => { x with ctx := 8 }
      mx := o.mx.map fun m => { m with ctx := 8 } }
  else .freshWith (tblErase o.win 2)

/-- The hold of a fault ends at the next lap boundary, once no engine fault of a context waits for its runtime (R334,
R336). -/
def CoreSt.endHold (q : CoreSt) : CoreSt :=
  let engine (r : Record) : Bool := decide (r.cause.toNat < 0x20)
  if q.holdFault && !(q.kept.any engine) &&
      (upFrom 0 8).all fun i => ((q.ctx i).trapped.map fun t => !engine t.r).getD true then
    { q with release := true }
  else q

/-- A task leaves its context: pins and remainder stack are released and the context is freed
(12_sequencer.md R272, R286, 10 R231). A lap stall that is under way goes on to its next lap boundary (07_ring.md R160). -/
def State.retire (s : State) (c k : Nat) : State :=
  let s :=
    if (s.core c).owner = some k then
      let (s, bad) := s.flushStack c
      let s :=
        match bad with
        | some a =>
          s.postPlain
            { s.blankRecord c k with
              cause := 0x40, status := 6, addr := BitVec.ofNat 64 a, heads := (s.own c).heads }
        | none => s
      s.modCore c fun q => { q with owner := none, own := q.own.orphan }
    else s
  let s := s.modCore c fun q => { q with kept := q.kept.filter (·.ctx != k) }
  (s.freeCtx c k).modCore c CoreSt.endHold

/-- The task of a context ends (12_sequencer.md R286). -/
def State.endTask (s : State) (c k : Nat) : State := (s.leaveAll c k).retire c k

/-- A fatal context error ends its task at once (R346); its record, filled in from `r`, accepts no action. -/
def State.fatalAs (s : State) (c k : Nat) (r : Record) (sub addr : Nat) : State :=
  if (s.ctx c k).live then
    let s := s.postPlain
      { r with
        cause := 0x40, status := BitVec.ofNat 32 sub, addr := BitVec.ofNat 64 addr, heads := (s.own c).heads }
    (s.abandon c k).endTask c k
  else s

/-- A fatal context error that no word of an engine met (R339). -/
def State.fatal (s : State) (c k : Nat) (sub addr : Nat) : State := s.fatalAs c k (s.blankRecord c k) sub addr

/-- A fatal context error that a word of an engine met. DEDUCED (log 25). -/
def State.fatalWord (s : State) (c : Nat) (lw : LiveWord) (f : Nat × Nat) : State :=
  s.fatalAs c lw.ctx ((s.blankRecord c lw.ctx).ofWord lw) f.1 f.2

/-- A fatal context error that a word in flight met. DEDUCED (log 25). -/
def State.fatalLive (s : State) (c id : Nat) (f : Nat × Nat) : State :=
  match (s.own c).live.find? fun w => w.id == id with
  | some w => s.fatalWord c w f
  | none => s

/-- The fatal error of a failed table check (R93, R346). -/
def State.fatalCheck (s : State) (c k : Nat) (f : Nat × Nat) : State := s.fatal c k f.1 f.2

end Sys2Proof.Machine
end

