-- ==== Sys2Proof/Machine/Queue.lean ====
section
/-! DEFINITION. The stream units: engine queues, markers and fences, word fetch, tokens, the retained
windows, and the start and the finish of a word (03_words.md R57 to R72, 19_faults.md R347 to R356). -/
namespace Sys2Proof.Machine

/-! ## Queues -/

def CoreSt.modOwn (k : CoreSt) (f : Own → Own) : CoreSt := { k with own := f k.own }

def CoreSt.modQ (k : CoreSt) (e : Nat) (f : EngQ → EngQ) : CoreSt :=
  k.modOwn fun o => o.setQueue e (f (o.queue e))

/-- Entries a queue holds; an entry holds its place until it has finished (R68). -/
def EngQ.count (q : EngQ) : Nat := (q.items.filter QItem.isEntry).length + b2n q.run.isSome + q.drain.length

/-- Nothing at all stands in a queue. -/
def EngQ.empty? (q : EngQ) : Bool := q.items.isEmpty && q.run.isNone && q.drain.isEmpty

/-- No entry and no marker in any queue (19_faults.md R348). -/
def Own.idle (o : Own) : Bool := (upFrom 0 5).all fun e => (o.queue e).empty?

/-- MX stands at a pre-emption point (11_matrix.md R258). DEDUCED (log 19). -/
def Own.mxPoint (o : Own) : Bool := o.mxAtPoint || !o.mxUsed

/-- Contexts that wait for ownership. -/
def CoreSt.waiters (k : CoreSt) : List Nat :=
  (upFrom 0 8).filter fun i =>
    let x := k.ctx i
    x.live && x.want.isSome && x.trapped.isNone && k.owner != some i

/-- The waiting context that ownership goes to: highest PRIO, then longest waiting (R348). -/
def CoreSt.nextOwner (k : CoreSt) : Option Nat :=
  k.waiters.foldl (fun b i =>
    match b with
    | none => some i
    | some j =>
      let x := k.ctx i
      let y := k.ctx j
      if y.prio < x.prio ∨ (x.prio = y.prio ∧ x.want.getD 0 < y.want.getD 0) then some i else b) none

def QItem.isFence (n : Nat) : QItem → Bool
  | .fence i _ => i == n
  | _ => false

/-- The fence stands in the queue of every engine: none has passed it. -/
def Own.fenceWhole (o : Own) (n : Nat) : Bool :=
  (upFrom 0 5).all fun e => (o.queue e).items.any (QItem.isFence n)

/-- No entry stands behind a fence in any queue. -/
def Own.lastFence (o : Own) (n : Nat) : Bool :=
  (upFrom 0 5).all fun e => !(((o.queue e).items.dropWhile fun i => !i.isFence n).any QItem.isEntry)

/-- A switch is pending at a fence (R348, R349). -/
def CoreSt.switchPending (k : CoreSt) (n : Nat) : Bool :=
  match k.owner with
  | none => false
  | some o =>
    (k.ctx o).saveb.getLsbD 0 && k.own.fenceWhole n &&
      (k.waiters.any (fun i => decide ((k.ctx o).prio < (k.ctx i).prio)) ||
        (!k.waiters.isEmpty && k.own.lastFence n))

/-- All five engines wait at a fence with their entries ahead of it finished; the mask it captured. -/
def Own.atFence (o : Own) (n : Nat) : Option (BitVec 10) :=
  if (upFrom 0 5).all fun e =>
      let q := o.queue e
      q.run.isNone && q.drain.isEmpty && (q.items.head?.map (QItem.isFence n)).getD false
  then
    match (o.queue 0).items.head? with
    | some (.fence _ m) => some m
    | _ => none
  else none

/-- LD and ST both stand at a QALIGN marker with every entry ahead of it finished (12_sequencer.md
R269). -/
def Own.atQalign (o : Own) (n : Nat) : Bool :=
  [1, 4].all fun e =>
    let q := o.queue e
    q.run.isNone && q.drain.isEmpty && (match q.items.head? with | some (.qalign i) => i == n | _ => false)

/-- Remove the first item of a queue. DEDUCED (log 21). DEDUCED (log 35). -/
def EngQ.pass (q : EngQ) : EngQ := { q with items := q.items.drop 1 }

/-- The bank words among the CP words (05_bank_units.md R110). -/
def cpIsBank : CpOp → Bool
  | .bgemv | .bgemva | .batom | .bqry => true
  | _ => false

/-- Engine `e` crosses bank marker `n` (05_bank_units.md R125): what it waits for is now known. -/
def CoreSt.crossBank (k : CoreSt) (e n : Nat) : CoreSt :=
  let o := k.owner.getD 8
  let js := k.jobs.filter fun j => j.ctx == o
  k.modOwn fun w =>
    { (w.setQueue e { (w.queue e).pass with gate := n }) with
      gates := w.gates.map fun g =>
        if g.id ≠ n then g
        else if e = 0 then
          { g with
            cpCrossed := true
            jobs := (js.filter fun j => cpIsBank j.op).map (·.id)
            copies := (js.filter fun j => !cpIsBank j.op).map (·.id) }
        else if e = 1 then { g with ldCrossed := true }
        else { g with stCrossed := true, stWords := (w.live.filter fun l => l.eng == .st).map (·.id) } }

/-- An engine whose queue can move without issuing: it passes a marker or starts an entry. DEDUCED (log 35). -/
def CoreSt.passStep (k : CoreSt) (e : Nat) : Option CoreSt :=
  let q := k.own.queue e
  if q.run.isSome then none
  else
    match q.items with
    | [] => none
    | .entry x :: _ =>
      let k := k.modQ e fun q =>
        { q.pass with run := some { entry := x, iter := 0, word := 0, issue := 0, code := none, live := 0, skip := false } }
      some (if e = 3 then
        k.modOwn fun o =>
          { o with stack := { o.stack with base := (esAt x.es 7).toNat / 128 * 128, hold := false } }
        else k)
    | .seg close :: _ =>
      some (k.modOwn fun o =>
        { (o.setQueue e q.pass) with
          seg := o.seg.map fun g =>
            if close then { g with closed := g.closed ++ [e] } else { g with opened := g.opened ++ [e] } })
    | .bank n _ :: _ => some (k.crossBank e n)
    | .qalign n :: _ =>
      if k.own.atQalign n then some ((k.modQ 1 EngQ.pass).modQ 4 EngQ.pass) else none
    | .fence n _ :: _ =>
      if !k.switchPending n then some (k.modQ e EngQ.pass)
      else if (k.own.atFence n).isSome && !k.own.mxPoint then
        some ((upFrom 0 5).foldl (fun k i => k.modQ i EngQ.pass) k)
      else none

/-- Pass every marker and start every entry that can be (R347: passing takes no cycle). -/
def CoreSt.passAll : Nat → CoreSt → CoreSt
  | 0, k => k
  | n + 1, k =>
    match (upFrom 0 5).findSome? k.passStep with
    | some k' => CoreSt.passAll n k'
    | none => k

/-- Drop bank markers that every queue has crossed and that hold nothing back. -/
def BankGate.done (k : CoreSt) (g : BankGate) : Bool :=
  g.cpCrossed && g.ldCrossed && g.stCrossed && (g.jobs.all fun i => k.jobs.all fun j => j.id != i) &&
    (g.copies.all fun i => k.jobs.all fun j => j.id != i) &&
    (g.stWords.all fun i => k.own.live.all fun w => w.id != i) &&
    (g.stores.all fun i => k.onTheWay.all fun b => b.id != i)

/-- The bank markers of a context: the owner's stand at the engines, those of one that has been saved beside its image. -/
def CoreSt.gatesOf (k : CoreSt) (x : Nat) : List BankGate :=
  if k.owner = some x then k.own.gates else (((tblFind k.ctxs x).bind fun q => q.side).map fun w => w.gates).getD []

/-- The largest scope of a bank marker that stands behind a job, if there is one: CP has not crossed it, or it waits for the
job (05_bank_units.md R125). Jobs run on while their context does not own the engines (19_faults.md R349). -/
def CoreSt.markerBehind (k : CoreSt) (j : Job) : Option Nat :=
  (((k.gatesOf j.ctx).filter fun g => !g.cpCrossed || g.jobs.contains j.id).map fun g => g.scope.toNat).max?

/-- LD, ST and CP accesses behind a bank marker may perform. DEDUCED (log 47). -/
def CoreSt.gateOpen (k : CoreSt) (n : Nat) : Bool :=
  match k.own.gates.find? fun g => g.id == n with
  | none => true
  | some g => g.cpCrossed && g.jobs.all fun i => k.jobs.all fun j => j.id != i

/-- What a bank word waits for behind a bank marker has come about (R125, R126). -/
def CoreSt.gatePassed (k : CoreSt) (g : BankGate) : Bool :=
  (g.copies.all fun i => k.jobs.all fun j => j.id != i) &&
    (g.scope == 0 ||
      (g.stCrossed && (g.stWords.all fun i => k.own.live.all fun w => w.id != i) &&
        g.stores.all fun i => k.onTheWay.all fun b => b.id != i))

/-- A bank word behind bank markers may issue: every one that CP has crossed lets it (R125, R126). Stores of other agents
that the context has observed are visible already. DEDUCED (log 47). -/
def CoreSt.bankMayIssue (k : CoreSt) : Bool := k.own.gates.all fun g => !g.cpCrossed || k.gatePassed g

/-! ## Code caches (12_sequencer.md R283, 03_words.md R71) -/

/-- The key of a line of code: its first physical byte over 64. DEDUCED (log 91). -/
def CoreSt.lineKey (q : CoreSt) (line : Nat) : Nat := (q.dpas (128 * line) 1).headD 0 / 64

/-- Lines of a level that a core's contexts lock: soft pins lock nothing (12_sequencer.md R283, R284). -/
def CoreSt.lockedLines (q : CoreSt) (die : Bool) : List Nat :=
  q.ctxs.flatMap fun x => (x.2.pins.filter fun e => e.die == die && !e.soft).map (·.line)

/-- Lines that are locked in the code cache of a core, or of its die. -/
def State.locked (s : State) (c : Nat) (die : Bool) : List Nat :=
  (if die then (s.cores.filter fun e => dieOf e.1 == dieOf c).flatMap fun e => e.2.lockedLines true
    else (s.core c).lockedLines false).eraseDups

/-- Lines that the code cache of a level holds: 64 KiB of a core, 8 MiB of a die (01_module.md R25). -/
def levelLines (die : Bool) : Nat := if die then 65536 else 512

/-- Lines that may be locked at a level. -/
def lockable (die : Bool) : Nat := if die then 32768 else 256

/-- Make room for one more key: when all places are taken, a free one of the keys that are not locked goes (DESIGN
CHOICE, log 5). -/
def evicted (keys locked : List Nat) (cap d : Nat) : Option Nat :=
  if keys.length < cap then none
  else
    let free := keys.filter fun k => !locked.contains k
    free[Config.freeNat d % free.length]?

/-- Hold a line of code with its cells. -/
def CoreSt.holdLine (q : CoreSt) (locked : List Nat) (d key : Nat) (cells : List (Nat × Byte)) : CoreSt :=
  let ic :=
    if (tblFind q.icache key).isSome then q.icache
    else
      match evicted (q.icache.map (·.1)) locked (levelLines false) d with
      | some k => tblErase q.icache k
      | none => q.icache
  { q with icache := tblPut ic key cells }

/-- Fetch a line of code whole. A line that meets an uncorrectable error is present without its bytes. -/
def State.fillCode (s : State) (c line : Nat) : State :=
  let as := (s.core c).dpas (128 * line) 128
  let (bs, s) := s.memReadFrom (dieOf c) as
  let cells := if bs.any (·.2) then [] else as.zip (bs.map (·.1))
  s.modCore c fun q => q.holdLine (s.locked c false) s.draws (q.lineKey line) cells

/-- Bytes of a held line. DEDUCED (log 18). -/
def CoreSt.cached (k : CoreSt) (line : Nat) (as : List Nat) : Option (List Byte) :=
  (tblFind k.icache (k.lineKey line)).bind fun cells => as.mapM fun a => tblFind cells a

/-- Read `n` bytes as code: a line held since before a store may still serve them, wholly (R71). A word that lies in two
lines is read in memory, so that it is never a mix. Code that meets an uncorrectable error is free. DEDUCED (log 18). -/
def State.codeRead (s : State) (c dva n : Nat) : List Byte × State :=
  let k := s.core c
  let as := k.dpas dva n
  let (now, s) := s.memReadFrom (dieOf c) as
  let d := s.draws
  let fresh := if now.any (·.2) then bytesLe as.length (Config.freeNat d) else now.map (·.1)
  let s := { s with draws := d + 1 }
  let lo := dva / 128
  let hi := (dva + n - 1) / 128
  if lo ≠ hi then (fresh, (s.fillCode c lo).fillCode c hi)
  else
    match k.cached lo as with
    | some old => if old = fresh ∨ Config.freeBool d then (old, s) else (fresh, s.fillCode c lo)
    | none => (fresh, s.fillCode c lo)

/-- What the lines that a core holds give of a word of code by themselves, which no link delays: wholly the bytes of one line, or
those of two that are as memory holds them (R71). DEDUCED (log 18). -/
def State.codeHere (s : State) (c dva n : Nat) : Option (List Byte) :=
  let k := s.core c
  let as := k.dpas dva n
  let lo := dva / 128
  if lo = (dva + n - 1) / 128 then k.cached lo as
  else
    let m := 128 - dva % 128
    match k.cached lo (as.take m), k.cached (lo + 1) (as.drop m) with
    | some x, some y => if as.map s.memByte = (x ++ y).map fun b => (b, false) then some (x ++ y) else none
    | _, _ => none

/-- Read `n` bytes as code, or none when they are behind a link that retrains, or a store on its way, and no line that the core
holds gives them. -/
def State.codeFetch (s : State) (c dva n : Nat) : Option (List Byte) × State :=
  if s.reaches c ((s.core c).dpas dva n) then
    let (bs, s) := s.codeRead c dva n
    (some bs, s)
  else (s.codeHere c dva n, s)

/-! ## Fetch (R71) -/

/-- Bit 0 of the entry's code address is set (R63). DEDUCED (log 27). -/
def Cursor.odd (r : Cursor) : Bool := r.entry.code.getLsbD 0

/-- A record that names the word an engine is to issue next (19_faults.md R339). -/
def Cursor.names (r : Cursor) (q : Record) (e : Nat) : Record :=
  { q with eng := e, gen := r.entry.gen, word := r.word, iter := r.iter, code := r.entry.code }

/-- Fetch the word an engine is to issue next. -/
def State.fetchWord (s : State) (c e : Nat) : State :=
  match ((s.own c).queue e).run with
  | none => s
  | some r =>
    if r.code.isSome || r.odd then s
    else
      let a := (r.entry.code.toNat + 6 * r.word) % 2 ^ 52
      match (s.core c).check false a 6 with
      | some f => s.fatalAs c r.entry.ctx (r.names (s.blankRecord c r.entry.ctx) e) f.1 f.2
      | none =>
        match s.codeFetch c a 6 with
        | (none, s) => s
        | (some bs, s) =>
          s.modCore c fun k => k.modQ e fun q =>
            { q with run := q.run.map fun r => { r with code := some (BitVec.ofNat 48 (ofBytesLe bs)) } }

/-- Bring every queue of a core to its next word. -/
def State.prep (s : State) (c : Nat) : State :=
  (upFrom 0 5).foldl (fun s e => s.fetchWord c e) (s.modCore c (CoreSt.passAll 400))

/-- The instruction that the cursor stands at, once fetched. An illegal word that a SKIP lets pass acts as NOP. -/
def Cursor.instr (r : Cursor) (e : Engine) : Option Instr :=
  if r.skip then some (.engineNop { pl := false, pr := false, hl := false, hr := false, k := 0, rep := 0 })
  else if r.odd then some (.illegalWord 0 3) else r.code.map (decodeWord e)

def isIllegal : Instr → Bool
  | .illegalWord _ _ => true
  | _ => false

/-! ## Tokens (R57) -/

/-- Left and right neighbour in the cycle of 01_module.md R24. -/
def leftOf (e : Nat) : Nat := (e + 4) % 5
def rightOf (e : Nat) : Nat := (e + 1) % 5

/-- The index 8e + 4d + k of the queues that a word pops. -/
def popQueues (e : Nat) (f : Frame) : List Nat :=
  (if f.pl then [8 * leftOf e + f.k.toNat] else []) ++ (if f.pr then [8 * rightOf e + 4 + f.k.toNat] else [])

/-- The queues that a word pushes. -/
def pushQueues (w : LiveWord) : List Nat :=
  let e := engNo w.eng
  (if w.hr then [8 * e + w.k] else []) ++ (if w.hl then [8 * e + 4 + w.k] else [])

def Own.token (o : Own) (i : Nat) : Nat := tblGet 0 o.tokens i

def Own.setToken (o : Own) (i v : Nat) : Own := { o with tokens := tblSet 0 o.tokens i v }

def Own.popAll (o : Own) (is : List Nat) : Own := is.foldl (fun o i => o.setToken i (o.token i - 1)) o

def Own.pushAll (o : Own) (is : List Nat) : Own := is.foldl (fun o i => o.setToken i (o.token i + 1)) o

/-- The index of R399 of a queue as engine `e` sees it. -/
def sideIndex (e i : Nat) : Nat :=
  -- queue i is 8 owner + 4 direction + k; its other side is the neighbour
  if i / 8 = e then i else if i / 8 = leftOf e then 8 * e + 4 + i % 4 else 8 * e + i % 4

/-! ## Windows, segment measures and the start of a word -/

/-- CRC-32 of IEEE 802.3, one byte (12_sequencer.md R285). -/
def crcBits : Nat → BitVec 32 → BitVec 32
  | 0, r => r
  | n + 1, r => crcBits n (if r.getLsbD 0 then (r >>> 1) ^^^ 0xEDB88320 else r >>> 1)

def crcBytes (r : BitVec 32) (bs : List Byte) : BitVec 32 :=
  bs.foldl (fun r b => crcBits 8 (r ^^^ b.setWidth 32)) r

/-- Whether an engine's issues belong to the open segment. -/
def Seg.counts (g : Seg) (e : Nat) : Bool := g.opened.contains e && !g.closed.contains e

/-- Count one issue of a word in the open segment. -/
def Seg.issue (g : Seg) (e : Nat) (w : EWord) (first : Bool) : Seg :=
  { g with
    count := g.count + 1
    crc := tblPut g.crc e (crcBytes (tblGet 0xFFFFFFFF g.crc e) (bytesLe 6 w.toNat))
    words := if first then tblPut g.words e (tblGet 0 g.words e + 1) else g.words }

/-- Record an issue in an engine's retained window (19_faults.md R355), and in the open segment where it counts there: a word
that has taken R63 does not (12_sequencer.md R285). -/
def Own.windowIssue (o : Own) (e serial : Nat) (w : EWord) (mode : BitVec 4) (first counts : Bool) : Own :=
  let seg := (o.seg.map fun g => if counts && g.counts e then g.id else 0).getD 0
  let ws := tblGet [] o.win e
  let ws :=
    if first then
      (ws ++ [({ serial := serial, word := w, issues := 1, mode := mode, seg := seg } : WinRec)]).drop
        (if 64 ≤ ws.length then 1 else 0)
    else ws.map fun r => if r.serial = serial then { r with issues := r.issues + 1 } else r
  let o := { o with win := tblSet [] o.win e ws }
  if seg ≠ 0 then { o with seg := o.seg.map fun g => g.issue e w first } else o

/-- An issue being made. -/
structure Issue where
  live : Nat
  entry : Entry
  issue : Nat
  word : EWord
  t : Nat
  gate : Nat
  deriving DecidableEq, Repr

/-- The cursor after an issue of a word that issues `n` times; none when the entry has issued its last. -/
def Cursor.next (r : Cursor) (n live : Nat) : Option Cursor :=
  if r.issue + 1 < n then some { r with issue := r.issue + 1, live := live }
  else if r.word + 1 < r.entry.words then
    some { r with word := r.word + 1, issue := 0, code := none, live := 0, skip := false }
  else if r.iter + 1 < r.entry.iters then
    some { r with iter := r.iter + 1, word := 0, issue := 0, code := none, live := 0, skip := false }
  else none

/-- Move a queue past the issue or word its cursor stands at. -/
def EngQ.advance (q : EngQ) (n live : Nat) : EngQ :=
  match q.run with
  | none => q
  | some r =>
    match r.next n live with
    | some r' => { q with run := some r', last := r'.word }
    | none => { q with run := none, drain := q.drain ++ [r.entry], last := r.entry.words }

/-- Entries of a queue that have no word left leave it. -/
def Own.reap (o : Own) (e : Nat) : Own :=
  let q := o.queue e
  if q.drain.isEmpty then o
  else
    o.setQueue e
      { q with drain := q.drain.filter fun x => o.live.any fun w => w.entry == x.id && engNo w.eng == e }

/-- A job of the CP word holds CP (05_bank_units.md R113, 06_copy_scratchpad.md R147, R150). DEDUCED (log 40). -/
def CoreSt.cpBusy (k : CoreSt) (sameWord : Nat) : Bool :=
  (k.jobs.any fun j => decide (j.stage < 4)) ||
    k.own.live.any fun w =>
      w.eng == .cp && w.id != sameWord && (w.hl || w.hr) && decide (0 < w.pending) && !w.op.getLsbD 4

/-- The engine can make the issue its cursor stands at (R57, R58, 11_matrix.md R242). -/
def CoreSt.mayIssue (k : CoreSt) (e : Engine) (r : Cursor) (i : Instr) : Bool :=
  !isIllegal i && k.owner == some r.entry.ctx && k.stall.isNone &&
    (match e with
     | .mx => k.own.mx.isNone
     | .cp => !k.cpBusy r.live && (match i.cp? with | some (o, _, _) => !cpIsBank o || k.bankMayIssue | none => true)
     | _ => true)

/-- The word that the cursor stands at. -/
def Cursor.bits (r : Cursor) : Option EWord := if r.skip then some (r.code.getD 0) else r.code

/-- The frame of a fetched word; an illegal word that passes as a NOP pops and pushes nothing. -/
def Cursor.frame (r : Cursor) : Frame :=
  if r.skip then { pl := false, pr := false, hl := false, hr := false, k := 0, rep := 0 } else frameOf (r.code.getD 0)

/-- Pops still to be made by the issue. -/
def Cursor.pops (r : Cursor) (e : Nat) : List Nat := if r.issue = 0 then popQueues e r.frame else []

/-- Begin an issue: take the pops at issue 0, record the word as started, count it, and move the cursor on.
None when the engine has no issue to make. -/
def State.beginIssue (s : State) (c : Nat) (e : Engine) : Option (Issue × State) :=
  let k := s.core c
  let n := engNo e
  let q := k.own.queue n
  match q.run with
  | none => none
  | some r =>
    match r.bits, r.instr e with
    | some w, some i =>
      let pops := r.pops n
      if !k.mayIssue e r i || pops.any (fun x => k.own.token x == 0) then none
      else
        let f := r.frame
        let first := r.issue = 0
        let id := if first then k.nextJob else r.live
        let total := f.rep.toNat + 1
        let lw : LiveWord :=
          { id := id, eng := e, entry := r.entry.id, ctx := r.entry.ctx, gen := r.entry.gen, hl := f.hl,
            hr := f.hr, k := f.k.toNat, issued := false, pending := 0, word := r.word, iter := r.iter,
            code := r.entry.code, op := w.extractLsb' 40 8, bits := w, faulted := false, order := r.entry.order, size := 0
            retires := none }
        let o := k.own.popAll pops
        let live := if first then o.live ++ [lw] else o.live
        let live :=
          if r.issue + 1 = total then live.map fun x => if x.id = id then { x with issued := true } else x
          else live
        let o := { o with
          live := live
          mxUsed := o.mxUsed || e == Engine.mx
          mxAtPoint := o.mxAtPoint && e != Engine.mx }
        let o := o.windowIssue n id w r.entry.mode (decide first) (!r.skip)
        let o := o.setQueue n (q.advance total id)
        let s := s.setCore c
          { k with
            own := o
            nextJob := if first then k.nextJob + 1 else k.nextJob
            cyc :=
              { k.cyc with
                issued := tblPut k.cyc.issued n w
                places := tblPut k.cyc.places n ((r.entry.code.toNat + 6 * r.word) % 2 ^ 52) } }
        some ({ live := id, entry := r.entry, issue := r.issue, word := w, t := k.own.sigma, gate := q.gate }, s)
    | _, _ => none

/-- Change a live word. -/
def Own.modLive (o : Own) (id : Nat) (f : LiveWord → LiveWord) : Own :=
  { o with live := o.live.map fun w => if w.id = id then f w else w }

/-- One more issue of a word whose effects are not complete. -/
def Own.pend (o : Own) (id : Nat) : Own := o.modLive id fun w => { w with pending := w.pending + 1 }

/-- An issue of a word has had all its effects. -/
def Own.settleIssue (o : Own) (id : Nat) : Own := o.modLive id fun w => { w with pending := w.pending - 1 }

/-- A live word by its number. -/
def Own.liveWord (o : Own) (id : Nat) : Option LiveWord := o.live.find? fun w => w.id == id

/-- Detect a fault of a live word; nothing when its work has been abandoned. -/
def State.wordFault (s : State) (c id : Nat) (cause : BitVec 8) (status : BitVec 32) (addr : Word) : State :=
  match (s.own c).liveWord id with
  | some w => s.engFault c w cause status addr
  | none => s

/-- The default status of an issue of a live word (19_faults.md R340). -/
def State.issueStatus (s : State) (c id sub issue : Nat) : BitVec 32 :=
  match (s.own c).liveWord id with
  | some w => statusWord w.op sub issue w.word
  | none => 0

/-- A word that has issued its last, whose issues have all had their effects, waits only for room.
DEDUCED (log 33). -/
def LiveWord.ready (w : LiveWord) : Bool := w.issued && w.pending == 0

/-- The word has room for its pushes. -/
def Own.room (o : Own) (w : LiveWord) : Bool := (pushQueues w).all fun i => decide (o.token i < 16)

/-- The queue still holds an entry of a FORK. -/
def EngQ.hasOrder (q : EngQ) (n : Nat) : Bool :=
  (q.items.any fun i => match i with | .entry x => x.order == n | _ => false) ||
    (q.run.map fun r => r.entry.order == n).getD false || q.drain.any fun x => x.order == n

/-- The bytes that a tile word may still read, or has read, as (address, length): until the word has issued, each of its
issues is taken to read 32,768 bytes, S being 32,768 until issue 0 fixes it (14_consistency.md R305). -/
def StageTile.held (t : StageTile) : List (Nat × Nat) :=
  let wide (from_ s : Nat) : List (Nat × Nat) :=
    (upFrom from_ (t.issues - from_)).map fun i => ((t.base + if t.steps then i * s else 0) % 2 ^ 64, 32768)
  t.read ++ (if t.next = 0 then [] else wide t.next t.size) ++ (if t.left = 0 then [] else wide 0 32768)

/-- An issue of a tile word reads `n` bytes at `a`; S is `size`. -/
def StageTile.issued (t : StageTile) (issue size a n : Nat) : StageTile :=
  let t := if issue = 0 then { t with left := t.left - 1, size := size } else t
  { t with
    next := if issue + 1 < t.issues then issue + 1 else 0
    read := if n = 0 ∨ t.read.contains (a, n) then t.read else t.read ++ [(a, n)] }

/-- Change the tile word `word` of the stage sets of a FORK. -/
def CoreSt.modStageTile (k : CoreSt) (order word : Nat) (f : StageTile → StageTile) : CoreSt :=
  if k.stages.isEmpty then k
  else
    { k with stages := k.stages.map fun g =>
        if g.order = order then { g with tiles := g.tiles.map fun t => if t.word = word then f t else t } else g }

/-- A word that ends leaves the stage sets: a run of a tile word has finished, or an accumulator's window retires (14_consistency.md
R305, 11_matrix.md R257). -/
def CoreSt.stageWord (k : CoreSt) (w : LiveWord) : CoreSt :=
  let k := if w.eng = .ld then k.modStageTile w.order w.word fun t => { t with open_ := t.open_ - 1 } else k
  match w.retires with
  | none => k
  | some n =>
    { k with stages := k.stages.map fun g =>
        if k.owner = some g.ctx then { g with accs := g.accs.filter (· != n) } else g }

/-- Note the entries of the owner that have finished, and drop stage sets that hold nothing back
(14_consistency.md R305). -/
def CoreSt.stageSweep (k : CoreSt) : CoreSt :=
  if k.stages.isEmpty then k
  else
    let gs := k.stages.map fun g =>
      if some g.ctx = k.owner then
        { g with
          mxDone := g.mxDone || !(k.own.queue 2).hasOrder g.order
          ldDone := g.ldDone || g.tiles.all (fun t => t.open_ == 0) || !(k.own.queue 1).hasOrder g.order }
      else g
    { k with stages := gs.filter fun g => !((g.mxDone || g.writes == 0) && g.ldDone && g.accs.isEmpty) }

/-- What the finish of an mret or mrcv does: the window of its accumulator retires (11_matrix.md R257), and MX stands at a
pre-emption point when no block is open (R258). -/
def Own.mxFinish (o : Own) (w : LiveWord) : Own :=
  let o :=
    match w.retires with
    | some n => o.setAcc n { o.acc n with welt := none, struck := false }
    | none => o
  match w.eng, (decodeWord .mx w.bits).mx? with
  | .mx, some (.mret, _, _) | .mx, some (.mrcv, _, _) =>
    { o with mxAtPoint := (o.acc 0).blk.isNone && (o.acc 1).blk.isNone }
  | _, _ => o

/-- The finish of a word (R57): its pushes are made and its entry may leave the queue. DEDUCED (log 33). -/
def State.finishWord (s : State) (c id : Nat) : State :=
  let o := s.own c
  match o.liveWord id with
  | some w =>
    if w.ready && o.room w then
      (s.modOwn c fun o =>
        (({ o.pushAll (pushQueues w) with live := o.live.filter fun x => x.id != id }).mxFinish w).reap
          (engNo w.eng)).modCore c fun k => (k.stageWord w).stageSweep
    else s
  | none => s

/-- The words of a core that are due to finish. -/
def CoreSt.finishing (k : CoreSt) (cpOnly : Bool) : List Nat :=
  (k.own.live.filter fun w => w.ready && k.own.room w && (!cpOnly || w.eng == .cp)).map (·.id)

/-- NOP and the ignored cells: an issue with no effect (R64). DEDUCED (log 19). -/
def State.issueNop (s : State) (c : Nat) (e : Engine) : State :=
  match s.beginIssue c e with
  | some (_, s) => s
  | none => s

/-- The illegal-word trap (R63): the word at the cursor does not issue; the fault is taken at the boundary
in front of it. DEDUCED (log 27). -/
def State.illegalWordTrap (s : State) (c : Nat) (e : Engine) (w : EWord) (sub : BitVec 2) : State :=
  match ((s.own c).queue (engNo e)).run with
  | some r =>
    if r.issue ≠ 0 then s
    else
      let rec_ : Record :=
        { r.names (s.blankRecord c r.entry.ctx) (engNo e) with
          cause := 0x01, status := statusWord (w.extractLsb' 40 8) sub.toNat 0 r.word }
      s.modCore c fun k =>
        if k.faults.any fun f => f.cause = 0x01 ∧ f.eng = engNo e then k
        else { k with faults := k.faults ++ [rec_] }
  | none => s

end Sys2Proof.Machine
end

