-- ==== Sys2Proof/Machine/VxEval.lean ====
section
/-! DEFINITION. What a VX word computes from the slots, guards and scalars it has read (09_vector.md R189
to R209, 10_reversible.md R225 to R229): pure functions of the operands. -/
namespace Sys2Proof.Machine

/-- Everything a VX issue has in hand at its cycle x. -/
structure VxIn where
  p : VxFields
  es : List Word
  mode : BitVec 4
  /-- the guard after N -/
  g : BitVec 64
  /-- guards named in the fields A and B, or C, read at issue -/
  ga : BitVec 64
  gb : BitVec 64
  a : Slot
  b : Slot
  c : Slot
  /-- entry data of an undo word, with a mark for an uncorrectable error in it -/
  ent : BitVec 1024
  entBad : Bool
  deriving DecidableEq, Repr

/-- What a VX issue delivers. -/
structure VxOut where
  d : Option (SlotOut × Fmt)
  c : Option (SlotOut × Fmt)
  /-- guard register, value, and which of its bits are written -/
  guards : List (Nat × Nat × Nat)
  push : Option (Word × Fmt)
  /-- entry data of a do word -/
  ent : Option Nat
  fl : Flg
  voids : Nat
  deriving DecidableEq, Repr

def VxOut.none : VxOut :=
  { d := .none, c := .none, guards := [], push := .none, ent := .none, fl := 0, voids := 0 }

/-- A word whose one result is a slot. -/
def VxOut.slot (o : SlotOut) (tag : Fmt) : VxOut :=
  { VxOut.none with d := some (o, tag), fl := o.fl, voids := o.voids }

/-! ## Lane arithmetic -/

/-- A CF16 lane from its halves. -/
def cf16 (re im : Nat × Flg) : Nat × Flg := (re.1 + im.1 <<< 16, re.2 ||| im.2)

/-- One half of a CF16 product: exact x·y ± z·w, one rounding (R194). -/
def cfDot (m : Nat) (srcs : List Val) (x y : Val) (neg : Bool) (z w : Val) : Nat × Flg :=
  let r : Exact :=
    match mulVal x y, mulVal z w with
    | .ok p, .ok q => addVal m p (if neg then negVal q else q)
    | _, _ => .invalid
  deliver 2 m srcs r

/-- The product of two CF16 lanes (R194). -/
def cfMul (m a b : Nat) : Nat × Flg :=
  let ar := fpVal 2 (a % 2 ^ 16)
  let ai := fpVal 2 (a >>> 16)
  let br := fpVal 2 (b % 2 ^ 16)
  let bi := fpVal 2 (b >>> 16)
  let srcs := [ar, ai, br, bi]
  cf16 (cfDot m srcs ar br true ai bi) (cfDot m srcs ar bi false ai br)

/-- The sign bit of a format flipped. -/
def flipSign (f : Fmt) (a : Nat) : Nat := a ^^^ 2 ^ (laneBits f - 1)

/-- An integer lane. -/
def laneInt (f : Fmt) (v : Nat) : Int := sintOf (laneBits f) v

/-- An integer result under R51. -/
def laneRes (f : Fmt) (wrap : Bool) (v : Int) : Nat × Flg := intResult (laneBits f) wrap v

/-- add, sub (R190, R191, R194). -/
def laneAdd (f : Fmt) (m : BitVec 4) (sub : Bool) (a b : Nat) : Nat × Flg :=
  let r := modeR m
  let fp (x : Fmt) (u v : Nat) := if sub then fpSub x r u v else fpAdd x r u v
  if isFp f then fp f a b
  else if f = 9 then cf16 (fp 2 (a % 2 ^ 16) (b % 2 ^ 16)) (fp 2 (a >>> 16) (b >>> 16))
  else laneRes f (modeWrap m) (if sub then laneInt f a - laneInt f b else laneInt f a + laneInt f b)

/-- mul. -/
def laneMul (f : Fmt) (m : BitVec 4) (a b : Nat) : Nat × Flg :=
  if isFp f then fpMul f (modeR m) a b
  else if f = 9 then cfMul (modeR m) a b
  else laneRes f (modeWrap m) (laneInt f a * laneInt f b)

/-- fma, fms, fnma. -/
def laneFma (f : Fmt) (m : BitVec 4) (negP negC : Bool) (a b c : Nat) : Nat × Flg :=
  if isFp f then fpFma f (modeR m) negP negC a b c
  else
    let p := laneInt f a * laneInt f b
    let z := laneInt f c
    laneRes f (modeWrap m) ((if negP then -p else p) + (if negC then -z else z))

/-- min, max (R192). -/
def laneMinMax (f : Fmt) (mx : Bool) (a b : Nat) : Nat × Flg :=
  if isFp f then fpMinMax f mx a b
  else if laneInt f a < laneInt f b then (if mx then b else a, 0)
  else (if mx then a else b, 0)

/-- clamp. -/
def laneClamp (f : Fmt) (a b c : Nat) : Nat × Flg :=
  let u := laneMinMax f true a b
  let v := laneMinMax f false u.1 c
  (v.1, u.2 ||| v.2)

/-- abs. -/
def laneAbs (f : Fmt) (m : BitVec 4) (a : Nat) : Nat × Flg :=
  if isFp f then (a % 2 ^ (laneBits f - 1), 0)
  else laneRes f (modeWrap m) ((laneInt f a).natAbs : Int)

/-- neg. -/
def laneNeg (f : Fmt) (m : BitVec 4) (a : Nat) : Nat × Flg :=
  if isFp f then (flipSign f a, 0)
  else if f = 9 then (a ^^^ 0x80008000, 0)
  else laneRes f (modeWrap m) (-(laneInt f a))

/-- mulh (R191). -/
def laneMulh (f : Fmt) (a b : Nat) : Nat × Flg :=
  let w := laneBits f
  (natOf (2 * w) (laneInt f a * laneInt f b) >>> w, 0)

/-- The shift amount of a lane (R196). -/
def laneShift (f : Fmt) (b : Nat) : Nat := if f = 4 then b % 64 else b % 32

/-- Arithmetic shift right of an integer lane. -/
def laneSra (f : Fmt) (a s : Nat) : Nat := natOf (laneBits f) (laneInt f a / 2 ^ s)

/-- shl, shr, sra. -/
def laneShl (f : Fmt) (a b : Nat) : Nat × Flg := ((a <<< laneShift f b) % 2 ^ laneBits f, 0)
@[inherit_doc laneShl]
def laneShr (f : Fmt) (a b : Nat) : Nat × Flg := (a >>> laneShift f b, 0)
@[inherit_doc laneShl]
def laneSraB (f : Fmt) (a b : Nat) : Nat × Flg := (laneSra f a (laneShift f b), 0)

/-! ## Compares (R197, R198) -/

/-- The relations a compare tests. -/
inductive Rel where
  | eq | ne | lt | le | gt | ge | un
  deriving DecidableEq, Repr

/-- The condition of a compare and its flags. -/
def laneCmp (f : Fmt) (r : Rel) (a b : Nat) : Bool × Flg :=
  if isFp f then
    let x := fpVal f a
    let y := fpVal f b
    let un := isNan x || isNan y
    let lt := valLt false x y
    let gt := valLt false y x
    let sn := flIf (isSnan x || isSnan y) flInvalid
    let an := flIf un flInvalid
    match r with
    | .eq => (!un && !lt && !gt, sn)
    | .ne => (un || lt || gt, sn)
    | .lt => (!un && lt, an)
    | .le => (!un && !gt, an)
    | .gt => (!un && gt, an)
    | .ge => (!un && !lt, an)
    | .un => (un, sn)
  else
    let x := if f = 0 then (a : Int) else laneInt f a
    let y := if f = 0 then (b : Int) else laneInt f b
    match r with
    | .eq => (decide (x = y), 0)
    | .ne => (decide (x ≠ y), 0)
    | .lt => (decide (x < y), 0)
    | .le => (decide (x ≤ y), 0)
    | .gt => (decide (y < x), 0)
    | .ge => (decide (y ≤ x), 0)
    | .un => (false, 0)

/-- The class bit of a lane (R198). -/
def laneClass (f : Fmt) (a : Nat) : Nat :=
  if isFp f then fpClass f a
  else if laneInt f a < 0 then 1
  else if a = 0 then 4
  else 6

/-- The guard bits of lane `k` (R197). -/
def guardBits (f : Fmt) (k : Nat) : Nat := if laneBits f = 32 then 3 <<< (2 * k) else 1 <<< k

/-- A test of each active lane as two guards, with flags and voided lanes: `none` is a lane lost to an
error. -/
def testLanes (f : Fmt) (g : BitVec 64) (t : Nat → Option (Bool × Flg)) :
    List Nat → Nat × Nat × Flg × Nat
  | [] => (0, 0, 0, 0)
  | k :: r =>
    let (vt, vf, fl, n) := testLanes f g t r
    if laneOn f g k then
      match t k with
      | some (true, x) => (vt + guardBits f k, vf, fl ||| x, n)
      | some (false, x) => (vt, vf + guardBits f k, fl ||| x, n)
      | none => (vt, vf, fl ||| flPoison, n + 1)
    else (vt, vf, fl, n)

/-- The result of a compare: gT in D and gF in C, both written whole. -/
def testOut (i : VxIn) (t : Nat → Option (Bool × Flg)) : VxOut :=
  let (vt, vf, fl, n) := testLanes i.p.fmt i.g t (upFrom 0 (lanesOf i.p.fmt))
  { VxOut.none with
    guards := [(i.p.d.toNat, vt, 2 ^ 64 - 1), (i.p.c.toNat, vf, 2 ^ 64 - 1)], fl := fl, voids := n }

/-- A compare of two slots. -/
def cmpOut (i : VxIn) (r : Rel) : VxOut :=
  let f := i.p.fmt
  testOut i fun k =>
    if laneBad f i.a k || laneBad f i.b k then none
    else some (laneCmp f r (laneOf f i.a.data k) (laneOf f i.b.data k))

/-- ccl. -/
def cclOut (i : VxIn) : VxOut :=
  let f := i.p.fmt
  let m := (esAt i.es (i.p.b.toNat % 8)).toNat
  testOut i fun k =>
    if laneBad f i.a k then none else some (bit m (laneClass f (laneOf f i.a.data k)), 0)

/-! ## Word shapes -/

/-- One-source lane words. -/
def un (i : VxIn) (fn : Nat → Nat × Flg) : VxOut :=
  let f := i.p.fmt
  .slot (mapLanes f i.g (laneBad f i.a) fun k => fn (laneOf f i.a.data k)) f

/-- Two-source lane words. -/
def bin (i : VxIn) (fn : Nat → Nat → Nat × Flg) : VxOut :=
  let f := i.p.fmt
  .slot (mapLanes f i.g (fun k => laneBad f i.a k || laneBad f i.b k)
    fun k => fn (laneOf f i.a.data k) (laneOf f i.b.data k)) f

/-- Three-source lane words. -/
def ter (i : VxIn) (fn : Nat → Nat → Nat → Nat × Flg) : VxOut :=
  let f := i.p.fmt
  .slot (mapLanes f i.g (fun k => laneBad f i.a k || laneBad f i.b k || laneBad f i.c k)
    fun k => fn (laneOf f i.a.data k) (laneOf f i.b.data k) (laneOf f i.c.data k)) f

/-- The scalar of R195. -/
def VxIn.scalar (i : VxIn) : Nat := (esAt i.es (i.p.b.toNat % 8)).toNat % 2 ^ laneBits i.p.fmt

/-- The whole snapshot value named by B. -/
def VxIn.esB (i : VxIn) : Nat := (esAt i.es (i.p.b.toNat % 8)).toNat

/-- Slot-and-scalar lane words. -/
def sca (i : VxIn) (fn : Nat → Nat → Nat × Flg) : VxOut := un i fun a => fn a i.scalar

/-- Copy words (R206): lane `k` comes from a lane of A (false) or B (true); `idxBad` says that its index
was lost. -/
def pick (i : VxIn) (tag : Fmt) (src : Nat → Bool × Nat) (idxBad : Nat → Bool) : VxOut :=
  let f := i.p.fmt
  .slot (lanesFrom f (laneOn f i.g) fun k =>
    let (which, j) := src k
    let s := if which then i.b else i.a
    if idxBad k || laneBad f s j then .lost f else .ok (laneOf f s.data j, 0)) tag

/-! ## Conversions (R202, R203) -/

/-- The lane of the source that result lane `j` takes, none where the lane is filled with zeros. -/
def cvtLane (src tgt : Fmt) (p j : Nat) : Option Nat :=
  let ns := lanesOf src
  let nd := lanesOf tgt
  if nd ≤ ns then some ((if nd = ns then 0 else p * nd) + j)
  else if p * ns ≤ j ∧ j < p * ns + ns then some (j - p * ns)
  else none

/-- The ratio of R202. -/
def cvtRatio (src tgt : Fmt) : Nat :=
  let ns := lanesOf src
  let nd := lanesOf tgt
  if nd ≤ ns then ns / nd else nd / ns

/-- A conversion with part `p` and a lane function. -/
def cvtOut (i : VxIn) (p : Nat) (fn : Nat → Nat × Flg) : VxOut :=
  let src := i.p.fmt
  let tgt : Fmt := i.p.c
  .slot (lanesFrom tgt (laneOn tgt i.g) fun j =>
    match cvtLane src tgt p j with
    | none => .ok (0, 0)
    | some k => if laneBad src i.a k then .lost tgt else .ok (fn (laneOf src i.a.data k))) tgt

/-- cvtb (R203). -/
def cvtbOut (i : VxIn) : VxOut :=
  let u := i.esB
  let src := i.p.fmt
  let tgt : Fmt := i.p.c
  cvtOut i (fld u 8 3 % cvtRatio src tgt) fun c =>
    if u % 256 = 0x80 then (voidOf tgt, flPoison)
    else convVal tgt (modeR i.mode) (modeWrap i.mode) (scaleVal (valOf src c) (sintOf 8 u))

/-! ## Reductions (R50, R205) -/

/-- One stage of the pairwise tree. -/
def treeStage (op : Nat → Nat → Nat × Flg) : List (Option Nat) → List (Option Nat) × Flg
  | a :: b :: r =>
    let (t, fl) := treeStage op r
    match a, b with
    | some x, some y => let v := op x y; (some v.1 :: t, fl ||| v.2)
    | some x, none => (some x :: t, fl)
    | none, o => (o :: t, fl)
  | l => (l, 0)

/-- Stages until one value remains; `n` bounds their number. -/
def tree (op : Nat → Nat → Nat × Flg) : Nat → List (Option Nat) → Option Nat × Flg
  | 0, l => (l.head?.join, 0)
  | n + 1, l =>
    let (t, fl) := treeStage op l
    let (v, fl2) := tree op n t
    (v, fl ||| fl2)

/-- Combine the inputs of the active lanes; `inp k` gives a lane's value with flags, none when lost. -/
def reduceOut (i : VxIn) (fr : Fmt) (op : Nat → Nat → Nat × Flg) (inp : Nat → Option (Nat × Flg)) : VxOut :=
  let f := i.p.fmt
  let on := (upFrom 0 (lanesOf f)).filter (laneOn f i.g)
  let vals := on.map fun k => (k, inp k)
  let lost := vals.any fun v => v.2.isNone
  let fl0 : Flg := vals.foldl (fun a v => a ||| (v.2.map (·.2)).getD 0) 0
  let leaf (k : Nat) : Option Nat := if laneOn f i.g k then (inp k).map (·.1) else none
  let (v, fl1) := tree op 6 ((upFrom 0 (lanesOf f)).map leaf)
  let r : LaneOut := if lost then .lost fr else { val := v.getD 0, fl := 0, void := false }
  let o := lanesFrom fr (laneOn fr i.g) fun k => if k = 0 then r else .ok (0, 0)
  let fl : Flg := if lost then flPoison else fl0 ||| fl1
  { VxOut.slot o fr with fl := fl }

/-- The format of a sum (R205). -/
def sumFmt (f : Fmt) : Fmt := if isFp f then 1 else 4

/-- The addition of a tree (R36, R51). -/
def sumOp (f : Fmt) (m : BitVec 4) (a b : Nat) : Nat × Flg :=
  if isFp f then fpAdd 1 0 a b else laneRes 4 (modeWrap m) (laneInt 4 a + laneInt 4 b)

/-- A source lane widened exactly to the result format of a sum. -/
def widen (f : Fmt) (a : Nat) : Nat :=
  if isFp f then (conv f 1 0 false a).1 else natOf 32 (laneInt f a)

def redaOut (i : VxIn) : VxOut :=
  let f := i.p.fmt
  reduceOut i (sumFmt f) (sumOp f i.mode) fun k =>
    if laneBad f i.a k then none else some (widen f (laneOf f i.a.data k), 0)

def redmOut (i : VxIn) (mx : Bool) : VxOut :=
  let f := i.p.fmt
  reduceOut i f (laneMinMax f mx) fun k =>
    if laneBad f i.a k then none else some (laneOf f i.a.data k, 0)

def reddOut (i : VxIn) : VxOut :=
  let f := i.p.fmt
  reduceOut i (sumFmt f) (sumOp f i.mode) fun k =>
    if laneBad f i.a k || laneBad f i.b k then none
    else
      let a := laneOf f i.a.data k
      let b := laneOf f i.b.data k
      if isFp f then
        let x := fpVal f a
        let y := fpVal f b
        some (deliver 1 0 [x, y] (mulVal x y))
      else some (laneRes 4 (modeWrap i.mode) (laneInt f a * laneInt f b))

/-! ## Guards (R200, R201) -/

/-- A guard-logic word: bits of gD under G. -/
def glogic (i : VxIn) (v : BitVec 64) : VxOut :=
  { VxOut.none with guards := [(i.p.d.toNat, v.toNat, i.g.toNat)] }

/-- vtog. -/
def vtogOut (i : VxIn) : VxOut :=
  let f := i.p.fmt
  let (vt, vf, _, n) := testLanes f i.g (fun k =>
    if laneBad f i.a k then none else some (laneOf f i.a.data k != 0, 0)) (upFrom 0 (lanesOf f))
  let lost := (upFrom 0 (lanesOf f)).foldl (fun a k =>
    if laneOn f i.g k && laneBad f i.a k then a + guardBits f k else a) 0
  { VxOut.none with
    guards := [(i.p.d.toNat, vt, vt + vf + lost)], fl := flIf (decide (0 < n)) flPoison, voids := n }

/-! ## The scalar return queue (R209) -/

def sretOut (i : VxIn) : VxOut :=
  let f := i.p.fmt
  let lost := laneBad f i.a 0
  let v := if lost then voidOf f else laneOf f i.a.data 0
  let w : Word := if f = 4 ∨ f = 5 then sext64 (laneBits f) v else BitVec.ofNat 64 v
  { VxOut.none with push := some (w, i.a.tag), fl := flIf lost flPoison, voids := b2n lost }

def sretcOut (i : VxIn) : VxOut :=
  let f := i.p.fmt
  let on := (upFrom 0 (lanesOf f)).filter (laneOn f i.g)
  { VxOut.none with
    push := some (BitVec.ofNat 64 (on.length + (on.head?.getD 0xFFFF) <<< 16), 0) }

/-! ## Reversible words (10_reversible.md R225 to R229) -/

/-- Lane data of an entry. -/
def entLane (f : Fmt) (i : VxIn) (k : Nat) : Nat := fld i.ent.toNat (laneBits f * k) (laneBits f)

/-- A do word: the lane function gives the result and e[k], both under the guard. -/
def doOut (i : VxIn) (bad : Nat → Bool) (fn : Nat → (Nat × Flg) × Nat) : VxOut :=
  let f := i.p.fmt
  let o := mapLanes f i.g bad fun k => (fn k).1
  let e := (upFrom 0 (lanesOf f)).foldl (fun a k =>
    if laneOn f i.g k then a + ((fn k).2 % 2 ^ laneBits f) <<< (laneBits f * k) else a) 0
  { VxOut.slot o f with ent := some e }

/-- An undo word: a lost entry voids every active lane (R233). -/
def undoOut (i : VxIn) (bad : Nat → Bool) (fn : Nat → Nat) : VxOut :=
  let f := i.p.fmt
  .slot (mapLanes f i.g (fun k => i.entBad || bad k) fun k => (fn k, 0)) f

/-- The factor of rmulq and umulq for a lane, and whether it is lost. -/
def qFactor (i : VxIn) (k : Nat) : Nat × Bool :=
  if i.p.c.getLsbD 3 then (i.scalar, false)
  else (laneOf i.p.fmt i.b.data k, laneBad i.p.fmt i.b k)

/-- The shift q of R225. -/
def qShift (i : VxIn) : Nat :=
  min ((esAt i.es (i.p.c.toNat % 8)).toNat % 64) (laneBits i.p.fmt)

/-- The shift s of R226. -/
def sShift (i : VxIn) : Nat := min (i.esB % 64) (laneBits i.p.fmt)

/-- rmulq on one lane: result with flag, and e. -/
def rmulqLane (f : Fmt) (q a b : Nat) : (Nat × Flg) × Nat :=
  let w := laneBits f
  if b = 0 then ((0, 0), a)
  else
    let p := natOf (2 * w) (laneInt f a * laneInt f b)
    let r := fld p q w
    let hi := fld p (q + w) (w - q)
    let copies := if bit r (w - 1) then 2 ^ (w - q) - 1 else 0
    ((r, flIf (decide (hi ≠ copies)) flOverflow), hi <<< q + p % 2 ^ q)

/-- Division of integers truncated toward zero. -/
def tdiv (a b : Int) : Int := if (a < 0) = (b < 0) then (a.natAbs / b.natAbs : Nat) else -((a.natAbs / b.natAbs : Nat) : Int)

/-- umulq on one lane. -/
def umulqLane (f : Fmt) (q r e b : Nat) : Nat :=
  let w := laneBits f
  if b = 0 then e
  else
    let p := (fld e q (w - q)) <<< (q + w) + r <<< q + e % 2 ^ q
    natOf w (tdiv (sintOf (2 * w) p) (laneInt f b))

/-- The lanes of D that a narrow do writes, as bits: lane p·Ns + k of the target. -/
def rnrwOut (i : VxIn) : VxOut :=
  let src := i.p.fmt
  let tgt : Fmt := i.p.c
  let p := i.p.b.toNat
  let ns := lanesOf src
  let y (k : Nat) : Nat × Flg := conv src tgt (modeR i.mode) (modeWrap i.mode) (laneOf src i.a.data k)
  let o := buildLanes tgt 0 ((upFrom 0 (lanesOf tgt)).map fun j =>
    match cvtLane src tgt p j with
    | none => none
    | some k =>
      if laneOn src i.g k then some (if laneBad src i.a k then .lost tgt else .ok (y k)) else none)
  let e := (upFrom 0 ns).foldl (fun a k =>
    if laneOn src i.g k then
      a + (laneOf src i.a.data k ^^^ (conv tgt src 0 false (y k).1).1) <<< (laneBits src * k)
    else a) 0
  { VxOut.slot o tgt with ent := some e }

def unrwOut (i : VxIn) : VxOut :=
  let src := i.p.fmt
  let tgt : Fmt := i.p.c
  let p := i.p.b.toNat
  let ns := lanesOf src
  let at_ (k : Nat) : Nat := p * ns + k
  .slot (mapLanes src i.g (fun k => i.entBad || laneBad tgt i.a (at_ k)) fun k =>
    ((conv tgt src 0 false (laneOf tgt i.a.data (at_ k))).1 ^^^ entLane src i k, 0)) src

/-- rmix: D and C, and the parity bits. -/
def rmixOut (i : VxIn) : VxOut :=
  let f := i.p.fmt
  let w := laneBits f
  let bad (k : Nat) : Bool := laneBad f i.a k || laneBad f i.b k
  let a (k : Nat) : Int := laneInt f (laneOf f i.a.data k)
  let b (k : Nat) : Int := laneInt f (laneOf f i.b.data k)
  let o := doOut i bad fun k => ((natOf w ((a k + b k) / 2), 0), ((a k + b k) % 2).toNat)
  let c := mapLanes f i.g bad fun k => (natOf w ((a k - b k) / 2), 0)
  { o with c := some (c, f), fl := o.fl ||| c.fl, voids := o.voids + c.voids }

/-- umix. -/
def umixOut (i : VxIn) : VxOut :=
  let f := i.p.fmt
  let w := laneBits f
  let bad (k : Nat) : Bool := i.entBad || laneBad f i.a k || laneBad f i.b k
  let s (k : Nat) : Int := laneInt f (laneOf f i.a.data k)
  let d (k : Nat) : Int := laneInt f (laneOf f i.b.data k)
  let o := VxOut.slot (mapLanes f i.g bad fun k =>
    (natOf w (s k + d k + (entLane f i k % 2 : Nat)), 0)) f
  let c := mapLanes f i.g bad fun k => (natOf w (s k - d k), 0)
  { o with c := some (c, f), fl := o.fl ||| c.fl, voids := o.voids + c.voids }

/-! ## Every VX word -/

/-- What a VX issue delivers from what it has read. The words that act only at issue (rmark, rchk, rdrop)
and acrd, which reads an accumulator, deliver nothing here. DESIGN CHOICE (log 98). -/
def vxEval (o : VxOp) (i : VxIn) : VxOut :=
  let f := i.p.fmt
  let m := i.mode
  let n := lanesOf f
  let la (k : Nat) : Nat := laneOf f i.a.data k
  match o with
  | .add => bin i (laneAdd f m false)
  | .sub => bin i (laneAdd f m true)
  | .mul => bin i (laneMul f m)
  | .fma => ter i (laneFma f m false false)
  | .fms => ter i (laneFma f m false true)
  | .fnma => ter i (laneFma f m true false)
  | .min => bin i (laneMinMax f false)
  | .max => bin i (laneMinMax f true)
  | .abs => un i (laneAbs f m)
  | .neg => un i (laneNeg f m)
  | .clamp => ter i (laneClamp f)
  | .rcp => un i (fpRcp f (modeR m))
  | .rsq => un i (fpRsq f (modeR m))
  | .exp2 => un i (fpExp2 f (modeR m))
  | .log2 => un i (fpLog2 f (modeR m))
  | .and => bin i fun a b => (a &&& b, 0)
  | .or => bin i fun a b => (a ||| b, 0)
  | .xor => bin i fun a b => (a ^^^ b, 0)
  | .not => un i fun a => (2 ^ laneBits f - 1 - a, 0)
  | .shl => bin i (laneShl f)
  | .shr => bin i (laneShr f)
  | .sra => bin i (laneSraB f)
  | .adds => sca i (laneAdd f m false)
  | .muls => sca i (laneMul f m)
  | .fmas =>
    .slot (mapLanes f i.g (fun k => laneBad f i.a k || laneBad f i.c k) fun k =>
      laneFma f m false false (la k) i.scalar (laneOf f i.c.data k)) f
  | .mulh => bin i (laneMulh f)
  | .mins => sca i (laneMinMax f false)
  | .maxs => sca i (laneMinMax f true)
  | .ceq => cmpOut i .eq
  | .cne => cmpOut i .ne
  | .clt => cmpOut i .lt
  | .cle => cmpOut i .le
  | .cgt => cmpOut i .gt
  | .cge => cmpOut i .ge
  | .cun => cmpOut i .un
  | .ccl => cclOut i
  | .sel => pick i f (fun k => (!bit i.gb.toNat (govBit f k), k)) fun _ => false
  | .gand => glogic i (i.ga &&& i.gb)
  | .gor => glogic i (i.ga ||| i.gb)
  | .gxor => glogic i (i.ga ^^^ i.gb)
  | .gandn => glogic i (i.ga &&& ~~~i.gb)
  | .gmov => glogic i i.ga
  | .gtov => .slot (mapLanes 0 i.g (fun _ => false) fun k => (if bit i.ga.toNat k then 0xFFFF else 0, 0)) 0
  | .vtog => vtogOut i
  | .cvt => cvtOut i i.p.b.toNat (conv f i.p.c (modeR m) (modeWrap m))
  | .cvtb => cvtbOut i
  | .tag => pick i f (fun k => (false, k)) fun _ => false
  | .reda => redaOut i
  | .redx => redmOut i true
  | .redn => redmOut i false
  | .redd => reddOut i
  | .mov =>
    let tag := if f = 0 then copiedTag i.a.tag else f
    -- bits moved onto a slot of tag LN6 keep its clear bits clear (02_numbers.md R31)
    if f = 0 ∧ tag = 8 then
      .slot (lanesFrom 0 (laneOn 0 i.g) fun k =>
        if laneBad 0 i.a k then .lost 0 else .ok (laneOf 0 i.a.data k &&& 0x3F3F, 0)) tag
    else pick i tag (fun k => (false, k)) fun _ => false
  | .swz => pick i f (fun k => (false, fld i.b.data.toNat (16 * k) 16 % n)) fun k => laneBad 5 i.b k
  | .lrot => pick i f (fun k => (false, (k + i.esB % n) % n)) fun _ => false
  | .bcst => pick i f (fun _ => (false, i.esB % n)) fun _ => false
  | .zip =>
    pick i f (fun k => (k % 2 == 1, i.p.c.toNat * (n / 2) + k / 2)) fun _ => false
  | .uzp =>
    pick i f (fun k => if k < n / 2 then (false, 2 * k + i.p.c.toNat) else (true, 2 * (k - n / 2) + i.p.c.toNat))
      fun _ => false
  | .slide =>
    let s := (esAt i.es (i.p.c.toNat % 8)).toNat % n
    pick i f (fun k => if k + s < n then (false, k + s) else (true, k + s - n)) fun _ => false
  | .splat => .slot (mapLanes f i.g (fun _ => false) fun _ => (i.esB, 0)) f
  | .acrd => .none
  | .sret => sretOut i
  | .sretc => sretcOut i
  | .rmulq =>
    doOut i (fun k => laneBad f i.a k || (qFactor i k).2) fun k =>
      rmulqLane f (qShift i) (la k) (qFactor i k).1
  | .umulq =>
    undoOut i (fun k => laneBad f i.a k || (qFactor i k).2) fun k =>
      umulqLane f (qShift i) (la k) (entLane f i k) (qFactor i k).1
  | .rsra =>
    doOut i (laneBad f i.a) fun k => ((laneSra f (la k) (sShift i), 0), la k % 2 ^ sShift i)
  | .usra =>
    undoOut i (laneBad f i.a) fun k => ((la k <<< sShift i) ||| entLane f i k) % 2 ^ laneBits f
  | .rnrw => rnrwOut i
  | .unrw => unrwOut i
  | .rleak =>
    doOut i (laneBad f i.a) fun k =>
      if 0 ≤ laneInt f (la k) then ((la k, 0), 0)
      else ((laneSra f (la k) (sShift i), 0), la k % 2 ^ sShift i)
  | .uleak =>
    undoOut i (laneBad f i.a) fun k =>
      if 0 ≤ laneInt f (la k) then la k
      else ((la k <<< sShift i) ||| entLane f i k) % 2 ^ laneBits f
  | .raddq => bin i fun a b => ((a + b) % 2 ^ laneBits f, 0)
  | .usubq => bin i fun a b => ((a + 2 ^ laneBits f - b) % 2 ^ laneBits f, 0)
  | .rmix => rmixOut i
  | .umix => umixOut i
  | .rmark => .none
  | .rchk => .none
  | .rdrop => .none

/-! ## Roles, latencies and stepping -/

/-- Slot sources: role (0 A, 1 B, 2 C) and the format named for it. -/
def vxSources (o : VxOp) (p : VxFields) : List (Nat × Fmt) :=
  let f := p.fmt
  match o with
  | .add | .sub | .mul | .min | .max | .and | .or | .xor | .shl | .shr | .sra | .mulh | .ceq | .cne
  | .clt | .cle | .cgt | .cge | .cun | .sel | .redd | .zip | .uzp | .slide | .raddq | .usubq | .rmix
  | .umix => [(0, f), (1, f)]
  | .fma | .fms | .fnma | .clamp => [(0, f), (1, f), (2, f)]
  | .fmas => [(0, f), (2, f)]
  | .abs | .neg | .rcp | .rsq | .exp2 | .log2 | .not | .adds | .muls | .mins | .maxs | .ccl | .vtog
  | .cvt | .cvtb | .reda | .redx | .redn | .mov | .lrot | .bcst | .sret | .rsra | .usra | .rnrw
  | .rleak | .uleak => [(0, f)]
  | .swz => [(0, f), (1, 5)]
  | .tag => [(0, 0)]
  | .unrw => [(0, p.c)]
  | .rmulq | .umulq => if p.c.getLsbD 3 then [(0, f)] else [(0, f), (1, f)]
  | .gand | .gor | .gxor | .gandn | .gmov | .gtov | .splat | .acrd | .sretc | .rmark | .rchk | .rdrop => []

/-- The word writes a slot named in D. -/
def vxWritesD (o : VxOp) : Bool :=
  match o with
  | .ceq | .cne | .clt | .cle | .cgt | .cge | .cun | .ccl | .gand | .gor | .gxor | .gandn | .gmov
  | .vtog | .sret | .sretc | .rmark | .rchk | .rdrop => false
  | _ => true

/-- The word writes a slot named in C (R229). -/
def vxWritesC (o : VxOp) : Bool := o == .rmix || o == .umix

/-- Which of D, A, B, C step (R61, R185, R207). -/
def vxSteps (o : VxOp) (p : VxFields) : Bool × Bool × Bool × Bool :=
  let r := (vxSources o p).map (·.1)
  (vxWritesD o, r.contains 0, r.contains 1, r.contains 2 || vxWritesC o)

/-- The fields of issue `n` (R61). acrd steps its chunk modulo the chunk count (R207). -/
def vxStepped (o : VxOp) (p : VxFields) (n : Nat) : VxFields :=
  let (sd, sa, sb, sc) := vxSteps o p
  let onD := p.sa == 1 || p.sa == 3
  let onS := p.sa == 2 || p.sa == 3
  let c :=
    if o == .acrd ∧ onS then
      let k := if p.fmt = 1 then 8 else 4
      BitVec.ofNat 4 ((stepName p.c true n p.step).toNat % k)
    else stepName p.c (sc && onS) n p.step
  { p with
    d := stepName p.d (sd && onD) n p.step
    a := stepName p.a (sa && onS) n p.step
    b := stepName p.b (sb && onS) n p.step
    c := c }

/-- The latency L (R189 to R209, 10 R223). -/
def vxLatency (o : VxOp) (f : Fmt) : Nat :=
  match o with
  | .add | .sub | .adds => if isFp f || f == 9 then 4 else 2
  | .mul | .muls => if isFp f then 4 else if f == 9 then 6 else 3
  | .fma | .fms | .fnma | .fmas => 5
  | .min | .max | .abs | .neg | .clamp | .mins | .maxs => 2
  | .rcp | .rsq | .exp2 | .log2 => 12
  | .mulh => 3
  | .and | .or | .xor | .not | .shl | .shr | .sra => 1
  | .ceq | .cne | .clt | .cle | .cgt | .cge | .cun | .ccl | .vtog => 2
  | .sel | .gand | .gor | .gxor | .gandn | .gmov | .gtov | .tag | .mov | .splat | .sret | .sretc => 1
  | .cvt => 3
  | .cvtb => 4
  | .reda | .redx | .redn => 8
  | .redd => 12
  | .swz => 3
  | .lrot | .bcst | .zip | .uzp | .slide => 2
  | .acrd => 6
  | .rmulq | .rnrw | .unrw => 3
  | .umulq => 12
  | .rsra | .usra | .rleak | .uleak => 1
  | .raddq | .usubq | .rmix | .umix => 2
  | .rmark | .rchk | .rdrop => 1

/-- Do words, with their pair code (10_reversible.md R220). -/
def vxDo (o : VxOp) : Option Nat :=
  match o with
  | .rmulq => some 0 | .rsra => some 1 | .rnrw => some 2 | .rleak => some 3 | .rmix => some 5
  | _ => none

/-- Undo words, with their pair code. -/
def vxUndo (o : VxOp) : Option Nat :=
  match o with
  | .umulq => some 0 | .usra => some 1 | .unrw => some 2 | .uleak => some 3 | .umix => some 5
  | _ => none

/-- The entry tag c ‖ R ‖ O ‖ F (R220). -/
def entTag (c : Nat) (r o f : BitVec 4) : BitVec 16 := BitVec.ofNat 4 c ++ r ++ o ++ f

end Sys2Proof.Machine
end

