-- ==== Sys2Proof/Machine/Vx.lean ====
section
/-! DEFINITION. VX: issues, slot reads, results, and the remainder stack (07_ring.md R153 to R158,
09_vector.md R184 to R210, 10_reversible.md R212 to R234). -/
namespace Sys2Proof.Machine

/-! ## Flights -/

def Own.addFlight (o : Own) (f : Flight) : Own := { (o.pend f.live) with flights := o.flights ++ [f] }

def Own.modFlight (o : Own) (id : Nat) (f : Flight → Flight) : Own :=
  { o with flights := o.flights.map fun x => if x.id = id then f x else x }

def Own.flight (o : Own) (id : Nat) : Option Flight := o.flights.find? fun f => f.id == id

/-- An issue in flight has had all its effects. -/
def Own.endFlight (o : Own) (id : Nat) : Own :=
  match o.flight id with
  | some f => { (o.settleIssue f.live) with flights := o.flights.filter fun x => x.id != id }
  | none => o

/-- A flight with nothing in it. -/
def Flight.blank (i : Issue) (id : Nat) (e : Engine) (ins : Instr) (g : BitVec 64) : Flight :=
  { id := id, live := i.live, eng := e, instr := ins, issue := i.issue, t := i.t, es := i.entry.es,
    mode := i.entry.mode, ctx := i.entry.ctx, gen := i.entry.gen, g := g, g2 := 0, g3 := 0, d := 0, c := 0,
    reads := [], addr := 0, acc := none, data := [], done := 0, x := 0, w := 0, w2 := 0, quiet := false,
    arrived := false, gate := i.gate, rem := none, res := none, res2 := none }

/-- The slot that a flight has read in a role. -/
def Flight.got (f : Flight) (role : Nat) : Slot :=
  (((f.reads.find? fun r => r.role == role).bind fun r => r.got)).getD Slot.zero

/-- A number for an issue in flight. -/
def State.newId (s : State) (c : Nat) : Nat × State :=
  let k := s.core c
  (k.nextJob, s.setCore c { k with nextJob := k.nextJob + 1 })

/-! ## The remainder stack -/

/-- The on-core count ON. -/
def Stack.on (k : Stack) : Nat := k.ents.length

def Stack.mark (k : Stack) (i : Nat) : BitVec 16 := tblGet 0 k.marks i

/-- The entry on top, when it is on core. -/
def Stack.top (k : Stack) : Option RemEnt := if k.depth = 0 then none else tblFind k.ents (k.depth - 1)

/-- An entry that reads as abandoned (R233). -/
def RemEnt.dead (e : RemEnt) : Bool := e.abn || e.badMeta

/-- The check of a do or undo issue (R221): a sub-cause, or the stack after the issue with the entry that
an undo pops. -/
def Stack.act (k : Stack) (o : VxOp) (p : VxFields) (gen : BitVec 8) (id : Nat) :
    Except Nat (Stack × Option RemEnt) :=
  match vxDo o with
  | some code =>
    if k.depth = max k.cap 48 then .error 6
    else
      let e : RemEnt :=
        { data := 0, tag := entTag code p.d p.a p.fmt, gen := gen, abn := false, id := id, writer := id, bad := [],
          badMeta := false }
      .ok ({ k with depth := k.depth + 1, ents := tblPut k.ents k.depth e }, none)
  | none =>
    match vxUndo o with
    | none => .ok (k, none)
    | some code =>
      match k.top with
      | none => .error 2
      | some e =>
        if e.tag ≠ entTag code p.a p.d p.fmt then .error 1
        else if e.dead then .error 3
        else .ok ({ k with depth := k.depth - 1, ents := tblErase k.ents (k.depth - 1) }, some e)

/-- The entry that the region's record of a position holds. -/
def State.regionEntry (s : State) (c i : Nat) : RemEnt :=
  let k := s.core c
  let st := k.own.stack
  let w := ofBytesLe (k.spBytes (st.metaAt i) 8)
  { data := BitVec.ofNat 1024 (ofBytesLe (k.spBytes (st.dataAt i) 128))
    tag := BitVec.ofNat 16 w, gen := BitVec.ofNat 8 (w >>> 16), abn := bit w 24, id := 0, writer := 0
    bad := (upFrom 0 16).filter fun u => k.spBad.contains (st.dataAt i / 8 + u)
    badMeta := k.spBad.contains (st.metaAt i / 8) }

/-- The tag of the top entry, on core or in the region; 0 of an empty stack (R222). -/
def State.topTag (s : State) (c : Nat) : Nat :=
  let k := (s.own c).stack
  if k.depth = 0 then 0 else (k.top.getD (s.regionEntry c (k.depth - 1))).tag.toNat

/-- The status word of a stack fault (R222). -/
def stackStatus (tag sub issue : Nat) (op : BitVec 8) : BitVec 32 :=
  BitVec.ofNat 32 (tag <<< 16 + sub <<< 12 + (issue % 64) <<< 4 + op.toNat % 16)

/-- VX must wait for the spill machine before this issue (R217). -/
def Stack.waits (k : Stack) (o : VxOp) : Bool :=
  ((vxDo o).isSome && k.on == 64 && k.depth != max k.cap 48) ||
    ((vxUndo o).isSome && k.on == 0 && decide (0 < k.depth))

/-- rmark, rchk and rdrop at issue (R230): the stack after, or a sub-cause. A mark is written at the end of cycle x. -/
def Stack.marks3 (k : Stack) (o : VxOp) (p : VxFields) (es : List Word) : Except Nat Stack :=
  let n := p.d.toNat % 4
  let dm := (k.mark n).toNat
  match o with
  | .rchk =>
    if (k.depth + 2 ^ 16 - dm) % 2 ^ 16 ≠ (esAt es (p.b.toNat % 8)).toNat % 2 ^ 16 then .error 4 else .ok k
  | .rdrop =>
    if k.depth < dm then .error 5
    else .ok { k with depth := dm, ents := k.ents.filter fun e => decide (e.1 < dm) }
  | _ => .ok k

/-! ## Issue -/

/-- Guards that a word names beside its own (09_vector.md R199, R200, R201). -/
def vxGuards (o : VxOp) (p : VxFields) : Nat × Nat :=
  match o with
  | .sel => (0, p.c.toNat % 8)
  | _ => (p.a.toNat % 8, p.b.toNat % 8)

/-- One issue of a VX word (R184): guards are read, stack actions made, and the cycles of its slot reads
and its result fixed. -/
def State.issueVx (s : State) (c : Nat) (o : VxOp) (f : Frame) (p : VxFields) : State :=
  let k := s.own c
  let waits :=
    match (k.queue 3).run with
    | some _ => k.stack.waits o
    | none => true
  if waits then s
  else
    match s.beginIssue c .vx with
    | none => s
    | some (i, s) =>
      let q := vxStepped o p i.issue
      let (id, s) := s.newId c
      let own := s.own c
      let src := vxSources o q
      let reads : List SlotRead := src.map fun r =>
        let slot := if r.1 = 0 then q.a else if r.1 = 1 then q.b else q.c
        let eye := if r.1 = 0 then 2 else if r.1 = 1 then 6 else 10
        { role := r.1, slot := slot.toNat, due := readCycle i.t slot.toNat eye, got := none }
      let reads :=
        if o = .acrd then [{ role := 5, slot := q.a.toNat % 2, due := i.t + 1, got := none }] else reads
      let lat := vxLatency o q.fmt
      let x := if o = .acrd then i.t + lat else (reads.map (·.due)).foldl max i.t + lat
      let (ga, gb) := vxGuards o q
      let fl : Flight :=
        { Flight.blank i id .vx (o.toInstr f p) (guardN own q.guard q.n) with
          g2 := own.guard ga, g3 := own.guard gb, addr := own.stack.depth, d := q.d.toNat, c := q.c.toNat, reads := reads, x := x
          w := if vxWritesD o then meetCycle x q.d.toNat 14 else x
          w2 := if vxWritesC o then meetCycle x q.c.toNat 14 else x }
      let status (sub : Nat) := stackStatus (s.topTag c) sub i.issue (i.word.extractLsb' 40 8)
      let fail (sub : Nat) : State :=
        (s.modOwn c fun w => w.addFlight { fl with quiet := true }).wordFault c i.live 0x05 (status sub) 0
      match own.stack.marks3 o q i.entry.es with
      | .error sub => fail sub
      | .ok st =>
        match st.act o q i.entry.gen id with
        | .error sub => fail sub
        | .ok (st, e) =>
          s.modOwn c fun w => ({ w with stack := st }).addFlight { fl with rem := e }

/-! ## Reads -/

/-- Read accumulator elements of a row for acrd (R207): FP32 bits, with lost elements. -/
def accChunk (a : Acc) (row first n : Nat) : List (BitVec 32 × Bool) :=
  (upFrom 0 n).map fun j =>
    let e := 256 * row + first + j
    (tblGet 0 a.elems e, a.bad.contains e)

/-- The chunk that acrd copies, as a slot. -/
def acrdSlot (a : Acc) (p : VxFields) (es : List Word) (mode : BitVec 4) (g : BitVec 64) : SlotOut :=
  let f := p.fmt
  let n := lanesOf f
  let row := (esAt es (p.b.toNat % 8)).toNat % 128
  let els := accChunk a row (p.c.toNat * n) n
  lanesFrom f (laneOn f g) fun j =>
    match els.getD j (0, false) with
    | (_, true) => .lost f
    | (v, false) => if f = 1 then .ok (v.toNat, 0) else .ok (conv 1 f (modeR mode) (modeWrap mode) v.toNat)

/-- A failed tag check (02_numbers.md R34): strict mode faults and silences the issue, counting mode sets
FMISM. DEDUCED (log 28). -/
def State.tagFail (s : State) (c : Nat) (f : Flight) (sub : Nat) : State :=
  if modeCount f.mode then s.flag c f.ctx flFmism
  else
    (s.modOwn c fun w => w.modFlight f.id fun x => { x with quiet := true }).wordFault c f.live 0x02
      (s.issueStatus c f.live sub f.issue) 0

/-- Make one read of a flight: the slot's contents and tag as they stand (07_ring.md R156). DEDUCED (log 28). -/
def State.readRole (s : State) (c id : Nat) (r : SlotRead) (fmt : Option Fmt) : State :=
  let v := (s.own c).slot r.slot
  let s := s.modOwn c fun w => w.modFlight id fun x =>
    { x with reads := x.reads.map fun y => if y.role = r.role then { y with got := some v } else y }
  match fmt, (s.own c).flight id with
  | some f, some fl => if tagPass f v.tag then s else s.tagFail c fl 0
  | _, _ => s

/-- The reads that a VX issue makes in this cycle (07_ring.md R153); an undo takes its entry's data as it
stands before this cycle's writes (R219). -/
def State.vxReads (s : State) (c id : Nat) : State :=
  let own := s.own c
  match own.flight id with
  | none => s
  | some fl =>
    match fl.instr.vx? with
    | none => s
    | some (o, _, p) =>
      let q := vxStepped o p fl.issue
      let due := fl.reads.filter fun r => r.due == own.sigma && r.got.isNone
      let s := due.foldl (fun s r =>
        if r.role = 5 then
          let v := acrdSlot (own.acc r.slot) q fl.es fl.mode fl.g
          let s := s.modOwn c fun w => w.modFlight id fun x =>
            { x with
              reads := x.reads.map fun y => { y with got := some Slot.zero }
              res := some (BitVec.ofNat 1024 v.data, BitVec.ofNat 1024 v.mask, q.fmt) }
          (s.flag c fl.ctx v.fl).modCore c fun k => { k with void := satAdd k.void v.voids (2 ^ 32 - 1) }
        else s.readRole c id r (((vxSources o q).find? fun y => y.1 == r.role).map (·.2))) s
      if fl.x = own.sigma then
        s.modOwn c fun w => w.modFlight id fun x =>
          { x with rem := x.rem.map fun e => { e with writer := 0 } }
      else s

/-! ## Results -/

/-- Merge bits of a guard write by VX over the guard as it stood before this cycle: of two words that
write one guard in a cycle the later wins whole (07_ring.md R165). -/
def CoreSt.vxGuard (k : CoreSt) (g v mask : Nat) : CoreSt :=
  let old := tblGet (k.own.guard g) k.cyc.gOld g
  let m : BitVec 64 := BitVec.ofNat 64 mask
  { k with
    own := k.own.setGuard g ((old &&& ~~~m) ||| (BitVec.ofNat 64 v &&& m))
    cyc := { k.cyc with gOld := tblPut k.cyc.gOld g old } }

/-- A slot write at an eyelet, with the write collision of R158. -/
def State.slotWrite (s : State) (c : Nat) (fl : Flight) (eye slot : Nat) (data mask : BitVec 1024)
    (tag : Fmt) : State :=
  let k := s.core c
  let hit := k.cyc.wrote.any fun w => w.1 == eye && w.2 == slot
  let s := s.setCore c
    { k with
      own := k.own.setSlot slot ((k.own.slot slot).merge data mask tag)
      cyc := { k.cyc with wrote := k.cyc.wrote ++ [(eye, slot)] }
      colCount := if hit then satAdd k.colCount 1 (2 ^ 32 - 1) else k.colCount
      colLast := if hit then BitVec.ofNat 4 slot else k.colLast }
  if hit && k.ctrap then
    s.wordFault c fl.live 0x07 (s.issueStatus c fl.live 0 fl.issue) (BitVec.ofNat 64 slot)
  else s

/-- Write the data that a do word keeps into its entry, wherever the entry is (R219). -/
def Own.entryData (o : Own) (id : Nat) (v : BitVec 1024) : Own :=
  let put (e : RemEnt) : RemEnt := if e.writer = id then { e with data := v, writer := 0 } else e
  { o with
    stack := { o.stack with ents := o.stack.ents.map fun e => (e.1, put e.2) }
    flights := o.flights.map fun f => { f with rem := f.rem.map put } }

/-- What a VX issue has in hand at its cycle x. -/
def Flight.vxIn (fl : Flight) (q : VxFields) : VxIn :=
  { p := q, es := fl.es, mode := fl.mode, g := fl.g, ga := fl.g2, gb := fl.g3, a := fl.got 0, b := fl.got 1
    c := fl.got 2, ent := (fl.rem.map (·.data)).getD 0
    entBad := (fl.rem.map fun e => !e.bad.isEmpty).getD false }

/-- Push an entry onto the scalar return queue (R209). -/
def State.rqPush (s : State) (c : Nat) (fl : Flight) (v : Word) (tag : Fmt) : State :=
  let o := s.own c
  if 16 ≤ o.rq.length then
    (s.modOwn c fun w => { w with rqOvf := true }).wordFault c fl.live 0x08 (s.issueStatus c fl.live 0 fl.issue) 0
  else s.modOwn c fun w => { w with rq := w.rq ++ [{ value := v, tag := tag, gen := fl.gen }] }

/-- The end of cycle x: the word's operation, its flags, and its guard, queue and entry results. -/
def State.vxDeliver (s : State) (c : Nat) (o : VxOp) (q : VxFields) (fl : Flight) : State :=
  if fl.quiet then
    s.modOwn c fun w => w.entryData fl.id 0
  else if o = .acrd then s
  else if o = .rmark then
    s.modOwn c fun w =>
      { w with stack := { w.stack with marks := tblSet 0 w.stack.marks (q.d.toNat % 4) (BitVec.ofNat 16 fl.addr) } }
  else
    let r := vxEval o (fl.vxIn q)
    let uce := (vxUndo o).isSome && (fl.rem.map fun e => !e.bad.isEmpty).getD false
    let slot (v : Option (SlotOut × Fmt)) : Option (BitVec 1024 × BitVec 1024 × BitVec 4) :=
      v.map fun y => (BitVec.ofNat 1024 y.1.data, BitVec.ofNat 1024 y.1.mask, y.2)
    let s := s.modOwn c fun w => w.modFlight fl.id fun x => { x with res := slot r.d, res2 := slot r.c }
    let s := s.flag c fl.ctx r.fl
    let s := s.modCore c fun k =>
      { k with
        void := satAdd k.void r.voids (2 ^ 32 - 1)
        uce := if uce then satAdd k.uce 1 0xFFFF else k.uce }
    let s := r.guards.foldl (fun s g => s.modCore c fun k => k.vxGuard g.1 g.2.1 g.2.2) s
    let s := match r.ent with
      | some e => s.modOwn c fun w => w.entryData fl.id (BitVec.ofNat 1024 e)
      | none => s
    match r.push with
    | some (v, t) => s.rqPush c fl v t
    | none => s

/-- The results of a VX issue due in this cycle (R154): the operation at x, each slot at its write cycle,
and the issue's end. -/
def State.vxResults (s : State) (c id : Nat) : State :=
  let now := (s.own c).sigma
  match (s.own c).flight id with
  | none => s
  | some fl =>
    match fl.instr.vx? with
    | none => s
    | some (o, _, p) =>
      let q := vxStepped o p fl.issue
      let s :=
        if fl.x = now ∧ !fl.arrived then
          ((s.vxDeliver c o q fl).modOwn c fun w => w.modFlight id fun x => { x with arrived := true }).spillOrphans c
        else s
      match (s.own c).flight id with
      | none => s
      | some fl =>
        let put (s : State) (cyc slot : Nat) (r : Option (BitVec 1024 × BitVec 1024 × BitVec 4)) : State :=
          if cyc = now ∧ !fl.quiet then
            match r with
            | some (d, m, t) => s.slotWrite c fl 14 slot d m t
            | none => s
          else s
        let s := put (put s fl.w fl.d fl.res) fl.w2 fl.c fl.res2
        if fl.arrived && decide (fl.w ≤ now) && decide (fl.w2 ≤ now) then s.modOwn c fun w => w.endFlight id else s

/-! ## Meanings -/

def execVxSourceRead (c id : Nat) (s : State) : Host.Outcome State Fault Refusal := .next (s.vxReads c id)
def execVxResultWrite (c id : Nat) (s : State) : Host.Outcome State Fault Refusal := .next (s.vxResults c id)

/-- Run a VX issue for the agent whose word it is. DESIGN CHOICE (log 87). -/
def asVx (o : VxOp) (f : Frame) (p : VxFields) (s : State) : Host.Outcome State Fault Refusal :=
  match s.at_ with
  | .engine c .vx => .next (s.issueVx c o f p)
  | _ => .fault .noAgent

/-- R190. add forms a + b per lane and rounds once. -/
def execVxAdd (f : Frame) (p : VxFields) (s : State) : Host.Outcome State Fault Refusal :=
  asVx .add f p s
/-- R190. sub forms a − b per lane and rounds once. -/
def execVxSub (f : Frame) (p : VxFields) (s : State) : Host.Outcome State Fault Refusal :=
  asVx .sub f p s
/-- R190. mul forms a × b per lane and rounds once. -/
def execVxMul (f : Frame) (p : VxFields) (s : State) : Host.Outcome State Fault Refusal :=
  asVx .mul f p s
/-- R190. fma forms a × b + c per lane, rounded once. -/
def execVxFma (f : Frame) (p : VxFields) (s : State) : Host.Outcome State Fault Refusal :=
  asVx .fma f p s
/-- R190. fms forms a × b − c per lane, rounded once. -/
def execVxFms (f : Frame) (p : VxFields) (s : State) : Host.Outcome State Fault Refusal :=
  asVx .fms f p s
/-- R190. fnma forms −(a × b) + c per lane, rounded once. -/
def execVxFnma (f : Frame) (p : VxFields) (s : State) : Host.Outcome State Fault Refusal :=
  asVx .fnma f p s
/-- R192. min takes the per-lane minimum. -/
def execVxMin (f : Frame) (p : VxFields) (s : State) : Host.Outcome State Fault Refusal :=
  asVx .min f p s
/-- R192. max takes the per-lane maximum. -/
def execVxMax (f : Frame) (p : VxFields) (s : State) : Host.Outcome State Fault Refusal :=
  asVx .max f p s
/-- R192. abs clears the sign of FP lanes, or takes the integer magnitude under R51. -/
def execVxAbs (f : Frame) (p : VxFields) (s : State) : Host.Outcome State Fault Refusal :=
  asVx .abs f p s
/-- R192. neg flips the sign of FP and CF16 lanes, or negates integers under R51. -/
def execVxNeg (f : Frame) (p : VxFields) (s : State) : Host.Outcome State Fault Refusal :=
  asVx .neg f p s
/-- R192. clamp computes min(max(a, b), c) per lane. -/
def execVxClamp (f : Frame) (p : VxFields) (s : State) : Host.Outcome State Fault Refusal :=
  asVx .clamp f p s
/-- R193. rcp returns 1/a per lane, rounded once. -/
def execVxRcp (f : Frame) (p : VxFields) (s : State) : Host.Outcome State Fault Refusal :=
  asVx .rcp f p s
/-- R193. rsq returns 1/√a per lane, rounded once. -/
def execVxRsq (f : Frame) (p : VxFields) (s : State) : Host.Outcome State Fault Refusal :=
  asVx .rsq f p s
/-- R193. exp2 returns 2^a per lane, rounded once. -/
def execVxExp2 (f : Frame) (p : VxFields) (s : State) : Host.Outcome State Fault Refusal :=
  asVx .exp2 f p s
/-- R193. log2 returns log2 a per lane, rounded once. -/
def execVxLog2 (f : Frame) (p : VxFields) (s : State) : Host.Outcome State Fault Refusal :=
  asVx .log2 f p s
/-- R196. and computes a AND b. -/
def execVxAnd (f : Frame) (p : VxFields) (s : State) : Host.Outcome State Fault Refusal :=
  asVx .and f p s
/-- R196. or computes a OR b. -/
def execVxOr (f : Frame) (p : VxFields) (s : State) : Host.Outcome State Fault Refusal :=
  asVx .or f p s
/-- R196. xor computes a XOR b. -/
def execVxXor (f : Frame) (p : VxFields) (s : State) : Host.Outcome State Fault Refusal :=
  asVx .xor f p s
/-- R196. not computes NOT a. -/
def execVxNot (f : Frame) (p : VxFields) (s : State) : Host.Outcome State Fault Refusal :=
  asVx .not f p s
/-- R196. shl shifts integer lanes left. -/
def execVxShl (f : Frame) (p : VxFields) (s : State) : Host.Outcome State Fault Refusal :=
  asVx .shl f p s
/-- R196. shr shifts integer lanes right, filling with zeros. -/
def execVxShr (f : Frame) (p : VxFields) (s : State) : Host.Outcome State Fault Refusal :=
  asVx .shr f p s
/-- R196. sra shifts integer lanes right, filling with sign bits. -/
def execVxSra (f : Frame) (p : VxFields) (s : State) : Host.Outcome State Fault Refusal :=
  asVx .sra f p s
/-- R195. adds adds a scalar es value to every lane. -/
def execVxAdds (f : Frame) (p : VxFields) (s : State) : Host.Outcome State Fault Refusal :=
  asVx .adds f p s
/-- R195. muls multiplies every lane by a scalar es value. -/
def execVxMuls (f : Frame) (p : VxFields) (s : State) : Host.Outcome State Fault Refusal :=
  asVx .muls f p s
/-- R195. fmas computes a × s + c with a scalar s. -/
def execVxFmas (f : Frame) (p : VxFields) (s : State) : Host.Outcome State Fault Refusal :=
  asVx .fmas f p s
/-- R191. mulh returns the high half of the exact signed product. -/
def execVxMulh (f : Frame) (p : VxFields) (s : State) : Host.Outcome State Fault Refusal :=
  asVx .mulh f p s
/-- R195. mins takes the minimum of each lane and a scalar. -/
def execVxMins (f : Frame) (p : VxFields) (s : State) : Host.Outcome State Fault Refusal :=
  asVx .mins f p s
/-- R195. maxs takes the maximum of each lane and a scalar. -/
def execVxMaxs (f : Frame) (p : VxFields) (s : State) : Host.Outcome State Fault Refusal :=
  asVx .maxs f p s
/-- R197. ceq writes a true guard and a false guard for a = b. -/
def execVxCeq (f : Frame) (p : VxFields) (s : State) : Host.Outcome State Fault Refusal :=
  asVx .ceq f p s
/-- R197. cne writes the two guards for a ≠ b. -/
def execVxCne (f : Frame) (p : VxFields) (s : State) : Host.Outcome State Fault Refusal :=
  asVx .cne f p s
/-- R197. clt writes the two guards for a < b. -/
def execVxClt (f : Frame) (p : VxFields) (s : State) : Host.Outcome State Fault Refusal :=
  asVx .clt f p s
/-- R197. cle writes the two guards for a ≤ b. -/
def execVxCle (f : Frame) (p : VxFields) (s : State) : Host.Outcome State Fault Refusal :=
  asVx .cle f p s
/-- R197. cgt writes the two guards for a > b. -/
def execVxCgt (f : Frame) (p : VxFields) (s : State) : Host.Outcome State Fault Refusal :=
  asVx .cgt f p s
/-- R197. cge writes the two guards for a ≥ b. -/
def execVxCge (f : Frame) (p : VxFields) (s : State) : Host.Outcome State Fault Refusal :=
  asVx .cge f p s
/-- R197. cun writes the two guards for a or b being NaN. -/
def execVxCun (f : Frame) (p : VxFields) (s : State) : Host.Outcome State Fault Refusal :=
  asVx .cun f p s
/-- R198. ccl writes the two guards by testing each lane's class against a mask. -/
def execVxCcl (f : Frame) (p : VxFields) (s : State) : Host.Outcome State Fault Refusal :=
  asVx .ccl f p s
/-- R199. sel picks a or b per lane by a guard. -/
def execVxSel (f : Frame) (p : VxFields) (s : State) : Host.Outcome State Fault Refusal :=
  asVx .sel f p s
/-- R200. gand ANDs two guards into a guard. -/
def execVxGand (f : Frame) (p : VxFields) (s : State) : Host.Outcome State Fault Refusal :=
  asVx .gand f p s
/-- R200. gor ORs two guards. -/
def execVxGor (f : Frame) (p : VxFields) (s : State) : Host.Outcome State Fault Refusal :=
  asVx .gor f p s
/-- R200. gxor XORs two guards. -/
def execVxGxor (f : Frame) (p : VxFields) (s : State) : Host.Outcome State Fault Refusal :=
  asVx .gxor f p s
/-- R200. gandn computes A AND NOT B on guards. -/
def execVxGandn (f : Frame) (p : VxFields) (s : State) : Host.Outcome State Fault Refusal :=
  asVx .gandn f p s
/-- R200. gmov copies a guard. -/
def execVxGmov (f : Frame) (p : VxFields) (s : State) : Host.Outcome State Fault Refusal :=
  asVx .gmov f p s
/-- R201. gtov expands guard bits into 16-bit lane masks. -/
def execVxGtov (f : Frame) (p : VxFields) (s : State) : Host.Outcome State Fault Refusal :=
  asVx .gtov f p s
/-- R201. vtog sets guard bits where lanes are non-zero. -/
def execVxVtog (f : Frame) (p : VxFields) (s : State) : Host.Outcome State Fault Refusal :=
  asVx .vtog f p s
/-- R202. cvt converts lanes between formats, placing them by part p. -/
def execVxCvt (f : Frame) (p : VxFields) (s : State) : Host.Outcome State Fault Refusal :=
  asVx .cvt f p s
/-- R203. cvtb converts with a block scale taken from an es value. -/
def execVxCvtb (f : Frame) (p : VxFields) (s : State) : Host.Outcome State Fault Refusal :=
  asVx .cvtb f p s
/-- R204. TAG copies bits and sets a new format tag. -/
def execVxTag (f : Frame) (p : VxFields) (s : State) : Host.Outcome State Fault Refusal :=
  asVx .tag f p s
/-- R205. reda sums the active lanes by the pairwise tree. -/
def execVxReda (f : Frame) (p : VxFields) (s : State) : Host.Outcome State Fault Refusal :=
  asVx .reda f p s
/-- R205. redx takes the maximum of the active lanes. -/
def execVxRedx (f : Frame) (p : VxFields) (s : State) : Host.Outcome State Fault Refusal :=
  asVx .redx f p s
/-- R205. redn takes the minimum of the active lanes. -/
def execVxRedn (f : Frame) (p : VxFields) (s : State) : Host.Outcome State Fault Refusal :=
  asVx .redn f p s
/-- R205. redd sums the products of two slots by the tree. -/
def execVxRedd (f : Frame) (p : VxFields) (s : State) : Host.Outcome State Fault Refusal :=
  asVx .redd f p s
/-- R206. mov copies lanes. -/
def execVxMov (f : Frame) (p : VxFields) (s : State) : Host.Outcome State Fault Refusal :=
  asVx .mov f p s
/-- R206. swz permutes lanes by an index slot. -/
def execVxSwz (f : Frame) (p : VxFields) (s : State) : Host.Outcome State Fault Refusal :=
  asVx .swz f p s
/-- R206. lrot rotates lanes by a scalar. -/
def execVxLrot (f : Frame) (p : VxFields) (s : State) : Host.Outcome State Fault Refusal :=
  asVx .lrot f p s
/-- R206. bcst broadcasts one lane to every lane. -/
def execVxBcst (f : Frame) (p : VxFields) (s : State) : Host.Outcome State Fault Refusal :=
  asVx .bcst f p s
/-- R206. zip interleaves halves of two slots. -/
def execVxZip (f : Frame) (p : VxFields) (s : State) : Host.Outcome State Fault Refusal :=
  asVx .zip f p s
/-- R206. uzp de-interleaves two slots. -/
def execVxUzp (f : Frame) (p : VxFields) (s : State) : Host.Outcome State Fault Refusal :=
  asVx .uzp f p s
/-- R206. slide shifts lanes across two slots by a scalar. -/
def execVxSlide (f : Frame) (p : VxFields) (s : State) : Host.Outcome State Fault Refusal :=
  asVx .slide f p s
/-- R206. splat writes an es value into every lane. -/
def execVxSplat (f : Frame) (p : VxFields) (s : State) : Host.Outcome State Fault Refusal :=
  asVx .splat f p s
/-- R207. acrd copies a chunk of an accumulator row into a slot. -/
def execVxAcrd (f : Frame) (p : VxFields) (s : State) : Host.Outcome State Fault Refusal :=
  asVx .acrd f p s
/-- R209. sret pushes lane 0 of a slot into the scalar return queue. -/
def execVxSret (f : Frame) (p : VxFields) (s : State) : Host.Outcome State Fault Refusal :=
  asVx .sret f p s
/-- R209. sretc pushes the count and the lowest index of the active lanes. -/
def execVxSretc (f : Frame) (p : VxFields) (s : State) : Host.Outcome State Fault Refusal :=
  asVx .sretc f p s
/-- R225. rmulq keeps the middle bits of a product and pushes the discarded bits. -/
def execVxRmulq (f : Frame) (p : VxFields) (s : State) : Host.Outcome State Fault Refusal :=
  asVx .rmulq f p s
/-- R225. umulq pops the remainder and rebuilds the operand by exact division. -/
def execVxUmulq (f : Frame) (p : VxFields) (s : State) : Host.Outcome State Fault Refusal :=
  asVx .umulq f p s
/-- R226. rsra shifts right arithmetically and pushes the shifted-out bits. -/
def execVxRsra (f : Frame) (p : VxFields) (s : State) : Host.Outcome State Fault Refusal :=
  asVx .rsra f p s
/-- R226. usra pops the remainder and rebuilds the shifted operand. -/
def execVxUsra (f : Frame) (p : VxFields) (s : State) : Host.Outcome State Fault Refusal :=
  asVx .usra f p s
/-- R227. rnrw narrows a format and pushes the XOR with the back-conversion. -/
def execVxRnrw (f : Frame) (p : VxFields) (s : State) : Host.Outcome State Fault Refusal :=
  asVx .rnrw f p s
/-- R227. unrw pops the remainder and restores the wide source bit for bit. -/
def execVxUnrw (f : Frame) (p : VxFields) (s : State) : Host.Outcome State Fault Refusal :=
  asVx .unrw f p s
/-- R226. rleak shifts negative lanes and pushes their low bits. -/
def execVxRleak (f : Frame) (p : VxFields) (s : State) : Host.Outcome State Fault Refusal :=
  asVx .rleak f p s
/-- R226. uleak pops the remainder and restores the leaked lanes. -/
def execVxUleak (f : Frame) (p : VxFields) (s : State) : Host.Outcome State Fault Refusal :=
  asVx .uleak f p s
/-- R228. raddq writes the wrapped sum a + b. -/
def execVxRaddq (f : Frame) (p : VxFields) (s : State) : Host.Outcome State Fault Refusal :=
  asVx .raddq f p s
/-- R228. usubq writes the wrapped difference a − b. -/
def execVxUsubq (f : Frame) (p : VxFields) (s : State) : Host.Outcome State Fault Refusal :=
  asVx .usubq f p s
/-- R229. rmix writes the halved sum and difference and pushes the parity bit. -/
def execVxRmix (f : Frame) (p : VxFields) (s : State) : Host.Outcome State Fault Refusal :=
  asVx .rmix f p s
/-- R229. umix pops the parity bit and restores the two operands. -/
def execVxUmix (f : Frame) (p : VxFields) (s : State) : Host.Outcome State Fault Refusal :=
  asVx .umix f p s
/-- R230. rmark sets a depth mark to DEPTH. -/
def execVxRmark (f : Frame) (p : VxFields) (s : State) : Host.Outcome State Fault Refusal :=
  asVx .rmark f p s
/-- R230. rchk faults when the depth since a mark differs from the expected value. -/
def execVxRchk (f : Frame) (p : VxFields) (s : State) : Host.Outcome State Fault Refusal :=
  asVx .rchk f p s
/-- R230. rdrop discards the stack entries above a mark. -/
def execVxRdrop (f : Frame) (p : VxFields) (s : State) : Host.Outcome State Fault Refusal :=
  asVx .rdrop f p s

end Sys2Proof.Machine
end

