-- ==== Sys2Proof/Machine/LdSt.lean ====
section
/-! DEFINITION. LD and ST: ring words, guards, gathers, atomics and transfers (08_load_store.md R167 to
R183), with the scratchpad bank they ask for (06_copy_scratchpad.md R133). -/
namespace Sys2Proof.Machine

/-! ## Addresses -/

/-- Element size of a format in bytes; HS4 counts as 1 (R169). -/
def elemBytes (f : Fmt) : Nat := if laneBits f = 32 then 4 else if laneBits f = 16 then 2 else 1

/-- The address of an issue (R167). -/
def lsAddr (es : List Word) (p : LsFields) (wide : Bool) (issue size : Nat) : Nat :=
  let off := if wide then p.off.toNat else p.off.toNat % 256
  ((esAt es p.es.toNat).toNat + off * 128 + (if p.sa then issue * size else 0)) % 2 ^ 64

/-- The bank of a byte (06_copy_scratchpad.md R129). -/
def bankOf (a : Nat) : Nat := a / 128 % 16

/-- The banks that a range of bytes touches. -/
def banksOf (a n : Nat) : List Nat :=
  if n = 0 then [] else ((upFrom (a / 128) ((a + n - 1) / 128 - a / 128 + 1)).map (· % 16)).eraseDups

/-- Number of lanes of an am word that are active (R172). -/
def amLanes (op : Nat) (g : BitVec 64) : List Nat :=
  let e := atomicSize op
  (upFrom 0 (128 / e)).filter fun j => bit g.toNat (if e = 4 then 2 * j else 4 * j)

/-- The format that the slot of an am word carries (R180). -/
def amFmt (op : Nat) : Fmt := if op = 11 then 1 else if atomicSize op = 4 then 4 else 0

/-- Bytes that a ring access reads or writes from its address. -/
def ldSpan (o : LdOp) (f : Fmt) : Nat :=
  match o with
  | .vb => elemBytes f
  | .ln => 96
  | .gd => 8
  | _ => 128

/-- The alignment a word requires (R169, R170). -/
def ldAlign (o : LdOp) (f : Fmt) : Nat :=
  match o with
  | .vb | .vg => elemBytes f
  | .ln => 32
  | .gd => 8
  | _ => 128

def stAlign (o : StOp) (f : Fmt) : Nat :=
  match o with
  | .vs | .ve => elemBytes f
  | .ln => 32
  | .gd => 8
  | _ => 128

/-- Transfer size S of a ring word (R169, R170). -/
def ldStepSize (o : LdOp) (f : Fmt) : Nat :=
  match o with
  | .vb => elemBytes f
  | .ln => 96
  | .gd => 8
  | _ => 128

/-- st.ve stores this many bytes. -/
def activeCount (f : Fmt) (g : BitVec 64) : Nat := ((upFrom 0 (lanesOf f)).filter (laneOn f g)).length

/-! ## Gathers (R175) -/

/-- Addresses of the active lanes of a gather or scatter, none for a lane out of range. -/
def vgAddrs (f : Fmt) (g : BitVec 64) (idx : Slot) (a : Nat) : List (Nat × Option Nat) :=
  let e := elemBytes f
  let xf : Fmt := if e = 2 then 5 else 4
  ((upFrom 0 (lanesOf f)).filter (laneOn f g)).map fun i =>
    let b := a + laneOf xf idx.data i * e
    (i, if b + e ≤ 0x80000 then some b else none)

/-- Distinct granules in lane order with their rank at their bank. DESIGN CHOICE (log 114). -/
def granRanks : List Nat → List (Nat × Nat) → List (Nat × Nat)
  | [], acc => acc
  | g :: r, acc =>
    if acc.any fun e => e.1 == g then granRanks r acc
    else granRanks r (acc ++ [(g, (acc.filter fun e => e.1 % 16 == g % 16).length)])

def vgRanks (ads : List (Nat × Option Nat)) : List (Nat × Nat) :=
  granRanks (ads.filterMap fun e => e.2.map (· / 128)) []

/-- Access steps of a gather: one a rank, all beyond the fourth in the fourth. -/
def vgSteps (rs : List (Nat × Nat)) : Nat := min 4 ((rs.map fun e => e.2 + 1).foldl max 0)

/-- Laps that the granules beyond a bank's fourth take; they are stalled after the first step. DEDUCED (log 23). -/
def vgLaps (rs : List (Nat × Nat)) : Nat := ceilDiv ((rs.map fun e => e.2 + 1).foldl max 0 - 4) 16

/-- The step in which the granule of an address is accessed. DEDUCED (log 23). -/
def vgStepOf (rs : List (Nat × Nat)) (a : Nat) : Nat :=
  min 3 (((rs.find? fun e => e.1 == a / 128).map (·.2)).getD 0)

/-! ## Issue -/

/-- Fault an issue on its alignment (R168). -/
def State.lsAlign (s : State) (c : Nat) (i : Issue) (a : Nat) : State :=
  s.wordFault c i.live 0x03 (s.issueStatus c i.live 0 i.issue) (BitVec.ofNat 64 a)

/-- The first byte of a scratchpad range at or above its end. -/
def spBeyond (a n : Nat) : Option Nat := if a + n ≤ 0x80000 ∨ n = 0 then none else some (max a 0x80000)

/-- Put a ring issue in flight after its checks: alignment, then range (R167, R168). An issue whose guard is all false
(`any` not set) is not checked; `span` bytes at its address are touched. -/
def State.lsRing (s : State) (c : Nat) (i : Issue) (fl : Flight) (align : Nat) (any dva wr : Bool) (span : Nat) :
    State :=
  if !any then s.modOwn c fun w => w.addFlight { fl with acc := none, arrived := true }
  else if fl.addr % align ≠ 0 then
    (s.modOwn c fun w => w.addFlight { fl with acc := none, arrived := true, quiet := true }).lsAlign c i fl.addr
  else if span = 0 then s.modOwn c fun w => w.addFlight { fl with acc := none, arrived := true }
  else if dva then
    match (s.core c).check wr fl.addr span with
    | some f => s.fatalLive c fl.live f
    | none => s.modOwn c fun w => w.addFlight fl
  else
    match spBeyond fl.addr span with
    | some a => s.fatalLive c fl.live (4, a)
    | none => s.modOwn c fun w => w.addFlight fl

/-- Put a transfer in flight. -/
def State.lsXfer (s : State) (c : Nat) (i : Issue) (x : Xfer) (bad dva wr : Bool) (wsa : Bool) : State :=
  let add (s : State) (x : Xfer) : State :=
    s.modOwn c fun w => { (w.pend i.live) with xfers := w.xfers ++ [x] }
  if bad then (add s { x with quiet := true, total := 0 }).lsAlign c i x.base
  else if dva then
    match (s.core c).check wr x.base x.total with
    | some f => s.fatalLive c x.live f
    | none => add s x
  else if wsa then
    if 2 ^ 28 < x.base + x.total then s.fatalLive c x.live (5, max x.base (2 ^ 28)) else add s x
  else
    match spBeyond x.base x.total with
    | some a => s.fatalLive c x.live (4, a)
    | none => add s x

/-- A tile's row count and row length in bytes (11_matrix.md R236). -/
def Tile.nRows (t : Tile) : Nat := t.rows.toNat + 1
def Tile.nWidth (t : Tile) : Nat := t.width.toNat + 1
def Tile.size (t : Tile) : Nat := t.nRows * t.nWidth

/-- One issue of an LD ring word (R173, R175, R176, R180). DEDUCED (log 42). -/
def State.issueLdRing (s : State) (c : Nat) (o : LdOp) (ins : Instr) (p : LsFields) (i : Issue) : State :=
  let (id, s) := s.newId c
  let own := s.own c
  let g := guardN own p.guard p.n
  let a := lsAddr i.entry.es p (o != .vg) i.issue (ldStepSize o p.fmt)
  let any := decide (g ≠ 0)
  let d := stepName p.slot p.sa i.issue 0
  let fl := { Flight.blank i id .ld ins g with addr := a, d := d.toNat, acc := some (i.t + 1) }
  match o with
  | .gd =>
    let r := (p.slot.toNat + (if p.sa then i.issue else 0)) % 8
    s.lsRing c i { fl with d := r, w := i.t + 6 } 8 true false false 8
  | .vg =>
    let v := (p.off.extractLsb' 8 4).toNat
    let r := readCycle i.t v 12
    let fl := { fl with
      reads := [{ role := 4, slot := v, due := r, got := none }], acc := some (r + 1), x := r + 12
      w := meetCycle (r + 12) d.toNat 0, data := List.replicate (128) (0, false) }
    if any && a % elemBytes p.fmt != 0 then
      (s.modOwn c fun w => w.addFlight { fl with acc := none, quiet := true }).lsAlign c i a
    else s.modOwn c fun w => w.addFlight (if any then fl else { fl with acc := none })
  | .vd =>
    let fl := { fl with acc := none, w := meetCycle (i.t + 320) d.toNat 0 }
    s.lsRing c i fl 128 any true false 128
  | .am =>
    let op := p.fmt.toNat
    let es2 := (esAt i.entry.es ((p.es.toNat + 1) % 8))
    let fl := { fl with
      w := meetCycle (i.t + (if atomicSize op = 4 then 72 else 40)) d.toNat 0
      data := List.replicate 128 (0, false), g2 := es2 }
    s.lsRing c i fl 128 any false false (if (amLanes op g).isEmpty then 0 else 128)
  | .ln => s.lsRing c i { fl with w := meetCycle (i.t + 7) d.toNat 0 } 32 any false false 96
  | _ =>
    s.lsRing c i { fl with w := meetCycle (i.t + 6) d.toNat 0 } (ldAlign o p.fmt) any false false (ldSpan o p.fmt)

/-- S of a stepped tile word: issue 0 fixes it as the bytes it moves itself (R177). -/
def State.stepOf (s : State) (c : Nat) (i : Issue) (n : Nat) : Nat × State :=
  if i.issue = 0 then (n, s.modOwn c fun w => w.modLive i.live fun x => { x with size := n })
  else ((((s.own c).liveWord i.live).map (·.size)).getD n, s)

/-- One issue of an LD tile word (R177, R178). DEDUCED (log 42). -/
def State.issueLdTile (s : State) (c : Nat) (o : LdOp) (ins : Instr) (p : LsFields) (i : Issue) : State :=
  let (id, s) := s.newId c
  let ti := (p.slot.toNat + (if p.sa then i.issue else 0)) % 8
  let t := (s.own c).tile ti
  let n := if o = .sc then 512 else t.size
  let (size, s) := s.stepOf c i n
  let a := lsAddr i.entry.es p true i.issue size
  let d := match o with | .tw => 16 | .td => 320 | .tr => 8 | _ => 4
  let bad := decide (a % 128 ≠ 0) || (o == .tr && decide (t.nWidth % elemBytes p.fmt ≠ 0))
  let x : Xfer :=
    { id := id, live := i.live, eng := .ld, instr := ins, issue := i.issue, t := i.t, mode := i.entry.mode
      ctx := i.entry.ctx, tile := ti, base := a, rows := t.nRows, width := t.nWidth, fmt := p.fmt, total := n
      rate := if o = .tw ∨ o = .td then 64 else 128, start := i.t + d, done := 0, quiet := false, gate := i.gate
      visible := false, buf := [], cut := none }
  let s := if bad ∨ o = .sc then s else s.modOwn c fun w => w.setTile ti { t with tag := p.fmt }
  let word := (((s.own c).liveWord i.live).map (·.word)).getD 0
  let s :=
    if o = .tw ∨ o = .td then s
    else s.modCore c fun k => k.modStageTile i.entry.order word fun t => t.issued i.issue size a (if bad then 0 else n)
  s.lsXfer c i x bad (o == .td) false (o == .tw)

/-- One issue of an LD word. -/
def State.issueLd (s : State) (c : Nat) (o : LdOp) (f : Frame) (p : LsFields) : State :=
  match s.beginIssue c .ld with
  | none => s
  | some (i, s) =>
    match o with
    | .t | .tw | .td | .sc | .tr => s.issueLdTile c o (o.toInstr f p) p i
    | _ => s.issueLdRing c o (o.toInstr f p) p i

/-- One issue of an ST ring word (R174 to R176, R180). DESIGN CHOICE (log 119). -/
def State.issueStRing (s : State) (c : Nat) (o : StOp) (ins : Instr) (p : LsFields) (i : Issue) : State :=
  let (id, s) := s.newId c
  let own := s.own c
  let g := guardN own p.guard p.n
  let size := match o with | .ln => 96 | .gd => 8 | _ => 128
  let a := lsAddr i.entry.es p (o != .vs) i.issue size
  let any := decide (g ≠ 0)
  let v := (stepName p.slot p.sa i.issue 0).toNat
  let r := readCycle i.t v 12
  let fl := { Flight.blank i id .st ins g with
    addr := a, reads := [{ role := 3, slot := v, due := r, got := none }], acc := some (r + 2), w := r + 2 }
  match o with
  | .gd =>
    let gr := (p.slot.toNat + (if p.sa then i.issue else 0)) % 8
    s.lsRing c i { fl with reads := [], g2 := own.guard gr, acc := some (i.t + 2), w := i.t + 2 } 8 true false true 8
  | .vs =>
    let x := (p.off.extractLsb' 8 4).toNat
    let rx := readCycle i.t x 12
    let m := max r rx
    let fl := { fl with
      reads := fl.reads ++ [{ role := 4, slot := x, due := rx, got := none }], x := m, acc := some (m + 2)
      w := m + 2 }
    if any && a % elemBytes p.fmt != 0 then
      (s.modOwn c fun w => w.addFlight { fl with acc := none, quiet := true }).lsAlign c i a
    else s.modOwn c fun w => w.addFlight (if any then fl else { fl with acc := none })
  | .am =>
    let n := (amLanes p.fmt.toNat g).length
    s.lsRing c i { fl with acc := some (r + 1), w := r + 2 * max n 1 } 128 any false true (if n = 0 then 0 else 128)
  | .vd => s.lsRing c i fl 128 any true true 128
  | .ve => s.lsRing c i fl (stAlign o p.fmt) any false true (activeCount p.fmt g * elemBytes p.fmt)
  | .ln => s.lsRing c i fl 32 any false true 96
  | _ => s.lsRing c i fl 128 any false true 128

/-- Bytes of a retired row (R179). -/
def rowBytes (f : Fmt) : Nat := 256 * packBits f / 8

/-- One issue of an ST tile or retire-convert word. DESIGN CHOICE (log 118). -/
def State.issueStTile (s : State) (c : Nat) (o : StOp) (ins : Instr) (p : LsFields) (i : Issue) : State :=
  let (id, s) := s.newId c
  let conv := o != .t
  let m := if conv then 2 else 8
  let ti := (p.slot.toNat + (if p.sa then i.issue else 0)) % m
  let t := (s.own c).tile ti
  let n := if conv then 128 * rowBytes p.fmt else t.size
  let (size, s) := s.stepOf c i n
  let a := lsAddr i.entry.es p true i.issue size
  let x : Xfer :=
    { id := id, live := i.live, eng := .st, instr := ins, issue := i.issue, t := i.t, mode := i.entry.mode
      ctx := i.entry.ctx, tile := ti, base := a, rows := t.nRows, width := t.nWidth, fmt := p.fmt, total := n
      rate := if o = .rd then 64 else 128, start := i.t + (if conv then 8 else 4), done := 0, quiet := false
      gate := i.gate, visible := false, buf := [], cut := none }
  if !conv && !tagPass p.fmt t.tag then
    if modeCount i.entry.mode then
      (s.flag c i.entry.ctx flFmism).lsXfer c i x (decide (a % 128 ≠ 0)) false true false
    else
      (s.modOwn c fun w =>
        { (w.pend i.live) with xfers := w.xfers ++ [{ x with quiet := true, total := 0 }] }).wordFault c i.live
          0x02 (s.issueStatus c i.live 0 i.issue) 0
  else s.lsXfer c i x (decide (a % 128 ≠ 0)) (o == .rd) true false

/-- One issue of an ST word. -/
def State.issueSt (s : State) (c : Nat) (o : StOp) (f : Frame) (p : LsFields) : State :=
  match s.beginIssue c .st with
  | none => s
  | some (i, s) =>
    match o with
    | .t | .rc | .rd => s.issueStTile c o (o.toInstr f p) p i
    | _ => s.issueStRing c o (o.toInstr f p) p i

/-! ## Slot reads of ST, and the index read of ld.vg (R155, R175) -/

/-- The format that a slot read by LD or ST shall carry. -/
def lsReadFmt (ins : Instr) (role : Nat) : Option Fmt :=
  match ins.st?, ins.ld? with
  | some (o, _, p), _ =>
    if role = 4 then some (if elemBytes p.fmt = 2 then 5 else 4)
    else if o = .am then some (amFmt p.fmt.toNat)
    else some p.fmt
  | none, some (_, _, p) => some (if elemBytes p.fmt = 2 then 5 else 4)
  | none, none => none

/-- The slot reads of an LD or ST issue that are due (07_ring.md R155). -/
def State.lsReads (s : State) (c id : Nat) : State :=
  match (s.own c).flight id with
  | none => s
  | some fl =>
    let due := fl.reads.filter fun r => r.due == (s.own c).sigma && r.got.isNone
    due.foldl (fun s r => s.readRole c id r (lsReadFmt fl.instr r.role)) s

/-! ## Accesses -/

/-- The lanes of a gather or scatter in flight. -/
def Flight.lanes (fl : Flight) : List (Nat × Option Nat) :=
  match fl.instr.ld?, fl.instr.st? with
  | some (_, _, p), _ => vgAddrs p.fmt fl.g (fl.got 4) fl.addr
  | none, some (_, _, p) => vgAddrs p.fmt fl.g (fl.got 4) fl.addr
  | none, none => []

def Flight.isVg (fl : Flight) : Bool :=
  match fl.instr with
  | .ldVg _ _ => true
  | .stVs _ _ => true
  | _ => false

def Flight.amOp (fl : Flight) : Option Nat :=
  match fl.instr with
  | .ldAm _ p => some p.fmt.toNat
  | .stAm _ p => some p.fmt.toNat
  | _ => none

/-- The banks of the flight's next access. -/
def Flight.banks (fl : Flight) : List Nat :=
  if fl.quiet then []
  else if fl.isVg then
    let rs := vgRanks fl.lanes
    ((rs.filter fun e => min 3 e.2 == fl.done).map fun e => e.1 % 16).eraseDups
  else
    match fl.instr.ld?, fl.instr.st? with
    | some (.vd, _, _), _ => []
    | some (o, _, p), _ => banksOf fl.addr (ldSpan o p.fmt)
    | none, some (.vd, _, _) => []
    | none, some (.ve, _, p) => banksOf fl.addr (activeCount p.fmt fl.g * elemBytes p.fmt)
    | none, some (.ln, _, _) => banksOf fl.addr 96
    | none, some (.gd, _, _) => banksOf fl.addr 8
    | none, some _ => banksOf fl.addr 128
    | none, none => []

/-- Scratchpad accesses that are due in this schedule cycle: atomics last, ST before LD (R181), each by age.
DESIGN CHOICE (log 115). -/
def CoreSt.due (k : CoreSt) : List Flight :=
  let d := k.own.flights.filter fun f => f.acc == some k.own.sigma
  let plain := d.filter fun f => f.amOp.isNone
  let am := d.filter fun f => f.amOp.isSome
  plain.filter (·.eng == .st) ++ plain.filter (·.eng == .ld) ++ am.filter (·.eng == .st) ++ am.filter (·.eng == .ld)

/-- The due accesses that ask for their banks: one behind a bank marker does not perform (05_bank_units.md R125). -/
def CoreSt.asking (k : CoreSt) : List Flight := k.due.filter fun f => k.gateOpen f.gate

/-- Banks held by a burst or by the second half of an atomic in this physical cycle (R133). -/
def CoreSt.heldBanks (k : CoreSt) : List Nat := (k.bursts.filter fun b => decide (k.p < b.until_)).flatMap (·.banks)

/-- Grant accesses in order: which flights are granted, and which wait. DEDUCED (log 24). -/
def grantAccesses (k : CoreSt) : List Flight → List Nat → List Nat × List Nat
  | [], _ => ([], [])
  | f :: r, used =>
    let bs := f.banks
    if !k.gateOpen f.gate || bs.any used.contains then
      let (a, b) := grantAccesses k r used
      (a, f.id :: b)
    else
      let (a, b) := grantAccesses k r (used ++ bs)
      (f.id :: a, b)

/-! ## Transfers (R178) -/

/-- The transfer that an engine's path serves: the first that has beats left. -/
def Own.head (o : Own) (e : Engine) : Option Xfer :=
  o.xfers.find? fun x => x.eng == e && decide (x.done * x.rate < x.total)

/-- Scratchpad bytes that the next beat of a transfer reads or writes, in the order of its tile bytes. -/
def Xfer.spBytes (x : Xfer) : List Nat :=
  let lo := x.done * x.rate
  let n := min x.rate (x.total - lo)
  match x.instr with
  | .ldTr _ _ =>
    let e := elemBytes x.fmt
    (upFrom lo n).map fun b =>
      let p := b / x.width
      let col := b % x.width / e
      x.base + (col * x.rows + p) * e + b % e
  | _ => upFrom (x.base + lo) n

/-- Whether a transfer moves scratchpad bytes. -/
def Xfer.usesSp (x : Xfer) : Bool :=
  match x.instr with
  | .ldTw _ _ | .ldTd _ _ | .stRd _ _ => false
  | _ => true

def Xfer.banks (x : Xfer) : List Nat := if x.usesSp then (x.spBytes.map bankOf).eraseDups else []

/-- The transfer is due for a beat in this cycle. -/
def Xfer.due (k : CoreSt) (x : Xfer) : Bool :=
  decide (x.start ≤ k.own.sigma) && k.gateOpen x.gate &&
    (match x.instr with | .ldTd _ _ => x.visible | _ => true)

/-- The banks of the beat that ST's transfer path makes in this cycle, if it makes one: it gives way to the ring words of
ST and to what holds a bank, and an LD access gives way to it (R178, R181). -/
def CoreSt.stBeat (k : CoreSt) : List Nat :=
  match k.own.head .st with
  | some x =>
    let used := k.heldBanks ++ (k.asking.filter (·.eng == .st)).flatMap (·.banks)
    if x.due k && !(x.banks.any used.contains) then x.banks else []
  | none => []

/-- The accesses of this cycle: granted and waiting. DEDUCED (log 24). -/
def CoreSt.grants (k : CoreSt) : List Nat × List Nat := grantAccesses k k.due (k.heldBanks ++ k.stBeat)

/-- A read of scratchpad by an engine in pending-bit mode (06_copy_scratchpad.md R142). -/
def State.pendingRead (s : State) (c live a n issue : Nat) : State :=
  match (s.core c).pendingAt a n with
  | some w => s.wordFault c live 0x09 (s.issueStatus c live 0 issue) (BitVec.ofNat 64 w)
  | none => s

/-- Move a flight's next access on. -/
def Own.stepAccess (o : Own) (id : Nat) (last : Bool) (gap : Nat) : Own :=
  o.modFlight id fun f => { f with acc := if last then none else f.acc.map (· + gap), done := f.done + 1 }

/-- One bank-ALU atomic on scratchpad (06_copy_scratchpad.md R139, R140): the old value, and whether it was
lost. -/
def State.spAtomic (s : State) (c op a x new : Nat) : (Nat × Bool) × State :=
  let n := atomicSize op
  let old := (s.core c).spRead a n
  if old.any (·.2) then
    ((atomicLost op, true), s.modCore c fun k => { k with uce := satAdd k.uce 1 0xFFFF })
  else
    let v := ofBytesLe (old.map (·.1))
    ((v, false), s.spWrite c a (bytesLe n (atomicNew op v x new)))

/-- The next element of an am word. -/
def State.amAccess (s : State) (c : Nat) (fl : Flight) (op : Nat) : State :=
  let n := atomicSize op
  let ls := amLanes op fl.g
  match ls[fl.done]? with
  | none => s.modOwn c fun w => w.stepAccess fl.id true 2
  | some j =>
    let a := fl.addr + j * n
    let x := if fl.eng = .ld then fl.g2.toNat % 2 ^ (8 * n) else fld (fl.got 3).data.toNat (8 * n * j) (8 * n)
    let xBad := fl.eng == .st && ((fl.got 3).bad.contains (8 * n * j / 64))
    let s := s.pendingRead c fl.live a n fl.issue
    -- an operand lost in its slot is the void value of its format (19_faults.md R352)
    let x := if xBad then voidOf (amFmt op) else x
    let ((old, lost), s) := s.spAtomic c op a x 0
    let s := if lost || xBad then s.flag c fl.ctx flPoison else s
    let s := s.modCore c fun k =>
      { k with
        bursts := k.bursts ++ [{ banks := [bankOf a], until_ := k.p + 2 }]
        void := if xBad then satAdd k.void 1 (2 ^ 32 - 1) else k.void }
    s.modOwn c fun w =>
      (w.modFlight fl.id fun f =>
        { f with data := overlay f.data (j * n) ((bytesLe n old).map fun b => (b, false)) }).stepAccess fl.id
          (decide (ls.length ≤ fl.done + 1)) 2

/-- One step of a gather. -/
def State.vgAccess (s : State) (c : Nat) (fl : Flight) (f : Fmt) : State :=
  let e := elemBytes f
  let ads := fl.lanes
  let rs := vgRanks ads
  let now := ads.filterMap fun l => l.2.bind fun a => if vgStepOf rs a = fl.done then some (l.1, a) else none
  let s := now.foldl (fun s l =>
    let s := s.pendingRead c fl.live l.2 e fl.issue
    let bs := (s.core c).spRead l.2 e
    s.modOwn c fun w => w.modFlight fl.id fun x => { x with data := overlay x.data (l.1 * e) bs }) s
  let last := decide (vgSteps rs ≤ fl.done + 1)
  (s.modOwn c fun w => w.stepAccess fl.id last 1).modCore c fun k =>
    if fl.done = 0 then { k with owed := k.owed + vgLaps rs } else k

/-- The scratchpad access of a load (R181). -/
def State.ldAccess (s : State) (c id : Nat) : State :=
  match (s.own c).flight id with
  | none => s
  | some fl =>
    if fl.acc ≠ some (s.own c).sigma then s
    else if fl.quiet then s.modOwn c fun w => w.stepAccess id true 1
    else
      match fl.instr.ld? with
      | none => s
      | some (.vg, _, p) => s.vgAccess c fl p.fmt
      | some (.am, _, p) => s.amAccess c fl p.fmt.toNat
      | some (o, _, p) =>
        let n := ldSpan o p.fmt
        let s := s.pendingRead c fl.live fl.addr n fl.issue
        let bs := (s.core c).spRead fl.addr n
        s.modOwn c fun w => (w.modFlight id fun f => { f with data := bs }).stepAccess id true 1

/-- The bytes of a value under a mask of bits: a byte is written when any bit of it is. -/
def maskedBytes (data mask : Nat) : Nat → List (Option Byte)
  | 0 => []
  | n + 1 =>
    (if mask % 256 = 0 then none else some (BitVec.ofNat 8 data)) :: maskedBytes (data / 256) (mask / 256) n

/-- Write the given bytes of a run of addresses, contiguous ones together. -/
def State.spWriteSome (s : State) (c : Nat) : Nat → List (Option Byte) → List Byte → State
  | a, [], acc => s.spWrite c (a - acc.length) acc
  | a, none :: r, acc => State.spWriteSome (s.spWrite c (a - acc.length) acc) c (a + 1) r []
  | a, some b :: r, acc => State.spWriteSome s c (a + 1) r (acc ++ [b])

/-- The lanes of a list that a store writes, with lost lanes void. DEDUCED (log 20). -/
def stLanesOf (f : Fmt) (on : Nat → Bool) (v : Slot) : SlotOut :=
  lanesFrom f on fun k => if laneBad f v k then .lost f else .ok (laneOf f v.data k, 0)

/-- The active lanes that a store writes. DEDUCED (log 20). -/
def stLanes (f : Fmt) (g : BitVec 64) (v : Slot) : SlotOut := stLanesOf f (laneOn f g) v

/-- st.ve: the active lanes one behind another. -/
def stCompact (f : Fmt) (o : SlotOut) (g : BitVec 64) : List Byte :=
  ((upFrom 0 (lanesOf f)).filter (laneOn f g)).flatMap fun k =>
    bytesLe (elemBytes f) (fld o.data (laneBits f * k) (laneBits f))

/-- st.ln: bits and mask of the 96 packed bytes. DEDUCED (log 20). -/
def stPack (o : SlotOut) : Nat × Nat :=
  (upFrom 0 128).foldl (fun a k =>
    (a.1 + (fld o.data (8 * k) 6) <<< (6 * k), a.2 + (fld o.mask (8 * k) 6) <<< (6 * k))) (0, 0)

/-- Flags and counts of what a store found lost. -/
def State.stVoids (s : State) (c : Nat) (fl : Flight) (o : SlotOut) : State :=
  (s.flag c fl.ctx o.fl).modCore c fun k => { k with void := satAdd k.void o.voids (2 ^ 32 - 1) }

/-- One step of a scatter: lanes in increasing order, so the higher lane wins; a lane out of range is not written. -/
def State.vsAccess (s : State) (c : Nat) (fl : Flight) (f : Fmt) : State :=
  let e := elemBytes f
  let ads := fl.lanes
  let rs := vgRanks ads
  let o := stLanesOf f (fun i => ads.any fun l => l.1 == i && l.2.isSome) (fl.got 3)
  let s :=
    if fl.done = 0 then
      (s.stVoids c fl o).flag c fl.ctx (flIf (ads.any fun l => l.2.isNone) flInvalid)
    else s
  let s := ads.foldl (fun s l =>
    match l.2 with
    | some a =>
      if vgStepOf rs a = fl.done then s.spWrite c a (bytesLe e (fld o.data (laneBits f * l.1) (laneBits f))) else s
    | none => s) s
  let last := decide (vgSteps rs ≤ fl.done + 1)
  (s.modOwn c fun w => w.stepAccess fl.id last 1).modCore c fun k =>
    if fl.done = 0 then { k with owed := k.owed + vgLaps rs } else k

/-- The write access of a ring store (R170, R174): scratchpad is written, or a device-memory write is
posted. -/
def State.stWrite (s : State) (c : Nat) (fl : Flight) (o : StOp) (p : LsFields) : State :=
  let v := fl.got 3
  let out := stLanes p.fmt fl.g v
  match o with
  | .gd => s.spWrite c fl.addr (bytesLe 8 fl.g2.toNat)
  | .ve => (s.stVoids c fl out).spWrite c fl.addr (stCompact p.fmt out fl.g)
  | .ln =>
    let (d, m) := stPack out
    let old := ofBytesLe ((s.core c).spBytes fl.addr 96)
    -- bits of other lanes stay as stored
    let d := d + (old &&& (2 ^ 768 - 1 - m))
    (s.stVoids c fl out).spWriteSome c fl.addr (maskedBytes d m 96) []
  | .vd =>
    (s.stVoids c fl out).modOwn c fun w => w.modFlight fl.id fun f =>
      { f with data := (maskedBytes out.data out.mask 128).map fun b => (b.getD 0, b.isSome) }
  | _ => (s.stVoids c fl out).spWriteSome c fl.addr (maskedBytes out.data out.mask 128) []

/-- The end of an ST issue: every access made, its cycle come, a posted write visible. -/
def State.stEnd (s : State) (c id : Nat) : State :=
  match (s.own c).flight id with
  | some fl =>
    let posted := match fl.instr.st? with | some (.vd, _, _) => !fl.data.isEmpty && !fl.arrived | _ => false
    if fl.acc.isNone && decide (fl.w ≤ (s.own c).sigma) && !posted then s.modOwn c fun w => w.endFlight id else s
  | none => s

/-- The access of a store that is due, or the end of one that makes none. -/
def State.stAccess (s : State) (c id : Nat) : State :=
  match (s.own c).flight id with
  | none => s
  | some fl =>
    match fl.instr.st? with
    | none => s
    | some (o, _, p) =>
      let s :=
        if fl.acc ≠ some (s.own c).sigma then s
        else if fl.quiet then s.modOwn c fun w => w.stepAccess id true 1
        else
          match o with
          | .vs => s.vsAccess c fl p.fmt
          | .am => s.amAccess c fl p.fmt.toNat
          | _ => (s.stWrite c fl o p).modOwn c fun w => w.stepAccess id true 1
      s.stEnd c id

/-! ## Slot and guard writes of LD (R155, R173) -/

/-- Lane `k` of loaded bytes, with the loss of any byte of it. -/
def loadedLane (f : Fmt) (data : List (Byte × Bool)) (v k : Nat) : LaneOut :=
  let w := laneBits f
  let lo := w * k / 8
  let hi := (w * (k + 1) - 1) / 8
  if ((data.drop lo).take (hi - lo + 1)).any (·.2) then .lost f else .ok (fld v (w * k) w, 0)

/-- What an LD ring word places on its slot. -/
def ldLanes (o : LdOp) (p : LsFields) (fl : Flight) : SlotOut :=
  let f := p.fmt
  let v := ofBytesLe (fl.data.map (·.1))
  match o with
  | .vb =>
    let lost := fl.data.any (·.2)
    lanesFrom f (laneOn f fl.g) fun _ => if lost then .lost f else .ok (v % 2 ^ laneBits f, 0)
  | .ln =>
    lanesFrom 8 (laneOn 8 fl.g) fun k =>
      let lo := 6 * k / 8
      let hi := (6 * k + 5) / 8
      if ((fl.data.drop lo).take (hi - lo + 1)).any (·.2) then .lost 8 else .ok (fld v (6 * k) 6, 0)
  | .vg =>
    let e := elemBytes f
    buildLanes f 0 ((upFrom 0 (lanesOf f)).map fun k =>
      match fl.lanes.find? fun l => l.1 == k with
      | none => none
      | some (_, none) => some { val := voidOf f, fl := flInvalid, void := false }
      | some (_, some _) =>
        some (if ((fl.data.drop (k * e)).take e).any (·.2) then .lost f
          else .ok (fld v (8 * e * k) (8 * e), 0)))
  | .am =>
    let n := 8 * atomicSize p.fmt.toNat
    (amLanes p.fmt.toNat fl.g).foldl (fun a j =>
      { a with data := a.data + (fld v (n * j) n) <<< (n * j), mask := a.mask + (2 ^ n - 1) <<< (n * j) })
      { data := 0, mask := 0, fl := 0, voids := 0 }
  | _ => lanesFrom f (laneOn f fl.g) (loadedLane f fl.data v)

/-- The write of an LD ring word, due at its write cycle (R155, R176). -/
def State.ldWrite (s : State) (c id : Nat) : State :=
  match (s.own c).flight id with
  | none => s
  | some fl =>
    if fl.w ≠ (s.own c).sigma then s
    else
      match fl.instr.ld? with
      | none => s
      | some (o, _, p) =>
        let s :=
          if fl.quiet then s
          else if o = .gd then
            -- a guard byte lost to an uncorrectable error is free (DESIGN CHOICE, log 5)
            let lost := fl.data.any (·.2)
            let v := if lost then Config.freeNat s.draws else ofBytesLe (fl.data.map (·.1))
            let s := if lost then (s.draw.2).flag c fl.ctx flPoison else s
            s.modOwn c fun w => w.setGuard fl.d (BitVec.ofNat 64 v)
          else
            let out := ldLanes o p fl
            let tag := if o = .am then amFmt p.fmt.toNat else p.fmt
            (s.stVoids c fl out).slotWrite c fl 0 fl.d (BitVec.ofNat 1024 out.data) (BitVec.ofNat 1024 out.mask) tag
        s.modOwn c fun w => w.endFlight id

/-! ## Device memory (R182) -/

/-- The data of an ld.vd, or the start of an ld.td, arrive from device memory. -/
def State.dvaArrive (s : State) (c id : Nat) : State :=
  let k := s.core c
  match k.own.flight id with
  | some fl =>
    match fl.instr.ld? with
    | some (.vd, _, _) =>
      if fl.arrived || !k.gateOpen fl.gate || decide (k.own.sigma ≤ fl.t) || !s.reaches c (k.dpas fl.addr 128) then s
      else
        let (bs, s) := s.dvaLook c .engine fl.addr 128
        s.modOwn c fun w => w.modFlight id fun f => { f with data := bs, arrived := true }
    | _ => s
  | none =>
    match k.own.xfers.find? fun x => x.id == id with
    | some x =>
      match x.instr with
      | .ldTd _ _ =>
        if !k.gateOpen x.gate || decide (k.own.sigma ≤ x.t) then s
        else
          s.modOwn c fun w =>
            { w with xfers := w.xfers.map fun y => if y.id = id then { y with visible := true } else y }
      | _ => s
    | none => s

/-- The pieces of 64 bytes of device memory that an access touches, by their number: the least that a page places apart
(04_device_memory.md R79, R83). -/
def CoreSt.pieces (k : CoreSt) (a n : Nat) : List Nat :=
  (upFrom 0 (ceilDiv n 64)).flatMap fun j => (k.dpas (a + 64 * j) 1).map (· / 64)

/-- A write of an earlier issue of ST to one of the locations is not visible yet: posted writes to one location keep their
order, through whatever address they were made (14_consistency.md R290, R295). -/
def CoreSt.postedBefore (k : CoreSt) (id a n : Nat) : Bool :=
  let mine := k.pieces a n
  (k.own.flights.any fun f =>
    decide (f.id < id) &&
      (match f.instr.st? with
       | some (.vd, _, _) => !f.arrived && (k.pieces f.addr 128).any mine.contains
       | _ => false)) ||
  (k.own.xfers.any fun x =>
    decide (x.id < id) && (match x.instr with | .stRd _ _ => (k.pieces x.base x.total).any mine.contains | _ => false))

/-- Write device memory for an engine of the core. -/
def State.engPut (s : State) (c : Nat) (ws : List (Nat × Byte)) : State :=
  (s.memWriteFrom (dieOf c) ws).modCore c fun k => k.engineWrote (ws.map (·.1))

/-- A posted write of st.vd or st.rd becomes visible at its page's class, and the issue ends. DEDUCED (log 86). -/
def State.dvaVisible (s : State) (c id : Nat) : State :=
  let k := s.core c
  match k.own.flight id with
  | some fl =>
    match fl.instr.st? with
    | some (.vd, _, _) =>
      let as := k.dpas fl.addr 128
      if fl.data.isEmpty || fl.arrived || !k.gateOpen fl.gate || k.postedBefore id fl.addr 128 || !s.reaches c as then s
      else
        let ws := (as.zip fl.data).filterMap fun e => if e.2.2 then some (e.1, e.2.1) else none
        ((s.engPut c ws).modOwn c fun w => w.modFlight id fun f => { f with arrived := true }).stEnd c id
    | _ => s
  | none =>
    match k.own.xfers.find? fun x => x.id == id with
    | some x =>
      match x.instr with
      | .stRd _ _ =>
        let as := k.dpas x.base x.total
        if x.quiet || decide (x.done * x.rate < x.total) || !k.gateOpen x.gate ||
            k.postedBefore id x.base x.total || !s.reaches c as then s
        else
          (s.engPut c (as.zip (x.buf.map (·.1)))).modOwn c fun w =>
            { (w.settleIssue x.live) with xfers := w.xfers.filter fun y => y.id != id }
      | _ => s
    | none => s

/-! ## Beats (R178, R179) -/

/-- The weight-store bank of the next beat of ld.tw (04_device_memory.md R99). -/
def Xfer.wsBank (x : Xfer) : Option Nat :=
  match x.instr with
  | .ldTw _ _ => some ((x.base + x.done * x.rate) / 2 ^ 23)
  | _ => none

/-- The bank's refresh window is open (04_device_memory.md R101). -/
def refreshOpen (ftick b : Nat) : Bool := decide ((ftick + 102400 - 3200 * b % 102400) % 102400 < 1600)

/-- A beat that would meet an open refresh window (R104). -/
def State.refreshWait (s : State) (c : Nat) : Bool :=
  let k := s.core c
  match k.own.head .ld with
  | some x => x.due k && (x.wsBank.map fun b => s.wsOpen.contains (dieOf c, b)).getD false
  | none => false

/-- A core of the die whose cycle comes later in this tick, and that no stall holds, has a beat due at the same weight-store
bank, so that a beat may be delayed (R178). DEDUCED (log 117). -/
def State.wsShared (s : State) (c b : Nat) : Bool :=
  s.cores.any fun e =>
    e.1 != c && dieOf e.1 == dieOf c && e.2.stall.isNone && s.turns.contains (.pulse e.1) &&
      ((e.2.own.head .ld).map fun x => x.due e.2 && x.wsBank == some b).getD false

/-- A beat of a core takes its bank of the weight store in this tick, unless it loses it: to a beat that has taken it, or to one
that comes later in the tick, which is free (R178). DEDUCED (log 117). -/
def State.wsTake (s : State) (c b : Nat) : Bool × State :=
  let key := 32 * dieOf c + b
  let (d, s) := s.draw
  if tblFind s.wsTook key = some s.ftick ∨ (s.wsShared c b = true ∧ Config.freeBool d = true) then (false, s)
  else (true, { s with wsTook := tblPut s.wsTook key s.ftick })

/-- Bits of an element in a tile; under FMT 0x0, BITS, an element is one byte (02_numbers.md R30, 11_matrix.md R237). -/
def elemWidth (f : Fmt) : Nat := packBits f

/-- The first bit of the element that holds bit `b` of a tile with rows of `width` bytes; none for the bits of a row behind
its last whole element (11_matrix.md R237). -/
def elemBit (f : Fmt) (width b : Nat) : Option Nat :=
  let w := elemWidth f
  let row := b / (8 * width)
  let e := b % (8 * width) / w
  if w * (e + 1) ≤ 8 * width then some (8 * width * row + w * e) else none

/-- Put a value into a field of a number. -/
def putFld (v lo n x : Nat) : Nat := v - fld v lo n <<< lo + (x % 2 ^ n) <<< lo

/-- What a beat of a tile word moves (19_faults.md R352): its bytes with the elements void that hold a bad byte, the byte in
front of them where an element that began there turns out void, the number of elements newly void, and whether the element
that the beat's end cuts is void. -/
structure Moved where
  before : Option Byte
  bytes : List Byte
  voids : Nat
  cut : Bool
  deriving DecidableEq, Repr

/-- A beat that moves the tile bytes from `lo` on; `prev` is the byte in front of them, and `cut` says that the element they
begin in is void already. -/
def moveBeat (f : Fmt) (width lo : Nat) (prev : Byte) (bs : List (Byte × Bool)) (cut : Bool) : Moved :=
  if !cut && bs.all (fun b => !b.2) then { before := none, bytes := bs.map (·.1), voids := 0, cut := false }
  else
    let w := elemWidth f
    let ends := 8 * (lo + bs.length)
    let bad := (upFrom 0 bs.length).filter fun i => ((bs[i]?).map (·.2)).getD false
    let bits := (if cut then [8 * lo] else []) ++ bad.flatMap fun i => [8 * (lo + i), 8 * (lo + i) + 7]
    let lost := (bits.filterMap (elemBit f width)).eraseDups
    -- bit 0 of the number is bit 8 (lo − 1) of the tile
    let v := ofBytesLe (prev :: bs.map (·.1))
    let v := lost.foldl (fun v p => putFld v (p + 8 - 8 * lo) w (voidOf f)) v
    let out := bytesLe (bs.length + 1) v
    { before := if !cut && lost.any (fun p => decide (p < 8 * lo)) then out.head? else none
      bytes := out.drop 1, voids := lost.length - b2n cut
      cut := lost.any fun p => decide (ends < p + w) }

/-- Write bytes of a tile; a unit written whole loses its mark. -/
def Tile.put (t : Tile) (lo : Nat) (bs : List Byte) : Tile :=
  { t with
    bytes := tblSetRange 0 t.bytes lo bs
    bad := if t.bad.isEmpty then [] else t.bad.filter fun u => !(wholeUnits lo bs.length).contains u }

def Tile.putScales (t : Tile) (lo : Nat) (bs : List Byte) : Tile :=
  { t with
    scales := tblSetRange 0 t.scales lo bs
    badScales := if t.badScales.isEmpty then [] else t.badScales.filter fun u => !(wholeUnits lo bs.length).contains u }

/-- Write what a beat moves into a tile. -/
def Tile.move (t : Tile) (lo : Nat) (m : Moved) : Tile :=
  let t := match m.before with | some b => t.put (lo - 1) [b] | none => t
  t.put lo m.bytes

/-- One element of an accumulator as st.rc stores it (R179): code, flags, and whether it was lost. -/
def retired (a : Acc) (f : Fmt) (mode : BitVec 4) (e : Nat) : Nat × Flg × Bool :=
  if a.bad.contains e then (voidOf f, flPoison, true)
  else
    let r := conv 1 f (modeR mode) (modeWrap mode) (tblGet 0 a.elems e).toNat
    (r.1, r.2, false)

/-- What a beat of a retire-convert word moves: bytes, flags and number of voids of the elements read in it, and the code
of the element that its end cuts. -/
structure Retired where
  bytes : List Byte
  fl : Flg
  voids : Nat
  cut : Option Nat
  deriving DecidableEq, Repr

/-- Bytes `lo` to `lo + n − 1` of a retired accumulator. Each element is read once, in the beat in which it begins; `cut` is
the code of the one that began before (R178, R179). -/
def retireBeat (a : Acc) (f : Fmt) (mode : BitVec 4) (lo n : Nat) (cut : Option Nat) : Retired :=
  let w := packBits f
  let first := ceilDiv (8 * lo) w
  let last := ceilDiv (8 * (lo + n)) w
  let els := (upFrom first (last - first)).map fun e => (e, retired a f mode e)
  let head := w * first - 8 * lo
  let v := els.foldl (fun acc e => acc + e.2.1 <<< (w * (e.1 - first) + head)) ((cut.getD 0) >>> (w - head))
  { bytes := bytesLe n v
    fl := els.foldl (fun f e => f ||| e.2.2.1) 0
    voids := (els.filter fun e => e.2.2.2).length
    cut := if w * last = 8 * (lo + n) then none else els.getLast?.map (·.2.1) }

/-- The bytes of a tile as a store finds them. -/
def Tile.out (t : Tile) (lo n : Nat) : List (Byte × Bool) :=
  (upFrom lo n).map fun i => (tblGet 0 t.bytes i, t.bad.contains (i / 8))

/-- Flag and count what a beat has found lost (19_faults.md R352). -/
def State.beatVoids (s : State) (c ctx voids : Nat) (fl : Flg) : State :=
  (s.flag c ctx fl).modCore c fun k => { k with void := satAdd k.void voids (2 ^ 32 - 1) }

/-- Change a transfer. -/
def Own.modXfer (o : Own) (id : Nat) (f : Xfer → Xfer) : Own :=
  { o with xfers := o.xfers.map fun y => if y.id = id then f y else y }

/-- Move a transfer past a beat; its next beat is another cycle's. -/
def State.beatDone (s : State) (c id : Nat) (buf : List (Byte × Bool)) (cut : Option Nat) : State :=
  s.modOwn c fun w => w.modXfer id fun y =>
    { y with done := y.done + 1, start := w.sigma + 1, buf := buf, cut := cut }

/-- Place bytes of a tile load from tile byte `lo` on. -/
def State.tileLoad (s : State) (c : Nat) (x : Xfer) (lo : Nat) (bs : List (Byte × Bool)) : State :=
  let t := (s.own c).tile x.tile
  let m := moveBeat x.fmt x.width lo (tblGet 0 t.bytes (lo - 1)) bs x.cut.isSome
  ((s.modOwn c fun w => w.setTile x.tile (t.move lo m)).beatVoids c x.ctx m.voids (flIf (m.voids != 0) flPoison)).beatDone
    c x.id [] (if m.cut then some 0 else none)

/-- Take 64 bytes of a tile load: a 128-byte unit is placed whole, so that MX finds it wholly old or wholly new (R178). -/
def State.tileHalf (s : State) (c : Nat) (x : Xfer) (bs : List (Byte × Bool)) : State :=
  let hi := x.done * x.rate + bs.length
  let all := x.buf ++ bs
  if hi % 128 = 0 ∨ x.total ≤ hi then s.tileLoad c x (hi - all.length) all else s.beatDone c x.id all x.cut

/-- One beat of a transfer. -/
def State.beatMove (s : State) (c : Nat) (x : Xfer) : State :=
  let k := s.core c
  let lo := x.done * x.rate
  let n := min x.rate (x.total - lo)
  match x.instr with
  | .ldT _ _ | .ldTr _ _ =>
    let s := x.spBytes.foldl (fun s a => s.pendingRead c x.live a 1 x.issue) s
    s.tileLoad c x lo (x.spBytes.map fun a => (k.spByte a, k.spBad.contains (a / 8)))
  | .ldSc _ _ =>
    let s := s.pendingRead c x.live (x.base + lo) n x.issue
    let bs := k.spRead (x.base + lo) n
    ((s.modOwn c fun w =>
      w.setTile x.tile ((w.tile x.tile).putScales lo (bs.map fun b => if b.2 then 0x80 else b.1))).flag c x.ctx
        (flIf (bs.any (·.2)) flPoison)).beatDone c x.id [] none
  | .ldTw _ _ =>
    let d := dieOf c * 2 ^ 28
    s.tileHalf c x ((upFrom (x.base + lo) n).map fun a => (tblGet 0 s.ws (d + a), s.wsBad.contains ((d + a) / 8)))
  | .ldTd _ _ =>
    let (bs, s) := s.dvaLook c .engine (x.base + lo) n
    s.tileHalf c x bs
  | .stT _ _ =>
    let m := moveBeat x.fmt x.width lo (k.spByte (x.base + lo - 1)) ((k.own.tile x.tile).out lo n) x.cut.isSome
    let s := match m.before with | some b => s.spWrite c (x.base + lo - 1) [b] | none => s
    ((s.spWrite c (x.base + lo) m.bytes).beatVoids c x.ctx m.voids (flIf (m.voids != 0) flPoison)).beatDone c x.id []
      (if m.cut then some 0 else none)
  | .stRc _ _ =>
    let r := retireBeat (k.own.acc x.tile) x.fmt x.mode lo n x.cut
    ((s.spWrite c (x.base + lo) r.bytes).beatVoids c x.ctx r.voids r.fl).beatDone c x.id [] r.cut
  | .stRd _ _ =>
    let r := retireBeat (k.own.acc x.tile) x.fmt x.mode lo n x.cut
    (s.beatVoids c x.ctx r.voids r.fl).beatDone c x.id (x.buf ++ r.bytes.map fun b => (b, false)) r.cut
  | _ => s

/-- The beat reads device memory that cannot be reached now: a link on the way retrains, or a store that a fence has
published is on its way to it (14_consistency.md R292). -/
def State.beatFar (s : State) (c : Nat) (x : Xfer) : Bool :=
  match x.instr with
  | .ldTd _ _ =>
    let lo := x.done * x.rate
    !s.reaches c ((s.core c).dpas (x.base + lo) (min x.rate (x.total - lo)))
  | _ => false

/-- The beat of an engine's transfer path in this cycle, unless one of its banks is taken: for ST by its own ring words or
by what holds a bank, for LD by any of these, by a ring access of LD or by a beat of ST (R178, R181). In the cycle in which a stall
begins only scratchpad is accessed (20_program_rotation.md R358). -/
def State.beat (s : State) (c : Nat) (e : Engine) : State :=
  let k := s.core c
  match k.own.head e with
  | none => s
  | some x =>
    let used := k.heldBanks ++ k.asking.flatMap (·.banks) ++ k.stBeat
    let blocked := if e = .st then x.usesSp && k.stBeat.isEmpty else x.banks.any used.contains
    if !x.due k || blocked || (k.stall.isSome && !x.usesSp) || s.beatFar c x then s
    else
      match x.wsBank with
      | some b =>
        if s.wsOpen.contains (dieOf c, b) then s
        else
          match s.wsTake c b with
          | (true, s) => s.beatMove c x
          | (false, s) => s
      | none => s.beatMove c x

/-- The end of transfers of an engine whose end_i has come (R178): their words' issues end; st.rd waits to be
visible. -/
def State.xferEnd (s : State) (c : Nat) (e : Engine) : State :=
  let o := s.own c
  let due := o.xfers.filter fun x =>
    x.eng == e && decide (x.total ≤ x.done * x.rate) && decide (x.start ≤ o.sigma) &&
      (match x.instr with | .stRd _ _ => x.quiet | _ => true)
  due.foldl (fun s x =>
    s.modOwn c fun w => { (w.settleIssue x.live) with xfers := w.xfers.filter fun y => y.id != x.id }) s

/-! ## Meanings -/

def execLdSlotWrite (c id : Nat) (s : State) : Host.Outcome State Fault Refusal := .next (s.ldWrite c id)
def execStSlotRead (c id : Nat) (s : State) : Host.Outcome State Fault Refusal := .next (s.lsReads c id)
def execStWriteAccess (c id : Nat) (s : State) : Host.Outcome State Fault Refusal := .next (s.stAccess c id)
def execTransferComplete (c : Nat) (e : Engine) (s : State) : Host.Outcome State Fault Refusal :=
  .next (s.xferEnd c e)
def execDvaReadArrival (c id : Nat) (s : State) : Host.Outcome State Fault Refusal := .next (s.dvaArrive c id)
def execDvaStoreVisible (c id : Nat) (s : State) : Host.Outcome State Fault Refusal := .next (s.dvaVisible c id)

/-- Run an LD issue for the agent whose word it is. -/
def asLd (o : LdOp) (f : Frame) (p : LsFields) (s : State) : Host.Outcome State Fault Refusal :=
  match s.at_ with
  | .engine c .ld => .next (s.issueLd c o f p)
  | _ => .fault .noAgent

/-- Run an ST issue for the agent whose word it is. -/
def asSt (o : StOp) (f : Frame) (p : LsFields) (s : State) : Host.Outcome State Fault Refusal :=
  match s.at_ with
  | .engine c .st => .next (s.issueSt c o f p)
  | _ => .fault .noAgent

/-- R173. ld.v loads 128 scratchpad bytes into a slot. -/
def execLdV (f : Frame) (p : LsFields) (s : State) : Host.Outcome State Fault Refusal :=
  asLd .v f p s
/-- R173. ld.vb broadcasts one element into every lane. -/
def execLdVb (f : Frame) (p : LsFields) (s : State) : Host.Outcome State Fault Refusal :=
  asLd .vb f p s
/-- R175. ld.vg gathers lanes from addresses given by an index slot. -/
def execLdVg (f : Frame) (p : LsFields) (s : State) : Host.Outcome State Fault Refusal :=
  asLd .vg f p s
/-- R173. ld.ln unpacks 96 bytes of packed LN6 into a slot. -/
def execLdLn (f : Frame) (p : LsFields) (s : State) : Host.Outcome State Fault Refusal :=
  asLd .ln f p s
/-- R176. ld.gd loads 8 bytes into a guard register. -/
def execLdGd (f : Frame) (p : LsFields) (s : State) : Host.Outcome State Fault Refusal :=
  asLd .gd f p s
/-- R173. ld.vd loads 128 bytes of device memory into a slot. -/
def execLdVd (f : Frame) (p : LsFields) (s : State) : Host.Outcome State Fault Refusal :=
  asLd .vd f p s
/-- R177. ld.t fills a tile from scratchpad. -/
def execLdT (f : Frame) (p : LsFields) (s : State) : Host.Outcome State Fault Refusal :=
  asLd .t f p s
/-- R177. ld.tw fills a tile from the weight store. -/
def execLdTw (f : Frame) (p : LsFields) (s : State) : Host.Outcome State Fault Refusal :=
  asLd .tw f p s
/-- R177. ld.td fills a tile from device memory. -/
def execLdTd (f : Frame) (p : LsFields) (s : State) : Host.Outcome State Fault Refusal :=
  asLd .td f p s
/-- R177. ld.sc loads a tile's 512-byte scale store. -/
def execLdSc (f : Frame) (p : LsFields) (s : State) : Host.Outcome State Fault Refusal :=
  asLd .sc f p s
/-- R177. ld.tr fills a tile with a transpose. -/
def execLdTr (f : Frame) (p : LsFields) (s : State) : Host.Outcome State Fault Refusal :=
  asLd .tr f p s
/-- R180. ld.am performs a per-lane bank-ALU atomic and loads the old values. -/
def execLdAm (f : Frame) (p : LsFields) (s : State) : Host.Outcome State Fault Refusal :=
  asLd .am f p s
/-- R174. st.v stores a slot's active lanes to scratchpad. -/
def execStV (f : Frame) (p : LsFields) (s : State) : Host.Outcome State Fault Refusal :=
  asSt .v f p s
/-- R175. st.vs scatters lanes to addresses given by an index slot. -/
def execStVs (f : Frame) (p : LsFields) (s : State) : Host.Outcome State Fault Refusal :=
  asSt .vs f p s
/-- R174. st.ln packs LN6 lanes into 96 bytes. -/
def execStLn (f : Frame) (p : LsFields) (s : State) : Host.Outcome State Fault Refusal :=
  asSt .ln f p s
/-- R176. st.gd stores a guard register as 8 bytes. -/
def execStGd (f : Frame) (p : LsFields) (s : State) : Host.Outcome State Fault Refusal :=
  asSt .gd f p s
/-- R174. st.vd posts a slot's active lanes to device memory. -/
def execStVd (f : Frame) (p : LsFields) (s : State) : Host.Outcome State Fault Refusal :=
  asSt .vd f p s
/-- R174. st.ve stores the active lanes compacted. -/
def execStVe (f : Frame) (p : LsFields) (s : State) : Host.Outcome State Fault Refusal :=
  asSt .ve f p s
/-- R177. st.t stores a tile to scratchpad. -/
def execStT (f : Frame) (p : LsFields) (s : State) : Host.Outcome State Fault Refusal :=
  asSt .t f p s
/-- R179. st.rc converts an accumulator and stores it to scratchpad. -/
def execStRc (f : Frame) (p : LsFields) (s : State) : Host.Outcome State Fault Refusal :=
  asSt .rc f p s
/-- R179. st.rd converts an accumulator and posts it to device memory. -/
def execStRd (f : Frame) (p : LsFields) (s : State) : Host.Outcome State Fault Refusal :=
  asSt .rd f p s
/-- R180. st.am performs a per-lane bank-ALU atomic with slot operands. -/
def execStAm (f : Frame) (p : LsFields) (s : State) : Host.Outcome State Fault Refusal :=
  asSt .am f p s

end Sys2Proof.Machine
end

