-- ==== Sys2Proof/Machine/Mx.lean ====
section
/-! DEFINITION. MX: tiles, accumulators, products with block scales, retirement, welt marks and replay
(11_matrix.md R235 to R259, 02_numbers.md R46 to R48). -/
namespace Sys2Proof.Machine

/-! ## Elements -/

/-- Bits of element `e` of row `row` of a tile of row length `w` (R237), and whether it is lost. -/
def tileElem (t : Tile) (f : Fmt) (w row e : Nat) : Nat × Bool :=
  let b := packBits f
  let bit0 := 8 * (row * w) + b * e
  let lo := bit0 / 8
  let n := (bit0 + b - 1) / 8 - lo + 1
  let v := ofBytesLe ((upFrom lo n).map fun i => tblGet 0 t.bytes i)
  (fld v (bit0 - 8 * lo) b, !t.bad.isEmpty && (upFrom lo n).any fun i => t.bad.contains (i / 8))

/-- A scale byte of a tile (R238). -/
def Tile.scale (t : Tile) (i : Nat) : Byte := tblGet 0 t.scales i
def Tile.scaleBad (t : Tile) (i : Nat) : Bool := t.badScales.contains (i / 8)

/-- K(T): the number of elements in a row (R237). -/
def rowElems (f : Fmt) (w : Nat) : Nat := 8 * w / packBits f

/-- The width is a whole number of elements. -/
def wholeElems (f : Fmt) (w : Nat) : Bool :=
  match laneBits f with
  | 32 => w % 4 == 0
  | 16 => f == 0 || w % 2 == 0
  | _ => f != 8 || w % 3 == 0

/-- LN6, HS4 and HS8 carry block scales. -/
def isBlock (f : Fmt) : Bool := f == 6 || f == 7 || f == 8

def Acc.get (a : Acc) (i j : Nat) : Nat := (tblGet 0 a.elems (256 * i + j)).toNat

/-- Write an element; its mark goes. -/
def Acc.put (a : Acc) (i j v : Nat) : Acc :=
  { a with
    elems := tblSet 0 a.elems (256 * i + j) (BitVec.ofNat 32 v)
    bad := if a.bad.isEmpty then [] else a.bad.filter (· != 256 * i + j) }

/-! ## Products -/

/-- An addition into an accumulator element rounds to nearest even (R48). -/
def accAdd (x : Nat) (v : Nat) : Nat × Flg := fpAdd 1 0 x v

/-- acc + sgn × a × b, rounded once (R48, R49). DEDUCED (log 38). -/
def accMac (f : Fmt) (neg : Bool) (x a b : Nat) : Nat × Flg :=
  let va := valOf f a
  let vb := valOf f b
  let vx := valOf 1 x
  match mulVal va vb with
  | .ok p => deliver 1 0 [vx, va, vb] (addVal 0 vx (if neg then negVal p else p))
  | .invalid =>
    let (r, fl) := deliver 1 0 [vx, va, vb] .invalid
    (r, fl ||| flIf (!isNan va && !isNan vb) flInvalid)

/-- The term that a product of block-format codes adds to the partial (R46 step 1); none for a NaR. -/
def blockTerm (f : Fmt) (a b : Nat) : Option Int :=
  if f = 8 then
    match valOf 8 a, valOf 8 b with
    | .nar, _ => none
    | _, .nar => none
    | _, _ =>
      let fa := a % 32
      let fb := b % 32
      if fa = 0 ∨ fb = 0 then some 0
      else
        let s : Int := (fa : Int) + fb - 32
        let q := s / 4
        let j := (s % 4).toNat
        let m : Int := (ln6T j : Int) * 2 ^ (q + 8).toNat
        some (if (bit a 5) != (bit b 5) then -m else m)
  else
    let w := packBits f
    some ((2 * sintOf w a + 1) * (2 * sintOf w b + 1))

/-- Close a block (R46 steps 2 and 3, R47): the element after, with flags. -/
def closeBlock (f : Fmt) (x : Nat) (p : Partial) (sa sb : Byte) : Nat × Flg :=
  let void := p.void || sa == 0x80 || sb == 0x80
  let v : Nat × Flg :=
    if void then (qnan 1, flPoison)
    else
      let n := sintOf 48 p.p.toNat
      let e : Int := sa.toInt + sb.toInt + (if f = 8 then -20 else -2)
      roundFp 1 0 (decide (n < 0)) n.natAbs e
  let r := accAdd x v.1
  (r.1, v.2 ||| r.2)

/-- Everything an mma-family issue reads that is the same for every element. -/
structure MmaIn where
  f : Fmt
  neg : Bool
  k : Nat
  kpos : Nat
  wa : Nat
  wb : Nat
  a : Tile
  b : Tile
  deriving DecidableEq, Repr

/-- The K loop of one element on a block format (R245). -/
def mmaBlock (m : MmaIn) (i j : Nat) : Nat → Nat → (Nat × Partial × Flg) → Nat × Partial × Flg
  | 0, _, r => r
  | n + 1, e, (x, p, fl) =>
    let t := blockTerm m.f (tileElem m.a m.f m.wa i e).1 (tileElem m.b m.f m.wb j e).1
    let p : Partial :=
      match t with
      | none => { p with void := true }
      | some v => { p with p := p.p + BitVec.ofInt 48 (if m.neg then -v else v) }
    let h := (m.kpos + e) / 256
    if m.kpos + e + 1 = 256 * (h + 1) then
      let (x, f2) := closeBlock m.f x p (m.a.scale (2 * i + h)) (m.b.scale (2 * j + h))
      mmaBlock m i j n (e + 1) (x, { p := 0, void := false }, fl ||| f2)
    else mmaBlock m i j n (e + 1) (x, p, fl)

/-- The K loop of one element on FP16 or BF16. -/
def mmaFp (m : MmaIn) (i j : Nat) : Nat → Nat → (Nat × Flg) → Nat × Flg
  | 0, _, r => r
  | n + 1, e, (x, fl) =>
    let (x, f2) := accMac m.f m.neg x (tileElem m.a m.f m.wa i e).1 (tileElem m.b m.f m.wb j e).1
    mmaFp m i j n (e + 1) (x, fl ||| f2)

/-- One K step of a complex element (R48): real and imaginary. -/
def mmacStep (re im a b : Nat) : (Nat × Nat) × Flg :=
  let ar := fld a 0 16
  let ai := fld a 16 16
  let br := fld b 0 16
  let bi := fld b 16 16
  let (re, f1) := accMac 2 false re ar br
  let (im, f2) := accMac 2 false im ar bi
  let (re, f3) := accMac 2 true re ai bi
  let (im, f4) := accMac 2 false im ai br
  ((re, im), f1 ||| f2 ||| f3 ||| f4)

def mmaCf (m : MmaIn) (i j : Nat) : Nat → Nat → (Nat × Nat × Flg) → Nat × Nat × Flg
  | 0, _, r => r
  | n + 1, e, (re, im, fl) =>
    let ((re, im), f2) := mmacStep re im (tileElem m.a 9 m.wa i e).1 (tileElem m.b 9 m.wb j e).1
    mmaCf m i j n (e + 1) (re, im, fl ||| f2)

/-- Visit rows and columns in order. -/
def forCells {α : Type} (ra rb : Nat) (f : α → Nat → Nat → α) (a : α) : α :=
  (upFrom 0 ra).foldl (fun a i => (upFrom 0 rb).foldl (fun a j => f a i j) a) a

/-- Partials of the open block; zero when no block is open. -/
def Acc.partials (a : Acc) : Tbl Partial := (a.blk.map (·.parts)).getD []

/-- Close every element of an open block with its latched scales (R245, R248). -/
def Acc.closeOpen (a : Acc) : Acc × Flg :=
  match a.blk with
  | none => (a, 0)
  | some b =>
    let (a, fl) := forCells b.ra b.rb (fun (r : Acc × Flg) i j =>
      let p := tblGet { p := 0, void := false } b.parts (256 * i + j)
      let (v, f) := closeBlock b.fmt (r.1.get i j) p (b.latA.getD i 0) (b.latB.getD j 0)
      (r.1.put i j v, r.2 ||| f)) (a, 0)
    ({ a with blk := none, kpos := 0, badParts := [] }, fl)

/-- The products of mma, mman and mmat on an accumulator (R245). -/
def Acc.mma (a : Acc) (m : MmaIn) (ra rb c : Nat) (closing : Bool) : Acc × Flg :=
  let dep := (if a.form then a.dep else 0) + m.k * c
  if isBlock m.f then
    let parts := a.partials
    let z : Partial := { p := 0, void := false }
    let (b, ps, fl) := forCells ra rb (fun (r : Acc × Tbl Partial × Flg) i j =>
      let (x, p, f) := mmaBlock m i j m.k 0 (r.1.get i j, tblGet z parts (256 * i + j), 0)
      -- an element is read and written where a block closes
      (if 256 ≤ m.kpos + m.k then r.1.put i j x else r.1, tblSet z r.2.1 (256 * i + j) p, r.2.2 ||| f)) (a, ([], 0))
    let kp := (m.kpos + m.k) % 256
    let h := (m.kpos + m.k) / 256
    let b :=
      { b with
        form := true, dep := dep, kpos := kp
        badParts := if kp = 0 then [] else b.badParts
        blk := if kp = 0 then none else
          some { fmt := m.f, ra := ra, rb := rb, parts := ps
                 latA := (upFrom 0 ra).map fun i => m.a.scale (2 * i + h)
                 latB := (upFrom 0 rb).map fun j => m.b.scale (2 * j + h) } }
    if closing then
      let (b, f) := b.closeOpen
      (b, fl ||| f)
    else (b, fl)
  else
    let (b, fl) := forCells ra rb (fun (r : Acc × Flg) i j =>
      let (x, f) := mmaFp m i j m.k 0 (r.1.get i j, 0)
      (r.1.put i j x, r.2 ||| f)) (a, 0)
    ({ b with form := true, dep := dep }, fl)

/-- The products of mmac (R246). -/
def Acc.mmac (a : Acc) (m : MmaIn) (ra rb : Nat) : Acc × Flg :=
  let (b, fl) := forCells ra rb (fun (r : Acc × Flg) i j =>
    let (re, im, f) := mmaCf m i j m.k 0 (r.1.get i (2 * j), r.1.get i (2 * j + 1), 0)
    ((r.1.put i (2 * j) re).put i (2 * j + 1) im, r.2 ||| f)) (a, 0)
  ({ b with form := true, dep := (if a.form then a.dep else 0) + m.k * 4 }, fl)

/-! ## Words on accumulators (R247, R248) -/

/-- Set every element to +0 and discard any open block. -/
def Acc.zero (a : Acc) : Acc := { a with elems := [], blk := none, kpos := 0, bad := [], badParts := [] }

/-- mscl of one element. -/
def msclElem (x : Nat) (e : Int) : Nat × Flg :=
  match fpVal 1 x with
  | .fin s m k => if m = 0 then (x, 0) else roundFp 1 0 s m (k + e)
  | _ => (x, 0)

/-- mscl acts on the elements that are listed; +0 scales to +0. -/
def Acc.scl (a : Acc) (e : Int) : Acc × Flg :=
  a.elems.foldl (fun (r : Acc × Flg) c =>
    let (v, f) := msclElem c.2.toNat e
    ({ r.1 with elems := tblSet 0 r.1.elems c.1 (BitVec.ofNat 32 v) }, r.2 ||| f)) (a, 0)

/-- madd. -/
def Acc.add (a b : Acc) : Acc × Flg :=
  let ks := (a.elems.map (·.1)) ++ (b.elems.map (·.1)).filter fun k => (tblFind a.elems k).isNone
  let (r, fl) := ks.foldl (fun (r : Acc × Flg) k =>
    let (v, f) := accAdd (tblGet 0 a.elems k).toNat (tblGet 0 b.elems k).toNat
    ({ r.1 with elems := tblSet 0 r.1.elems k (BitVec.ofNat 32 v) }, r.2 ||| f)) (a, 0)
  ({ r with form := true }, fl)

/-- mpre. -/
def Acc.pre (a : Acc) (t : Tile) (f : Fmt) (w rows row0 : Nat) (all : Bool) : Acc :=
  let k := rowElems f w
  let cv (p c : Nat) : Nat := (conv f 1 0 false (tileElem t f w p c).1).1
  let b :=
    if all then forCells (128 - row0) k (fun (r : Acc) i j => r.put (row0 + i) j (cv 0 j)) a
    else forCells rows k (fun (r : Acc) i j => r.put (row0 + i) j (cv i j)) a
  { b with form := true }

/-- The conversion of mrcv: tile bits row by row, flags. -/
def rcvRow (a : Acc) (f : Fmt) (mode : BitVec 4) (row col0 k : Nat) : Nat × Flg :=
  (upFrom 0 k).foldl (fun (r : Nat × Flg) c =>
    let (v, fl) := conv 1 f (modeR mode) (modeWrap mode) (a.get row (col0 + c))
    (r.1 + v <<< (packBits f * c), r.2 ||| fl)) (0, 0)

/-! ## Which word, with what it needs -/

/-- The accumulator that a word writes. -/
def mxWrites (o : MxOp) : Bool :=
  match o with
  | .mzero | .mma | .mmac | .mmat | .mman | .mscl | .mpre | .mret | .mrcv | .madd => true
  | _ => false

/-- Array cycles per K step (R242). -/
def mxFactor (f : Fmt) : Nat := if f = 8 ∨ f = 7 then 1 else if f = 6 then 2 else 4

def isProduct (o : MxOp) : Bool := o == .mma || o == .mmac || o == .mmat || o == .mman

/-- The duration of an issue (R242). -/
def mxDuration (o : MxOp) (f : Fmt) (a t : Nat × Nat) : Nat :=
  match o with
  | .mma | .mmat | .mman => rowElems f a.2 * mxFactor f + 8
  | .mmac => rowElems 9 a.2 * 4 + 8
  | .mzero | .mret => 8
  | .mscl | .madd => 32
  | .mpre | .mrcv => 40
  | .mtrn => 8 + ceilDiv (a.1 * a.2) 256
  | .mcpy => 8 + ceilDiv (a.1 * a.2) 1024
  | .mfil => 8 + ceilDiv (t.1 * t.2) 1024
  | .mswp => 2
  | .welt => 1

/-- Rows and row length of a tile. -/
def Tile.shape (t : Tile) : Nat × Nat := (t.nRows, t.nWidth)

/-- The tags that a word checks: formats against tags; none when every check passes. DESIGN CHOICE (log 107). -/
def mxTagsOk (o : MxOp) (f : Fmt) (a b t : Tile) : Bool :=
  match o with
  | .mma | .mmat | .mman | .mmac => tagPass f a.tag && tagPass f b.tag
  | .mpre => tagPass f t.tag
  | .mtrn => tagPass f a.tag
  | .mcpy => tagPass 0 a.tag
  | _ => true

/-- The first failing shape check (R252). -/
def mxShape (o : MxOp) (f : Fmt) (imm : Nat) (x y : Acc) (a b t : Nat × Nat) : Option Nat :=
  let k := rowElems f a.2
  let first (cs : List (Bool × Nat)) : Option Nat := (cs.find? (·.1)).map (·.2)
  match o with
  | .mma | .mmat | .mman | .mmac =>
    let kpos := x.kpos
    let dep := if x.form then x.dep else 0
    first
      [ (a.2 != b.2 || !wholeElems f a.2, 1),
        (decide (128 < a.1) || decide ((if o = .mmac then 128 else 256) < b.1), 2),
        (isBlock f && decide (512 < kpos + k), 3),
        ((match x.blk with
          | none => false
          | some bl => !isBlock f || bl.fmt != f || bl.ra != a.1 || bl.rb != b.1), 4),
        (decide (8192 < dep + k * mxFactor f), 5) ]
  | .mscl => first [(x.blk.isSome, 7)]
  | .madd => first [(x.blk.isSome || y.blk.isSome, 7)]
  | .mpre =>
    first
      [ (!wholeElems f t.2 || decide (256 < rowElems f t.2) || (!bit imm 7 && decide (128 < imm % 128 + t.1)), 6),
        (x.blk.isSome, 7) ]
  | .mrcv =>
    first
      [ (!wholeElems f t.2 || decide (128 < imm % 128 + t.1) ||
          decide (256 < 64 * fld imm 7 2 + rowElems f t.2), 6) ]
  | .mtrn =>
    let e := elemBytes f
    first [ (a.2 % e != 0 || t.1 != a.2 / e || t.2 != a.1 * e, 6) ]
  | .mcpy => first [(decide (t.1 * t.2 < a.1 * a.2), 6)]
  | _ => none

/-! ## Effects -/

/-- What an MX issue does to the owner state, given its shapes at issue, with its flags. DESIGN CHOICE (log 98).
DESIGN CHOICE (log 107). -/
def Own.mxEffect (w : Own) (o : MxOp) (p : MxFields) (mode : BitVec 4) (shA shB shT : Nat × Nat) : Own × Flg :=
  let n := if p.acc then 1 else 0
  let x := w.acc n
  let f : Fmt := p.md
  let imm := p.imm.toNat
  let ta := w.tile p.a.toNat
  let tb := w.tile p.b.toNat
  let tt := w.tile p.t.toNat
  let set (r : Acc × Flg) : Own × Flg := (w.setAcc n r.1, r.2)
  -- its window retires when the word finishes (R257)
  let retire (a : Acc) : Acc := { a with form := false, dep := 0 }
  let m : MmaIn :=
    { f := f, neg := o == .mman, k := rowElems f shA.2, kpos := x.kpos, wa := shA.2, wb := shB.2, a := ta, b := tb }
  match o with
  | .mzero => set ({ x.zero with form := true, dep := 0 }, 0)
  | .mma => set (x.mma m shA.1 shB.1 (mxFactor f) false)
  | .mman => set (x.mma m shA.1 shB.1 (mxFactor f) false)
  | .mmat => set (x.mma m shA.1 shB.1 (mxFactor f) true)
  | .mmac => set (x.mmac m shA.1 shB.1)
  | .mscl => set (x.scl (sintOf 8 imm))
  | .madd => set (x.add (w.acc (1 - n)))
  | .mpre => set (x.pre tt f shT.2 shT.1 (imm % 128) (bit imm 7), 0)
  | .mret =>
    let (a, fl) := x.closeOpen
    set (retire a, fl)
  | .mrcv =>
    let (a, fl) := x.closeOpen
    let w := w.setAcc n (retire a)
    let rows := (upFrom 0 shT.1).map fun row => rcvRow a f mode (imm % 128 + row) (64 * fld imm 7 2) (rowElems f shT.2)
    let t := tt.put 0 (rows.flatMap fun r => bytesLe shT.2 r.1)
    (w.setTile p.t.toNat { t with tag := f, scales := [], badScales := [] }, rows.foldl (fun f r => f ||| r.2) fl)
  | .mtrn =>
    let e := elemBytes f
    let t := tt.put 0 ((upFrom 0 shT.1).flatMap fun row =>
      (upFrom 0 shA.1).flatMap fun c => bytesLe e (tileElem ta f shA.2 c row).1)
    (w.setTile p.t.toNat { t with tag := f }, 0)
  | .mcpy =>
    let t := tt.put 0 ((upFrom 0 (shA.1 * shA.2)).map fun i => tblGet 0 ta.bytes i)
    (w.setTile p.t.toNat { t with scales := ta.scales, badScales := ta.badScales, tag := copiedTag ta.tag }, 0)
  | .mfil =>
    let t := tt.put 0 (List.replicate (shT.1 * shT.2) (BitVec.ofNat 8 imm))
    (w.setTile p.t.toNat { t with tag := f, scales := [], badScales := [] }, 0)
  | .mswp => ((w.setTile p.t.toNat ta).setTile p.a.toNat tt, 0)
  | .welt => (w, 0)

/-! ## Uncorrectable errors (R255, R256) -/

/-- Rows of a tile, up to `n`, whose elements or used scales are lost. -/
def badRows (t : Tile) (n w : Nat) (scales : List Nat) : List Nat :=
  if t.bad.isEmpty && t.badScales.isEmpty then []
  else
    (upFrom 0 n).filter fun i =>
      ((upFrom (i * w) w).any fun b => t.bad.contains (b / 8)) || scales.any fun h => t.scaleBad (2 * i + h)

/-- Scale slots that a word's blocks close or latch. -/
def usedScales (f : Fmt) (kpos k : Nat) : List Nat :=
  if isBlock f then (upFrom (kpos / 256) (ceilDiv (kpos + k) 256 - kpos / 256)).filter (· < 2) else []

/-- Element `e` belongs to the open block, whose closing reads it. -/
def Acc.closes (x : Acc) (e : Nat) : Bool :=
  match x.blk with
  | some b => decide (e / 256 < b.ra) && decide (e % 256 < b.rb)
  | none => false

/-- Elements of the accumulator written whose sum consumes lost data (R256). -/
def Own.mxLost (w : Own) (o : MxOp) (p : MxFields) (shA shB shT : Nat × Nat) : List Nat :=
  let n := if p.acc then 1 else 0
  let x := w.acc n
  let f : Fmt := p.md
  let k := rowElems f shA.2
  match o with
  | .mma | .mman | .mmat | .mmac =>
    let s := usedScales f x.kpos k
    let ra := badRows (w.tile p.a.toNat) shA.1 shA.2 s
    let rb := badRows (w.tile p.b.toNat) shB.1 shB.2 s
    let cols := if o = .mmac then 2 * shB.1 else shB.1
    -- the elements themselves are read where the issue adds to them
    let adds := !isBlock f || decide (256 ≤ x.kpos + k) || o == .mmat
    let bad := x.badParts ++ if adds then x.bad else []
    if ra.isEmpty && rb.isEmpty && bad.isEmpty then []
    else
      (upFrom 0 shA.1).flatMap fun i =>
        (upFrom 0 cols).filterMap fun j =>
          let e := 256 * i + j
          let jb := if o = .mmac then j / 2 else j
          if ra.contains i || rb.contains jb || bad.contains e then some e else none
  | .mscl => x.bad
  | .madd => x.bad ++ ((w.acc (1 - n)).bad.filter fun e => !x.bad.contains e)
  | .mret => (x.badParts ++ x.bad.filter fun e => !x.badParts.contains e).filter x.closes
  | .mrcv =>
    let i := p.imm.toNat
    let ks := rowElems f shT.2
    let read (e : Nat) : Bool :=
      decide (i % 128 ≤ e / 256) && decide (e / 256 < i % 128 + shT.1) &&
        decide (64 * fld i 7 2 ≤ e % 256) && decide (e % 256 < 64 * fld i 7 2 + ks)
    x.badParts.filter x.closes ++ x.bad.filter fun e => !(x.badParts.contains e && x.closes e) && (x.closes e || read e)
  | .mpre =>
    let rb := badRows (w.tile p.t.toNat) (if bit p.imm.toNat 7 then 1 else shT.1) shT.2 []
    let r0 := p.imm.toNat % 128
    let ks := rowElems f shT.2
    if rb.isEmpty then []
    else
      let rows := if bit p.imm.toNat 7 then upFrom r0 (128 - r0) else rb.map (r0 + ·)
      rows.flatMap fun i => (upFrom 0 ks).filterMap fun j =>
        let src := if bit p.imm.toNat 7 then 0 else i - r0
        if (tileElem (w.tile p.t.toNat) f shT.2 src j).2 then some (256 * i + j) else none
  | _ => []

/-- Set elements to the canonical quiet NaN before the word forms its sums, so that they end as NaN. An error has then struck
the accumulator since its last retirement. -/
def Acc.drop (a : Acc) (es : List Nat) : Acc :=
  { a with
    struck := true
    elems := es.foldl (fun t e => tblSet 0 t e (BitVec.ofNat 32 (qnan 1))) a.elems
    bad := a.bad.filter fun e => !es.contains e
    badParts := a.badParts.filter fun e => !es.contains e }

/-- Lost elements of the source of a tile-only word, in the destination. -/
def Own.mxTileLost (w : Own) (o : MxOp) (p : MxFields) (shA : Nat × Nat) : List (Nat × Nat) :=
  let t := w.tile p.a.toNat
  if t.bad.isEmpty then []
  else
    let f : Fmt := if o = .mcpy then t.tag else p.md
    match o with
    | .mtrn | .mcpy =>
      (upFrom 0 shA.1).flatMap fun r => (upFrom 0 (rowElems f shA.2)).filterMap fun e =>
        if (tileElem t f shA.2 r e).2 then some (r, e) else none
    | _ => []

/-- Write an element of a tile. -/
def Tile.putElem (t : Tile) (f : Fmt) (w row e v : Nat) : Tile :=
  let b := packBits f
  let bit0 := 8 * (row * w) + b * e
  let lo := bit0 / 8
  let n := (bit0 + b - 1) / 8 - lo + 1
  let old := ofBytesLe ((upFrom lo n).map fun i => tblGet 0 t.bytes i)
  let sh := bit0 - 8 * lo
  { t with bytes := tblSetRange 0 t.bytes lo (bytesLe n (putFld old sh b v)) }

/-- Count dropped elements and set POISON (R256). -/
def State.mxDropped (s : State) (c ctx n : Nat) : State :=
  if n = 0 then s
  else (s.flag c ctx flPoison).modCore c fun k => { k with mxDrop := satAdd k.mxDrop n (2 ^ 32 - 1) }

/-- The effects of an MX issue, with lost elements as R256 gives. -/
def State.mxApply (s : State) (c ctx : Nat) (o : MxOp) (p : MxFields) (mode : BitVec 4)
    (shA shB shT : Nat × Nat) : State :=
  let w := s.own c
  let n := if p.acc then 1 else 0
  let lost := w.mxLost o p shA shB shT
  let w := if lost.isEmpty then w else w.setAcc n ((w.acc n).drop lost)
  let tl := w.mxTileLost o p shA
  let (w', fl) := w.mxEffect o p mode shA shB shT
  -- mpre overwrites: its lost elements are set after it
  let w' := if o = .mpre ∧ !lost.isEmpty then w'.setAcc n ((w'.acc n).drop lost) else w'
  let f : Fmt := if o = .mcpy then (w.tile p.a.toNat).tag else p.md
  let w' :=
    if tl.isEmpty then w'
    else
      let t := tl.foldl (fun (t : Tile) e =>
        if o = .mtrn then t.putElem f shT.2 e.2 e.1 (voidOf f) else t.putElem f shA.2 e.1 e.2 (voidOf f))
        (w'.tile p.t.toNat)
      w'.setTile p.t.toNat t
  -- lost scale bytes that mcpy carries are void (19_faults.md R352)
  let sb := if o = .mcpy then (w.tile p.a.toNat).badScales else []
  let w' :=
    if sb.isEmpty then w'
    else
      let t := w'.tile p.t.toNat
      w'.setTile p.t.toNat
        { t with badScales := [], scales := sb.foldl (fun q u => tblSetRange 0 q (8 * u) (List.replicate 8 0x80)) t.scales }
  let s := (s.modOwn c fun _ => w').flag c ctx fl
  s.mxDropped c ctx (lost.length + tl.length + 8 * sb.length)

/-! ## Issue -/

/-- mzero, or an mpre that writes every element (R255). -/
def overwritesAll (o : MxOp) (p : MxFields) (shT : Nat × Nat) : Bool :=
  o == .mzero ||
    (o == .mpre && p.imm.toNat % 128 == 0 && rowElems p.md shT.2 == 256 && (bit p.imm.toNat 7 || shT.1 == 128))

/-- An issue of a word that writes accumulator `n`, the first of the word or not; one that does not fault opens a window that has to
retire (14_consistency.md R305). -/
def Stage.writeIssued (g : Stage) (n : Nat) (first writes : Bool) : Stage :=
  { g with
    writes := if first then g.writes - 1 else g.writes
    accs := if writes && !g.accs.contains n then n :: g.accs else g.accs }

/-- One issue of an MX word (R242, R251): tags and shapes are checked and fixed; the effects come at its
end. DEDUCED (log 39). -/
def State.issueMx (s : State) (c : Nat) (o : MxOp) (f : Frame) (p : MxFields) : State :=
  match s.beginIssue c .mx with
  | none => s
  | some (i, s) =>
    let w := s.own c
    let n := if p.acc then 1 else 0
    let ta := w.tile p.a.toNat
    let tb := w.tile p.b.toNat
    let tt := w.tile p.t.toNat
    let fm : Fmt := p.md
    let tagsOk := mxTagsOk o fm ta tb tt
    let strict := !modeCount i.entry.mode
    let shape := mxShape o fm p.imm.toNat (w.acc n) (w.acc (1 - n)) ta.shape tb.shape tt.shape
    let fault : Option (BitVec 8 × Nat) :=
      if !tagsOk && strict then some (0x02, 0) else shape.map fun k => (0x04, k)
    let s := if !tagsOk && !strict then s.flag c i.entry.ctx flFmism else s
    let s := match fault with
      | some (cause, sub) => s.wordFault c i.live cause (s.issueStatus c i.live sub i.issue) 0
      | none => s
    let writes := mxWrites o && fault.isNone
    let run : MxRun :=
      { instr := o.toInstr f p, live := i.live, issue := i.issue, start := i.t
        dur := mxDuration o fm ta.shape tt.shape, mode := i.entry.mode, ctx := i.entry.ctx, serial := i.live
        shA := ta.shape, shB := tb.shape, shT := tt.shape, fault := fault.isSome, replayed := false }
    s.modCore c fun k =>
      let own := { (k.own.pend i.live) with mx := some run }
      let a := own.acc n
      let a :=
        if o = .welt then
          { a with welt := some { word := i.live, form := a.form, dep := a.dep, hadOpen := a.blk.isSome, restorable := none } }
        else if writes then
          { a with welt := a.welt.map fun g =>
              if g.restorable.isNone then { g with restorable := some (!g.hadOpen && overwritesAll o p tt.shape) } else g }
        else a
      { k with
        own :=
          if (o = .mret ∨ o = .mrcv) ∧ fault.isNone then (own.setAcc n a).modLive i.live fun w => { w with retires := some n }
          else own.setAcc n a
        stages :=
          if mxWrites o then k.stages.map fun g =>
            if g.order = i.entry.order then g.writeIssued n (decide (i.issue = 0)) writes else g
          else k.stages }

/-! ## The end of an issue, and replay -/

/-- The words that a replay re-executes: from the welt to the word that met the error, each with its
issues, those that write the accumulator (R255 step 2). -/
def Own.replayWords (o : Own) (n : Nat) (run : MxRun) (g : Welt) : List (MxOp × MxFields × BitVec 4) :=
  let ws := tblGet [] o.win 2
  let ws := ws.dropWhile fun r => r.serial != g.word
  ws.flatMap fun r =>
    match (decodeWord .mx r.word).mx? with
    | some (op, _, p) =>
      if mxWrites op && (if p.acc then 1 else 0) == n then
        List.replicate (if r.serial = run.serial then run.issue + 1 else r.issues) (op, p, r.mode)
      else []
    | none => []

/-- The welt that an error in an issue may replay from. -/
def Own.replayFrom (o : Own) (n : Nat) : Option Welt :=
  let a := o.acc n
  match a.welt with
  | some g =>
    if !a.struck && g.restorable == some true && ((tblGet [] o.win 2).any fun r => r.serial == g.word) then some g
    else none
  | none => none

/-- The issue in progress meets lost data on its way into an accumulator. -/
def Own.mxStruck (o : Own) (run : MxRun) : Bool :=
  match run.instr.mx? with
  | some (op, _, p) => !run.fault && mxWrites op && !(o.mxLost op p run.shA run.shB run.shT).isEmpty
  | none => false

/-- Replay one word on the state as it stands (R255). -/
def State.mxRedo (s : State) (c ctx : Nat) (x : MxOp × MxFields × BitVec 4) : State :=
  let (op, p, mode) := x
  let w := s.own c
  let n := if p.acc then 1 else 0
  let ta := w.tile p.a.toNat
  let tb := w.tile p.b.toNat
  let tt := w.tile p.t.toNat
  if (!mxTagsOk op p.md ta tb tt && !modeCount mode) ||
      (mxShape op p.md p.imm.toNat (w.acc n) (w.acc (1 - n)) ta.shape tb.shape tt.shape).isSome then s
  else s.mxApply c ctx op p mode ta.shape tb.shape tt.shape

/-- A tile whose rows have been read with an error: the reads of a replay find it no more (DEDUCED, log 97). -/
def Tile.healed (t : Tile) (rows w : Nat) (scales : List Nat) : Tile :=
  { t with
    bad := t.bad.filter fun u => decide (rows * w ≤ 8 * u)
    badScales := t.badScales.filter fun u =>
      !((upFrom 0 rows).any fun i => scales.any fun h => (2 * i + h) / 8 == u) }

/-- The sources of an issue that has met an error and is replayed. DEDUCED (log 97). -/
def Own.healed (o : Own) (run : MxRun) : Own :=
  match run.instr.mx? with
  | some (op, _, p) =>
    if isProduct op then
      let sc := usedScales p.md (o.acc (if p.acc then 1 else 0)).kpos (rowElems p.md run.shA.2)
      let o := o.setTile p.a.toNat ((o.tile p.a.toNat).healed run.shA.1 run.shA.2 sc)
      o.setTile p.b.toNat ((o.tile p.b.toNat).healed run.shB.1 run.shB.2 sc)
    else if op = .mpre then
      o.setTile p.t.toNat ((o.tile p.t.toNat).healed (if bit p.imm.toNat 7 then 1 else run.shT.1) run.shT.2 [])
    else if op = .madd then
      let m := if p.acc then 0 else 1
      o.setAcc m { o.acc m with bad := [] }
    else o
  | none => o

/-- The replay of R255: the issue's work is discarded, the accumulator goes back to its welt, and the
issue's end moves by the replay's duration. -/
def State.mxReplayStart (s : State) (c : Nat) : State :=
  let w := s.own c
  match w.mx with
  | none => s
  | some run =>
    match run.instr.mx? with
    | none => s
    | some (_, _, p) =>
      let n := if p.acc then 1 else 0
      match w.replayFrom n with
      | none => s
      | some g =>
        if !w.mxStruck run || run.replayed || run.start + run.dur != w.sigma + 1 then s
        else
          let words := w.replayWords n run g
          let dur := (words.map fun x =>
            mxDuration x.1 x.2.1.md (w.tile x.2.1.a.toNat).shape (w.tile x.2.1.t.toNat).shape).foldl (· + ·) 0
          s.modCore c fun k =>
            let o := k.own.healed run
            let a := o.acc n
            { k with
              mxReplay := satAdd k.mxReplay 1 (2 ^ 32 - 1)
              own := { o.setAcc n { a.zero with form := g.form, dep := g.dep, struck := true } with
                mx := some { run with replayed := true, dur := run.dur + dur } } }

/-- The end of an issue in progress. DEDUCED (log 39). -/
def State.mxEnd (s : State) (c : Nat) : State :=
  let w := s.own c
  match w.mx with
  | none => s
  | some run =>
    if w.sigma + 1 < run.start + run.dur then s
    else
      match run.instr.mx? with
      | none => s
      | some (op, _, p) =>
        let n := if p.acc then 1 else 0
        if w.mxStruck run && !run.replayed && (w.replayFrom n).isSome then s
        else
          let s :=
            if run.fault then s
            else if run.replayed then
              match (w.acc n).welt with
              | some g => (w.replayWords n run g).foldl (fun s x => s.mxRedo c run.ctx x) s
              | none => s
            else s.mxApply c run.ctx op p run.mode run.shA run.shB run.shT
          let gone := (s.own c).liveWord run.live |>.isNone
          s.modOwn c fun o =>
            let o := { (o.settleIssue run.live) with mx := none }
            -- an abandonment leaves no block, count or window behind (19_faults.md R345)
            if gone then
              { o with
                accs := (upFrom 0 2).foldl (fun t i => tblSet Acc.reset t i (tblGet Acc.reset o.accs i).abandon) o.accs
                mxAtPoint := false, mxUsed := false }
            else o

/-- A replay is due at this end of an issue. -/
def CoreSt.replayDue (k : CoreSt) : Bool :=
  match k.own.mx with
  | some run =>
    run.start + run.dur == k.own.sigma + 1 && k.own.mxStruck run && !run.replayed &&
      (match run.instr.mx? with
       | some (_, _, p) => (k.own.replayFrom (if p.acc then 1 else 0)).isSome
       | none => false)
  | none => false

/-! ## Meanings -/

def execMxIssueEnd (c : Nat) (s : State) : Host.Outcome State Fault Refusal := .next (s.mxEnd c)
def execMxReplay (c : Nat) (s : State) : Host.Outcome State Fault Refusal := .next (s.mxReplayStart c)

/-- Run an MX issue for the agent whose word it is. -/
def asMx (o : MxOp) (f : Frame) (p : MxFields) (s : State) : Host.Outcome State Fault Refusal :=
  match s.at_ with
  | .engine c .mx => .next (s.issueMx c o f p)
  | _ => .fault .noAgent

/-- R247. mzero clears an accumulator and any open block. -/
def execMxMzero (f : Frame) (p : MxFields) (s : State) : Host.Outcome State Fault Refusal :=
  asMx .mzero f p s
/-- R245. mma adds the row products of two tiles into an accumulator. -/
def execMxMma (f : Frame) (p : MxFields) (s : State) : Host.Outcome State Fault Refusal :=
  asMx .mma f p s
/-- R246. mmac adds complex CF16 products. -/
def execMxMmac (f : Frame) (p : MxFields) (s : State) : Host.Outcome State Fault Refusal :=
  asMx .mmac f p s
/-- R245. mmat adds products and then closes the open block. -/
def execMxMmat (f : Frame) (p : MxFields) (s : State) : Host.Outcome State Fault Refusal :=
  asMx .mmat f p s
/-- R245. mman subtracts the row products. -/
def execMxMman (f : Frame) (p : MxFields) (s : State) : Host.Outcome State Fault Refusal :=
  asMx .mman f p s
/-- R248. mscl scales an accumulator by 2^e. -/
def execMxMscl (f : Frame) (p : MxFields) (s : State) : Host.Outcome State Fault Refusal :=
  asMx .mscl f p s
/-- R248. mpre preloads accumulator rows from a tile. -/
def execMxMpre (f : Frame) (p : MxFields) (s : State) : Host.Outcome State Fault Refusal :=
  asMx .mpre f p s
/-- R249. mtrn transposes one tile into another. -/
def execMxMtrn (f : Frame) (p : MxFields) (s : State) : Host.Outcome State Fault Refusal :=
  asMx .mtrn f p s
/-- R249. mcpy copies one tile into another. -/
def execMxMcpy (f : Frame) (p : MxFields) (s : State) : Host.Outcome State Fault Refusal :=
  asMx .mcpy f p s
/-- R249. mfil fills a tile with a byte. -/
def execMxMfil (f : Frame) (p : MxFields) (s : State) : Host.Outcome State Fault Refusal :=
  asMx .mfil f p s
/-- R248. mret closes any open block and retires the accumulator and its window. -/
def execMxMret (f : Frame) (p : MxFields) (s : State) : Host.Outcome State Fault Refusal :=
  asMx .mret f p s
/-- R248. mrcv retires the accumulator and converts part of it into a tile. -/
def execMxMrcv (f : Frame) (p : MxFields) (s : State) : Host.Outcome State Fault Refusal :=
  asMx .mrcv f p s
/-- R249. mswp exchanges the storage, scales and shapes of two tiles. -/
def execMxMswp (f : Frame) (p : MxFields) (s : State) : Host.Outcome State Fault Refusal :=
  asMx .mswp f p s
/-- R248. madd adds the other accumulator into this one. -/
def execMxMadd (f : Frame) (p : MxFields) (s : State) : Host.Outcome State Fault Refusal :=
  asMx .madd f p s
/-- R250. welt marks the accumulator's tile-start point for replay. -/
def execMxWelt (f : Frame) (p : MxFields) (s : State) : Host.Outcome State Fault Refusal :=
  asMx .welt f p s

end Sys2Proof.Machine
end

