-- ==== Sys2Proof/Machine/Jobs.lean ====
section
/-! DEFINITION. Job cards, the footprints of jobs and the edges between them (05_bank_units.md R111, R119;
06_copy_scratchpad.md R143 to R149; 14_consistency.md R303 to R305). -/
namespace Sys2Proof.Machine

/-! ## The card (05 R111, 06 R143) -/

/-- A field of a card word. -/
def Job.w (j : Job) (i lo n : Nat) : Nat := fld (j.c.getD i 0).toNat lo n

def Job.bank (j : Job) : Bool := cpIsBank j.op
/-- A row-0x0 word with a push bit waits for its jobs (06 R150). -/
def Job.push (j : Job) : Bool := !j.bank && (j.lw.hl || j.lw.hr)
def Job.src (j : Job) : Nat := j.w 0 0 52
/-- DEDUCED (log 44). -/
def Job.dst (j : Job) : Nat := j.w 1 0 52
def Job.ssp (j : Job) : Nat := j.w 2 32 4
def Job.dsp (j : Job) : Nat := j.w 2 36 4
/-- LEN, or RLEN. -/
def Job.len (j : Job) : Nat := j.w 2 0 32 + 1
/-- Rows of GATH and SCAT. -/
def Job.count (j : Job) : Nat := j.w 4 32 16 + 1
def Job.stride (j : Job) : Nat := j.w 5 0 32
/-- IADDR, OPADDR and XADDR. -/
def Job.inAddr (j : Job) : Nat := j.w 4 0 19
def Job.xsAddr (j : Job) : Nat := j.w 4 32 19
def Job.dcore (j : Job) : Nat := j.w 3 32 9
/-- YADDR and RETADDR. -/
def Job.ret (j : Job) : Nat := j.w 3 0 19
def Job.rows (j : Job) : Nat := j.w 2 48 16 + 1
def Job.rstr (j : Job) : Nat := j.w 2 24 20
def Job.k (j : Job) : Nat := j.w 2 0 20 + 1
def Job.nb (j : Job) : Nat := ceilDiv j.k 256
def Job.sstr (j : Job) : Nat := j.w 5 0 20
/-- LEN of BQRY. -/
def Job.qlen (j : Job) : Nat := j.w 1 0 52

/-- AOP, number of elements and NORET of RAMO and BATOM. -/
def Job.aop (j : Job) : Nat := if j.op = .ramo then j.w 2 40 4 else j.w 2 36 4
def Job.elems (j : Job) : Nat := if j.op = .ramo then j.w 2 0 16 + 1 else j.rows
def Job.noret (j : Job) : Bool := if j.op = .ramo then j.w 2 44 1 == 1 else j.w 2 40 1 == 1
def Job.atomic (j : Job) : Bool := j.op == .ramo || j.op == .batom
def Job.e (j : Job) : Nat := atomicSize j.aop
/-- Bytes of operands: CAS.D brings its new values behind its compare values (05 R120). -/
def Job.opBytes (j : Job) : Nat := j.elems * j.e * (if j.aop = 12 then 2 else 1)

/-- The weight format of a last code: format, record size, records of a strip (05 R107). -/
def rowFormat (code : Nat) : Fmt × Nat × Nat :=
  match code with
  | 1 => (8, 192, 21)
  | 2 => (7, 128, 32)
  | 3 => (6, 256, 16)
  | _ => (2, 512, 8)

def Job.fmt (j : Job) : Fmt := (rowFormat j.code).1
/-- Bytes of a record. -/
def Job.recSize (j : Job) : Nat := (rowFormat j.code).2.1
/-- DVA of record `n`. -/
def Job.recAt (j : Job) (n : Nat) : Nat :=
  let rps := (rowFormat j.code).2.2
  j.src + n / rps * 4096 + n % rps * j.recSize

/-- A gating card word (06 R143, R148). -/
def Job.ge (j : Job) : Bool := !j.bank && j.w 6 63 1 == 1

/-- Index of row `i` of GATH and SCAT. -/
def Job.idx (j : Job) (i : Nat) : Nat := ofBytesLe ((j.inp2.drop (4 * i)).take 4)

/-- Operand of an element, and the new value of CAS.D. -/
def Job.operand (j : Job) (i : Nat) : Nat := ofBytesLe ((j.inp.drop (i * j.e)).take j.e)
def Job.newVal (j : Job) (i : Nat) : Nat := ofBytesLe ((j.inp.drop (8 * j.elems + 8 * i)).take 8)

/-! ## Outputs -/

/-- The destinations of a job on core `me`: a core, 512 for device memory, 513 for the weight store. -/
def Job.dests (j : Job) (me : Nat) : List Nat :=
  match j.op with
  | .copy | .fill | .scat => [if j.dsp = 0 then 512 else if j.dsp = 1 then me else j.dcore]
  | .rcopy => [j.dcore]
  | .wswr => [513]
  | .bcast => ((upFrom 0 16).filter fun i => j.w 3 (48 + i) 1 == 1).map fun i => 16 * j.w 3 40 5 + i
  | .gath => [me]
  | .ramo => if j.noret then [] else [me]
  | .batom => if j.noret then [] else [j.dcore]
  | _ => [j.dcore]

/-- Output bytes of a job. -/
def Job.total (j : Job) : Nat :=
  match j.op with
  | .gath | .scat => j.count * j.len
  | .ramo | .batom => if j.noret then 0 else j.elems * j.e
  | .bgemv | .bgemva => 4 * j.rows
  | .bqry => 64
  | _ => j.len

/-- Address of output byte `i` at its destination. -/
def Job.outAt (j : Job) (i : Nat) : Nat :=
  match j.op with
  | .scat => j.dst + j.idx (i / j.len) * j.stride + i % j.len
  | .ramo | .batom | .bgemv | .bgemva | .bqry => j.ret + i
  | _ => j.dst + i

/-- Output bytes from `i` on that lie one behind another. -/
def Job.outRun (j : Job) (i : Nat) : Nat :=
  if j.op = .scat then j.len - i % j.len else j.total - i

/-- Address of source byte `i` of a copying word, and the bytes from it on that lie one behind another. -/
def Job.srcAt (j : Job) (i : Nat) : Nat :=
  if j.op = .gath then j.src + j.idx (i / j.len) * j.stride + i % j.len else j.src + i
def Job.srcRun (j : Job) (i : Nat) : Nat := if j.op = .gath then j.len - i % j.len else j.total - i

/-- The word reads its output bytes from a source. -/
def Job.copies (j : Job) : Bool :=
  match j.op with
  | .copy | .rcopy | .wswr | .bcast | .gath | .scat => true
  | _ => false

/-- Output bytes known so far. -/
def Job.prod (j : Job) : Nat := j.lo + j.buf.length

/-- The distance at which an overlapping COPY reads what it has written; 0 where it does not (06 R145). -/
def Job.lag (j : Job) : Nat :=
  if j.op = .copy ∧ j.ssp = j.dsp ∧ j.src < j.dst ∧ j.dst < j.src + j.len then j.dst - j.src else 0

/-- The job has delivered all it delivers, and performed all it performs. -/
def Job.allDone (j : Job) (me : Nat) : Bool :=
  (!j.atomic || decide (j.elems ≤ j.acts)) && (j.dests me).all fun d => decide (j.total ≤ tblGet 0 j.land d)

/-! ## Footprints (05 R119, 06 R149) -/

/-- A range at a destination. -/
def destRange (me d lo n : Nat) : Range :=
  if d = 512 then { space := 0, who := 0, lo := lo, len := n }
  else if d = 513 then { space := 2, who := dieOf me, lo := lo, len := n }
  else { space := 1, who := d, lo := lo, len := n }

def Range.meets (a b : Range) : Bool :=
  a.space == b.space && a.who == b.who && overlaps a.lo a.len b.lo b.len

/-- Ranges of contiguous output bytes from `i` on, in at most `n` pieces. -/
def Job.outRanges (j : Job) (me d : Nat) : Nat → Nat → List Range
  | 0, _ => []
  | n + 1, i =>
    if j.total ≤ i then []
    else
      let r := j.outRun i
      destRange me d (j.outAt i) r :: j.outRanges me d n (i + r)

/-- Ranges of contiguous source bytes from `i` on. -/
def Job.srcRanges (j : Job) (me : Nat) : Nat → Nat → List Range
  | 0, _ => []
  | n + 1, i =>
    if j.total ≤ i then []
    else
      let r := j.srcRun i
      { space := if j.ssp = 0 then 0 else 1, who := if j.ssp = 0 then 0 else me, lo := j.srcAt i, len := r } ::
        j.srcRanges me n (i + r)

/-- Pieces that the outputs or the source of a job can have. -/
def Job.pieceCount (j : Job) : Nat := if j.op = .gath ∨ j.op = .scat then j.count + 1 else 1

/-- Targets of atomics from element `i` on. Device memory of a bank job is a space of its own, since no edge
links it with a row-0x0 job (14 R304). -/
def Job.targets (j : Job) (i : Nat) : List Range :=
  if i < j.elems then
    match j.op with
    | .ramo => [{ space := 1, who := j.dcore, lo := j.w 0 0 19 + i * j.e, len := (j.elems - i) * j.e }]
    | .batom => [{ space := 3, who := 0, lo := j.src + i * j.e, len := (j.elems - i) * j.e }]
    | _ => []
  else []

def Job.c7 (j : Job) (me : Nat) : Range := { space := 1, who := me, lo := j.card + 56, len := 8 }

/-- The weight span and the scale span of a bank product (05 R113). -/
def Job.weightLen (j : Job) : Nat :=
  if 1 ≤ j.code ∧ j.code ≤ 4 then j.recAt ((j.rows - 1) * j.rstr + j.nb - 1) + j.recSize - j.src else 1
def Job.scaleLen (j : Job) : Nat :=
  if j.scode = 6 then (j.rows - 1) * j.sstr + j.nb
  else if j.scode = 7 then (j.nb - 1) * j.sstr + j.rows
  else 1
def Job.scaled (j : Job) : Bool := decide (1 ≤ j.code) && decide (j.code ≤ 3)

/-- What a launched job has still to write. -/
def Job.writesLeft (j : Job) (me : Nat) : List Range :=
  ((j.dests me).flatMap fun d => j.outRanges me d j.pieceCount (tblGet 0 j.land d)) ++
    (if j.atomic then j.targets j.acts else []) ++ [j.c7 me]

/-- What is left of a range without `n` bytes at `lo`. -/
def Range.without (r : Range) (lo n : Nat) : List Range :=
  if overlaps r.lo r.len lo n then
    (if r.lo < lo then [{ r with len := lo - r.lo }] else []) ++
      (if lo + n < r.lo + r.len then [{ r with lo := lo + n, len := r.lo + r.len - (lo + n) }] else [])
  else [r]

/-- What a launched job has still to read: its regions without the pieces that it has read (14 R304). DEDUCED (log 51). -/
def Job.readsLeft (j : Job) (me : Nat) : List Range :=
  match j.op with
  | .copy | .rcopy | .wswr | .bcast | .gath | .scat =>
    j.pieces.foldl (fun rs p => rs.flatMap fun r => r.without (j.srcAt p.1) p.2.length) (j.srcRanges me j.pieceCount j.prod)
  | .bgemv | .bgemva =>
    if j.acts < j.rows * j.nb then
      j.pieces.foldl (fun rs p => rs.flatMap fun r => r.without (64 * p.1) 64)
        (({ space := 3, who := 0, lo := j.src, len := j.weightLen } : Range) ::
          (if j.scaled then [{ space := 3, who := 0, lo := j.dst, len := j.scaleLen }] else []))
    else []
  | _ => []

/-- No earlier job holds a read of a range (14 R304). DEDUCED (log 51). -/
def CoreSt.mayRead (k : CoreSt) (me : Nat) (j : Job) (r : Range) : Bool :=
  k.jobs.all fun e => decide (j.id ≤ e.id) || !(e.writesLeft me).any r.meets

/-- No earlier job and no stage set holds a write of a range (14 R304, R305). DEDUCED (log 51). -/
def CoreSt.mayWrite (k : CoreSt) (me : Nat) (j : Job) (r : Range) : Bool :=
  (k.jobs.all fun e =>
    decide (j.id ≤ e.id) || !((e.writesLeft me).any r.meets || (e.readsLeft me).any r.meets)) &&
  (k.stages.all fun g =>
    decide (j.order ≤ g.order) ||
      !(r.space == 1 && r.who == me && g.tiles.any fun t => t.held.any fun q => overlaps r.lo r.len q.1 q.2))

/-! ## Channels (06 R135, R140; 05 R117) -/

/-- The core whose channel a destination counts on. -/
def chanCore (me d : Nat) : Nat := if d < 512 then d else me

/-- An earlier job of the core on the same channel has something outstanding at a destination. -/
def CoreSt.chanBusy (k : CoreSt) (me : Nat) (j : Job) (d : Nat) : Bool :=
  k.jobs.any fun e =>
    decide (e.id < j.id) && e.ch == j.ch &&
      ((e.dests me).any (fun x => chanCore me x == chanCore me d && decide (tblGet 0 e.land x < e.total)) ||
        (e.op == .ramo && e.dcore == d && d != me && decide (e.acts < e.elems)))

/-- The channel of a destination is free for a job, or its own. -/
def State.chanFree (s : State) (me : Nat) (j : Job) (d : Nat) : Bool :=
  s.chanLock.all fun l => !(l.1 == chanCore me d && l.2.1 == j.ch) || (l.2.2.1 == me && l.2.2.2 == j.id)

/-- DEDUCED (log 54). -/
def State.chanTake (s : State) (me : Nat) (j : Job) (d : Nat) : State :=
  let l := (chanCore me d, j.ch, me, j.id)
  if s.chanLock.contains l then s else { s with chanLock := s.chanLock ++ [l] }

/-- The job's turn on a channel ends with its last byte. DEDUCED (log 54). -/
def State.chanRelease (s : State) (me : Nat) (j : Job) (d : Nat) : State :=
  { s with chanLock := s.chanLock.filter (· != (chanCore me d, j.ch, me, j.id)) }

/-! ## Banks (06 R133) -/

/-- Banks that LD and ST accesses or transfer beats ask for in the coming cycle. -/
def CoreSt.wantedBanks (k : CoreSt) : List Nat :=
  let asks := match k.stall with | none => true | some st => st.causes.contains .bank
  if asks then
    k.asking.flatMap (·.banks) ++
      [Engine.ld, .st].flatMap fun e =>
        match k.own.head e with
        | some x => if x.due k then x.banks else []
        | none => []
  else []

/-- The banks of a range can be taken below LD and ST priority. -/
def CoreSt.banksFree (k : CoreSt) (a n : Nat) : Bool :=
  let used := k.heldBanks ++ k.wantedBanks
  (banksOf a n).all fun b => !used.contains b

/-- Hold the banks of a range for a number of cycles. -/
def CoreSt.holdBanks (k : CoreSt) (a n cycles : Nat) : CoreSt :=
  { k with bursts := k.bursts ++ [{ banks := banksOf a n, until_ := k.p + cycles }] }

/-- Beats of a burst over a range. -/
def beatsOf (a n : Nat) : Nat := (a + n - 1) / 128 - a / 128 + 1

/-! ## Changing jobs -/

def CoreSt.job (k : CoreSt) (id : Nat) : Option Job := k.jobs.find? fun j => j.id == id

def CoreSt.modJob (k : CoreSt) (id : Nat) (f : Job → Job) : CoreSt :=
  { k with jobs := k.jobs.map fun j => if j.id = id then f j else j }

def State.modJob (s : State) (c id : Nat) (f : Job → Job) : State := s.modCore c fun k => k.modJob id f

/-- A flag of a job goes to the context that issued it while its task has not ended (02_numbers.md R52). -/
def State.jobFlag (s : State) (c : Nat) (j : Job) (f : Flg) : State :=
  if (s.ctx c j.ctx).live && (s.ctx c j.ctx).task == j.task then s.flag c j.ctx f else s

/-- At least one value of the job is poisoned. -/
def State.jobPoison (s : State) (c : Nat) (j : Job) : State :=
  (s.modJob c j.id fun x => { x with poison := true }).jobFlag c j flPoison

/-- Detect a fault of the word of a job; one record a word (19_faults.md R336). -/
def State.jobFault (s : State) (c : Nat) (j : Job) (cause : BitVec 8) (status : BitVec 32) (addr : Nat) : State :=
  let lw := (((s.core c).job j.id).map (·.lw)).getD j.lw
  if lw.faulted || !((s.ctx c j.ctx).live && (s.ctx c j.ctx).task == j.task) then s
  else
    (s.engFault c lw cause status (BitVec.ofNat 64 addr)).modCore c fun k =>
      { k with jobs := k.jobs.map fun x =>
          if x.lw.id = lw.id then { x with lw := { x.lw with faulted := true } } else x }

/-- A read of a job in pending-bit mode (06 R142). -/
def State.jobPending (s : State) (c : Nat) (j : Job) (a n : Nat) : State :=
  match (s.core c).pendingAt a n with
  | some w => s.jobFault c j 0x09 (statusWord j.lw.op 0 j.issue j.lw.word) w
  | none => s

/-- Mark the words of a range pending, but for the pointer words (R142). -/
def CoreSt.markPending (k : CoreSt) (a n : Nat) : CoreSt :=
  if n = 0 then k
  else
    let ws := (upFrom (a / 4) ((a + n - 1) / 4 - a / 4 + 1)).filter fun w => decide (4 * w < 0x7FFC0)
    { k with pend := k.pend ++ ws.filter fun w => !k.pend.contains w }

/-- Ranges of a core's scratchpad that a job will write. -/
def Job.marksAt (j : Job) (me d : Nat) : List (Nat × Nat) :=
  ((if (j.dests me).contains d then j.outRanges me d j.pieceCount 0 else []) ++
    (if j.op = .ramo ∧ j.dcore = d then j.targets 0 else [])).map fun r => (r.lo, r.len)

/-- Mark them in pending-bit mode. -/
def State.mark (s : State) (d : Nat) (ms : List (Nat × Nat)) : State :=
  s.modCore d fun k => if k.pendMode then ms.foldl (fun k m => k.markPending m.1 m.2) k else k

/-- Read card or input bytes of a job from scratchpad: bytes lost to an uncorrectable error are free (DESIGN CHOICE, log 5),
and the error is counted. DEDUCED (log 50). -/
def State.jobBytes (s : State) (c : Nat) (j : Job) (a n : Nat) : List Byte × State :=
  let bs := (s.core c).spRead a n
  if bs.any (·.2) then
    let (d, s) := s.draw
    let s := (s.modCore c fun k => { k with uce := satAdd k.uce 1 0xFFFF }).jobPoison c j
    ((bs.zip (upFrom 0 n)).map fun b => if b.1.2 then BitVec.ofNat 8 (Config.freeNat (d + b.2)) else b.1.1, s)
  else (bs.map (·.1), s)

/-- Bytes of a row-3 burst from an address on: up to four beats (06 R133). -/
def burstLen (a n : Nat) : Nat := min n (512 - a % 128)

/-- Read the next burst of an input of a job, `got` bytes of which are read, once its banks are granted; the banks are held
for its span, so that nothing changes in them between its beats (06 R133). An input may be pending.
DEDUCED (log 50). -/
def State.jobInput (s : State) (c : Nat) (j : Job) (a n got : Nat) : Option (List Byte × State) :=
  let b := a + got
  let m := burstLen b (n - got)
  if !(s.core c).banksFree b m then none
  else some (((s.jobPending c j b m).modCore c fun k => k.holdBanks b m (beatsOf b m)).jobBytes c j b m)

/-- Remove a job, and bank markers that hold nothing back any more. -/
def CoreSt.dropJob (k : CoreSt) (id : Nat) : CoreSt :=
  let k := { k with jobs := k.jobs.filter fun j => j.id != id }
  k.modOwn fun o => { o with gates := o.gates.filter fun g => !BankGate.done k g }

/-- The bank of a job's c7 can be taken (06 R133). -/
def CoreSt.c7Free (k : CoreSt) (j : Job) : Bool := k.banksFree (j.card + 56) 8

/-- Write a job's c7. -/
def State.writeC7 (s : State) (c : Nat) (j : Job) (status : Nat) : State :=
  (s.modCore c fun k => k.holdBanks (j.card + 56) 8 (beatsOf (j.card + 56) 8)).spWrite c (j.card + 56) (bytesLe 8 status)

/-- The end of a job: its status is written, its slot freed; `word` says that this settles an issue of its
word. -/
def State.endJob (s : State) (c : Nat) (j : Job) (status : Nat) (word : Bool) : State :=
  let s := (s.writeC7 c j status).modCore c fun k => k.dropJob j.id
  if word then s.modOwn c fun o => o.settleIssue j.lw.id else s

/-- Words of CP that finish outside a cycle are due at once; while a stop or a repair holds the core, their pushes wait for
its end (24_debug.md R402, 25_service.md R413). -/
def State.cpFinish (s : State) (c : Nat) : State :=
  let k := s.core c
  if k.stop || k.repair.isSome then s else s.push ((k.finishing true).map fun i => Turn.event (.wordFinish c i))

/-- The job is still held by its gate or by a bank marker (06 R148, 05 R125). -/
def CoreSt.jobHeld (k : CoreSt) (j : Job) : Bool := decide (j.stage < 4) || j.gated || (!j.bank && !k.gateOpen j.gate)

/-- The task that issued a job has ended. -/
def CoreSt.taskOver (k : CoreSt) (j : Job) : Bool := !((k.ctx j.ctx).live && (k.ctx j.ctx).task == j.task)

/-- A job is gated on the channel of its core that it delivers on itself. DEDUCED (log 116). -/
def Job.gatesItself (j : Job) (me : Nat) : Bool := j.w 6 60 3 == j.ch && (j.dests me).any fun d => chanCore me d == me

/-- The gating channel has reached its value, or the job waits for bytes behind its own and its task has ended (06 R148).
DEDUCED (log 116). -/
def CoreSt.gateReached (k : CoreSt) (me : Nat) (j : Job) : Bool :=
  decide (((k.chw (j.w 6 60 3)).toNat % 2 ^ 60 + 2 ^ 60 - j.w 6 0 60) % 2 ^ 60 < 2 ^ 59) ||
    (j.gatesItself me && k.taskOver j)

end Sys2Proof.Machine
end

