-- ==== Sys2Proof/Machine/Cp.lean ====
section
/-! DEFINITION. The CP words of both rows: issue, translation, checks, inputs and launch (05_bank_units.md R112
to R114, 06_copy_scratchpad.md R143 to R150). -/
namespace Sys2Proof.Machine

/-! ## Translation (step 3) -/

/-- First byte of a range that no table entry matches (05 R123). DEDUCED (log 48). -/
def missAt (tt : List (Word × Word)) : Nat → Nat → Nat → Option Nat
  | 0, _, _ => none
  | fuel + 1, dva, n =>
    if n = 0 then none
    else
      match findPage tt dva with
      | none => some dva
      | some (_, leaf) =>
        let sz := 2 ^ pageBits (wfld leaf 4 3)
        let step := sz - dva % sz
        if n ≤ step then none else missAt tt fuel (dva + step) (n - step)

/-- How a region is accessed. DEDUCED (log 48). -/
inductive Acc3 where
  | read | write | both | look
  deriving DecidableEq, Repr

/-- The failing sub-cause and byte of a region (R93, 19_faults.md R346). DEDUCED (log 48). -/
def CoreSt.regionFault (k : CoreSt) (m : Acc3) (dva n : Nat) : Option (Nat × Nat) :=
  match m with
  | .read => k.check false dva n
  | .write => k.check true dva n
  | .look => (missAt k.tt (k.tt.length + 1) dva n).map fun a => (1, a)
  | .both =>
    match k.check false dva n, k.check true dva n with
    | some a, some b => some (if a.2 ≤ b.2 then a else b)
    | some a, none => some a
    | none, b => b

/-- The last code of the page that holds a DVA. -/
def CoreSt.lastAt (k : CoreSt) (dva : Nat) : Nat := ((findPage k.tt dva).map fun e => wfld e.2 60 4).getD 0

/-- First bytes of the DVA regions of a job, which are translated before their extents are known. -/
def Job.firsts (j : Job) (k : CoreSt) : List (Acc3 × Nat × Nat) :=
  match j.op with
  | .bgemv | .bgemva =>
    (Acc3.read, j.src, 1) ::
      (if 1 ≤ k.lastAt j.src ∧ k.lastAt j.src ≤ 3 then [(Acc3.read, j.dst, 1)] else [])
  | .batom => [(.both, j.src, 1)]
  | .bqry => [(.look, j.src, 1)]
  | _ => []

/-- The DVA regions of a job with their extents. A region that a card of row 0x0 names through space 0 is translated also
where the word does not accept that space (DEDUCED, log 48). -/
def Job.regions (j : Job) (me : Nat) : List (Acc3 × Nat × Nat) :=
  match j.op with
  | .bgemv | .bgemva =>
    (Acc3.read, j.src, j.weightLen) :: (if j.scaled then [(Acc3.read, j.dst, j.scaleLen)] else [])
  | .batom => [(.both, j.src, if 13 ≤ j.aop then 1 else j.elems * j.e)]
  | .bqry => [(.look, j.src, if j.qlen = 0 then 1 else j.qlen)]
  | .ramo => []
  | _ =>
    (if j.copies ∧ j.ssp = 0 then (j.srcRanges me j.pieceCount 0).map fun r => (Acc3.read, r.lo, r.len) else []) ++
    (if j.dsp = 0 ∧ j.op ≠ .bcast then (j.outRanges me 512 j.pieceCount 0).map fun r => (Acc3.write, r.lo, r.len) else [])

/-! ## Checks (step 4) -/

/-- Bits of the card words c0 to c6 that a word uses (05 R111, 06 R143): an address in a scratchpad is [18:0].
DEDUCED (log 44). DEDUCED (log 43). DESIGN CHOICE (log 111). -/
def cardBits (o : CpOp) (ssp dsp : Nat) : List Nat :=
  let m52 := 2 ^ 52 - 1
  let m19 := 2 ^ 19 - 1
  let from_ := if ssp = 1 ∨ ssp = 2 then m19 else m52
  let into := if dsp = 1 ∨ dsp = 2 then m19 else m52
  let dcore := 0x1FF * 2 ^ 32
  let gate := 2 ^ 64 - 1
  let sp := 2 ^ 40 - 1
  let idx := 0xFFFF_0007_FFFF
  match o with
  | .copy | .wswr => [from_, into, sp, 0, 0, 0, gate]
  | .rcopy => [from_, into, sp, dcore, 0, 0, gate]
  | .ramo => [0x7FFFF, 0, 0x1FFF_0000_FFFF, dcore + 0x7FFFF, 0x7FFFF, 0, gate]
  | .bcast => [from_, m19, sp, 0xFFFF_1F00_0000_0000, 0, 0, gate]
  | .fill => [2 ^ 64 - 1, into, sp, if dsp = 2 then dcore else 0, 0, 0, gate]
  | .gath => [from_, into, 0xFF_0000_FFFF, 0, idx, 0xFFFF_FFFF, gate]
  | .scat => [from_, into, 0xFF_0000_FFFF, if dsp = 2 then dcore else 0, idx, 0xFFFF_FFFF, gate]
  | .bgemv | .bgemva =>
    [m52, m52, 0xFFFF_0FFF_FF0F_FFFF, dcore + 0x7FFFF, 0x7FFFF_0007_FFFF, 0xFFFFF, 0]
  | .batom => [m52, 0, 0xFFFF_01F0_0000_0000, dcore + 0x7FFFF, 0x7FFFF, 0, 0]
  | .bqry => [m52, m52, 0, dcore + 0x7FFFF, 0, 0, 0]

/-- A bit that shall be 0 is 1. DEDUCED (log 43). DESIGN CHOICE (log 111). -/
def Job.strayBits (j : Job) : Bool :=
  (j.c.zip (cardBits j.op j.ssp j.dsp)).any fun e => e.1.toNat &&& (2 ^ 64 - 1 - e.2) != 0

/-- SSTR is too small for the scale layout (05 R109). -/
def Job.scaleClash (j : Job) : Bool :=
  (j.scode == 6 && decide (1 < j.rows) && decide (j.sstr < j.nb)) ||
    (j.scode == 7 && decide (1 < j.nb) && decide (j.sstr < j.rows))

/-- CODE 0x10. -/
def Job.malformed (j : Job) : Bool :=
  j.strayBits ||
    (match j.op with
     | .bgemv | .bgemva =>
       decide (j.rstr < j.nb) || (j.scaled && j.scaleClash) ||
         (j.code == 4 && (j.dst != 0 || j.xsAddr != 0 || j.sstr != 0))
     | .batom | .ramo => decide (13 ≤ j.aop) || (j.noret && j.ret != 0) || (j.op == .ramo && (decide (3 < j.ssp) || decide (3 < j.dsp)))
     | .bqry => j.qlen == 0
     | .bcast => j.w 3 48 16 == 0 || decide (3 < j.ssp) || decide (3 < j.dsp)
     | _ => decide (3 < j.ssp) || decide (3 < j.dsp))

/-- The leaves of a range's pages, in order. -/
def pagesOf (tt : List (Word × Word)) : Nat → Nat → Nat → List Word
  | 0, _, _ => []
  | fuel + 1, dva, n =>
    if n = 0 then []
    else
      match findPage tt dva with
      | none => []
      | some (_, leaf) =>
        let sz := 2 ^ pageBits (wfld leaf 4 3)
        let step := sz - dva % sz
        leaf :: (if n ≤ step then [] else pagesOf tt fuel (dva + step) (n - step))

/-- The first page that fails a test, for DETAIL (05 R112). -/
def firstPage (bad : Word → Bool) (ls : List Word) : Option Nat := (ls.findIdx? bad).map fun i => min i 0xFFFF

/-- The codes 0x11 to 0x13 with their detail. -/
def Job.pageCode (j : Job) (k : CoreSt) : Option (Nat × Nat) :=
  let pages (a n : Nat) : List Word := pagesOf k.tt (k.tt.length + 1) a n
  let noBe (l : Word) : Bool := !l.getLsbD 59
  let last (l : Word) : Nat := wfld l 60 4
  let regs : List (List Word × (Word → Bool)) :=
    match j.op with
    | .bgemv | .bgemva =>
      (pages j.src j.weightLen, fun l => last l == 0 || decide (4 < last l)) ::
        (if j.scaled then [(pages j.dst j.scaleLen, fun l => last l != 6 && last l != 7)] else [])
    | .batom => [(pages j.src (j.elems * j.e), fun l => last l != 0 && last l != 5)]
    | _ => []
  match regs.findSome? fun r => firstPage noBe r.1 with
  | some d => some (0x11, d)
  | none =>
    match regs.findSome? fun r => firstPage r.2 r.1 with
    | some d => some (0x12, d)
    | none =>
      if j.op = .bgemv ∨ j.op = .bgemva then
        (firstPage (fun l => last l != j.code) (pages j.src j.weightLen)).map fun d => (0x13, d)
      else none

/-- The destination of a word of row 0x0 lies in the space DSP of its card. -/
def CpOp.bySpace : CpOp → Bool
  | .copy | .rcopy | .wswr | .fill | .gath | .scat => true
  | _ => false

/-- Scratchpad regions of a job as (address, length): those that its card names in a scratchpad. DEDUCED (log 43).
DESIGN CHOICE (log 110). -/
def Job.spRegions (j : Job) (me : Nat) : List (Nat × Nat) :=
  let outs :=
    if CpOp.bySpace j.op then
      (if j.dsp = 1 ∨ j.dsp = 2 then (j.outRanges me me j.pieceCount 0).map fun r => (r.lo, r.len) else [])
    else ((j.dests me).filter (· < 512)).flatMap fun d => (j.outRanges me d j.pieceCount 0).map fun r => (r.lo, r.len)
  let srcs :=
    if j.copies ∧ (j.ssp = 1 ∨ j.ssp = 2) then (j.srcRanges me j.pieceCount 0).map fun r => (r.lo, r.len) else []
  let ins : List (Nat × Nat) :=
    match j.op with
    | .bgemv | .bgemva => (j.inAddr, j.nb * j.recSize) :: (if j.scaled then [(j.xsAddr, j.nb)] else [])
    | .batom => [(j.inAddr, j.opBytes)]
    | .ramo => [(j.inAddr, j.opBytes), (j.w 0 0 19, j.elems * j.e)]
    | .gath | .scat => [(j.inAddr, 4 * j.count)]
    | _ => []
  outs ++ srcs ++ ins

/-- CODE 0x15. -/
def Job.misaligned (j : Job) : Bool :=
  let al (a n : Nat) : Bool := a % n != 0
  match j.op with
  | .bgemv | .bgemva => al j.src 4096 || al j.ret 4 || al j.inAddr 64
  | .batom => al j.src j.e || al j.inAddr j.e || al j.ret j.e
  | .ramo => al (j.w 0 0 19) j.e || al j.inAddr j.e || al j.ret j.e
  | .bqry => al j.ret 64
  | .gath | .scat => al j.inAddr 4
  | _ => false

/-- The word names cores of this list, which shall be in service in the issuing core's partition. -/
def Job.namedCores (j : Job) : List Nat :=
  match j.op with
  | .rcopy | .ramo | .bgemv | .bgemva | .batom | .bqry => [j.dcore]
  | .fill | .scat => if j.dsp = 2 then [j.dcore] else []
  | .bcast => j.dests 0
  | _ => []

/-- The word does not accept SSP or DSP (06 R145). -/
def Job.badSpace (j : Job) : Bool :=
  let ok (ss ds : List Nat) : Bool := ss.contains j.ssp && ds.contains j.dsp
  match j.op with
  | .copy => !ok [0, 1] [0, 1]
  | .rcopy => !ok [0, 1] [2]
  | .ramo => !ok [0] [0]
  | .wswr => !ok [0, 1] [3]
  | .bcast => !ok [0, 1] [0]
  | .fill => !ok [0] [0, 1, 2]
  | .gath => !ok [0, 1] [1]
  | .scat => !ok [1] [0, 1, 2]
  | _ => false

/-- The first failing cause with its detail, 0 when none fails (05 R112, 06 R144). DEDUCED (log 43). -/
def State.jobCode (s : State) (c : Nat) (j : Job) : Nat × Nat :=
  let k := s.core c
  if j.malformed then (0x10, 0)
  else
    match j.pageCode k with
    | some r => r
    | none =>
      if (j.spRegions c).any fun r => decide (0x80000 < r.1 + r.2) then (0x14, 0)
      else if j.misaligned then (0x15, 0)
      else if j.namedCores.any (fun d => !(s.inService d && s.partOf d == s.partOf c)) then (0x16, 0)
      else if j.badSpace then (0x17, 0)
      else (0, 0)

/-- A WSWR job is dropped (04_device_memory.md R100). -/
def State.wsDropped (s : State) (c : Nat) (j : Job) : Bool :=
  let p := s.partOf c
  let d := dieOf c
  let live := s.cores.any fun e =>
    dieOf e.1 == d && s.partOf e.1 == p && e.2.ctxs.any fun x => x.2.live && x.2.kernel
  let lo := j.dst / 2 ^ 21
  let stripes := upFrom lo ((j.dst + j.len - 1) / 2 ^ 21 - lo + 1)
  j.kernel || live || stripes.any fun i => s.partOf (128 * d + i) != p

/-! ## The steps of R113 and R147 -/

/-- The sole die of the first byte of a bank job's first region, for BUSTAT (05 R128). -/
def CoreSt.firstSole (k : CoreSt) (j : Job) : Nat :=
  ((findPage k.tt j.src).map fun e => leafDpa e.2 j.src / (48 * 2 ^ 30)).getD 0

/-- Step 1 and step 2: c7 is cleared, once its bank is granted, and a slot is taken. -/
def State.jobStart (s : State) (c : Nat) (j : Job) : State :=
  if !(s.core c).mayWrite c j (j.c7 c) || !(s.core c).c7Free j then s
  else if 1024 ≤ ((s.core c).jobs.filter fun e => decide (1 ≤ e.stage)).length then
    (s.endJob c j 0x03 true).modCore c fun k => { k with noslot := satAdd k.noslot 1 0xFFFF }
  else (s.writeC7 c j 0).modJob c j.id fun x => { x with stage := 1 }

/-- The index array that GATH and SCAT need before their rows are known. DEDUCED (log 45). -/
def Job.idxKnown (j : Job) : Bool :=
  (j.op == .gath || j.op == .scat) && j.inAddr % 4 == 0 && decide (j.inAddr + 4 * j.count ≤ 0x80000) && !j.strayBits

/-- A job that fails a check: nothing but c7 is written, and CP takes a trap (R113, R147). -/
def State.jobFail (s : State) (c : Nat) (j : Job) (r : Nat × Nat) : State :=
  let s := s.jobFault c j 0x06 (statusCp j.lw.op r.1 j.lw.word) j.card
  let s := if j.bank then s.hubCount (offBustat ((s.core c).firstSole j)) 16 16 1 else s
  s.endJob c j (r.1 + r.2 <<< 16) true

/-- The checks of a job whose card and index array are read, and the test of its ranges (06 R147, 05 R113).
DEDUCED (log 49). -/
def State.jobRanges (s : State) (c : Nat) (j : Job) : State :=
  let rows := j.idxKnown || !(j.op == .gath || j.op == .scat)
  let k := s.core c
  match (j.firsts k).findSome? fun r => k.regionFault r.1 r.2.1 r.2.2 with
  | some f => s.fatalWord c j.lw f
  | none =>
    let j := { j with code := if j.bank then k.lastAt j.src else 0, scode := if j.bank then k.lastAt j.dst else 0 }
    match (if rows then (j.regions c).findSome? fun r => k.regionFault r.1 r.2.1 r.2.2 else none) with
    | some f => s.fatalWord c j.lw f
    | none =>
      if j.op = .wswr ∧ j.dsp = 3 ∧ 2 ^ 28 < j.dst + j.len then s.fatalWord c j.lw (5, max j.dst (2 ^ 28))
      else
        let r := s.jobCode c j
        if r.1 ≠ 0 then s.jobFail c j r
        else if j.op = .wswr ∧ s.wsDropped c j then
          (s.endJob c j 0x04 true).hubCount (offWsstat (dieOf c)) 0 32 1
        else
          s.modJob c j.id fun x =>
            { x with stage := 2, c := j.c, inp2 := j.inp2, code := j.code, scode := j.scode }

/-- The card of a job. -/
def cardOf (bs : List Byte) : List Word := (upFrom 0 8).map fun i => BitVec.ofNat 64 (ofBytesLe ((bs.drop (8 * i)).take 8))

/-- Steps 3 and 4: the card is read, with the index array that a gather or scatter needs; its regions are translated, and it
is checked. Every read waits for its bank and for what earlier jobs write there. DEDUCED (log 45). -/
def State.jobCheck (s : State) (c : Nat) (j : Job) : State :=
  let k := s.core c
  if j.c.isEmpty then
    if !k.mayRead c j { space := 1, who := c, lo := j.card, len := 64 } || !k.banksFree j.card 64 then s
    else
      let (bs, s) := (s.modCore c fun k => k.holdBanks j.card 64 (beatsOf j.card 64)).jobBytes c j j.card 64
      s.modJob c j.id fun x => { x with c := cardOf bs }
  else if j.idxKnown && decide (j.inp2.length < 4 * j.count) then
    if !k.mayRead c j { space := 1, who := c, lo := j.inAddr, len := 4 * j.count } then s
    else
      match s.jobInput c j j.inAddr (4 * j.count) j.inp2.length with
      | none => s
      | some (bs, s) => s.modJob c j.id fun x => { x with inp2 := x.inp2 ++ bs }
  else if !k.c7Free j then s
  else s.jobRanges c j

/-- A scratchpad source of at most 64 bytes is read in step 5 (R147), before the launch, behind which alone a gate holds
reads (R148). DEDUCED (log 46). -/
def Job.small (j : Job) : Bool := j.copies && j.ssp == 1 && decide (j.total ≤ 64)

/-- Input ranges of step 5: operands or x, and the x scales. DESIGN CHOICE (log 110). -/
def Job.inputs (j : Job) : List (Nat × Nat) :=
  match j.op with
  | .bgemv | .bgemva => (j.inAddr, j.nb * j.recSize) :: (if j.scaled then [(j.xsAddr, j.nb)] else [])
  | .batom | .ramo => [(j.inAddr, j.opBytes)]
  | _ => []

/-- Source bytes as a job takes them: a unit with an uncorrectable error gives zero bytes (06 R130).
DESIGN CHOICE (log 112). -/
def State.jobSource (s : State) (c : Nat) (j : Job) (bs : List (Byte × Bool)) (scratch : Bool) :
    List Byte × State :=
  if bs.any (·.2) then
    let s := if scratch then s.modCore c fun k => { k with uce := satAdd k.uce 1 0xFFFF } else s
    (bs.map fun b => if b.2 then 0 else b.1, s.jobPoison c j)
  else (bs.map (·.1), s)

/-- Bytes of an overlapping COPY as copying one byte at a time gives them: `known` are the output bytes from
number `lo` on. -/
def lagged (lag lo : Nat) : Nat → List Byte → List Byte → List Byte
  | _, known, [] => known
  | i, known, b :: r =>
    let v := if 0 < lag ∧ lag ≤ i ∧ lo ≤ i - lag then known.getD (i - lag - lo) b else b
    lagged lag lo (i + 1) (known ++ [v]) r

/-- Read the next contiguous bytes of the source of a small job. DEDUCED (log 46). -/
def State.smallSource (s : State) (c : Nat) (j : Job) : State :=
  let i := j.prod
  let a := j.srcAt i
  let r := j.srcRun i
  if !(s.core c).mayRead c j { space := 1, who := c, lo := a, len := r } || !(s.core c).banksFree a r then s
  else
    let s := (s.jobPending c j a r).modCore c fun k => k.holdBanks a r (beatsOf a r)
    let (bs, s) := s.jobSource c j ((s.core c).spRead a r) true
    s.modJob c j.id fun x => { x with buf := lagged j.lag 0 x.prod x.buf bs }

/-- Pages of a query with the part of the queried range that each holds, as (leaf, offset, length). -/
def CoreSt.queryPages (k : CoreSt) (j : Job) : List (Word × Nat × Nat) :=
  k.tt.filterMap fun e =>
    let n := 2 ^ pageBits (wfld e.2 4 3)
    let v := wfld e.1 12 40 <<< 12
    if overlaps v n j.src j.qlen then
      let lo := max v j.src
      some (e.2, lo - v, min (v + n) (j.src + j.qlen) - lo)
    else none

/-- Bytes of a span of device memory in a stack, as (stack offset, length). -/
def stackPart (pa n st : Nat) : Nat × Nat :=
  let b := 48 * 2 ^ 30
  let lo := max pa (st * b)
  let hi := min (pa + n) ((st + 1) * b)
  (lo - st * b, hi - lo)

/-- Whether bytes of a stack offset range lie in a pseudo-channel under a last code (R80, 05 R107, R108). -/
def inChannel (last o n p : Nat) : Bool :=
  let sh := if 1 ≤ last ∧ last ≤ 4 then 12 else if last = 5 then 6 else 8
  if n = 0 then false
  else
    let a := o >>> sh
    let b := (o + n - 1) >>> sh
    decide (64 ≤ b - a + 1) || decide ((p + 64 - a % 64) % 64 ≤ b - a)

/-- The sixteen words of a BQRY report (05 R123). -/
def State.queryReport (s : State) (c : Nat) (j : Job) : List Nat :=
  let ps := (s.core c).queryPages j
  let phys (e : Word × Nat × Nat) : Nat := (wfld e.1 12 28) <<< 12 + e.2.1
  let counts := (upFrom 0 12).map fun st =>
    min (ps.foldl (fun a e => a + (stackPart (phys e) e.2.2 st).2) 0) (2 ^ 32 - 1)
  let be := (ps.filter fun e => e.1.getLsbD 59).length
  let lasts := (upFrom 0 16).foldl (fun a i => a + b2n (ps.any fun e => wfld e.1 60 4 == i) <<< i) 0
  let out := (s.svc.unitsOut ++ s.svc.shared).eraseDups
  let served := (out.filter fun u =>
    ps.any fun e =>
      let r := stackPart (phys e) e.2.2 u.1
      inChannel (wfld e.1 60 4) r.1 r.2 u.2).length
  counts ++ [be, lasts, served, 0]

/-- Bytes of the first and of the second input range that a job has read. -/
def Job.gotInput (j : Job) (i : Nat) : Nat := if i = 0 then j.inp.length else j.inp2.length

/-- The input range that a job is to read next, by its number (step 5). -/
def Job.nextInput (j : Job) : Option (Nat × Nat × Nat) :=
  ((upFrom 0 j.inputs.length).findSome? fun i =>
    (j.inputs[i]?).bind fun r => if j.gotInput i < r.2 then some (i, r) else none)

/-- Step 5: the next part of the inputs is read, once nothing that an earlier job writes holds it and its bank is granted; when
all are read, the job goes on to step 6. DEDUCED (log 46). -/
def State.jobInputs (s : State) (c : Nat) (j : Job) : State :=
  match j.nextInput with
  | some (i, a, n) =>
    if !(s.core c).mayRead c j { space := 1, who := c, lo := a, len := n } then s
    else
      match s.jobInput c j a n (j.gotInput i) with
      | none => s
      | some (bs, s) =>
        s.modJob c j.id fun x => if i = 0 then { x with inp := x.inp ++ bs } else { x with inp2 := x.inp2 ++ bs }
  | none =>
    if j.small && decide (j.prod < j.total) then s.smallSource c j
    else s.modJob c j.id fun x => { x with stage := 3 }

/-- Step 6: the job is handed to the sole dies, which may not accept a bank job yet, and is launched. -/
def State.jobLaunch (s : State) (c : Nat) (j : Job) : State :=
  let (d, s) := s.draw
  if j.bank && Config.freeBool d then s
  else
    let s := s.modJob c j.id fun x => { x with stage := 4, gated := j.ge }
    let s :=
      if j.op = .bqry then
        let rep := (s.queryReport c j).flatMap (bytesLe 4)
        s.modJob c j.id fun x => { x with buf := rep }
      else s
    let s := s.mark c (j.marksAt c c)
    if j.push then s else s.modOwn c fun o => o.settleIssue j.lw.id

/-- Take a job that has not launched through the steps that nothing holds. -/
def State.advanceJob (s : State) (c id : Nat) : Nat → State
  | 0 => s
  | n + 1 =>
    match (s.core c).job id with
    | none => s
    | some j =>
      match j.stage with
      | 0 => State.advanceJob (s.jobStart c j) c id n
      | 1 => State.advanceJob (s.jobCheck c j) c id n
      | 2 => State.advanceJob (s.jobInputs c j) c id n
      | 3 => s.jobLaunch c j
      | _ => s

/-- Steps that a job can take at once. -/
def jobSteps : Nat := 6

/-- The card of an issue of a CP word (05 R110, 06 R143). A card that is not aligned to 64 bytes is read as it stands
(DESIGN CHOICE, log 95). -/
def cardAddr (es : List Word) (p : CpFields) (issue : Nat) : Nat :=
  ((esAt es p.es.toNat).toNat + (p.card.toNat + (if p.sa then issue else 0)) * 64) % 2 ^ 64

/-- One issue of a CP word: one job. A card beyond the scratchpad is the fatal context error of an access there
(DESIGN CHOICE, log 95). DEDUCED (log 40). -/
def State.issueCp (s : State) (c : Nat) (o : CpOp) (p : CpFields) : State :=
  match s.beginIssue c .cp with
  | none => s
  | some (i, s) =>
    let a := cardAddr i.entry.es p i.issue
    match spBeyond a 64 with
    | some b => s.fatalLive c i.live (4, b)
    | none =>
      match (s.own c).liveWord i.live with
      | none => s
      | some lw =>
        let x := s.ctx c i.entry.ctx
        let k := s.core c
        let j : Job :=
          { id := k.nextJob, ctx := i.entry.ctx, task := x.task, lw := lw, op := o, ch := p.ch.toNat, card := a
            c := [], code := 0, scode := 0, order := i.entry.order, kernel := x.kernel, issue := i.issue, stage := 0
            gated := false, gate := i.gate, inp := [], inp2 := [], pieces := [], buf := [], lo := 0, snt := []
            land := [], acts := 0, sum := 0, poison := false }
        let s := s.setCore c { k with nextJob := k.nextJob + 1, jobs := k.jobs ++ [j], own := k.own.pend i.live }
        s.advanceJob c j.id jobSteps

/-! ## Meanings -/

/-- Run a CP issue for the agent whose word it is. -/
def asCp (o : CpOp) (_f : Frame) (p : CpFields) (s : State) : Host.Outcome State Fault Refusal :=
  match s.at_ with
  | .engine c .cp => .next (s.issueCp c o p)
  | _ => .fault .noAgent

/-- R145. COPY. -/
def execCpCopy (f : Frame) (p : CpFields) (s : State) : Host.Outcome State Fault Refusal := asCp .copy f p s
/-- R145. RCOPY. -/
def execCpRcopy (f : Frame) (p : CpFields) (s : State) : Host.Outcome State Fault Refusal := asCp .rcopy f p s
/-- R146. RAMO. -/
def execCpRamo (f : Frame) (p : CpFields) (s : State) : Host.Outcome State Fault Refusal := asCp .ramo f p s
/-- R100, R145. WSWR. -/
def execCpWswr (f : Frame) (p : CpFields) (s : State) : Host.Outcome State Fault Refusal := asCp .wswr f p s
/-- R145. BCAST. -/
def execCpBcast (f : Frame) (p : CpFields) (s : State) : Host.Outcome State Fault Refusal := asCp .bcast f p s
/-- R145. FILL. -/
def execCpFill (f : Frame) (p : CpFields) (s : State) : Host.Outcome State Fault Refusal := asCp .fill f p s
/-- R145. GATH. -/
def execCpGath (f : Frame) (p : CpFields) (s : State) : Host.Outcome State Fault Refusal := asCp .gath f p s
/-- R145. SCAT. -/
def execCpScat (f : Frame) (p : CpFields) (s : State) : Host.Outcome State Fault Refusal := asCp .scat f p s
/-- R115. BGEMV. -/
def execCpBgemv (f : Frame) (p : CpFields) (s : State) : Host.Outcome State Fault Refusal := asCp .bgemv f p s
/-- R115. BGEMVA. -/
def execCpBgemva (f : Frame) (p : CpFields) (s : State) : Host.Outcome State Fault Refusal := asCp .bgemva f p s
/-- R120. BATOM. -/
def execCpBatom (f : Frame) (p : CpFields) (s : State) : Host.Outcome State Fault Refusal := asCp .batom f p s
/-- R123. BQRY. -/
def execCpBqry (f : Frame) (p : CpFields) (s : State) : Host.Outcome State Fault Refusal := asCp .bqry f p s

/-- R304. What held a word of CP in its steps has cleared: it goes on. The held parts of launched jobs proceed
by their own deliveries. -/
def execFootprintEdgeRelease (c j : Nat) (s : State) : Host.Outcome State Fault Refusal :=
  .next ((s.advanceJob c j jobSteps).cpFinish c)

/-- R148. A gated job may read its sources once its channel has reached GVAL. -/
def execGatedJobRelease (c j : Nat) (s : State) : Host.Outcome State Fault Refusal :=
  let k := s.core c
  match k.job j with
  | some x =>
    if x.stage = 4 ∧ x.gated ∧ k.gateReached c x then .next (s.modJob c j fun y => { y with gated := false })
    else .next s
  | none => .next s

end Sys2Proof.Machine
end

