-- ==== Sys2Proof/Machine/Deliver.lean ====
section
/-! DEFINITION. What launched jobs do: source reads, bank products, atomics, deliveries, remote writes and the
final status (05_bank_units.md R115 to R123, 06_copy_scratchpad.md R135 to R150). -/
namespace Sys2Proof.Machine

/-! ## Producing output bytes -/

/-- Append output bytes to a job. -/
def State.jobYield (s : State) (c id : Nat) (bs : List Byte) : State :=
  s.modJob c id fun x => { x with buf := x.buf ++ bs }

/-- Read the aligned 64-byte piece of a source that holds output byte `i` on: its bytes with their marks; none while it is
held, its bank is taken, or a link on its way retrains. -/
def State.jobFetch (s : State) (c : Nat) (j : Job) (i : Nat) : Option (List (Byte × Bool) × State) :=
  let k := s.core c
  let a := j.srcAt i
  let n := min (j.srcRun i) (64 - a % 64)
  if !k.mayRead c j { space := if j.ssp = 0 then 0 else 1, who := if j.ssp = 0 then 0 else c, lo := a, len := n } then none
  else if j.ssp = 0 then (if s.reaches c (k.dpas a n) then some (s.dvaLook c .job a n) else none)
  else if !k.banksFree a n then none
  else some (k.spRead a n, (s.jobPending c j a n).modCore c fun k => k.holdBanks a n 1)

/-- Read the next piece of a source, or the next bytes of a pattern. -/
def State.jobRead (s : State) (c : Nat) (j : Job) : State :=
  let i := j.prod
  if j.total ≤ i then s
  else if j.op = .fill then
    let pat := bytesLe 8 (j.c.getD 0 0).toNat
    s.jobYield c j.id ((upFrom i (min 512 (j.total - i))).map fun b => pat.getD (b % 8) 0)
  else if !j.copies then s
  else
    let take (s : State) (bs : List (Byte × Bool)) : State :=
      let (bs, s) := s.jobSource c j bs (j.ssp != 0)
      s.jobYield c j.id (lagged j.lag j.lo i j.buf bs |>.drop j.buf.length)
    match tblFind j.pieces i with
    | some bs => take (s.modJob c j.id fun x => { x with pieces := tblErase x.pieces i }) bs
    | none =>
      match s.jobFetch c j i with
      | some (bs, s) => take s bs
      | none => s

/-- The first output byte of the piece of a source that holds byte `x`. -/
def Job.pieceStart (j : Job) (x : Nat) : Nat :=
  let row := if j.op = .gath then x % j.len else x
  max j.prod (x - min row (j.srcAt x % 64))

/-- Read a piece of a source ahead of those before it, which may be held (14 R304). A COPY that reads what it writes reads in
order. -/
def State.jobReadAhead (s : State) (c : Nat) (j : Job) (x : Nat) : State :=
  if !j.copies || decide (0 < j.lag) || decide (j.total ≤ j.prod) then s
  else
    let i := j.pieceStart (j.prod + x % (j.total - j.prod))
    if i ≤ j.prod ∨ (tblFind j.pieces i).isSome then s
    else
      match s.jobFetch c j i with
      | some (bs, s) => s.modJob c j.id fun x => { x with pieces := tblPut x.pieces i bs }
      | none => s

/-! ## Bank products (05 R115, R116) -/

/-- Read an aligned 64-byte piece of weights or scales, once. -/
def State.jobPiece (s : State) (c : Nat) (j : Job) (p : Nat) : State :=
  if (tblFind j.pieces p).isSome || !(s.core c).mayRead c j { space := 3, who := 0, lo := 64 * p, len := 64 } ||
      !s.reaches c ((s.core c).dpas (64 * p) 64) then s
  else
    let (bs, s) := s.dvaRead c (64 * p) 64
    s.modJob c j.id fun x => { x with pieces := tblPut x.pieces p bs }

/-- Bytes of weights or scales, when all their pieces have been read. -/
def Job.held (j : Job) (a n : Nat) : Option (List (Byte × Bool)) :=
  (upFrom a n).mapM fun b => (tblFind j.pieces (b / 64)).bind fun p => p[b % 64]?

/-- DVA of the scale byte of a row and block (05 R109). -/
def Job.scaleAt (j : Job) (r kb : Nat) : Nat :=
  if j.scode = 7 then j.dst + kb * j.sstr + r else j.dst + r * j.sstr + kb

/-- Element `e` of packed bytes. -/
def packedElem (f : Fmt) (v e : Nat) : Nat := fld v (packBits f * e) (packBits f)

/-- The block partial of R46 step 1 over elements 0 to `n` − 1. -/
def blockSum (f : Fmt) (w x : Nat) : Nat → Partial
  | 0 => { p := 0, void := false }
  | n + 1 =>
    let p := blockSum f w x n
    match blockTerm f (packedElem f w n) (packedElem f x n) with
    | none => { p with void := true }
    | some t => { p with p := p.p + BitVec.ofInt 48 t }

/-- The sums of R48 over elements 0 to `n` − 1. -/
def rowSum (w x : Nat) (acc : Nat) : Nat → Nat
  | 0 => acc
  | n + 1 => (accMac 2 false (rowSum w x acc n) (packedElem 2 w n) (packedElem 2 x n)).1

/-- Elements of block `kb` of a row. -/
def Job.blockLen (j : Job) (kb : Nat) : Nat := min 256 (j.k - 256 * kb)

/-- Pieces that a record and its scale byte lie in. -/
def Job.recPieces (j : Job) (r kb : Nat) : List Nat :=
  let a := j.recAt (r * j.rstr + kb)
  upFrom (a / 64) (j.recSize / 64) ++ (if j.scaled then [j.scaleAt r kb / 64] else [])

/-- The bytes of a record whose elements the product reads: of a final record, those of its first elements. An error in its
other bytes is not met (DESIGN CHOICE, log 95). -/
def Job.used (j : Job) (rec_ : List (Byte × Bool)) (kb : Nat) : List (Byte × Bool) :=
  rec_.take (ceilDiv (packBits j.fmt * j.blockLen kb) 8)

/-- The sum after one record, and whether its value was replaced for R47 or for an uncorrectable error. -/
def Job.addRecord (j : Job) (rec_ : List (Byte × Bool)) (sc : Option (Byte × Bool)) (kb acc : Nat) : Nat × Bool :=
  let n := j.blockLen kb
  let used := j.used rec_ kb
  let w := ofBytesLe (used.map (·.1))
  let x := ofBytesLe ((j.inp.drop (kb * j.recSize)).take j.recSize)
  if used.any (·.2) || (sc.map (·.2)).getD false then ((accAdd acc (qnan 1)).1, true)
  else if j.fmt = 2 then (rowSum w x acc n, false)
  else
    let sa := (sc.map (·.1)).getD 0
    let sb := j.inp2.getD kb 0
    let p := blockSum j.fmt w x n
    ((closeBlock j.fmt acc p sa sb).1, p.void || sa == 0x80 || sb == 0x80)

/-- The sole die that holds a byte of a core's device memory. -/
def CoreSt.soleOf (k : CoreSt) (dva : Nat) : Nat :=
  ((findPage k.tt dva).map fun e => leafDpa e.2 dva / (48 * 2 ^ 30)).getD 0

/-- A unit has met an uncorrectable error in the weight or scale byte at a DVA (05 R116). -/
def State.unitLost (s : State) (c dva : Nat) (lost : Bool) : State :=
  if lost then s.hubCount (offBustat ((s.core c).soleOf dva)) 32 32 1 else s

/-- Sum the next record of a bank product; the end of a row yields its element. -/
def State.jobRecord (s : State) (c : Nat) (j : Job) : State :=
  if j.rows * j.nb ≤ j.acts then s
  else
    let r := j.acts / j.nb
    let kb := j.acts % j.nb
    let s := (j.recPieces r kb).foldl (fun s p => s.jobPiece c (((s.core c).job j.id).getD j) p) s
    match (s.core c).job j.id with
    | none => s
    | some j =>
      let sc := if j.scaled then (j.held (j.scaleAt r kb) 1).map (·.head?) else some none
      match j.held (j.recAt (r * j.rstr + kb)) j.recSize, sc with
      | some rec_, some sc =>
        let (acc, poison) := j.addRecord rec_ sc kb j.sum.toNat
        let last := decide (kb + 1 = j.nb)
        let s := s.modJob c j.id fun x =>
          { x with
            acts := x.acts + 1
            sum := if last then 0 else BitVec.ofNat 32 acc
            buf := if last then x.buf ++ bytesLe 4 acc else x.buf }
        let s := if poison then s.jobPoison c j else s
        (s.unitLost c (j.recAt (r * j.rstr + kb)) ((j.used rec_ kb).any (·.2))).unitLost c (j.scaleAt r kb)
          ((sc.map (·.2)).getD false)
      | _, _ => s

/-- Read some piece of a bank product ahead: rows run in parallel across units. -/
def State.jobAhead (s : State) (c : Nat) (j : Job) (d : Nat) : State :=
  if j.op = .bgemv ∨ j.op = .bgemva then
    let ps := j.recPieces (Config.freeNat d % j.rows) (Config.freeNat (d + 1) % j.nb)
    s.jobPiece c j (ps.getD (Config.freeNat (d + 2) % ps.length) 0)
  else s

/-! ## Deliveries (05 R117, 06 R135) -/

/-- Bytes that a delivery at destination `d` may take next: in a scratchpad a whole number of aligned 8-byte units within a
burst of four beats; in the weight store an aligned 64-byte piece, which a load finds wholly old or wholly new
(04_device_memory.md R100); 0 when the next unit is not known yet. -/
def Job.chunk (j : Job) (i a d x : Nat) : Nat :=
  let avail := j.prod - i
  let run := j.outRun i
  let unit := if d = 513 then 64 else 8
  let need := min run (unit - a % unit)
  let m := min (min avail run) (if d < 512 then 512 - a % 128 else 64 - a % 64)
  if avail < need ∨ avail = 0 then 0
  else if j.op = .bgemva then 4
  else
    let y := 1 + x % m
    if y = m ∧ m = run then m else max need ((a + y) / 8 * 8 - a)

/-- Account bytes sent, and bytes delivered; bytes sent everywhere need no longer be kept. -/
def Job.moved (j : Job) (me d sent landed : Nat) : Job :=
  let snt := tblPut j.snt d (tblGet 0 j.snt d + sent)
  let low := (j.dests me).foldl (fun m x => min m (tblGet 0 snt x)) j.prod
  { j with
    snt := snt, land := tblPut j.land d (tblGet 0 j.land d + landed)
    buf := j.buf.drop (low - j.lo), lo := max j.lo low }

/-- Account a delivery at a destination, and end the job's turn on the channel with its last byte. -/
def State.landed (s : State) (c : Nat) (j : Job) (d sent n : Nat) : State :=
  let s := s.modJob c j.id fun x => x.moved c d sent n
  match (s.core c).job j.id with
  | some x => if x.total ≤ tblGet 0 x.land d then s.chanRelease c x d else s
  | none => s

/-- One addition of BGEMVA at a bank ALU (05 R115, 06 R140). -/
def State.bankAdd (s : State) (d a : Nat) (v : List Byte) : Bool × State :=
  let old := (s.core d).spRead a 4
  if old.any (·.2) then (true, s.modCore d fun k => { k with uce := satAdd k.uce 1 0xFFFF })
  else (false, s.spWrite d a (bytesLe 4 (fpAdd 1 0 (ofBytesLe (old.map (·.1))) (ofBytesLe v)).1))

/-- The beats of a burst after its first, one a cycle. -/
def laterBeats (src job ch : Nat) : Nat → Nat → Nat → List Byte → List Beat
  | 0, _, _, _ => []
  | n + 1, due, a, bs =>
    let m := min bs.length (128 - a % 128)
    if m = 0 then []
    else { due := due, addr := a, data := bs.take m, ch := ch, src := src, job := job } ::
      laterBeats src job ch n (due + 1) (a + m) (bs.drop m)

/-- Bytes have been written at destination `d` for a job of core `src`: they count on channel `ch` of core `c`, and for
the job. -/
def State.counted (s : State) (src job d c ch n : Nat) : State :=
  let s := s.chwAdd c ch n
  match (s.core src).job job with
  | some j => s.landed src j d 0 n
  | none => s

/-- Write a granted burst into a core's scratchpad: its first beat now, beat j in the j-th cycle, the banks held for its whole
span (06 R133). -/
def State.burstPut (s : State) (src job d ch a : Nat) (bs : List Byte) : State :=
  let m := min bs.length (128 - a % 128)
  let s := s.modCore d fun k =>
    { k.holdBanks a bs.length (beatsOf a bs.length) with
      beats := k.beats ++ laterBeats src job ch 4 (k.p + 1) (a + m) (bs.drop m) }
  (s.spWrite d a (bs.take m)).counted src job d d ch m

/-- A later beat of a burst is written. -/
def State.beatPut (s : State) (d : Nat) (b : Beat) : State := (s.spWrite d b.addr b.data).counted b.src b.job d d b.ch b.data.length

/-- The beats that are due in the coming cycle of a core. -/
def State.beatsDue (s : State) (d : Nat) : State :=
  let k := s.core d
  if k.beats.isEmpty then s
  else
    let s := s.setCore d { k with beats := k.beats.filter fun b => decide (k.p < b.due) }
    (k.beats.filter fun b => decide (b.due ≤ k.p)).foldl (fun s b => s.beatPut d b) s

/-- A burst of the channel is under way at a core. -/
def CoreSt.beating (k : CoreSt) (ch : Nat) : Bool := k.beats.any fun b => b.ch == ch

/-- Add one element of BGEMVA at the bank ALU of a core, for a job of core `src`. -/
def State.addPut (s : State) (src job d ch a : Nat) (bs : List Byte) : State :=
  let (bad, s) := (s.modCore d fun k => k.holdBanks a bs.length 2).bankAdd d a bs
  let s :=
    match (s.core src).job job with
    | some j => if bad then s.jobPoison src j else s
    | none => s
  s.counted src job d d ch bs.length

/-- Write a delivery into a core's scratchpad. -/
def State.bankPut (s : State) (src job d ch a : Nat) (bs : List Byte) (add : Bool) : State :=
  if add then s.addPut src job d ch a bs else s.burstPut src job d ch a bs

/-- Write bytes of the weight store of a die. -/
def State.wsPut (s : State) (die a : Nat) (bs : List Byte) : State :=
  let base := die * 2 ^ 28 + a
  { s with
    ws := tblSetRange 0 s.ws base bs
    wsBad := if s.wsBad.isEmpty then [] else s.wsBad.filter fun u => !(wholeUnits base bs.length).contains u }

/-- Deliver the next bytes of a job at a destination. A delivery in device memory is visible to the core's loads once it is
counted (06 R136). -/
def State.jobDeliver (s : State) (c : Nat) (j : Job) (d : Nat) : State :=
  let k := s.core c
  let i := tblGet 0 j.snt d
  let a := j.outAt i
  let (x, s) := s.draw
  let n := j.chunk i a d (Config.freeNat x)
  let bs := (j.buf.drop (i - j.lo)).take n
  if n = 0 || k.chanBusy c j d || !s.chanFree c j d || !k.mayWrite c j (destRange c d a n) then s
  else if d = 512 then
    let as := k.dpas a n
    if !s.reaches c as then s
    else
      let s := ((s.chanTake c j d).dvaWrite c a bs).modCore c fun k => k.dropData as
      (s.modJob c j.id fun x => x.moved c d n 0).counted c j.id d c j.ch n
  else if d = 513 then
    if s.wsOpen.contains (dieOf c, a / 2 ^ 23) then s
    else
      let s := (s.chanTake c j d).wsPut (dieOf c) a bs
      (s.modJob c j.id fun x => x.moved c d n 0).counted c j.id d c j.ch n
  else if d = c then
    if !k.banksFree a n || k.beating j.ch then s
    else ((s.chanTake c j d).modJob c j.id fun x => x.moved c d n 0).bankPut c j.id c j.ch a bs (j.op == .bgemva)
  else
    let s := s.chanTake c j d
    let m : Msg :=
      { id := s.nextMsg, src := c, dst := d, ch := j.ch, job := j.id, addr := a, data := bs
        add := j.op == .bgemva, marks := if i = 0 then j.marksAt c d else [] }
    ({ s with nextMsg := s.nextMsg + 1, msgs := s.msgs ++ [m] }).modJob c j.id fun x => x.moved c d n 0

/-- The last part of a write that has come over WSL has landed: its channel is free, and the sender has its reply
(21_links.md R372, R373). -/
def State.wslDone (s : State) (m : Msg) : State :=
  if m.src < 512 || s.msgs.any fun x => x.src == m.src && x.job == m.job then s
  else ({ s with chanLock := s.chanLock.filter (· != (m.dst, m.ch, m.src, m.job)) }).emit (.wslReply false 0)

/-- A remote write whose destination no path reaches any more is discarded (01_module.md R16): its job goes on, and nothing
counts at the destination (DEDUCED, log 96). -/
def State.msgLost (s : State) (m : Msg) : State :=
  match (s.core m.src).job m.job with
  | some j => s.landed m.src j m.dst 0 m.data.length
  | none => s.wslDone m

/-- The die that a remote write comes from; one that has come over WSL enters at the die of its port. -/
def Msg.site (m : Msg) : Nat := if m.src < 512 then dieOf m.src else m.src - 512

/-- A remote write is performed at its destination core (06 R140). DEDUCED (log 96). -/
def State.msgArrive (s : State) (id : Nat) : State :=
  match s.msgs.find? fun m => m.id == id with
  | none => s
  | some m =>
    let first := s.msgs.find? fun x => x.src == m.src && x.dst == m.dst && x.ch == m.ch
    let k := s.core m.dst
    let drop (s : State) : State := { s with msgs := s.msgs.filter fun x => x.id != id }
    if (first.map (·.id)) ≠ some id || s.pathHeld m.site (dieOf m.dst) then s
    else if !s.diesMeet m.site (dieOf m.dst) then (drop s).msgLost m
    else if !k.banksFree m.addr m.data.length || k.beating m.ch then s
    else (((drop s).mark m.dst m.marks).bankPut m.src m.job m.dst m.ch m.addr m.data m.add).wslDone m

/-! ## Atomics -/

/-- The next element of a RAMO job at the bank ALU of its core (06 R139, R146). -/
def State.ramoStep (s : State) (c : Nat) (j : Job) : State :=
  let k := s.core c
  let i := j.acts
  let a := j.w 0 0 19 + i * j.e
  let r : Range := { space := 1, who := j.dcore, lo := a, len := j.e }
  let order := j.dcore == c || (!k.chanBusy c j j.dcore &&
    s.msgs.all fun m => !(m.src == c && m.dst == j.dcore && m.ch == j.ch))
  if k.jobHeld j || j.op != .ramo || decide (j.elems ≤ i) || !order || !k.mayWrite c j r ||
      s.pathHeld (dieOf c) (dieOf j.dcore) then s
  else if !s.diesMeet (dieOf c) (dieOf j.dcore) then
    -- no path is left: as an uncorrectable read (01_module.md R16; DEDUCED, log 96)
    (s.jobPoison c j).modJob c j.id fun x =>
      { x with acts := x.acts + 1, buf := if j.noret then x.buf else x.buf ++ bytesLe j.e (atomicLost j.aop) }
  else if !(s.core j.dcore).banksFree a j.e || (s.core j.dcore).beating j.ch then s
  else
    let s := if i = 0 ∧ j.dcore ≠ c then s.mark j.dcore (j.marksAt c j.dcore) else s
    let s := s.modCore j.dcore fun k => k.holdBanks a j.e 2
    let ((old, lost), s) := s.spAtomic j.dcore j.aop a (j.operand i) (j.newVal i)
    let s := if lost then s.jobPoison c j else s
    s.modJob c j.id fun x =>
      { x with acts := x.acts + 1, buf := if j.noret then x.buf else x.buf ++ bytesLe j.e old }

/-- An atomic at the atomic unit of device-memory bytes: old value and loss (05 R120 to R122). -/
def State.memAtomic (s : State) (c : Nat) (as : List Nat) (op x new : Nat) : (Nat × Bool) × State :=
  let (old, s) := s.memReadFrom (dieOf c) as
  if old.any (·.2) then ((atomicLost op, true), s)
  else
    let v := ofBytesLe (old.map (·.1))
    ((v, false), s.memWriteFrom (dieOf c) (as.zip (bytesLe (atomicSize op) (atomicNew op v x new))))

/-- The next element of a BATOM job at its atomic unit. -/
def State.batomStep (s : State) (c : Nat) (j : Job) : State :=
  let k := s.core c
  let i := j.acts
  let a := j.src + i * j.e
  if k.jobHeld j || j.op != .batom || decide (j.elems ≤ i) ||
      !k.mayWrite c j { space := 3, who := 0, lo := a, len := j.e } || !s.reaches c (k.dpas a j.e) then s
  else
    let as := k.dpas a j.e
    let was := as.map fun a => (a, tblFind s.mem a)
    let ((old, lost), s) := s.memAtomic c as j.aop (j.operand i) (j.newVal i)
    let s := (if lost then s else s.maybeMiss c j (k.markerBehind j) was).modCore c fun q => q.engineWrote as
    let s :=
      if lost then (s.hubCount (offBustat (as.headD 0 / (48 * 2 ^ 30))) 32 32 1).jobPoison c j else s
    s.modJob c j.id fun x =>
      { x with acts := x.acts + 1, buf := if j.noret then x.buf else x.buf ++ bytesLe j.e old }

/-! ## Progress and the final status -/

/-- Deliver at one of a job's destinations. -/
def State.jobOut (s : State) (c : Nat) (j : Job) (d : Nat) : State :=
  let ds := j.dests c
  match ds[Config.freeNat d % ds.length]? with
  | some x => s.jobDeliver c j x
  | none => s

/-- One piece of work of a job: which, is free. DEDUCED (log 86). -/
def State.jobStep (s : State) (c id : Nat) (bank : Bool) : State :=
  let k := s.core c
  match k.job id with
  | none => s
  | some j =>
    if j.bank != bank || k.jobHeld j then s
    else
      let d := s.draws
      let s := { s with draws := d + 4 }
      match Config.freeNat d % 3 with
      | 0 => if bank then s.jobAhead c j (d + 1) else s.jobReadAhead c j (Config.freeNat (d + 1))
      | 1 => if j.op = .bgemv ∨ j.op = .bgemva then s.jobRecord c j else s.jobRead c j
      | _ => s.jobOut c j (d + 1)

/-- The final status of a job (05 R112, 06 R150). -/
def State.jobComplete (s : State) (c id : Nat) (bank : Bool) : State :=
  let k := s.core c
  match k.job id with
  | none => s
  | some j =>
    if j.bank != bank || k.jobHeld j || !j.allDone c || !k.mayWrite c j (j.c7 c) || !k.c7Free j then s
    else (s.endJob c j (if j.poison then 2 else 1) j.push).cpFinish c

/-! ## Meanings -/

def execCpJobDelivery (c j : Nat) (s : State) : Host.Outcome State Fault Refusal := .next (s.jobStep c j false)
def execBankJobDelivery (c j : Nat) (s : State) : Host.Outcome State Fault Refusal := .next (s.jobStep c j true)
def execCpJobComplete (c j : Nat) (s : State) : Host.Outcome State Fault Refusal := .next (s.jobComplete c j false)
def execBankJobComplete (c j : Nat) (s : State) : Host.Outcome State Fault Refusal := .next (s.jobComplete c j true)
def execRemoteWriteArrival (m : Nat) (s : State) : Host.Outcome State Fault Refusal := .next (s.msgArrive m)

def execAtomicUnitOp (c j : Nat) (s : State) : Host.Outcome State Fault Refusal :=
  match (s.core c).job j with
  | some x => .next (s.batomStep c x)
  | none => .next s

def execBankAluAtomic (c j : Nat) (s : State) : Host.Outcome State Fault Refusal :=
  match (s.core c).job j with
  | some x => .next (s.ramoStep c x)
  | none => .next s

end Sys2Proof.Machine
end

