-- ==== Sys2Proof/Machine/Cycle.lean ====
section
/-! DEFINITION. A cycle of a core: what it waits for, lap stalls, taking engine faults, the order of the
reads, accesses and writes of a cycle, counters, trace and the debugger (07_ring.md R151 to R164,
19_faults.md R333 to R336, 24_debug.md R399 to R404). -/
namespace Sys2Proof.Machine

/-! ## Causes of a lap stall (07_ring.md R159) -/

/-- The core as if it were not stalled, to ask what an engine would do. -/
def CoreSt.free (k : CoreSt) : CoreSt := { k with stall := none }

/-- The cursor of an engine with the instruction it stands at. -/
def CoreSt.standing (k : CoreSt) (e : Engine) : Option (Cursor × Instr) :=
  match (k.own.queue (engNo e)).run with
  | none => none
  | some r => (r.instr e).map fun i => (r, i)

/-- Queues that the word an engine would start finds empty. -/
def CoreSt.popWaits (k : CoreSt) (e : Engine) : List Nat :=
  match k.standing e with
  | none => []
  | some (r, i) =>
    if k.free.mayIssue e r i then
      ((r.pops (engNo e)).filter fun q => k.own.token q == 0).map (sideIndex (engNo e))
    else []

/-- Queues that finished words of an engine find full. -/
def CoreSt.pushWaits (k : CoreSt) (e : Engine) : List Nat :=
  (k.own.live.filter fun w => w.eng == e && w.ready).flatMap fun w =>
    (pushQueues w).filter fun q => decide (16 ≤ k.own.token q)

/-- Queues an engine waits on, from its side (24_debug.md R399). -/
def CoreSt.tokenWaits (k : CoreSt) (e : Engine) : List Nat := k.popWaits e ++ k.pushWaits e

def allEngines : List Engine := [.cp, .ld, .mx, .vx, .st]

/-- VX stands at a word that waits for the spill machine (10_reversible.md R217). -/
def CoreSt.stackWait (k : CoreSt) : Bool :=
  match k.standing .vx with
  | none => false
  | some (r, i) =>
    k.free.mayIssue .vx r i && (k.popWaits .vx).isEmpty &&
      (match i.vx? with | some (o, _, _) => k.own.stack.waits o | none => false)

/-- ld.vd data that have not arrived by their write cycle (08_load_store.md R182). -/
def CoreSt.lateData (k : CoreSt) : Bool :=
  k.own.flights.any fun f => f.eng == .ld && decide (f.w = k.own.sigma) && !f.quiet &&
    (match f.instr with | .ldVd _ _ => !f.arrived | _ => false)

/-- An exchange delivery to the core is late and has not landed (16_scheduling.md R322). -/
def State.exchangeWait (s : State) (c : Nat) : Bool :=
  s.tags.any fun t => t.2.recs.any fun r => decide (r.dstc = c) && r.late && decide (r.done < r.len)

/-- Engines that make an issue in this cycle. -/
def CoreSt.issuing (k : CoreSt) : List Engine :=
  allEngines.filter fun e =>
    match k.standing e with
    | none => false
    | some (r, i) => k.mayIssue e r i && (k.popWaits e).isEmpty

/-- The spill or refill that VX waits for has not had its use of port 8 (07_ring.md R159, R164). -/
def CoreSt.portWait (k : CoreSt) : Bool := k.stackWait && (k.move.map fun m => !m.port).getD false

/-- Everything that holds the core's schedule in this cycle. A late delivery holds it only when an engine would issue
(16_scheduling.md R322). -/
def State.causes (s : State) (c : Nat) : List Cause :=
  let k := s.core c
  let put (b : Bool) (x : Cause) : List Cause := if b then [x] else []
  put (allEngines.any fun e => !(k.tokenWaits e).isEmpty) .token ++ put (!k.grants.2.isEmpty) .bank ++
    put (s.refreshWait c) .refresh ++ put k.stackWait .stack ++ put k.portWait .port ++
    put (s.exchangeWait c && !k.free.issuing.isEmpty) .exchange ++
    put k.lateData .late ++ put k.holdFault .fault ++ put k.stop .stop ++ put k.repair.isSome .repair ++
    put (decide (0 < k.owed)) .gather ++ put (decide (0 < k.segLaps)) .segment

/-- The physical phase of the owner (R161). -/
def CoreSt.phase (k : CoreSt) : Nat := (k.p + 16 - k.own.off % 16) % 16

/-- The core stands at a lap boundary: of its stall, or of its ring. -/
def CoreSt.lapBoundary (k : CoreSt) : Bool :=
  match k.stall with
  | some st => decide (st.begin_ < k.p) && (k.p - st.begin_) % 16 == 0
  | none => k.phase == 0

/-! ## Engine faults -/

/-- No word follows on the engine: none of an entry that it runs, and no entry waits in its queue. -/
def CoreSt.ended (k : CoreSt) (e : Engine) : Bool :=
  let q := k.own.queue (engNo e)
  q.run.isNone && !(q.items.any QItem.isEntry)

/-- The engine crosses a command boundary in this cycle (19_faults.md R333). -/
def CoreSt.crosses (k : CoreSt) (e : Engine) : Bool :=
  match k.standing e with
  | none => false
  | some (r, i) => decide (r.issue = 0) && (isIllegal i || (k.mayIssue e r i && (k.popWaits e).isEmpty))

/-- A fault that has been detected in an earlier cycle is met outside a boundary: no word follows on its engine, or the core
is held already, when it is kept behind the record that is outstanding (R333, R336). -/
def CoreSt.faultLoose (k : CoreSt) (r : Record) : Bool :=
  r.cause != 0x01 && decide (r.det < k.p) && (k.holdFault || k.ended (engOf r.eng))

/-- A detected fault is taken in this cycle; `moves` says that nothing stalls it, so that boundaries are crossed. That of a
context whose engines another one has taken, at a fence in front of its next word, is taken when it owns them again. -/
def CoreSt.faultDue (k : CoreSt) (moves : Bool) (r : Record) : Bool :=
  k.owner.all (· == r.ctx) && (k.faultLoose r || (moves && (r.cause == 0x01 || (decide (r.det < k.p) && k.crosses (engOf r.eng)))))

def sortFaults (rs : List Record) : List Record := rs.foldl (fun l r => insertFault r l) []

/-- Nothing stalls the core in this cycle. -/
def State.moves (s : State) (c : Nat) : Bool := (s.core c).stall.isNone && (s.causes c).isEmpty

/-- Take the faults that are due: the first is posted, the others are kept behind it, and the core is
held (R334, R336), through a stall that is under way. -/
def State.takeFaults (s : State) (c : Nat) : State :=
  let k := s.core c
  let m := s.moves c
  let due := sortFaults (k.faults.filter (k.faultDue m))
  if due.isEmpty then s
  else
    let s := s.setCore c
      { k with
        faults := k.faults.filter fun r => !k.faultDue m r
        holdFault := true, release := false
        stall := k.stall.map fun st => if st.causes.contains .fault then st else { st with causes := .fault :: st.causes }
        cyc := { k.cyc with faultTaken := true } }
    due.foldl (fun s r =>
      s.postRecord { r with pc := (s.ctx c r.ctx).pc, heads := k.own.heads, tick := s.ftick }) s

/-- Whether every cause is a wait for a token. -/
def tokenOnly (cs : List Cause) : Bool := !cs.isEmpty && cs.all (· == .token)

/-- The token-deadlock fault (03_words.md R421): the first engine whose word waits on a token. The laps of the hold that
follows do not count toward the next one (DESIGN CHOICE, log 99). DESIGN CHOICE (log 109). -/
def State.tokenDeadlock (s : State) (c : Nat) : State :=
  let k := s.core c
  match k.stall, k.owner with
  | some st, some o =>
    if st.tokenLaps < 65536 ∨ k.holdFault then s
    else
      match allEngines.find? fun e => !(k.tokenWaits e).isEmpty with
      | none => s
      | some e =>
        let n := engNo e
        let b := s.blankRecord c o
        let full (w : LiveWord) : List Nat := (pushQueues w).filter fun q => decide (16 ≤ k.own.token q)
        -- the word that the record names, with the queues that it waits on
        let (r, qs) : Record × List Nat :=
          match (k.popWaits e).isEmpty, (k.own.queue n).run,
              k.own.live.find? fun w => w.eng == e && w.ready && !(full w).isEmpty with
          | false, some u, _ =>
            ({ b with
               gen := u.entry.gen, word := u.word, iter := u.iter, code := u.entry.code
               status := statusWord ((u.code.getD 0).extractLsb' 40 8) 0 0 u.word }, k.popWaits e)
          | _, _, some w =>
            ({ b with
               gen := w.gen, word := w.word, iter := w.iter, code := w.code, status := statusWord w.op 0 0 w.word },
             full w)
          | _, _, none => (b, [])
        let s := s.setCore c
          { k with
            holdFault := true, release := false, stall := some { st with tokenLaps := 0, causes := .fault :: st.causes }
            cyc := { k.cyc with faultTaken := true } }
        s.postRecord { r with cause := 0x0A, eng := n, addr := BitVec.ofNat 64 (20 + qs.foldl min 63), heads := k.own.heads }
  | _, _ => s

/-- The end of a fault hold at a lap boundary after the runtime has acted (R334). -/
def State.releaseHold (s : State) (c : Nat) : State :=
  let k := s.core c
  if k.release && k.lapBoundary then s.setCore c { k with release := false, holdFault := false } else s

/-- Count the lap that has just ended. -/
def State.countLap (s : State) (c : Nat) (st : Stall) : State :=
  let has (x : Cause) : Bool := st.causes.contains x
  let s := s.modCore c fun k =>
    { k with
      own := { k.own with slap := satAdd k.own.slap 1 (2 ^ 28 - 1) }
      lapCount := k.lapCount + 1
      bstall := if has .bank || has .gather then satAdd k.bstall 1 (2 ^ 20 - 1) else k.bstall
      rsSlap := if has .stack then satAdd k.rsSlap 1 0xFFFF else k.rsSlap
      owed := if has .gather then k.owed - 1 else k.owed
      segLaps := if has .segment then k.segLaps - 1 else k.segLaps }
  if has .refresh then s.hubCount (offWsstat (dieOf c)) 32 32 1 else s

/-- A stop ends at the first lap boundary after STOP is cleared (24_debug.md R402). -/
def State.stopEnds (s : State) (c : Nat) : State :=
  if (s.core c).stop && !bit (s.hubGet (offDbgctl c)).toNat 0 then
    (s.modCore c fun k => { k with stop := false }).hubField (offDbgctl c) 1 1 0
  else s

/-- The hold of a repair begins at the next lap boundary, where waiting instructions are given up, and ends at the first one at
which the repair is done (25_service.md R413). -/
def State.repairHold (s : State) (c : Nat) : State :=
  let k := s.core c
  if !k.lapBoundary then s
  else
    match k.repairDue with
    | some u => (upFrom 0 8).foldl (fun s i => s.unwait c i) (s.setCore c { k with repairDue := none, repair := some u })
    | none =>
      match k.repair with
      | some u => if u ≤ s.ftick then s.setCore c { k with repair := none } else s
      | none => s

/-- The accesses to scratchpad that have been granted their banks in this cycle, as moves that are due next. -/
def CoreSt.grantTurns (k : CoreSt) (c : Nat) : List Turn :=
  k.grants.1.flatMap fun id =>
    match k.own.flight id with
    | none => []
    | some f =>
      if f.banks.isEmpty then [] else if f.eng = .st then [Turn.event (.stWriteAccess c id)] else [.access c id]

/-- The end of a stalled lap: it is counted, and the stall ends when no cause holds (R159). When one of the accesses that wait
still finds its bank taken, those that do not are made (R133). DESIGN CHOICE (log 99). -/
def State.lapEnd (s : State) (c : Nat) : State :=
  match (s.core c).stall with
  | none => s
  | some st =>
    if !(s.core c).lapBoundary then s
    else
      let s := ((s.countLap c st).stopEnds c).repairHold c
      let cs := s.causes c
      let laps := if tokenOnly st.causes && tokenOnly cs then st.tokenLaps + 1 else 0
      let ts := if cs.contains .bank then (s.core c).grantTurns c else []
      (s.modCore c fun k =>
        { k with
          stall := if cs.isEmpty then none else some { begin_ := k.p, causes := cs, tokenLaps := laps } }).push ts

/-- The stop of a core at a lap boundary (24_debug.md R402). -/
def State.takeStop (s : State) (c : Nat) : State :=
  let k := s.core c
  if !bit (s.hubGet (offDbgctl c)).toNat 0 || k.stop || !k.lapBoundary then s
  else
    let s := s.modCore c fun k => { k with stop := true }
    let s := (upFrom 0 8).foldl (fun s i => s.unwait c i) s
    let s := s.hubField (offDbgctl c) 1 1 1
    s.hubPut (offDbghead c)
      (BitVec.ofNat 64 ((upFrom 0 5).foldl (fun a e => a + (k.own.heads.getD e 0 % 4096) <<< (12 * e)) 0))

/-! ## The turns of a pulse -/

/-- Begin a lap stall; accesses to scratchpad and transfer beats of it that are granted their banks in the cycle of a bank
conflict are made (08_load_store.md R181, 20_program_rotation.md R358). -/
def State.beginStall (s : State) (c : Nat) (cs : List Cause) : State :=
  let k := s.core c
  let beats := if cs.contains .bank && !k.own.xfers.isEmpty then [Turn.beat c .ld, .beat c .st] else []
  let ts := if cs.contains .bank then k.grantTurns c else []
  let s := s.setCore c
    { k with
      stall := some { begin_ := k.p, causes := cs, tokenLaps := 0 }
      cyc := { k.cyc with stallBegan := true } }
  s.push (beats ++ ts ++ [.event (.cycle c)])

/-- Engines that stand before an illegal word whose fault is not yet detected. -/
def CoreSt.atIllegal (k : CoreSt) : List Engine :=
  allEngines.filter fun e =>
    match k.standing e with
    | none => false
    | some (r, i) =>
      isIllegal i && decide (r.issue = 0) && (e != .mx || k.own.mx.isNone) &&
        (e != .cp || !k.cpBusy 0) && !(k.faults.any fun f => f.cause == 0x01 && f.eng == engNo e)

/-- The class of an engine that makes no issue in this cycle, with the counter of the queue it waits on (24_debug.md R399). -/
def CoreSt.waitClass (k : CoreSt) (e : Engine) : Nat × Nat :=
  let q := k.own.queue (engNo e)
  let ws := k.tokenWaits e
  if !ws.isEmpty then (1, 20 + ws.foldl min 39)
  else if k.owner.isNone || (q.run.isNone && !(q.items.any QItem.isEntry)) then (2, 0)
  else (3, 0)

/-- Note what each engine waits for at the beginning of a cycle. -/
def CoreSt.noteClasses (k : CoreSt) : CoreSt :=
  { k with cyc := { k.cyc with classes := allEngines.map fun e => (engNo e, k.waitClass e) } }

/-- One delivered pulse at a core that no stall holds: faults that are due are taken, and the engines issue, or a stall
begins. -/
def State.pulseFree (s : State) (c : Nat) : State :=
  let k := s.core c
  let cs := s.causes c
  if bit (s.hubGet (offDbgctl c)).toNat 0 && !k.stop && k.lapBoundary then s.push [.event (.debugStopTake c), .pulse c]
  else if cs.isEmpty && !k.atIllegal.isEmpty then s.push ((k.atIllegal.map fun e => Turn.engine c e) ++ [.pulse c])
  else if k.faults.any (k.faultDue cs.isEmpty) then s.push [.event (.engineFaultTaken c), .pulse c]
  else
    let s := s.modCore c CoreSt.noteClasses
    if cs.isEmpty then s.push ((k.issuing.map fun e => Turn.engine c e) ++ [.settle c]) else s.beginStall c cs

/-- One delivered pulse at a core in a lap stall. -/
def State.pulseStalled (s : State) (c : Nat) (st : Stall) : State :=
  let k := s.core c
  if k.lapBoundary then
    s.push ((if k.release then [Turn.event (.holdRelease c)] else []) ++
      [.event (.debugStopTake c), .event (.lapStallEnd c), .pulse c])
  else if k.faults.any (k.faultDue false) then s.push [.event (.engineFaultTaken c), .pulse c]
  else
    let s := s.modCore c CoreSt.noteClasses
    if 65536 ≤ st.tokenLaps ∧ !k.holdFault then s.push [.event (.tokenDeadlockFault c), .event (.cycle c)]
    else s.push [.event (.cycle c)]

/-- One delivered pulse at a core: what it does now, as moves that are due next. -/
def State.pulse (s : State) (c : Nat) : State :=
  let s := if (s.core c).stall.isNone then s.repairHold c else s
  let s := s.prep c
  match (s.core c).stall with
  | some st => s.pulseStalled c st
  | none => s.pulseFree c

/-- The reads, accesses and writes that are due in a cycle, in their order. -/
def State.settle (s : State) (c : Nat) : State :=
  let o := s.own c
  let t := o.sigma
  let ids (p : Flight → Bool) : List Nat := (o.flights.filter p).map (·.id)
  let reads := ids fun f => f.eng == .vx && ((f.reads.any fun r => r.due == t && r.got.isNone) || f.x == t)
  let lsReads := ids fun f => f.eng != .vx && f.reads.any fun r => r.due == t && r.got.isNone
  let st := ids fun f => f.eng == .st && (f.acc == some t || decide (f.w = t))
  let ld := ids fun f => f.eng == .ld && f.acc == some t
  let vx := ids fun f => f.eng == .vx && ((f.x == t && !f.arrived) || f.w == t || f.w2 == t)
  let lw := ids fun f => f.eng == .ld && f.w == t
  let ends := [Engine.ld, Engine.st].filter fun e => o.xfers.any fun x => x.eng == e
  let mx :=
    match o.mx with
    | none => []
    | some run =>
      if (s.core c).replayDue then [Turn.event (.mxReplay c)]
      else if run.start + run.dur ≤ t + 1 then [Turn.event (.mxIssueEnd c)] else []
  s.push
    ((reads.map fun i => Turn.event (.vxSourceRead c i)) ++ (lsReads.map fun i => Turn.event (.stSlotRead c i)) ++
      (if o.xfers.isEmpty then [] else [.beat c .ld, .beat c .st]) ++
      (st.map fun i => Turn.event (.stWriteAccess c i)) ++ (ld.map fun i => Turn.access c i) ++
      (vx.map fun i => Turn.event (.vxResultWrite c i)) ++ (lw.map fun i => Turn.event (.ldSlotWrite c i)) ++
      (ends.map fun e => Turn.event (.transferComplete c e)) ++ mx ++ [.finish c])

/-- The words that finish in a cycle. -/
def State.finish (s : State) (c : Nat) : State :=
  s.push (((s.core c).finishing false).map (fun i => Turn.event (.wordFinish c i)) ++ [.event (.cycle c)])

/-! ## Counters and trace -/

/-- The class of an engine in this cycle (24_debug.md R399), as it stood at the beginning of the cycle. -/
def CoreSt.classOf (k : CoreSt) (e : Engine) : Nat :=
  if (tblFind k.cyc.issued (engNo e)).isSome then 0 else (tblGet (k.waitClass e) k.cyc.classes (engNo e)).1

/-- Counters that count in this cycle, by their index. DEDUCED (log 37). -/
def CoreSt.counting (k : CoreSt) : List Nat :=
  allEngines.flatMap fun e =>
    let cl := k.classOf e
    [4 * engNo e + cl] ++ (if cl = 1 then [(tblGet (k.waitClass e) k.cyc.classes (engNo e)).2] else [])

/-- RINGPH of the owner (R162). -/
def CoreSt.ringph (k : CoreSt) : Word :=
  BitVec.ofNat 64 (k.own.slap <<< 36 + (k.own.sigma / 16 % 2 ^ 32) <<< 4 + k.phase)

/-- A trace condition (24_debug.md R403). DEDUCED (log 37). -/
def State.traceCond (s : State) (c : Nat) (r : Word) : Bool :=
  let k := s.core c
  let arg := wfld r 0 52
  match wfld r 61 3 with
  | 1 => k.cyc.places.any fun e => e.2 == arg
  | 2 => k.qhEn && !k.qhFrz && k.counting.contains (arg % 64) && decide (20 ≤ arg % 64)
  | 3 => k.cyc.stallBegan
  | 4 => decide (arg % 2 ^ 48 ≤ s.ftick)
  | 5 => k.cyc.faultTaken
  | 6 => true
  | _ => false

/-- Capture a cycle: a full buffer overwrites its oldest record under WRAP, and captures nothing more
otherwise (24_debug.md R404). -/
def CoreSt.capture (k : CoreSt) (ftick : Nat) : CoreSt :=
  let r : TraceRec :=
    { ringph := k.ringph, ftick := ftick, words := k.cyc.issued
      classes := BitVec.ofNat 10 (allEngines.foldl (fun a e => a + k.classOf e <<< (2 * engNo e)) 0) }
  if k.trace.length < 1024 then { k with trace := k.trace ++ [r] }
  else if k.trWrap then { k with trace := k.trace.drop 1 ++ [r] }
  else k

/-- The trace in a cycle (24_debug.md R404). -/
def State.traceCycle (s : State) (c : Nat) : State :=
  let k := s.core c
  if !k.trEn then s
  else
    let a := s.traceCond c k.trStart
    let p := s.traceCond c k.trStop
    let k' := if k.trAct || a then k.capture s.ftick else k
    s.setCore c { k' with trAct := if k.trAct then !p else a && !p }

/-! ## The debugger (R164, 19_faults.md R357) -/

/-- Port 8 is free for the debugger in this cycle: no image is saved or restored, and no move of the spill machine asks for it
(R164). -/
def CoreSt.portFree (k : CoreSt) : Bool := !k.cyc.port && k.swap.isNone && k.move.all fun m => m.port

/-- The tiles that an MX word writes. -/
def mxTilesOut (op : MxOp) (p : MxFields) : List Nat :=
  match op with
  | .mtrn | .mcpy | .mfil | .mrcv => [p.t.toNat]
  | .mswp => [p.t.toNat, p.a.toNat]
  | _ => []

/-- The tiles that a tile word of LD loads, one an issue. -/
def ldTilesOut (op : LdOp) (f : Frame) (p : LsFields) : List Nat :=
  match op with
  | .t | .tw | .td | .sc | .tr => (upFrom 0 (f.rep.toNat + 1)).map fun i => (p.slot.toNat + if p.sa then i else 0) % 8
  | _ => []

/-- An outstanding word of LD or MX writes a tile: issues of it are left, or have not ended (19_faults.md R357). -/
def LiveWord.writesTile (w : LiveWord) (t : Nat) : Bool :=
  (!w.issued || decide (0 < w.pending)) &&
    (match w.eng, (decodeWord w.eng w.bits).ld?, (decodeWord w.eng w.bits).mx? with
     | .ld, some (op, f, p), _ => (ldTilesOut op f p).contains t
     | .mx, _, some (op, _, p) => (mxTilesOut op p).contains t
     | _, _, _ => false)

/-- An MX word that has not finished writes an accumulator. -/
def LiveWord.writesAcc (w : LiveWord) (a : Nat) : Bool :=
  w.eng == .mx &&
    (match (decodeWord .mx w.bits).mx? with
     | some (op, _, p) => mxWrites op && (if p.acc then 1 else 0) == a
     | none => false)

/-- A VX word writes a guard, among those that issue `i` of it names. -/
def vxWritesGuard (op : VxOp) (p : VxFields) (g i : Nat) : Bool :=
  let q := vxStepped op p i
  let two := op == .ceq || op == .cne || op == .clt || op == .cle || op == .cgt || op == .cge || op == .cun || op == .ccl
  let one := op == .gand || op == .gor || op == .gxor || op == .gandn || op == .gmov || op == .vtog
  ((two || one) && decide (q.d.toNat % 8 = g)) || (two && decide (q.c.toNat % 8 = g))

/-- An outstanding word writes a guard: an ld.gd that has not ended, or a VX word before the end of cycle x of its last
issue. -/
def LiveWord.writesGuard (w : LiveWord) (fs : List Flight) (g : Nat) : Bool :=
  let d := decodeWord w.eng w.bits
  match w.eng, d.vx?, d.ld? with
  | .vx, some (op, f, p), _ =>
    (!w.issued || fs.any fun x => x.live == w.id && !x.arrived) &&
      (upFrom 0 (f.rep.toNat + 1)).any (vxWritesGuard op p g)
  | .ld, _, some (.gd, f, p) =>
    (!w.issued || decide (0 < w.pending)) &&
      (upFrom 0 (f.rep.toNat + 1)).any fun i => (p.slot.toNat + if p.sa then i else 0) % 8 == g
  | _, _, _ => false

/-- An issue in flight writes a guard, at the end of its cycle x or with its load. -/
def Flight.writesGuard (f : Flight) (g : Nat) : Bool :=
  match f.instr.vx?, f.instr.ld? with
  | some (op, h, p), _ => !f.arrived && (upFrom 0 (h.rep.toNat + 1)).any (vxWritesGuard op p g)
  | _, some (.gd, h, p) => (upFrom 0 (h.rep.toNat + 1)).any fun i => (p.slot.toNat + if p.sa then i else 0) % 8 == g
  | _, _ => false

/-- A transfer or an MX issue under way writes a tile, also when its word has been abandoned (R345). -/
def Own.writesTile (o : Own) (t : Nat) : Bool :=
  (o.live.any fun w => w.writesTile t) || (o.xfers.any fun x => x.eng == .ld && x.tile == t) ||
    o.mx.any fun m => (m.instr.mx?.map fun y => (mxTilesOut y.1 y.2.2).contains t).getD false

/-- An MX word that has not finished, or an issue of one under way, writes an accumulator. -/
def Own.writesAcc (o : Own) (a : Nat) : Bool :=
  (o.live.any fun w => w.writesAcc a) ||
    o.mx.any fun m => (m.instr.mx?.map fun y => mxWrites y.1 && (if y.2.2.acc then 1 else 0) == a).getD false

/-- A request can be served in this cycle. -/
def CoreSt.debugReady (k : CoreSt) (r : DebugReq) : Bool :=
  let o := k.own
  let port (n : Nat) : Bool := (n + k.phase) % 16 == 8 && k.portFree
  match r with
  | .readSlot n => port n
  | .write (.slot n _ _) =>
    port n && !(o.flights.any fun f =>
      f.eng == .ld && decide (f.d = n) && (match f.instr with | .ldGd _ _ => false | _ => true))
  | .write (.tileByte t _ _) => !o.writesTile t
  | .write (.accElem a _ _) => !o.writesAcc a
  | .write (.guard g _) => !(o.live.any fun w => w.writesGuard o.flights g) && !(o.flights.any fun f => f.writesGuard g)

/-- The request takes port 8. -/
def DebugReq.usesPort : DebugReq → Bool
  | .readSlot _ => true
  | .write (.slot _ _ _) => true
  | _ => false

/-- Serve a request. DESIGN CHOICE (log 108). -/
def State.debugServe (s : State) (c : Nat) (r : DebugReq) : State :=
  let s := if r.usesPort then s.modCore c fun k => { k with cyc := { k.cyc with port := true } } else s
  match r with
  | .readSlot n => let v := (s.own c).slot n; s.emit (.slotData c n v.data v.tag)
  | .write (.slot n d t) => s.modOwn c fun o => o.setSlot n { data := d, tag := t, bad := [] }
  | .write (.tileByte t a v) => s.modOwn c fun o => o.setTile t ((o.tile t).put a [v])
  | .write (.accElem a i v) =>
    s.modOwn c fun o => o.setAcc a ((o.acc a).put (i / 256) (i % 256) v.toNat)
  | .write (.guard g v) => s.modOwn c fun o => o.setGuard g v

/-- Serve the requests that this cycle allows, each port use once a cycle; the others wait. -/
def State.debugServes (s : State) (c : Nat) : List DebugReq → State
  | [] => s
  | r :: rs =>
    if (s.core c).debugReady r then State.debugServes (s.debugServe c r) c rs
    else State.debugServes (s.modCore c fun k => { k with dbg := k.dbg ++ [r] }) c rs

def State.debugCycle (s : State) (c : Nat) : State :=
  let k := s.core c
  if k.dbg.isEmpty then s else (s.setCore c { k with dbg := [] }).debugServes c k.dbg

/-! ## The end of a cycle -/

/-- A switch is made at the end of this cycle (19_faults.md R349). A fault of the owner that has been detected
is taken first. -/
def CoreSt.switchNow (k : CoreSt) : Option (BitVec 10) :=
  match (k.own.queue 0).items.head? with
  | some (.fence n _) =>
    if k.stall.isNone && k.swap.isNone && k.switchPending n && k.own.mxPoint && !k.own.inFlight && k.own.live.isEmpty &&
        k.faults.isEmpty then k.own.atFence n
    else none
  | _ => none

/-- Ownership passes without a fence (19_faults.md R348): nobody owns the engines; or the owner has nothing in
any queue. It waits for a lap stall to end, so that a stall lasts whole laps (07_ring.md R160). -/
def CoreSt.passNow (k : CoreSt) : Bool :=
  k.nextOwner.isSome && k.stall.isNone && k.swap.isNone &&
    (match k.owner with
     | none => !k.own.inFlight
     | some o =>
       let x := k.ctx o
       x.saveb.getLsbD 0 && k.own.idle && !k.own.inFlight && k.own.live.isEmpty && k.own.mxPoint && !k.holdFault && k.faults.isEmpty &&
         (match x.trapped with
          | none => true
          | some t => decide (0x20 ≤ t.r.cause.toNat)))

/-- The save and restore of a change of owner take a cycle (07_ring.md R163). -/
def CoreSt.swapCycle (k : CoreSt) : CoreSt := { k with swap := k.swap.map fun w => { w with left := w.left - 1 } }

/-- A change of owner has had all its cycles. -/
def CoreSt.swapDone (k : CoreSt) : Bool := (k.swap.map fun w => w.left == 0).getD false

/-- The end of a cycle: counters, trace and debugger, then the rotation and the schedule move on, and with the next cycle
come the beats of granted bursts. -/
def State.cycleEnd (s : State) (c : Nat) : State :=
  let s := s.modCore c fun k =>
    if k.qhEn && !k.qhFrz then
      { k with qh := k.counting.foldl (fun t i => tblSet 0 t i (satAdd (tblGet 0 t i) 1 (2 ^ 48 - 1))) k.qh }
    else k
  let s := (s.traceCycle c).debugCycle c
  let s := s.modCore c fun k =>
    let k :=
      { k with
        p := k.p + 1
        own := if k.stall.isNone && (k.owner.isSome || k.own.inFlight) then { k.own with sigma := k.own.sigma + 1 } else k.own
        bursts := k.bursts.filter fun b => decide (k.p + 1 < b.until_)
        cyc := .empty }
    (if k.owner.isNone && !k.own.inFlight then { k with own := .freshWith k.own.win } else k).swapCycle
  let s := s.beatsDue c
  let k := s.core c
  if k.passNow || k.swapDone then s.push [.event (.ownershipPass c)]
  else if k.switchNow.isSome then s.push [.event (.contextSwitch c)]
  else s

/-! ## Meanings -/

def execWordFinish (c id : Nat) (s : State) : Host.Outcome State Fault Refusal := .next (s.finishWord c id)
def execLapStallEnd (c : Nat) (s : State) : Host.Outcome State Fault Refusal := .next (s.lapEnd c)
def execTokenDeadlockFault (c : Nat) (s : State) : Host.Outcome State Fault Refusal := .next (s.tokenDeadlock c)
def execEngineFaultTaken (c : Nat) (s : State) : Host.Outcome State Fault Refusal := .next (s.takeFaults c)
def execHoldRelease (c : Nat) (s : State) : Host.Outcome State Fault Refusal := .next (s.releaseHold c)
def execDebugStopTake (c : Nat) (s : State) : Host.Outcome State Fault Refusal := .next (s.takeStop c)
def execCycle (c : Nat) (s : State) : Host.Outcome State Fault Refusal := .next (s.cycleEnd c)

/-- R164. The read waits for the cycle in which the slot passes port 8. -/
def execDebugSlotRead (c slot : Nat) (s : State) : Host.Outcome State Fault Refusal :=
  let k := s.core c
  if k.debugReady (.readSlot slot) then .next (s.debugServe c (.readSlot slot))
  else .next (s.setCore c { k with dbg := k.dbg ++ [.readSlot slot] })

/-- R357. The write waits for the outstanding writers of its target. -/
def execDebugWrite (c : Nat) (target : DebugTarget) (s : State) : Host.Outcome State Fault Refusal :=
  let k := s.core c
  if k.debugReady (.write target) then .next (s.debugServe c (.write target))
  else .next (s.setCore c { k with dbg := k.dbg ++ [.write target] })

/-- R402. The debugger's agent sets STOP; the core stops at its next lap boundary. -/
def execDbgctlStop (c : Nat) (s : State) : Host.Outcome State Fault Refusal :=
  .next (s.hubField (offDbgctl c) 0 1 1)

/-- Contexts that HALT.D has stopped go on (12_sequencer.md R287). -/
def State.unhalt (s : State) (c : Nat) : State :=
  (upFrom 0 8).foldl (fun s k =>
    match (s.ctx c k).wait with
    | .halted _ => s.modCtx c k fun x => { x with wait := .none }
    | _ => s) s

/-- R402. STOP is cleared; a stopped core goes on at its next lap boundary. -/
def execDbgctlRelease (c : Nat) (s : State) : Host.Outcome State Fault Refusal :=
  .next ((s.unhalt c).hubField (offDbgctl c) 0 1 0)

/-- R64. NOP. -/
def execEngineNop (_f : Frame) (s : State) : Host.Outcome State Fault Refusal :=
  match s.at_ with
  | .engine c e => .next (s.issueNop c e)
  | _ => .fault .noAgent

/-- R64. A cell that is ignored acts as NOP. -/
def execEngineIgnoredWord (_lo : BitVec 4) (_f : Frame) (_p : BitVec 28) (s : State) :
    Host.Outcome State Fault Refusal :=
  match s.at_ with
  | .engine c e => .next (s.issueNop c e)
  | _ => .fault .noAgent

/-- R63. The illegal-word trap. -/
def execIllegalWord (w : EWord) (sub : BitVec 2) (s : State) : Host.Outcome State Fault Refusal :=
  match s.at_ with
  | .engine c e => .next (s.illegalWordTrap c e w sub)
  | _ => .fault .noAgent

end Sys2Proof.Machine
end

