-- ==== Sys2Proof/Machine/Switch.lean ====
section
/-! DEFINITION. Engine ownership, the save image and its restore (12_sequencer.md R262, 19_faults.md R347 to
R351, 07_ring.md R163, 10_reversible.md R231, 11_matrix.md R259). -/
namespace Sys2Proof.Machine

/-! ## Owner registers as words -/

/-- RSTK (10_reversible.md R213) with a given ON. -/
def Stack.word (k : Stack) (on : Nat) : Word :=
  BitVec.ofNat 64 (k.cap <<< 48 + on <<< 32 + k.depth)

/-- RSMARK (R215). -/
def Stack.markWord (k : Stack) : Word :=
  BitVec.ofNat 64 ((upFrom 0 4).foldl (fun a i => a + (k.mark i).toNat <<< (16 * i)) 0)

def Stack.setMarks (k : Stack) (v : Word) : Stack :=
  { k with marks := (upFrom 0 4).foldl (fun t i => tblSet 0 t i (v.extractLsb' (16 * i) 16)) k.marks }

/-- MXSTAT (11_matrix.md R241). -/
def Own.mxstat (o : Own) : Word :=
  let a := o.acc 0
  let b := o.acc 1
  BitVec.ofNat 64
    (b2n a.form + b2n b.form <<< 1 + a.kpos <<< 8 + b.kpos <<< 16 + a.dep <<< 32 + b.dep <<< 46)

/-- RQSTAT (09_vector.md R210). -/
def Own.rqstat (o : Own) : Word := BitVec.ofNat 64 (o.rq.length + b2n o.rqOvf <<< 5)

/-- MSHP of a tile (11_matrix.md R235). -/
def Tile.mshp (t : Tile) : Word :=
  BitVec.ofNat 64 (t.width.toNat + t.rows.toNat <<< 8 + t.tag.toNat <<< 16)

/-! ## The image (R351) -/

/-- The record word of an entry (12_sequencer.md R264). -/
def Entry.word0 (e : Entry) : Nat := e.code.toNat + ((e.words - 1) % 4096) <<< 52

/-- The 96 bytes of a queue item. -/
def QItem.image (i : QItem) : List Byte :=
  match i with
  | .entry e =>
    bytesLe 8 e.word0 ++
      bytesLe 8 ((e.iters - 1) % 65536 + e.gen.toNat <<< 16 + e.mode.toNat <<< 24) ++
      (e.es.flatMap fun w => bytesLe 8 w.toNat) ++ bytesLe 4 e.fork ++ bytesLe 12 0
  | .fence _ m => bytesLe 8 0 ++ bytesLe 8 (1 <<< 28) ++ bytesLe 68 0 ++ bytesLe 2 m.toNat ++ bytesLe 10 0
  | .qalign _ => bytesLe 8 0 ++ bytesLe 8 (2 <<< 28) ++ bytesLe 80 0
  | .bank _ _ => bytesLe 8 0 ++ bytesLe 8 (3 <<< 28) ++ bytesLe 80 0
  | .seg _ => bytesLe 8 0 ++ bytesLe 8 (4 <<< 28) ++ bytesLe 80 0

/-- A queue image: 72 records, of kind 15 after the last used. -/
def queueImage (is : List QItem) : List Byte :=
  (is.take 72).flatMap QItem.image ++
    (List.replicate (72 - is.length) (bytesLe 8 0 ++ bytesLe 8 (15 <<< 28) ++ bytesLe 80 0)).flatten

/-- The pieces of the save image: offset, bytes, and lost 8-byte units. -/
def Own.image (o : Own) (phase : Nat) (numSt : BitVec 7) (mask : BitVec 10) (on : Nat) :
    List (Nat × List Byte × List Nat) :=
  let seg := o.seg
  let high := (upFrom 0 on).map fun i => tblFind o.stack.ents (o.stack.cap + i)
  let head :=
    [numSt.toNat, (o.stack.word on).toNat, o.stack.markWord.toNat, o.mxstat.toNat,
     o.slap <<< 36 + (o.sigma / 16 % 2 ^ 32) <<< 4 + phase, o.rqstat.toNat, mask.toNat,
     (seg.map fun g => g.expect.toNat + 2 ^ 32).getD 0, (seg.map fun g => g.count % 2 ^ 32).getD 0]
  let crc := (upFrom 0 5).flatMap fun e => bytesLe 4 ((seg.map fun g => (tblGet 0xFFFFFFFF g.crc e).toNat).getD 0)
  let tile (i : Nat) : List (Nat × List Byte × List Nat) :=
    if mask.getLsbD i then
      let t := o.tile i
      [(0x10000 + 0x8000 * i, tblRange 0 t.bytes 0 0x8000, t.bad),
       (0x50000 + 0x200 * i, tblRange 0 t.scales 0 0x200, t.badScales)]
    else []
  let acc (i : Nat) : List (Nat × List Byte × List Nat) :=
    if mask.getLsbD (8 + i) then
      let a := o.acc i
      [(0x60000 + 0x20000 * i, (tblRange 0 a.elems 0 32768).flatMap fun w => bytesLe 4 w.toNat, a.bad.map (· / 2))]
    else []
  [(0, (head.flatMap (bytesLe 8)) ++ crc ++ bytesLe 4 0, []),
   (0x60, o.esList.flatMap fun w => bytesLe 8 w.toNat, []),
   (0xA0, (upFrom 0 8).flatMap fun i => bytesLe 8 (o.guard i).toNat, []),
   (0xE0, (upFrom 0 8).flatMap fun i => bytesLe 8 (o.tile i).mshp.toNat, []),
   (0x120, (upFrom 0 48).map fun i => BitVec.ofNat 8 (if i < 40 then o.token i else 0), []),
   (0x150, (upFrom 0 16).flatMap fun i =>
      match o.rq[i]? with
      | some r => bytesLe 8 r.value.toNat ++ bytesLe 8 (r.tag.toNat + r.gen.toNat <<< 8)
      | none => bytesLe 16 0, []),
   (0x250, ((upFrom 0 16).map fun i => (o.slot i).tag.setWidth 8) ++ List.replicate (0x1000 - 0x260) 0, []),
   (0x1000, (upFrom 0 5).flatMap fun e => queueImage (o.queue e).items, []),
   (0x1000 + 34560, List.replicate (0xA000 - 0x1000 - 34560) 0, []),
   (0xA000, (upFrom 0 16).flatMap fun i => bytesLe 128 (o.slot i).data.toNat,
      (upFrom 0 16).flatMap fun i => (o.slot i).bad.map fun u => 16 * i + u),
   (0xA800, List.replicate 0x800 0, []),
   (0xB000, (high.flatMap fun e => bytesLe 128 ((e.map (·.data.toNat)).getD 0)) ++
      List.replicate (128 * (48 - on)) 0,
      (upFrom 0 on).flatMap fun i => (((high.getD i none).map (·.bad)).getD []).map fun u => 16 * i + u),
   (0xC800, (high.flatMap fun e => bytesLe 8 ((e.map (·.metaWord)).getD 0)) ++ List.replicate (8 * (48 - on)) 0,
      (upFrom 0 on).filter fun i => ((high.getD i none).map (·.badMeta)).getD false),
   (0xC980, List.replicate (0x10000 - 0xC980) 0, []),
   (0x51000, List.replicate 0xF000 0, [])] ++
    (upFrom 0 8).flatMap tile ++ (upFrom 0 2).flatMap acc

/-- Base of the save image of a context. -/
def Ctx.imageBase (x : Ctx) : Nat := wfld x.saveb 12 40 <<< 12

/-- Bytes of a save image. -/
def imageSize : Nat := 0xA0000

/-- Write pieces of an image, with the marks of lost units. -/
def State.imageWrite (s : State) (c base : Nat) : List (Nat × List Byte × List Nat) → State
  | [] => s
  | (off, bs, bad) :: r =>
    let s := s.dvaWrite c (base + off) bs
    let marks := bad.flatMap fun u => ((s.core c).dpas (base + off + 8 * u) 1).map (· / 8)
    State.imageWrite { s with memBad := s.memBad ++ marks } c base r

/-- Save the owner (R231, R349): entries below CAP are spilled, the image is written, and what the image has
no place for is kept beside it. The MX window empties, which retires it (11_matrix.md R257). DEDUCED (log 21).
DEDUCED (log 34). -/
def State.saveOwner (s : State) (c : Nat) (mask : BitVec 10) : State :=
  match (s.core c).owner with
  | none => s
  | some o =>
    let base := (s.ctx c o).imageBase
    match (s.core c).check true base imageSize, (s.core c).check false base imageSize with
    | some f, _ => s.fatal c o 7 f.2
    | none, some f => s.fatal c o 7 f.2
    | none, none =>
      let spilled := ((s.own c).stack.ents.filter fun e => decide (e.1 < (s.own c).stack.cap)).length
      let (s, bad) := s.flushStack c
      match bad with
      | some a => s.fatal c o 6 a
      | none =>
        let w := s.own c
        let k := s.core c
        let on := w.stack.depth - w.stack.cap
        let s := s.imageWrite c base (w.image k.phase (k.ctx o).numSt mask on)
        let orders := (upFrom 0 5).foldl (fun t e =>
          (w.queue e).items.foldl (fun t i =>
            match i with
            | .entry x => tblPut t x.fork x.order
            | _ => t) t) []
        let s := s.modCtx c o fun x =>
          { x with
            saved := true, pins := x.pins.map fun e => { e with soft := true }, orders := orders
            side := some
              { profile := Config.profile, gates := w.gates, seg := w.seg, base := w.stack.base, hold := w.stack.hold
                qgates := (upFrom 0 5).foldl (fun t e => tblSet 0 t e (w.queue e).gate) [] } }
        s.modCore c fun k =>
          -- the emptied window retires at once (11_matrix.md R257), and each spilled entry has its use of port 8
          let k : CoreSt :=
            { k with stages := k.stages.map fun g => if g.ctx = o then { g with accs := [] } else g }
          { k.stageSweep with
            owner := none, own := .freshWith (tblErase w.win 2)
            swap := some { next := 8, left := 16 + spilled } }

/-! ## Restore -/

/-- A word of an image. -/
def imgWord (m : List Byte) (off n : Nat) : Nat := ofBytesLe ((m.drop off).take n)

/-- A queue item from its record; `n` numbers the item, `bank` gives the scopes of bank markers in order. -/
def readItem (m : List Byte) (off ctx n : Nat) (orders : Tbl Nat) (scope : BitVec 3) (bankId : Nat) (close : Bool) :
    Option QItem :=
  let w0 := imgWord m off 8
  let w1 := imgWord m (off + 8) 8
  match fld w1 28 4 with
  | 0 =>
    let fork := imgWord m (off + 80) 4
    some (.entry
      { id := n, ctx := ctx, code := BitVec.ofNat 52 w0, words := fld w0 52 12 + 1, iters := fld w1 0 16 + 1
        gen := BitVec.ofNat 8 (fld w1 16 8), mode := BitVec.ofNat 4 (fld w1 24 4), fork := fork
        order := tblGet 0 orders fork
        es := (upFrom 0 8).map fun i => BitVec.ofNat 64 (imgWord m (off + 16 + 8 * i) 8) })
  | 1 => some (.fence n (BitVec.ofNat 10 (imgWord m (off + 84) 2)))
  | 2 => some (.qalign n)
  | 3 => some (.bank bankId scope)
  | 4 => some (.seg close)
  | _ => none

/-- How many of each marker kind have been read. -/
structure ItemCount where
  fences : Nat
  qaligns : Nat
  banks : Nat
  deriving DecidableEq, Repr

/-- The items of a queue image. Markers of one kind pair across the queues by their order, so they take
numbers from a block by kind and rank; entries take a number of their own. -/
def readItems (m : List Byte) (base ctx id0 e : Nat) (side : SaveSide) (orders : Tbl Nat) :
    Nat → Nat → ItemCount → Bool → List QItem
  | 0, _, _, _ => []
  | fuel + 1, r, k, open_ =>
    let off := base + 96 * r
    let kind := fld (imgWord m (off + 8) 8) 28 4
    let pending := side.gates.filter fun g =>
      !(if e = 0 then g.cpCrossed else if e = 1 then g.ldCrossed else g.stCrossed)
    let g := pending[k.banks]?
    let n :=
      match kind with
      | 1 => id0 + k.fences
      | 2 => id0 + 100 + k.qaligns
      | _ => id0 + 200 + 100 * e + r
    match readItem m off ctx n orders ((g.map (·.scope)).getD 0) ((g.map (·.id)).getD 0) open_ with
    | none => []
    | some i =>
      let k :=
        match kind with
        | 1 => { k with fences := k.fences + 1 }
        | 2 => { k with qaligns := k.qaligns + 1 }
        | 3 => { k with banks := k.banks + 1 }
        | _ => k
      i :: readItems m base ctx id0 e side orders fuel (r + 1) k (open_ || kind == 4)

/-- A tile from an image. -/
def readTile (m : List Byte) (bad : List Nat) (mask : BitVec 10) (i : Nat) : Tile :=
  let sh := imgWord m (0xE0 + 8 * i) 8
  let t : Tile :=
    { Tile.reset with rows := BitVec.ofNat 8 (fld sh 8 8), width := BitVec.ofNat 8 (fld sh 0 8) }
  if mask.getLsbD i then
    let lo := 0x10000 + 0x8000 * i
    let so := 0x50000 + 0x200 * i
    { t with
      tag := BitVec.ofNat 4 (fld sh 16 4)
      bytes := tblSetRange 0 [] 0 ((m.drop lo).take 0x8000)
      scales := tblSetRange 0 [] 0 ((m.drop so).take 0x200)
      bad := (bad.filter fun u => decide (lo / 8 ≤ u) && decide (u < lo / 8 + 4096)).map (· - lo / 8)
      badScales := (bad.filter fun u => decide (so / 8 ≤ u) && decide (u < so / 8 + 64)).map (· - so / 8) }
  else t

/-- The 4-byte elements of an accumulator's image. -/
def readElems : Nat → List Byte → Nat → Tbl (BitVec 32) → Tbl (BitVec 32)
  | 0, _, _, t => t
  | n + 1, m, i, t =>
    readElems n (m.drop 4) (i + 1) (tblSet 0 t i (BitVec.ofNat 32 (ofBytesLe (m.take 4))))

def readAcc (m : List Byte) (bad : List Nat) (mask : BitVec 10) (mxstat i : Nat) : Acc :=
  let lo := 0x60000 + 0x20000 * i
  let a : Acc :=
    { Acc.reset with
      form := bit mxstat i, kpos := fld mxstat (8 + 8 * i) 8, dep := fld mxstat (32 + 14 * i) 14 }
  if mask.getLsbD (8 + i) then
    { a with
      elems := readElems 32768 (m.drop lo) 0 []
      bad := (bad.filter fun u => decide (lo / 8 ≤ u) && decide (u < lo / 8 + 16384)).flatMap fun u =>
        [2 * (u - lo / 8), 2 * (u - lo / 8) + 1] }
  else a

/-- The owner state that an image holds. -/
def readOwn (m : List Byte) (bad : List Nat) (ctx id0 : Nat) (side : SaveSide) (orders : Tbl Nat) (p : Nat)
    (win : Tbl (List WinRec)) : Own :=
  let w (i : Nat) : Nat := imgWord m (8 * i) 8
  let mask := BitVec.ofNat 10 (w 6)
  let on := fld (w 1) 32 7
  let cap := fld (w 1) 48 16
  let phase := fld (w 4) 0 4
  let slot (i : Nat) : Slot :=
    { data := BitVec.ofNat 1024 (imgWord m (0xA000 + 128 * i) 128)
      tag := BitVec.ofNat 4 (imgWord m (0x250 + i) 1)
      bad := (bad.filter fun u => decide (0x1400 + 16 * i ≤ u) && decide (u < 0x1410 + 16 * i)).map
        (· - (0x1400 + 16 * i)) }
  let ent (i : Nat) : RemEnt :=
    let x := imgWord m (0xC800 + 8 * i) 8
    { data := BitVec.ofNat 1024 (imgWord m (0xB000 + 128 * i) 128), tag := BitVec.ofNat 16 x
      gen := BitVec.ofNat 8 (x >>> 16), abn := bit x 24, id := 0, writer := 0
      bad := (bad.filter fun u => decide (0x1600 + 16 * i ≤ u) && decide (u < 0x1610 + 16 * i)).map
        (· - (0x1600 + 16 * i))
      badMeta := bad.contains (0x1900 + i) }
  let stack : Stack :=
    ({ cap := cap, depth := fld (w 1) 0 16, marks := [], base := side.base, hold := side.hold
       ents := (upFrom 0 on).map fun i => (cap + i, ent i) } : Stack).setMarks (BitVec.ofNat 64 (w 2))
  { Own.reset with
    ring := (upFrom 0 16).foldl (fun t i => tblSet Slot.zero t i (slot i)) []
    g := (upFrom 1 7).foldl (fun t i => tblSet 0 t i (BitVec.ofNat 64 (imgWord m (0xA0 + 8 * i) 8))) []
    es := (upFrom 0 8).foldl (fun t i => tblSet 0 t i (BitVec.ofNat 64 (imgWord m (0x60 + 8 * i) 8))) []
    off := (p + 16 - phase) % 16
    sigma := fld (w 4) 4 32 * 16 + phase
    slap := fld (w 4) 36 28
    tiles := (upFrom 0 8).foldl (fun t i => tblSet Tile.reset t i (readTile m bad mask i)) []
    accs := (upFrom 0 2).foldl (fun t i => tblSet Acc.reset t i (readAcc m bad mask (w 3) i)) []
    stack := stack
    tokens := (upFrom 0 40).foldl (fun t i => tblSet 0 t i (imgWord m (0x120 + i) 1)) []
    rq := (upFrom 0 (fld (w 5) 0 5)).map fun i =>
      { value := BitVec.ofNat 64 (imgWord m (0x150 + 16 * i) 8)
        tag := BitVec.ofNat 4 (imgWord m (0x158 + 16 * i) 1), gen := BitVec.ofNat 8 (imgWord m (0x159 + 16 * i) 1) }
    rqOvf := bit (w 5) 5
    q := (upFrom 0 5).foldl (fun t e =>
      tblSet EngQ.empty t e
        { EngQ.empty with
          items := readItems m (0x1000 + 6912 * e) ctx id0 e side orders 72 0 { fences := 0, qaligns := 0, banks := 0 }
            ((side.seg.map fun g => g.opened.contains e).getD false)
          gate := tblGet 0 side.qgates e }) []
    win := win
    seg := if bit (w 7) 32 then
        some
          { id := (side.seg.map (·.id)).getD 1, expect := BitVec.ofNat 32 (w 7), count := w 8 % 2 ^ 32
            crc := (upFrom 0 5).foldl (fun t e => tblPut t e (BitVec.ofNat 32 (imgWord m (0x48 + 4 * e) 4))) []
            opened := (side.seg.map (·.opened)).getD [], closed := (side.seg.map (·.closed)).getD []
            words := (side.seg.map (·.words)).getD [] }
      else none
    gates := side.gates }

/-- What stands beside an image that has nothing beside it. -/
def SaveSide.none : SaveSide := { profile := Config.profile, gates := [], qgates := [], seg := Option.none, base := 0, hold := false }

/-- Re-pin soft lines one by one: those still present, while the level has lockable capacity for them. -/
def State.repinEach (s : State) (c k : Nat) : List Pin → State
  | [] => s
  | e :: r =>
    let here := if e.die then s.dlines.contains (dieOf c, e.line) else (tblFind (s.core c).icache e.line).isSome
    let ls := s.locked c e.die
    if here && (ls.contains e.line || decide (ls.length < lockable e.die)) then
      State.repinEach (s.modCtx c k fun x => { x with pins := x.pins.map fun p => if p = e then { p with soft := false } else p })
        c k r
    else
      State.repinEach (s.modCtx c k fun x => { x with pins := x.pins.filter (· != e), lost := true }) c k r

/-- Re-pin the lines that are still present when a context is restored (12_sequencer.md R284). -/
def State.repin (s : State) (c k : Nat) : State := s.repinEach c k ((s.ctx c k).pins.filter (·.soft))

/-- Restore a saved context as owner (R348). A lost unit in the control part of its image is an error in
control state (R352); an image that a module of another profile has saved is a fatal context error (22_assembler.md R392).
DEDUCED (log 26). DEDUCED (log 34). DESIGN CHOICE (log 105). -/
def State.restoreOwner (s : State) (c k : Nat) : State :=
  let x := s.ctx c k
  let base := x.imageBase
  match (s.core c).check true base imageSize, (s.core c).check false base imageSize with
  | some f, _ => s.fatal c k 7 f.2
  | none, some f => s.fatal c k 7 f.2
  | none, none =>
    if (x.side.getD SaveSide.none).profile ≠ Config.profile then s.fatal c k 7 base
    else
    let (bs, s) := s.dvaRead c base imageSize
    let bad := (upFrom 0 (imageSize / 8)).filter fun u => ((bs[8 * u]?).map (·.2)).getD false
    if bad.any fun u => decide (u < 0x1400) then s.fatal c k 8 0
    else
      let q := s.core c
      let side := x.side.getD SaveSide.none
      let own := readOwn (bs.map (·.1)) bad k q.nextJob side x.orders q.p (tblErase q.own.win 2)
      let s := s.setCore c { q with owner := some k, own := own, nextJob := q.nextJob + 800 }
      let s := s.modCtx c k fun y => { y with want := Option.none, saved := false, side := Option.none, orders := [] }
      let s := s.repin c k
      if x.aband then (s.modCtx c k fun y => { y with aband := false }).abandon c k else s

/-- A context becomes the owner: restored when it was saved, else at reset values with its phase at 0
(R161, R348). DESIGN CHOICE (log 105). -/
def State.seat (s : State) (c k : Nat) : State :=
  if (s.ctx c k).saved then s.restoreOwner c k
  else
    (s.modCore c fun q =>
      { q with owner := some k, own := { Own.freshWith (tblErase q.own.win 2) with off := q.p % 16 } }).modCtx c k
      fun y => { y with want := Option.none }

/-- Ownership goes to a context: at once, or after the cycles that the save of the last owner and its own restore take
through port 8 (R163). The count at which it resumes is the hardware's to pick (a free value). -/
def State.takeOwnership (s : State) (c k : Nat) : State :=
  let (d, s) := s.draw
  let load := if (s.ctx c k).saved then 16 + Config.freeNat d % 16 else 0
  let left := ((s.core c).swap.map (·.left)).getD 0 + load
  if left = 0 then s.seat c k else s.modCore c fun q => { q with swap := some { next := k, left := left } }

/-- Give ownership to the next waiting context. -/
def State.giveOwnership (s : State) (c : Nat) : State :=
  match (s.core c).nextOwner with
  | some k => if (s.core c).owner.isNone then s.takeOwnership c k else s
  | none => s

/-- A change of owner ends; a context that no longer waits for ownership does not take it. -/
def State.swapEnd (s : State) (c : Nat) : State :=
  match (s.core c).swap with
  | none => s
  | some w =>
    let s := s.modCore c fun q => { q with swap := none }
    let x := s.ctx c w.next
    if w.left ≠ 0 ∨ (s.core c).owner.isSome then s
    else if x.live && x.want.isSome then s.seat c w.next
    else s

/-- Ownership passes without a fence (R348). The mask is that of the most recent PREPT. -/
def State.passOwnership (s : State) (c : Nat) : State :=
  let k := s.core c
  if k.swapDone then s.swapEnd c
  else if !k.passNow then s
  else
    match k.owner with
    | none => s.giveOwnership c
    | some o => (s.saveOwner c (k.ctx o).prept).giveOwnership c

/-- The switch at a fence (R349). What is saved is what stands behind the fence, so that the restored engines
have passed it. -/
def State.switchContext (s : State) (c : Nat) : State :=
  match (s.core c).switchNow with
  | some mask =>
    ((s.modCore c fun k => (upFrom 0 5).foldl (fun k e => k.modQ e EngQ.pass) k).saveOwner c mask).giveOwnership c
  | none => s

def execOwnershipPass (c : Nat) (s : State) : Host.Outcome State Fault Refusal := .next (s.passOwnership c)
def execContextSwitch (c : Nat) (s : State) : Host.Outcome State Fault Refusal := .next (s.switchContext c)

/-- An instruction of R262: the context is, or at once becomes, the owner; or it waits, and executes again
(R348). None when it waits. DEDUCED (log 55). -/
def State.acquire (s : State) (c k : Nat) : Bool × State :=
  let q := s.core c
  if q.owner = some k then (true, s)
  else
    let s :=
      if (s.ctx c k).want.isSome then s
      else (s.setCore c { q with waitNo := q.waitNo + 1 }).modCtx c k fun y => { y with want := some q.waitNo }
    if q.owner.isNone && !q.own.inFlight && q.swap.isNone && q.stall.isNone && q.waiters.all (· == k) then
      let s := s.takeOwnership c k
      ((s.core c).owner == some k, s)
    else (false, s)

end Sys2Proof.Machine
end

