-- ==== Sys2Proof/Machine/Scalar.lean ====
section
/-! DEFINITION. The scalar base of the sequencer (12_sequencer.md R260): arithmetic, loads, stores, branches,
fences and traps, with the store buffer and the scalar data cache (14_consistency.md R294). -/
namespace Sys2Proof.Machine

/-! ## Arithmetic of RV64IM -/

/-- The low half of a word, sign-extended. -/
def sextW (v : Word) : Word := (v.setWidth 32).signExtend 64

def divS {n : Nat} (a b : BitVec n) : BitVec n := if b = 0 then BitVec.allOnes n else a.sdiv b
def divU {n : Nat} (a b : BitVec n) : BitVec n := if b = 0 then BitVec.allOnes n else a / b
def remS {n : Nat} (a b : BitVec n) : BitVec n := if b = 0 then a else a.srem b
def remU {n : Nat} (a b : BitVec n) : BitVec n := if b = 0 then a else a % b

/-- A register-register operation. -/
def RrOp.eval (o : RrOp) (a b : Word) : Word :=
  let sh := b.toNat % 64
  let shw := b.toNat % 32
  let aw := a.setWidth 32
  let bw := b.setWidth 32
  match o with
  | .add => a + b
  | .sub => a - b
  | .sll => a <<< sh
  | .slt => if a.slt b then 1 else 0
  | .sltu => if a < b then 1 else 0
  | .xor => a ^^^ b
  | .srl => a >>> sh
  | .sra => a.sshiftRight sh
  | .or => a ||| b
  | .and => a &&& b
  | .addw => sextW (a + b)
  | .subw => sextW (a - b)
  | .sllw => (aw <<< shw).signExtend 64
  | .srlw => (aw >>> shw).signExtend 64
  | .sraw => (aw.sshiftRight shw).signExtend 64
  | .mul => a * b
  | .mulh => BitVec.ofInt 64 (a.toInt * b.toInt / 2 ^ 64)
  | .mulhsu => BitVec.ofInt 64 (a.toInt * (b.toNat : Int) / 2 ^ 64)
  | .mulhu => BitVec.ofNat 64 (a.toNat * b.toNat / 2 ^ 64)
  | .div => divS a b
  | .divu => divU a b
  | .rem => remS a b
  | .remu => remU a b
  | .mulw => sextW (a * b)
  | .divw => (divS aw bw).signExtend 64
  | .divuw => (divU aw bw).signExtend 64
  | .remw => (remS aw bw).signExtend 64
  | .remuw => (remU aw bw).signExtend 64

def ImmOp.eval (o : ImmOp) (a : Word) (i : BitVec 12) : Word :=
  let b := i.signExtend 64
  match o with
  | .addi => a + b
  | .slti => if a.slt b then 1 else 0
  | .sltiu => if a < b then 1 else 0
  | .xori => a ^^^ b
  | .ori => a ||| b
  | .andi => a &&& b
  | .addiw => sextW (a + b)

def ShOp.eval (o : ShOp) (a : Word) (sh : BitVec 6) : Word :=
  let n := sh.toNat
  let w := a.setWidth 32
  match o with
  | .slli => a <<< n
  | .srli => a >>> n
  | .srai => a.sshiftRight n
  | .slliw => (w <<< (n % 32)).signExtend 64
  | .srliw => (w >>> (n % 32)).signExtend 64
  | .sraiw => (w.sshiftRight (n % 32)).signExtend 64

def BranchOp.taken (o : BranchOp) (a b : Word) : Bool :=
  match o with
  | .beq => a == b
  | .bne => a != b
  | .blt => a.slt b
  | .bge => !a.slt b
  | .bltu => decide (a < b)
  | .bgeu => !decide (a < b)

/-- An upper immediate. -/
def upper (i : BitVec 20) : Word := (i ++ (0 : BitVec 12)).signExtend 64

/-- Destination and value of a SCALAR_ALU form. -/
def AluForm.eval (a : AluForm) (x : Ctx) : BitVec 5 × Word :=
  match a with
  | .rr o rd r1 r2 => (rd, RrOp.eval o (x.reg r1) (x.reg r2))
  | .imm o rd r1 i => (rd, ImmOp.eval o (x.reg r1) i)
  | .shift o rd r1 n => (rd, ShOp.eval o (x.reg r1) n)
  | .lui rd i => (rd, upper i)
  | .auipc rd i => (rd, x.pc + upper i)

/-! ## Moving on -/

/-- The context goes on behind the instruction. -/
def Ctx.next (x : Ctx) : Ctx := { x with pc := x.pc + 4, wait := .none }

def State.seqNext (s : State) (c k : Nat) : State := s.modCtx c k Ctx.next

/-- Write rd and go on. -/
def State.seqDone (s : State) (c k : Nat) (rd : BitVec 5) (v : Word) : State :=
  s.modCtx c k fun x => (x.setReg rd v).next

/-- Wait inside an instruction. -/
def State.seqWait (s : State) (c k : Nat) (w : Wait) : State := s.modCtx c k fun x => { x with wait := w }

/-- Run a sequencer instruction for the context whose instruction it is. DESIGN CHOICE (log 87). -/
def asSeq (f : Nat → Nat → State → State) (s : State) : Host.Outcome State Fault Refusal :=
  match s.at_ with
  | .seq c k => .next (f c k s)
  | _ => .fault .noAgent

/-! ## Addresses -/

/-- The window of R132. -/
def inWindow (a : Nat) : Bool := decide (0xFFFFFFFF80000 ≤ a) && decide (a < 2 ^ 52)

/-- A byte as the latest of the given stores to it leaves it, if one covers it. A store to a channel pointer word changes
nothing (06_copy_scratchpad.md R131). -/
def forwarded (st : List BufStore) (scratch : Bool) (a : Nat) : Option Byte :=
  if scratch && decide (0x7FFC0 ≤ a) then none
  else st.reverse.findSome? fun b =>
    if b.scratch = scratch ∧ b.addr ≤ a ∧ a < b.addr + b.data.length then b.data[a - b.addr]? else none

/-- A store that another task of the core has published covers one of the bytes: a load waits until it has reached its home,
where alone it becomes visible (14_consistency.md R292, R294, R299). -/
def CoreSt.loadHeld (q : CoreSt) (k : Nat) (as : List Nat) : Bool :=
  (q.posted ++ (q.ctxs.filter fun x => x.1 != k).flatMap fun x => x.2.stores).any fun b => b.fenced && b.covers as

/-- Lay stores over bytes read. -/
def forwardAll (st : List BufStore) (scratch : Bool) : List Nat → List Byte → List Byte
  | a :: as, b :: bs => (forwarded st scratch a).getD b :: forwardAll st scratch as bs
  | _, _ => []

/-- How a sequencer access of scratchpad or device memory goes. -/
inductive Access where
  /-- the bytes, with the mark of an uncorrectable error -/
  | bytes (bs : List Byte) (bad : Bool)
  /-- the old bytes of a pending word, behind which the trap is taken (06_copy_scratchpad.md R142) -/
  | pending (bs : List Byte)
  /-- it waits for its bank -/
  | retry
  /-- a trap or a fatal error has been taken -/
  | ended
  deriving DecidableEq, Repr

/-- Read scratchpad through the window (06_copy_scratchpad.md R132, R133, R142). -/
def State.windowRead (s : State) (c k a n : Nat) : Access × State :=
  let o := a % 2 ^ 19
  let q := s.core c
  if !q.banksFree o n then (.retry, s)
  else
    let bs := q.spRead o n
    let v := forwardAll (q.ctx k).stores true (upFrom o n) (bs.map (·.1))
    (if bs.any (·.2) then .bytes v true else if (q.pendingAt o n).isSome then .pending v else .bytes v false,
      s.modCore c fun q => q.holdBanks o n 1)

/-- The cache line of physical bytes. -/
def lineOf (as : List Nat) : Nat := as.headD 0 / 64

/-- Lines that the scalar data cache holds: 32 KiB of 64 bytes (01_module.md R25). -/
def dataLines : Nat := 512

/-- Hold a line of the scalar data cache; when all places are taken, a free one of them goes (DESIGN CHOICE, log 5). -/
def CoreSt.holdData (q : CoreSt) (d line : Nat) (bs : List Byte) (cls : BitVec 3) : CoreSt :=
  let dc :=
    if (tblFind q.dcache line).isSome then q.dcache
    else
      match evicted (q.dcache.map (·.1)) [] dataLines d with
      | some k => tblErase q.dcache k
      | none => q.dcache
  { q with dcache := tblPut dc line (bs, cls), dstale := q.dstale.filter (· != line) }

/-- Fill or refresh a line of the scalar data cache from its home. -/
def State.fillLine (s : State) (c line : Nat) (cls : BitVec 3) : State :=
  let (bs, s) := s.look c .sequencer (upFrom (64 * line) 64)
  if bs.any (·.2) then s.modCore c fun q => { q with dcache := tblErase q.dcache line }
  else s.modCore c fun q => q.holdData s.draws line (bs.map (·.1)) cls

/-- Read device memory through the scalar data cache (14 R294, 04_device_memory.md R87): a line that is
present may serve the load; otherwise the load reads at its home and may fill the line. DEDUCED (log 53). -/
def State.cachedRead (s : State) (c : Nat) (as : List Nat) (cls : BitVec 3) : List (Byte × Bool) × State :=
  let line := lineOf as
  let home (s : State) (fill : Bool) : List (Byte × Bool) × State :=
    let (bs, s) := s.look c .sequencer as
    (bs, if fill then s.fillLine c line cls else s)
  let (d, s) := s.draw
  match tblFind (s.core c).dcache line with
  | some (bs, _) => if Config.freeBool d then ((as.map fun a => (bs.getD (a % 64) 0, false)), s) else home s true
  | none => home s (Config.freeBool d)

/-- A load of a naturally aligned word (R260). -/
def State.seqRead (s : State) (c k a n : Nat) : Access × State :=
  if a % n ≠ 0 then (.ended, s.misaligned c k (BitVec.ofNat 64 a))
  else if inWindow a then s.windowRead c k a n
  else
    let q := s.core c
    match q.check false a n with
    | some f => (.ended, s.fatalCheck c k f)
    | none =>
      let as := q.dpas a n
      if q.loadHeld k as || !s.wayOpen c as then (.retry, s)
      else
        let (bs, s) := s.cachedRead c as (q.scopeAt a)
        (.bytes (forwardAll (s.ctx c k).stores false as (bs.map (·.1))) (bs.any (·.2)), s)

/-- A load lost to an uncorrectable error: rd takes a value and the trap is taken at the instruction (R130,
R282). -/
def State.poisoned (s : State) (c k a : Nat) (rd : BitVec 5) (v : Word) : State :=
  (s.modCtx c k fun x => x.setReg rd v).seqTrap c k 0x22 0 (BitVec.ofNat 64 a)

def LoadWidth.bytes : LoadWidth → Nat
  | .b | .bu => 1 | .h | .hu => 2 | .w | .wu => 4 | .d => 8

/-- Extend a loaded value. -/
def LoadWidth.extend (w : LoadWidth) (v : Nat) : Word :=
  match w with
  | .b => sext64 8 v
  | .h => sext64 16 v
  | .w => sext64 32 v
  | _ => BitVec.ofNat 64 v

def StoreWidth.bytes : StoreWidth → Nat
  | .b => 1 | .h => 2 | .w => 4 | .d => 8

/-- R294. A sequencer load. -/
def State.seqLoad (s : State) (c k : Nat) (w : LoadWidth) (rd rs1 : BitVec 5) (imm : BitVec 12) : State :=
  let a := ((s.ctx c k).reg rs1 + imm.signExtend 64).toNat
  match s.seqRead c k a (LoadWidth.bytes w) with
  | (.bytes bs bad, s) =>
    if bad then s.poisoned c k a rd 0 else s.seqDone c k rd (LoadWidth.extend w (ofBytesLe bs))
  | (.pending bs, s) =>
    (s.modCtx c k fun x => x.setReg rd (LoadWidth.extend w (ofBytesLe bs))).seqTrap c k 0x23 0 (BitVec.ofNat 64 a)
  | (_, s) => s

/-- Buffer a store of a context. DEDUCED (log 6). -/
def State.buffer (s : State) (c k : Nat) (scratch : Bool) (a cls : Nat) (bs : List Byte) : State :=
  let (d, s) := s.draw
  let q := s.core c
  (s.setCore c { q with nextJob := q.nextJob + 1 }).modCtx c k fun x =>
    { x with stores := x.stores ++
        [{ id := q.nextJob, scratch := scratch, addr := a, data := bs, cls := cls, fenced := false, born := d, since := 0 }] }

/-- R294. A sequencer store. DEDUCED (log 7). -/
def State.seqStore (s : State) (c k : Nat) (w : StoreWidth) (rs1 rs2 : BitVec 5) (imm : BitVec 12) : State :=
  let x := s.ctx c k
  let a := (x.reg rs1 + imm.signExtend 64).toNat
  let n := StoreWidth.bytes w
  let bs := bytesLe n (x.reg rs2).toNat
  if a % n ≠ 0 then s.misaligned c k (BitVec.ofNat 64 a)
  else if inWindow a then (s.buffer c k true (a % 2 ^ 19) 1 bs).seqNext c k
  else
    let q := s.core c
    match q.check true a n with
    | some f => s.fatalCheck c k f
    | none => (s.buffer c k false ((q.dpas a n).headD 0) (q.scopeAt a).toNat bs).seqNext c k

/-- Write bytes of device memory, and update the lines of the own core that hold them. -/
def State.storeHome (s : State) (c : Nat) (a : Nat) (bs : List Byte) : State :=
  let s := s.memWriteFrom (dieOf c) ((upFrom a bs.length).zip bs)
  s.modCore c fun q =>
    match tblFind q.dcache (a / 64) with
    | some (l, cls) => { q with dcache := tblPut q.dcache (a / 64) (overlay l (a % 64) bs, cls) }
    | none => q

/-- Take a store out of the stores on their way. -/
def CoreSt.dropStore (q : CoreSt) (k i : Nat) : CoreSt :=
  { q with posted := q.posted.filter fun e => e.id != i }.setCtx k
    { q.ctx k with stores := (q.ctx k).stores.filter fun e => e.id != i }

/-- A buffered store reaches its home, after every earlier store of its task to the same bytes, and after the stores to them
that had been published to its core when it executed. DEDUCED (log 6). -/
def State.performStore (s : State) (c k i : Nat) : State :=
  let q := s.core c
  let own := (q.ctx k).stores
  let mine := if own.any fun b => b.id == i then own else q.posted
  match mine.find? fun b => b.id == i with
  | none => s
  | some b =>
    let earlier := mine.takeWhile fun e => e.id != i
    let clash := earlier.any fun e => e.scratch == b.scratch && overlaps e.addr e.data.length b.addr b.data.length
    let as := upFrom b.addr b.data.length
    let held := if b.scratch then !q.banksFree b.addr b.data.length else s.fencedStore c b.born as || !s.wayOpen c as
    if clash || held then s
    else
      let s := s.modCore c fun q => q.dropStore k i
      if b.scratch then (s.modCore c fun q => q.holdBanks b.addr b.data.length 1).spWrite c b.addr b.data
      else s.storeHome c b.addr b.data

/-! ## Fetch -/

/-- Fetch the instruction at a context's pc (R260): its bits, or none when the fetch is a fatal error, or waits. -/
def State.seqFetch (s : State) (c k : Nat) : Option (BitVec 32) × State :=
  let pc := (s.ctx c k).pc.toNat
  match (s.core c).check false pc 4 with
  | some f => (none, s.fatalCheck c k f)
  | none =>
    let (bs, s) := s.codeFetch c pc 4
    (bs.map fun b => BitVec.ofNat 32 (ofBytesLe b), s)

/-! ## Branches, fences and traps -/

/-- A branch or jump (R260): the target must be 4-byte aligned. -/
def State.jump (s : State) (c k : Nat) (rd : BitVec 5) (target : Word) : State :=
  if target.toNat % 4 ≠ 0 then s.misaligned c k target
  else s.modCtx c k fun x => { x.setReg rd (x.pc + 4) with pc := target }

def State.seqBranch (s : State) (c k : Nat) (j : JumpForm) : State :=
  let x := s.ctx c k
  match j with
  | .branch o r1 r2 i =>
    if BranchOp.taken o (x.reg r1) (x.reg r2) then s.jump c k 0 (x.pc + (i ++ (0 : BitVec 1)).signExtend 64)
    else s.seqNext c k
  | .jal rd i => s.jump c k rd (x.pc + (i ++ (0 : BitVec 1)).signExtend 64)
  | .jalr rd r1 i => s.jump c k rd ((x.reg r1 + i.signExtend 64) &&& ~~~1)

/-- Invalidate lines of pages whose class is DIE to SYSTEM, from the class's scope on; SYSTEM acts as DEVICE
(04_device_memory.md R87, R281). Lines that engines of the core have written since they were filled go at every scope, so that
a load finds what drained entries have written (R281, step 4). -/
def CoreSt.dropLines (k : CoreSt) (scope : Nat) : CoreSt :=
  { k with
    dcache := k.dcache.filter fun e =>
      !k.dstale.contains e.1 && (decide (e.2.2.toNat < 2) || decide (scope < min 3 e.2.2.toNat))
    dstale := [] }

/-- The scope at which a fence acts on a store: capped at the class of its page (R87). -/
def BufStore.fenceAt (b : BufStore) (scope : Nat) : Nat := if b.scratch then scope else min scope b.cls

/-- A fence waits for a store: one to scratchpad, or one that is to be visible beyond the core, which is so at its home
(14_consistency.md R294, R300). -/
def BufStore.delays (b : BufStore) (scope : Nat) : Bool :=
  if b.scratch then decide (1 ≤ scope) else decide (2 ≤ b.fenceAt scope)

/-- A fence publishes a store to the agents of its core, unless its page is of class TASK (04_device_memory.md R87). -/
def BufStore.publish (b : BufStore) (now : Nat) : BufStore :=
  if b.scratch || b.fenced || b.cls == 0 then b else { b with fenced := true, since := now }

/-- A byte of device memory lies in a page of class SYSTEM of a core's table. -/
def CoreSt.systemByte (q : CoreSt) (a : Nat) : Bool :=
  q.tt.any fun e =>
    let pa := wfld e.2 12 28 <<< 12
    wfld e.2 56 3 == 4 && decide (pa ≤ a) && decide (a < pa + 2 ^ pageBits (wfld e.2 4 3))

/-- The earlier stores of a context become visible at a scope: false while it waits for them (R281, step 2). The others are
published to the core, and at SYSTEM scope what the pages of class SYSTEM hold is visible to readers outside
(04_device_memory.md R87, 14_consistency.md R302). DEDUCED (log 52). -/
def State.storesVisible (s : State) (c k : Nat) (scope : Nat) : Bool × State :=
  if (s.ctx c k).stores.any fun b => b.delays scope then (false, s)
  else if scope = 0 then (true, s)
  else
    let (d, s) := s.draw
    let s := s.modCtx c k fun x => { x with stores := x.stores.map fun b => b.publish d }
    (true, if scope = 4 then s.reveal (s.core c).systemByte else s)

/-- FENCE.S at a scope: false while it waits for earlier stores of the context; it drops lines (R281). DEDUCED (log 52). -/
def State.fenceStep (s : State) (c k : Nat) (scope : Nat) : Bool × State :=
  match s.storesVisible c k scope with
  | (false, s) => (false, s)
  | (true, s) => (true, if scope = 0 then s else (s.modCore c fun q => q.dropLines scope).fenceMissed c)

/-- R281. DEDUCED (log 52). -/
def State.seqFence (s : State) (c k : Nat) (scope : Nat) : State :=
  match s.fenceStep c k scope with
  | (true, s) => s.seqNext c k
  | (false, s) => s

/-- FENCE.I (03_words.md R71): the context's stores are visible, and no earlier copy of code is used by what
is fetched after it. -/
def State.seqFenceI (s : State) (c k : Nat) : State :=
  if !(s.ctx c k).stores.isEmpty then s
  else
    (s.cores.foldl (fun s e => s.modCore e.1 fun q => { q with icache := q.icache.map fun l => (l.1, []) }) s).seqNext c k

/-! ## Meanings -/

def execScalarAlu (a : AluForm) (s : State) : Host.Outcome State Fault Refusal :=
  asSeq (fun c k s =>
    let r := AluForm.eval a (s.ctx c k)
    s.seqDone c k r.1 r.2) s

def execScalarLoad (w : LoadWidth) (rd rs1 : BitVec 5) (imm : BitVec 12) (s : State) :
    Host.Outcome State Fault Refusal := asSeq (fun c k s => s.seqLoad c k w rd rs1 imm) s

def execScalarStore (w : StoreWidth) (rs1 rs2 : BitVec 5) (imm : BitVec 12) (s : State) :
    Host.Outcome State Fault Refusal := asSeq (fun c k s => s.seqStore c k w rs1 rs2 imm) s

def execScalarBranchJump (j : JumpForm) (s : State) : Host.Outcome State Fault Refusal :=
  asSeq (fun c k s => s.seqBranch c k j) s

/-- R260. FENCE and FENCE.TSO act as FENCE.S SYSTEM; their fields are ignored. -/
def execFence (_imm : BitVec 12) (_rs1 _rd : BitVec 5) (s : State) : Host.Outcome State Fault Refusal :=
  asSeq (fun c k s => s.seqFence c k 4) s

def execEcall (s : State) : Host.Outcome State Fault Refusal := asSeq (fun c k s => s.seqTrap c k 0x24 0 0) s

def execEbreak (s : State) : Host.Outcome State Fault Refusal := asSeq (fun c k s => s.seqTrap c k 0x25 0 0) s

def execFenceI (_imm : BitVec 12) (_rs1 _rd : BitVec 5) (s : State) : Host.Outcome State Fault Refusal :=
  asSeq (fun c k s => s.seqFenceI c k) s

/-- R76. The illegal-instruction trap. -/
def execIllegalInstruction (w : BitVec 32) (s : State) : Host.Outcome State Fault Refusal :=
  asSeq (fun c k s => s.illegal c k w) s

/-- R281. -/
def execFenceS (scope : BitVec 3) (s : State) : Host.Outcome State Fault Refusal :=
  asSeq (fun c k s => s.seqFence c k scope.toNat) s

def execStorePerformedAtHome (c k i : Nat) (s : State) : Host.Outcome State Fault Refusal :=
  .next (s.performStore c k i)

/-- R294. -/
def execScalarCacheEviction (c line : Nat) (s : State) : Host.Outcome State Fault Refusal :=
  .next (s.modCore c fun q => { q with dcache := tblErase q.dcache line })

end Sys2Proof.Machine
end

