-- ==== Sys2Proof/Machine/Work.lean ====
section
/-! DEFINITION. Handing work to the engines and checking what ran: FORK, RENDV, GENF, ESET, TSHAPE, QALIGN,
BFENCE, PREPT, RQPOP, SEGB and SEGE (12_sequencer.md R264 to R271, R285; 19_faults.md R355, R356). -/
namespace Sys2Proof.Machine

/-- An instruction of R262: it runs once its context owns the engines. -/
def State.asOwner (s : State) (c k : Nat) (f : State → State) : State :=
  match s.acquire c k with
  | (true, s) => f s
  | (false, s) => s

/-- The illegal-instruction trap of an instruction (03_words.md R76). -/
def State.illegalInstr (s : State) (c k : Nat) (i : Instr) : State := s.illegal c k ((encodeSeq i).getD 0)

/-- The word of a bit vector of 5 bits as an engine set. -/
def maskEngines (m : BitVec 5) : List Nat := (upFrom 0 5).filter fun e => m.getLsbD e

/-! ## Reading a table in scratchpad or device memory -/

/-- Read `n` words of 8 bytes one behind another; none when a trap or fatal error has been taken, or a word waits. The
caller takes the banks of those in scratchpad. DEDUCED (log 59). DEDUCED (log 58). -/
def State.seqWords (s : State) (c k : Nat) : Nat → Nat → Option (List Word) × State
  | _, 0 => (some [], s)
  | a, n + 1 =>
    let q := s.core c
    let (r, s) :=
      if inWindow a ∧ a % 8 = 0 then
        let o := a % 2 ^ 19
        if !q.banksFree o 8 then (Access.retry, s)
        else if (q.pendingAt o 8).isSome then (Access.ended, s.seqTrap c k 0x23 0 (BitVec.ofNat 64 a))
        else
          let bs := q.spRead o 8
          (.bytes (forwardAll (q.ctx k).stores true (upFrom o 8) (bs.map (·.1))) (bs.any (·.2)), s)
      else s.seqRead c k a 8
    match r with
    | .pending _ => (none, s.seqTrap c k 0x23 0 (BitVec.ofNat 64 a))
    | .bytes bs false =>
      match State.seqWords s c k (a + 8) n with
      | (some ws, s) => (some (BitVec.ofNat 64 (ofBytesLe bs) :: ws), s)
      | (none, s) => (none, s)
    | .bytes _ true => (none, s.seqTrap c k 0x22 0 (BitVec.ofNat 64 a))
    | _ => (none, s)

/-! ## FORK -/

/-- The two words of each descriptor record. -/
def pairUp : List Word → List (Word × Word)
  | a :: b :: r => (a, b) :: pairUp r
  | _ => []

/-- The words of an entry's code, as memory holds them. DEDUCED (log 58). DEDUCED (log 59). -/
def State.peekWord (s : State) (c a : Nat) : EWord :=
  BitVec.ofNat 48 (ofBytesLe (((s.core c).dpas a 6).map fun d => (s.memByte d).1))

/-- A tile word of an LD entry that reads scratchpad, before it issues (14_consistency.md R305). -/
def stageTile (es : List Word) (iters n : Nat) (w : EWord) : Option StageTile :=
  match (decodeWord .ld w).ld? with
  | some (o, f, p) =>
    if o = .t ∨ o = .tr ∨ o = .sc then
      some
        { word := n, base := lsAddr es p true 0 0, steps := p.sa, issues := f.rep.toNat + 1, left := iters, next := 0
          size := 0, read := [], open_ := iters }
    else none
  | none => none

/-- The accumulators that a word of an MX entry writes. -/
def accsOf (w : EWord) : List Nat :=
  match (decodeWord .mx w).mx? with
  | some (o, _, p) => if mxWrites o then [if p.acc then 1 else 0] else []
  | none => []

/-- The stage set of a FORK that names LD and MX (R305). -/
def State.stageOf (s : State) (c : Nat) (ld mx : Entry) : Stage :=
  let at_ (e : Entry) (n : Nat) : EWord := s.peekWord c ((e.code.toNat + 6 * n) % 2 ^ 52)
  { order := ld.order, ctx := ld.ctx
    tiles := (upFrom 0 ld.words).filterMap fun n => stageTile ld.es ld.iters n (at_ ld n)
    accs := ((upFrom 0 mx.words).flatMap fun n => accsOf (at_ mx n)).eraseDups
    writes := mx.iters * ((upFrom 0 mx.words).flatMap fun n => accsOf (at_ mx n)).length
    mxDone := false, ldDone := false }

/-- Every named queue has a free entry (03_words.md R68). -/
def Own.hasRoom (o : Own) (m : BitVec 5) : Bool := (maskEngines m).all fun e => decide ((o.queue e).count < 16)

/-- The entries that a FORK enqueues. -/
def CoreSt.forkEntries (q : CoreSt) (k : Nat) (m : BitVec 5) (recs : List (Word × Word)) : List (Nat × Entry) :=
  let x := q.ctx k
  ((maskEngines m).zip recs).map fun r =>
    (r.1,
      { id := q.nextJob + r.1, ctx := k, code := r.2.1.extractLsb' 0 52, words := wfld r.2.1 52 12 + 1
        iters := wfld r.2.2 0 16 + 1, gen := x.gen, es := q.own.esList, mode := x.numMode
        fork := x.forks % 2 ^ 32, order := q.forkOrder })

/-- Enqueue the entries of a FORK, all in one cycle. -/
def State.enqueue (s : State) (c k : Nat) (m : BitVec 5) (recs : List (Word × Word)) (rd : BitVec 5) : State :=
  let q := s.core c
  let es := q.forkEntries k m recs
  let st :=
    match es.find? (·.1 == 1), es.find? (·.1 == 2) with
    | some l, some x => [s.stageOf c l.2 x.2]
    | _, _ => []
  let q := es.foldl (fun q e => q.modQ e.1 fun w => { w with items := w.items ++ [QItem.entry e.2] }) q
  let s := s.setCore c
    { q with nextJob := q.nextJob + 5, forkOrder := q.forkOrder + 1, stages := q.stages ++ st }
  s.modCtx c k fun x => ({ x with forks := x.forks + 1 }.setReg rd (x.gen.setWidth 64)).next

/-- A FORK that has read its descriptor enqueues, or waits for room. -/
def State.tryFork (s : State) (c k : Nat) : State :=
  match (s.ctx c k).wait with
  | .fork m recs rd =>
    s.asOwner c k fun s => if (s.own c).hasRoom m then s.enqueue c k m recs rd else s
  | _ => s

/-- R264. -/
def State.seqFork (s : State) (c k : Nat) (m r d : BitVec 5) : State :=
  s.asOwner c k fun s =>
    let a := ((s.ctx c k).reg r).toNat
    if m = 0 ∨ a % 16 ≠ 0 then s.illegalInstr c k (.fork m r d)
    else
      let n := 2 * (maskEngines m).length
      match s.seqWords c k a n with
      | (none, s) => s
      | (some ws, s) =>
        -- one access of its granules (06_copy_scratchpad.md R133; DEDUCED, log 58)
        let s := if inWindow a then s.modCore c fun q => q.holdBanks (a % 2 ^ 19) (8 * n) 1 else s
        let recs := pairUp ws
        if recs.any fun e => wfld e.2 16 48 != 0 then s.illegalInstr c k (.fork m r d)
        else (s.seqWait c k (.fork m recs d)).tryFork c k

/-! ## RENDV and drains -/

/-- Entries that a queue holds. -/
def EngQ.entries (q : EngQ) : List Entry :=
  (q.items.filterMap fun i => match i with | .entry x => some x | _ => none) ++
    (q.run.map (·.entry)).toList ++ q.drain

/-- Generation `a` is older than `g`, or `g` (03_words.md R72). -/
def genUpTo (a g : BitVec 8) : Bool := decide ((g - a).toNat ≤ 127)

/-- Jobs of a context's task. DEDUCED (log 56). -/
def CoreSt.jobsOf (q : CoreSt) (k : Nat) : List Job := q.jobs.filter fun j => j.ctx == k && j.task == (q.ctx k).task

/-- The owner's entries up to a generation have drained on the named engines (R265). DEDUCED (log 56). -/
def CoreSt.drainedUpTo (q : CoreSt) (k : Nat) (m : BitVec 5) (g : BitVec 8) : Bool :=
  (maskEngines m).all fun e =>
    ((q.own.queue e).entries.all fun x => !genUpTo x.gen g) &&
      (e != 0 || (q.jobsOf k).all fun j => !genUpTo j.lw.gen g)

def State.tryRendv (s : State) (c k : Nat) : State :=
  match (s.ctx c k).wait with
  | .rendv m g => s.asOwner c k fun s => if (s.core c).drainedUpTo k m g then s.seqNext c k else s
  | _ => s

/-- R265. -/
def State.seqRendv (s : State) (c k : Nat) (m r : BitVec 5) : State :=
  s.asOwner c k fun s => (s.seqWait c k (.rendv m (((s.ctx c k).reg r).setWidth 8))).tryRendv c k

/-- Every entry of a context has drained on all engines (R272), and a fault that one of them met has been
taken. A context whose entries stand in its save image waits for ownership first. DEDUCED (log 22).
DEDUCED (log 55). -/
def State.drained (s : State) (c k : Nat) : Bool × State :=
  let q := s.core c
  let x := q.ctx k
  if !(q.jobsOf k).isEmpty || q.faults.any (fun r => r.ctx == k) then (false, s)
  else if q.owner = some k then ((upFrom 0 5).all fun e => (q.own.queue e).count == 0, s)
  else if x.saved && !x.aband && !x.orders.isEmpty then (false, (s.acquire c k).2)
  else (true, s)

/-! ## Generations, es registers, tiles and markers -/

/-- Unpassed fences that a queue holds. -/
def EngQ.fences (q : EngQ) : Nat :=
  (q.items.filter fun i => match i with | .fence _ _ => true | _ => false).length

/-- Place one item at the tail of queues. -/
def State.placeItems (s : State) (c : Nat) (es : List Nat) (i : QItem) : State :=
  s.modCore c fun q => es.foldl (fun q e => q.modQ e fun w => { w with items := w.items ++ [i] }) q

/-- A number for a marker, a word or a job of a core. -/
def State.freshId (s : State) (c : Nat) : Nat × State :=
  ((s.core c).nextJob, s.modCore c fun q => { q with nextJob := q.nextJob + 1 })

/-- R266, R347. -/
def State.seqGenf (s : State) (c k : Nat) (d : BitVec 5) : State :=
  s.asOwner c k fun s =>
    let x := s.ctx c k
    let o := s.own c
    if (o.unfinished.any fun g => decide (127 < (x.gen + 1 - g).toNat)) ||
        (upFrom 0 5).any fun e => decide (16 ≤ (o.queue e).fences) then s
    else
      let (n, s) := s.freshId c
      let s := s.placeItems c (upFrom 0 5) (.fence n x.prept)
      s.modCtx c k fun x => ({ x with gen := x.gen + 1 }.setReg d ((x.gen + 1).setWidth 64)).next

def Own.setEs (o : Own) (e : BitVec 3) (v : Word) : Own := { o with es := tblSet 0 o.es e.toNat v }

/-- R267. -/
def State.seqEset (s : State) (c k : Nat) (e : BitVec 3) (v : State → Word) : State :=
  s.asOwner c k fun s => (s.modOwn c fun o => o.setEs e (v s)).seqNext c k

/-- R268. -/
def State.seqTshape (s : State) (c k : Nat) (r : BitVec 5) (t : BitVec 3) : State :=
  s.asOwner c k fun s =>
    let v := (s.ctx c k).reg r
    if wfld v 16 48 ≠ 0 ∨ 32768 < (wfld v 8 8 + 1) * (wfld v 0 8 + 1) then s.illegalInstr c k (.tshape r t)
    else
      (s.modOwn c fun o =>
        o.setTile t.toNat { o.tile t.toNat with rows := v.extractLsb' 8 8, width := v.setWidth 8 }).seqNext c k

/-- QALIGN markers that a queue holds. -/
def EngQ.qaligns (q : EngQ) : Nat :=
  (q.items.filter fun i => match i with | .qalign _ => true | _ => false).length

/-- R269. -/
def State.seqQalign (s : State) (c k : Nat) : State :=
  s.asOwner c k fun s =>
    if [1, 4].any fun e => decide (16 ≤ ((s.own c).queue e).qaligns) then s
    else
      let (n, s) := s.freshId c
      (s.placeItems c [1, 4] (.qalign n)).seqNext c k

/-- R125 to R127. The stores of the scope that a bank word waits for: sequencer stores now, ST and CP stores
when their queues cross the marker; stores of other agents that the context has observed are visible. -/
def State.seqBfence (s : State) (c k : Nat) (scope : BitVec 3) : State :=
  s.asOwner c k fun s =>
    let o := s.own c
    if 16 ≤ (o.gates.filter fun g => !(g.cpCrossed && g.ldCrossed && g.stCrossed)).length then s
    else
      let (n, s) := s.freshId c
      let st := if scope = 0 then [] else (s.ctx c k).stores.map (·.id)
      let g : BankGate :=
        { id := n, scope := scope, cpCrossed := false, ldCrossed := false, stCrossed := false, jobs := [], copies := []
          stWords := [], stores := st }
      (((s.modOwn c fun o => { o with gates := o.gates ++ [g] }).placeItems c [0, 1, 4] (.bank n scope)).settleMissed c k
        scope.toNat).seqNext c k

/-- R270. -/
def State.seqPrept (s : State) (c k : Nat) (m : BitVec 10) : State :=
  s.asOwner c k fun s => s.modCtx c k fun x => { x with prept := m }.next

/-! ## RQPOP (R271) -/

def State.tryRqpop (s : State) (c k : Nat) : State :=
  match (s.ctx c k).wait with
  | .rqpop rd =>
    s.asOwner c k fun s =>
      match (s.own c).rq with
      | e :: r =>
        (s.modOwn c fun o => { o with rq := r }).modCtx c k fun x =>
          ({ x with rqLast := e.tag.setWidth 64 ||| (e.gen.setWidth 64 <<< 8) }.setReg rd e.value).next
      | [] =>
        if ((s.own c).queue 3).count = 0 then
          s.modCtx c k fun x => ({ x with rqLast := x.rqLast ||| 0x10000 }.setReg rd 0).next
        else s
  | _ => s

def State.seqRqpop (s : State) (c k : Nat) (nowait : Bool) (d : BitVec 5) : State :=
  s.asOwner c k fun s =>
    if nowait && (s.own c).rq.isEmpty then
      s.modCtx c k fun x => ({ x with rqLast := x.rqLast ||| 0x10000 }.setReg d 0).next
    else (s.seqWait c k (.rqpop d)).tryRqpop c k

/-! ## Segments (R285, R355, R356) -/

/-- The signature of the engine registers: a CRC over the 20 bytes of their values. -/
def signature (regs : List (BitVec 32)) : BitVec 32 :=
  ~~~(crcBytes 0xFFFFFFFF (regs.flatMap fun r => bytesLe 4 (~~~r).toNat))

/-- Measured count and signature. -/
def Seg.measured (g : Seg) : BitVec 32 × BitVec 32 :=
  (BitVec.ofNat 32 g.count, signature ((upFrom 0 5).map fun e => tblGet 0xFFFFFFFF g.crc e))

/-- Count and signature recomputed from the window records of a segment's words. DESIGN CHOICE (log 41). -/
def Own.remeasured (o : Own) (g : Seg) : BitVec 32 × BitVec 32 :=
  let recs (e : Nat) : List WinRec := (tblGet [] o.win e).filter fun r => r.seg == g.id
  let count := (upFrom 0 5).foldl (fun n e => (recs e).foldl (fun n r => n + r.issues) n) 0
  let reg (e : Nat) : BitVec 32 :=
    (recs e).foldl (fun v r => crcBytes v ((List.replicate r.issues (bytesLe 6 r.word.toNat)).flatten)) 0xFFFFFFFF
  (BitVec.ofNat 32 count, signature ((upFrom 0 5).map reg))

/-- SEGLAST from a count and a signature. -/
def segWord (m : BitVec 32 × BitVec 32) : Word := m.2 ++ m.1

/-- The segment closes, with what was measured. -/
def State.closeSeg (s : State) (c k : Nat) (m : BitVec 32 × BitVec 32) : State :=
  (s.modOwn c fun o => { o with seg := none }).modCtx c k fun x => { x with segLast := segWord m }

/-- The segment-check trap. -/
def State.segTrapAt (s : State) (c k : Nat) (m : BitVec 32 × BitVec 32) (rd : BitVec 5) : State :=
  ((s.closeSeg c k m).modCore c fun q => { q with segTrap := satAdd q.segTrap 1 0xFFFF }).seqTrap c k 0x27 0
    (segWord m) rd

/-- A waiting SEGE: the markers have been passed, and the measures are compared; when they differ they are
taken again from the windows after some stalled laps. DESIGN CHOICE (log 41). -/
def State.trySege (s : State) (c k : Nat) : State :=
  match (s.ctx c k).wait with
  | .sege sig again rd =>
    s.asOwner c k fun s =>
      let o := s.own c
      match o.seg with
      | none => s
      | some g =>
        if !((upFrom 0 5).all fun e => g.closed.contains e) then s
        else if again then
          if (s.core c).segLaps ≠ 0 then s
          else
            let m := o.remeasured g
            if m.1 = g.expect ∧ m.2 = sig then
              ((s.closeSeg c k m).modCore c fun q => { q with segOk := satAdd q.segOk 1 0xFFFF }).seqDone c k rd 1
            else s.segTrapAt c k m rd
        else
          let m := g.measured
          if m.1 = g.expect ∧ m.2 = sig then (s.closeSeg c k m).seqDone c k rd 0
          else if (upFrom 0 5).any fun e => decide (64 < tblGet 0 g.words e) then s.segTrapAt c k m rd
          else
            let (d, s) := s.draw
            (s.modCore c fun q => { q with segLaps := 1 + Config.freeNat d }).seqWait c k (.sege sig true rd)
  | _ => s

/-- R285. SEGB. -/
def State.seqSegb (s : State) (c k : Nat) (r : BitVec 5) : State :=
  s.asOwner c k fun s =>
    if (s.own c).seg.isSome then s.illegalInstr c k (.segb r)
    else
      let (n, s) := s.freshId c
      let g : Seg :=
        { id := n, expect := ((s.ctx c k).reg r).setWidth 32, count := 0, crc := [], opened := [], closed := []
          words := [] }
      ((s.modOwn c fun o => { o with seg := some g }).placeItems c (upFrom 0 5) (.seg false)).seqNext c k

/-- A closing marker of the open segment has been placed, by a SEGE that is executed again (R334). -/
def Own.closing (o : Own) : Bool :=
  (o.seg.map fun g => !g.closed.isEmpty).getD false ||
    (upFrom 0 5).any fun e => (o.queue e).items.any fun i => match i with | .seg true => true | _ => false

/-- R285. SEGE. -/
def State.seqSege (s : State) (c k : Nat) (r d : BitVec 5) : State :=
  s.asOwner c k fun s =>
    if (s.own c).seg.isNone then s.illegalInstr c k (.sege r d)
    else
      let s := if (s.own c).closing then s else s.placeItems c (upFrom 0 5) (.seg true)
      (s.seqWait c k (.sege (((s.ctx c k).reg r).setWidth 32) false d)).trySege c k

/-! ## Meanings -/

def execFork (m r d : BitVec 5) (s : State) : Host.Outcome State Fault Refusal :=
  asSeq (fun c k s => s.seqFork c k m r d) s

def execForkEnqueue (c k : Nat) (s : State) : Host.Outcome State Fault Refusal := .next (s.tryFork c k)

def execRendv (m r : BitVec 5) (s : State) : Host.Outcome State Fault Refusal :=
  asSeq (fun c k s => s.seqRendv c k m r) s

def execRendvReturn (c k : Nat) (s : State) : Host.Outcome State Fault Refusal := .next (s.tryRendv c k)

def execGenf (d : BitVec 5) (s : State) : Host.Outcome State Fault Refusal := asSeq (fun c k s => s.seqGenf c k d) s

def execEset (r : BitVec 5) (e : BitVec 3) (s : State) : Host.Outcome State Fault Refusal :=
  asSeq (fun c k s => s.seqEset c k e fun s => (s.ctx c k).reg r) s

def execEseti (i : BitVec 12) (e : BitVec 3) (s : State) : Host.Outcome State Fault Refusal :=
  asSeq (fun c k s => s.seqEset c k e fun _ => i.signExtend 64) s

def execTshape (r : BitVec 5) (t : BitVec 3) (s : State) : Host.Outcome State Fault Refusal :=
  asSeq (fun c k s => s.seqTshape c k r t) s

def execQalign (s : State) : Host.Outcome State Fault Refusal := asSeq (fun c k s => s.seqQalign c k) s

def execBfence (scope : BitVec 3) (s : State) : Host.Outcome State Fault Refusal :=
  asSeq (fun c k s => s.seqBfence c k scope) s

def execPrept (m : BitVec 10) (s : State) : Host.Outcome State Fault Refusal :=
  asSeq (fun c k s => s.seqPrept c k m) s

def execRqpop (n : Bool) (d : BitVec 5) (s : State) : Host.Outcome State Fault Refusal :=
  asSeq (fun c k s => s.seqRqpop c k n d) s

def execRqpopReturn (c k : Nat) (s : State) : Host.Outcome State Fault Refusal := .next (s.tryRqpop c k)

def execSegb (r : BitVec 5) (s : State) : Host.Outcome State Fault Refusal := asSeq (fun c k s => s.seqSegb c k r) s

def execSege (r d : BitVec 5) (s : State) : Host.Outcome State Fault Refusal := asSeq (fun c k s => s.seqSege c k r d) s

def execSegeMeasure (c k : Nat) (s : State) : Host.Outcome State Fault Refusal := .next (s.trySege c k)

end Sys2Proof.Machine
end

