-- ==== Sys2Proof/Machine/Sync.lean ====
section
/-! DEFINITION. Waiting on memory, groups, barriers and exchange plans: WAITC, SIGNL, JOIN, LEAVE, SSTEP,
EXWAIT and EXPLAN (12_sequencer.md R272 to R279, 16_scheduling.md R320 to R322). -/
namespace Sys2Proof.Machine

/-! ## WAITC and SIGNL -/

/-- A store of the context to bytes of a range has not reached its home. -/
def Ctx.storeTo (x : Ctx) (scratch : Bool) (a n : Nat) : Bool :=
  x.stores.any fun b => b.scratch == scratch && overlaps b.addr b.data.length a n

/-- The home of a sequencer word: none when a trap or fatal error has been taken, else whether it lies in
scratchpad, and its address there. -/
def State.homeOf (s : State) (c k a n : Nat) (wr : Bool) : Option (Bool × Nat) × State :=
  if a % n ≠ 0 then (none, s.misaligned c k (BitVec.ofNat 64 a))
  else if inWindow a then (some (true, a % 2 ^ 19), s)
  else
    let q := s.core c
    match q.check wr a n with
    | some f => (none, s.fatalCheck c k f)
    | none => (some (false, (q.dpas a n).headD 0), s)

/-- The word of `n` bytes at a home, with the mark of an uncorrectable error. In scratchpad its bank serves it
(06_copy_scratchpad.md R133). -/
def State.homeRead (s : State) (c : Nat) (scratch : Bool) (a n : Nat) : (Nat × Bool) × State :=
  let (bs, s) :=
    if scratch then ((s.core c).spRead a n, s.modCore c fun q => q.holdBanks a n 1)
    else s.look c .sequencer (upFrom a n)
  ((ofBytesLe (bs.map (·.1)), bs.any (·.2)), s)

/-- The home of a word serves the context now: its bank is free, or its way is open and no store is published before it. -/
def State.homeFree (s : State) (c : Nat) (scratch : Bool) (a n : Nat) : Bool :=
  if scratch then (s.core c).banksFree a n else s.reaches c (upFrom a n)

/-- Continuation slots of a core that are taken (R272). -/
def State.contCount (s : State) (c : Nat) : Nat := (s.conts.filter fun e => e.core == c).length

/-- Arm a word, and retire the task (R272). -/
def State.arm (s : State) (c k : Nat) (wide scratch : Bool) (a : Nat) (expect : Word) (rd : BitVec 5) : State :=
  let x := s.ctx c k
  let e : Cont :=
    { id := s.nextCont, core := c, scratch := scratch, addr := a, wide := wide, expect := expect, pc := x.pc + 4, rd := rd
      x := x.x.filter fun r => x.wmask.getLsbD r.1 && r.1 != 0
      task := x.task, prio := x.prio, kernel := x.kernel, groups := x.groups, woken := none }
  ({ s with conts := s.conts ++ [e], nextCont := s.nextCont + 1 }).retire c k

/-- A waiting WAITC whose entries have drained compares and arms at the word's home. -/
def State.tryWaitc (s : State) (c k : Nat) : State :=
  match (s.ctx c k).wait with
  | .waitc wide addr expect rd =>
    match s.drained c k with
    | (false, s) => s
    | (true, s) =>
      if 64 ≤ s.contCount c then s.seqDone c k rd 3
      else
        let n := if wide then 8 else 4
        match s.homeOf c k addr.toNat n false with
        | (none, s) => s
        | (some (scratch, a), s) =>
          if (s.ctx c k).storeTo scratch a n || !s.homeFree c scratch a n then s
          else if scratch && ((s.core c).pendingAt a n).isSome then s.seqTrap c k 0x23 0 addr
          else
            let ((v, lost), s) := s.homeRead c scratch a n
            -- the compare is a load: no line older than it serves a later one (14_consistency.md R293)
            let s := if scratch then s else s.modCore c fun q => q.dropData (upFrom a n)
            if lost then s.seqTrap c k 0x22 0 addr
            else if v ≠ expect.toNat % 2 ^ (8 * n) then s.seqDone c k rd 1
            else s.arm c k wide scratch a expect rd
  | _ => s

/-- R272. -/
def State.seqWaitc (s : State) (c k : Nat) (wide : Bool) (b r d : BitVec 5) : State :=
  let x := s.ctx c k
  let addr := x.reg r
  match s.homeOf c k addr.toNat (if wide then 8 else 4) false with
  | (none, s) => s
  | (some _, s) => (s.seqWait c k (.waitc wide addr (x.reg b) d)).tryWaitc c k

/-- Wake, as signalled, every continuation whose word overlaps the signalled word (R275). -/
def State.signal (s : State) (c : Nat) (scratch : Bool) (a n : Nat) : Nat × State :=
  let hit (e : Cont) : Bool := e.watches scratch c a n
  ((s.conts.filter hit).length,
    { s with conts := s.conts.map fun e => if hit e then { e with woken := some 2 } else e })

/-- R275. The context's earlier stores are visible at the class of the word first; the wakes and the store are one
operation. -/
def State.seqSignl (s : State) (c k : Nat) (wide : Bool) (b r d : BitVec 5) : State :=
  let x := s.ctx c k
  let n := if wide then 8 else 4
  match s.homeOf c k (x.reg r).toNat n true with
  | (none, s) => s
  | (some (scratch, a), s) =>
    match s.storesVisible c k (if scratch then 1 else ((s.core c).scopeAt (x.reg r).toNat).toNat) with
    | (false, s) => s
    | (true, s) =>
      if x.storeTo scratch a n || !s.homeFree c scratch a n then s
      else
        let (count, s) := s.signal c scratch a n
        let bs := bytesLe n (x.reg b).toNat
        let s := if scratch then (s.modCore c fun q => q.holdBanks a n 1).spWrite c a bs else s.storeHome c a bs
        s.seqDone c k d (BitVec.ofNat 64 count)

/-! ## Groups (R276) -/

def minus (n : Nat) : Word := BitVec.ofInt 64 (-(n : Int))

/-- R276. JOIN: the result, and the state with the task a member. -/
def State.seqJoin (s : State) (c k : Nat) (r d : BitVec 5) : State :=
  let x := s.ctx c k
  let v := x.reg r
  let p := s.partOf c
  let n : BitVec 16 := v.setWidth 16
  let ms := s.members p n
  if wfld v 16 48 ≠ 0 then s.seqDone c k d (minus 4)
  else if x.groups.contains n then s.seqDone c k d (BitVec.ofNat 64 ms.length)
  else if (s.group? p n).isNone && 4096 ≤ (s.groups.filter fun g => g.part == p).length then s.seqDone c k d (minus 1)
  else if 65535 ≤ ms.length then s.seqDone c k d (minus 6)
  else
    let gs :=
      if (s.group? p n).isSome then
        s.groups.map fun g => if g.part = p ∧ g.num = n then { g with members := g.members ++ [x.task] } else g
      else s.groups ++ [({ part := p, num := n, members := [x.task] } : Group)]
    (({ s with groups := gs }).modCtx c k fun x => { x with groups := x.groups ++ [n] }).seqDone c k d
      (BitVec.ofNat 64 (ms.length + 1))

/-- R276, R320. LEAVE. -/
def State.seqLeave (s : State) (c k : Nat) (r d : BitVec 5) : State :=
  let x := s.ctx c k
  let v := x.reg r
  let p := s.partOf c
  let n : BitVec 16 := v.setWidth 16
  if wfld v 16 48 ≠ 0 then s.seqDone c k d (minus 4)
  else if !x.groups.contains n then s.seqDone c k d (minus 3)
  else
    let s := (s.groupDrop p n x.task).modCtx c k fun x => { x with groups := x.groups.filter (· != n) }
    s.barrierChecks.seqDone c k d (BitVec.ofNat 64 (s.members p n).length)

/-! ## Barriers and exchanges -/

/-- R277. SSTEP: until it enters it does nothing that remains, and is executed again. -/
def State.seqSstep (s : State) (c k : Nat) (t : Nat) (r d : BitVec 5) : State :=
  let x := s.ctx c k
  let n : BitVec 16 := (x.reg r).setWidth 16
  if !x.groups.contains n then s.seqDone c k d (minus 3)
  else if s.bound t ≠ some (s.partOf c, n) then s.seqDone c k d (minus 2)
  else
    match s.drained c k with
    | (false, s) => s
    | (true, s) =>
      match s.fenceStep c k 3 with
      | (false, s) => s
      | (true, s) =>
        if (s.tag t).t0.isSome then s
        else
          ((s.seqWait c k (.sstep t n true d)).modTag t fun b => { b with entered := b.entered ++ [(c, k)] }).barrierCheck t

/-- The last deadline of an exchange has passed, and every delivery to a core has landed (R278). -/
def TagSt.overFor (b : TagSt) (now c : Nat) : Bool :=
  match b.t0 with
  | none => true
  | some t0 => b.recs.all fun r => decide (t0 + r.deadline ≤ now) && (r.dstc != c || decide (r.len ≤ r.done))

def State.tryExwait (s : State) (c k : Nat) : State :=
  match (s.ctx c k).wait with
  | .exwait t rd =>
    let b := s.tag t
    if b.overFor s.ftick c then s.seqDone c k rd (BitVec.ofNat 64 (tblGet 0 b.late c)) else s
  | _ => s

/-- R278. -/
def State.seqExwait (s : State) (c k : Nat) (t : Nat) (d : BitVec 5) : State :=
  if (s.tag t).t0.isNone then s.seqDone c k d 0 else (s.seqWait c k (.exwait t d)).tryExwait c k

/-! ## EXPLAN (R279, R321) -/

/-- Why words of a plan set are not there: they cannot be read (misaligned, unmapped, not readable, pending or lost), or
they wait for a link, a bank or a store. -/
inductive PlanStop where
  | unreadable
  | retry
  deriving DecidableEq, Repr

/-- Words of a plan set at an address. No trap is taken. -/
def State.planWords (s : State) (c k : Nat) : Nat → Nat → Except PlanStop (List Word) × State
  | _, 0 => (.ok [], s)
  | a, n + 1 =>
    let q := s.core c
    if a % 8 ≠ 0 then (.error .unreadable, s)
    else
      let (r, s) : Except PlanStop (List Byte) × State :=
        if inWindow a then
          let o := a % 2 ^ 19
          let bs := q.spRead o 8
          (if !q.banksFree o 8 then .error .retry
            else if (q.pendingAt o 8).isSome || bs.any (·.2) then .error .unreadable
            else .ok (forwardAll (q.ctx k).stores true (upFrom o 8) (bs.map (·.1))), s)
        else if (q.check false a 8).isSome then (.error .unreadable, s)
        else
          let as := q.dpas a 8
          if q.loadHeld k as || !s.wayOpen c as then (.error .retry, s)
          else
            let (bs, s) := s.cachedRead c as (q.scopeAt a)
            (if bs.any (·.2) then .error .unreadable
              else .ok (forwardAll (s.ctx c k).stores false as (bs.map (·.1))), s)
      match r with
      | .error e => (.error e, s)
      | .ok bs =>
        match State.planWords s c k (a + 8) n with
        | (.ok ws, s) => (.ok (BitVec.ofNat 64 (ofBytesLe bs) :: ws), s)
        | (.error e, s) => (.error e, s)

/-- A record of a plan from its four words, when it is well formed. -/
def recordOf (cores : List Nat) (e0 e1 e2 e3 : Word) : Option ExRec :=
  let dst := wfld e1 32 19
  let src := wfld e1 0 19
  let len := wfld e2 0 17
  if wfld e0 25 7 != 0 || wfld e0 9 7 != 0 || wfld e1 51 13 != 0 || wfld e1 19 13 != 0 || wfld e2 17 47 != 0 || e3 != 0 ||
      dst % 8 != 0 || src % 8 != 0 || len % 8 != 0 || decide (len < 8) || decide (65536 < len) ||
      decide (0x7FFC0 < dst + len) || decide (0x7FFC0 < src + len) || !cores.contains (wfld e0 16 9) ||
      !cores.contains (wfld e0 0 9) then none
  else
    some { deadline := wfld e0 32 32, dstc := wfld e0 16 9, srcc := wfld e0 0 9, dst := dst, src := src, len := len, sent := 0
           buf := [], done := 0, late := false }

/-- The records of a plan. -/
def recordsOf (cores : List Nat) : List Word → Option (List ExRec)
  | a :: b :: c :: d :: r =>
    match recordOf cores a b c d, recordsOf cores r with
    | some x, some xs => some (x :: xs)
    | _, _ => none
  | [] => some []
  | _ => none

/-- RECS and PIDX of the four classes, when the header is well formed. -/
def planHeader (h : List Word) : Option (Nat × List (Nat × Nat)) :=
  let w (i : Nat) : Word := h.getD i 0
  let np := wfld (w 0) 0 16
  let cls := (upFrom 1 4).map fun i => (wfld (w i) 0 16, wfld (w i) 16 16 + 1)
  if wfld (w 0) 16 48 != 0 || np == 0 || decide (4 < np) || ((upFrom 1 4).any fun i => wfld (w i) 32 32 != 0) ||
      w 5 != 0 || w 6 != 0 || w 7 != 0 || (cls.any fun e => decide (np ≤ e.1) || decide (4096 < e.2)) ||
      (cls.any fun e => cls.any fun f => e.1 == f.1 && e.2 != f.2) then none
  else some (np, cls)

/-- Records of plan `i`; a plan that no class uses has none. -/
def planSize (cls : List (Nat × Nat)) (i : Nat) : Nat := ((cls.find? fun e => e.1 == i).map (·.2)).getD 0

/-- Read plans `i` to `i + n` − 1 at an address. -/
def State.readPlans (s : State) (c k : Nat) (cores : List Nat) (cls : List (Nat × Nat)) :
    Nat → Nat → Nat → Except PlanStop (List (List ExRec)) × State
  | _, _, 0 => (.ok [], s)
  | a, i, n + 1 =>
    let m := planSize cls i
    match s.planWords c k a (4 * m) with
    | (.error e, s) => (.error e, s)
    | (.ok ws, s) =>
      match recordsOf cores ws with
      | none => (.error .unreadable, s)
      | some p =>
        match State.readPlans s c k cores cls (a + 32 * m) (i + 1) n with
        | (.ok ps, s) => (.ok (p :: ps), s)
        | (.error e, s) => (.error e, s)

/-- Cores on which a member of a group of a partition lives, as a task or a continuation. -/
def State.memberCores (s : State) (p : Nat) (n : BitVec 16) : List Nat :=
  let ms := s.members p n
  ((s.cores.filter fun e => s.partOf e.1 == p && e.2.ctxs.any fun x => x.2.live && ms.contains x.2.task).map (·.1)) ++
    ((s.conts.filter fun e => s.partOf e.core == p && ms.contains e.task).map (·.core)) ++
    ((s.cores.filter fun e => s.partOf e.1 == p && e.2.taskQ.any fun x => ms.contains x.task).map (·.1))

/-- The plans of the four classes at an address. DEDUCED (log 62). -/
def State.readSet (s : State) (c k a : Nat) (cores : List Nat) : Except PlanStop (List (List ExRec)) × State :=
  match s.planWords c k a 8 with
  | (.error e, s) => (.error e, s)
  | (.ok h, s) =>
    match planHeader h with
    | none => (.error .unreadable, s)
    | some (np, cls) =>
      match s.readPlans c k cores cls (a + 64) 0 np with
      | (.error e, s) => (.error e, s)
      | (.ok ps, s) => (.ok (cls.map fun e => ps.getD e.1 []), s)

/-- The banks that the words of a plan set take (06_copy_scratchpad.md R133). DEDUCED (log 58). -/
def CoreSt.planBanks (q : CoreSt) (a : Nat) (ps : List (List ExRec)) : CoreSt :=
  if inWindow a then q.holdBanks (a % 2 ^ 19) (64 + 32 * (ps.map List.length).sum) 1 else q

/-- R279. DEDUCED (log 62). -/
def State.seqExplan (s : State) (c k : Nat) (t : Nat) (b r d : BitVec 5) : State :=
  let x := s.ctx c k
  let n : BitVec 16 := (x.reg b).setWidth 16
  let p := s.partOf c
  if !x.groups.contains n then s.seqDone c k d (minus 3)
  else if (s.tag t).t0.isSome then s.seqDone c k d (minus 5)
  else
    match s.readSet c k (x.reg r).toNat (s.memberCores p n) with
    | (.error .retry, s) => s
    | (.error .unreadable, s) => s.seqDone c k d (minus 1)
    | (.ok ps, s) =>
      let s := s.modCore c fun q => q.planBanks (x.reg r).toNat ps
      (s.modTag t fun b => { b with sets := tblPut b.sets c { part := p, group := n, plans := ps } }).seqDone c k d 0

/-! ## Meanings -/

def execWaitcW (b r d : BitVec 5) (s : State) : Host.Outcome State Fault Refusal :=
  asSeq (fun c k s => s.seqWaitc c k false b r d) s

def execWaitcD (b r d : BitVec 5) (s : State) : Host.Outcome State Fault Refusal :=
  asSeq (fun c k s => s.seqWaitc c k true b r d) s

def execWaitcArm (c k : Nat) (s : State) : Host.Outcome State Fault Refusal := .next (s.tryWaitc c k)

def execSignlW (b r d : BitVec 5) (s : State) : Host.Outcome State Fault Refusal :=
  asSeq (fun c k s => s.seqSignl c k false b r d) s

def execSignlD (b r d : BitVec 5) (s : State) : Host.Outcome State Fault Refusal :=
  asSeq (fun c k s => s.seqSignl c k true b r d) s

def execJoin (r d : BitVec 5) (s : State) : Host.Outcome State Fault Refusal := asSeq (fun c k s => s.seqJoin c k r d) s

def execLeave (r d : BitVec 5) (s : State) : Host.Outcome State Fault Refusal :=
  asSeq (fun c k s => s.seqLeave c k r d) s

def execSstep (t : BitVec 3) (r d : BitVec 5) (s : State) : Host.Outcome State Fault Refusal :=
  asSeq (fun c k s => s.seqSstep c k t.toNat r d) s

def execExwait (t : BitVec 3) (d : BitVec 5) (s : State) : Host.Outcome State Fault Refusal :=
  asSeq (fun c k s => s.seqExwait c k t.toNat d) s

def execExwaitReturn (c k : Nat) (s : State) : Host.Outcome State Fault Refusal := .next (s.tryExwait c k)

def execExplan (t : BitVec 3) (b r d : BitVec 5) (s : State) : Host.Outcome State Fault Refusal :=
  asSeq (fun c k s => s.seqExplan c k t.toNat b r d) s

end Sys2Proof.Machine
end

