-- ==== Sys2Proof/Machine/Code.lean ====
section
/-! DEFINITION. Translation, code caches, atomics and the end of a task: TTLOAD, PROBE, PIN, UNPIN, IPREF,
AMO.S, TRAPR and HALT.D (12_sequencer.md R280 to R287, 04_device_memory.md R90 to R97). -/
namespace Sys2Proof.Machine

/-! ## TTLOAD (R280) -/

/-- Nothing stands in the queues of a core, no issue is in flight, not even one of work that has been abandoned, and no job
is under way (04_device_memory.md R92). -/
def CoreSt.quiet (q : CoreSt) : Bool := q.own.idle && !q.own.inFlight && q.jobs.isEmpty

/-- The bytes of a page lie in live grants of a partition (25_service.md R412). Grants are whole GiB, so a page
is in the grants when each GiB that it touches is. -/
def State.granted (s : State) (p pa n : Nat) : Bool :=
  (upFrom (pa / 2 ^ 30) ((pa + n - 1) / 2 ^ 30 - pa / 2 ^ 30 + 1)).all fun g =>
    (upFrom 0 8).any fun i =>
      let w := s.hubGet (offPgrant p i)
      bit w.toNat 63 && decide (p < 8) && decide (wfld w 0 10 ≤ g) && decide (g < wfld w 0 10 + wfld w 32 10)

/-- The cause for which a record of an image fails, none when it passes (R280). `acc` holds the earlier live
records. DEDUCED (log 60). -/
def State.recordCause (s : State) (p : Nat) (acc : List (Word × Word)) (v leaf : Word) : Option Nat :=
  if !bit v.toNat 0 then none
  else
    let size := wfld leaf 4 3
    let n := pageBits size
    let va := wfld v 12 40 <<< 12
    let pa := wfld leaf 12 28 <<< 12
    if wfld v 52 12 != 0 || wfld v 1 11 != 0 || decide (6 < size) || !bit leaf.toNat 0 || !bit leaf.toNat 1 ||
        leafMalformed (6 - size) leaf then some 1
    else if va % 2 ^ n ≠ 0 then some 2
    else if acc.any fun e => overlaps va (2 ^ n) (wfld e.1 12 40 <<< 12) (2 ^ pageBits (wfld e.2 4 3)) then some 3
    else if !s.granted p pa (2 ^ n) then some 4
    else none

/-- The records of an image from number `i` on: the table, or the status of the first that fails.
DEDUCED (log 60). -/
def State.readImage (s : State) (site p dva : Nat) : Nat → Nat → List (Word × Word) → Except Nat (List (Word × Word))
  | 0, _, acc => .ok acc
  | n + 1, i, acc =>
    match s.walkWord site p (dva + 16 * i), s.walkWord site p (dva + 16 * i + 8) with
    | some v, some leaf =>
      match s.recordCause p acc v leaf with
      | some cause => .error (cause <<< 16 + i)
      | none => State.readImage s site p dva n (i + 1) (if bit v.toNat 0 then acc ++ [(v, leaf)] else acc)
    | _, _ => .error (5 <<< 16 + i)

/-- DEDUCED (log 63). -/
def State.tryTtload (s : State) (c k : Nat) : State :=
  match (s.ctx c k).wait with
  | .ttload dva n rd =>
    if !(s.core c).quiet || s.rangeHeld (dieOf c) (s.partOf c) dva (16 * n) then s
    else
      match s.readImage (dieOf c) (s.partOf c) dva n 0 [] with
      | .error e => s.seqDone c k rd (BitVec.ofNat 64 e)
      | .ok tt => (s.modCore c fun q => { q with tt := tt, dcache := [], dstale := [] }).seqDone c k rd 0
  | _ => s

/-- R280. -/
def State.seqTtload (s : State) (c k : Nat) (b r d : BitVec 5) : State :=
  let x := s.ctx c k
  let a := (x.reg r).toNat
  let n := (x.reg b).toNat
  if a % 16 ≠ 0 ∨ 2 ^ 52 ≤ a ∨ n = 0 ∨ 512 < n then s.illegalInstr c k (.ttload b r d)
  else (s.seqWait c k (.ttload a n d)).tryTtload c k

/-! ## PROBE (04_device_memory.md R95 to R97) -/

/-- Walk the next page of a waiting PROBE. DEDUCED (log 63). -/
def State.tryProbe (s : State) (c k : Nat) : State :=
  match (s.ctx c k).wait with
  | .probe base next stop wr leaf rd =>
    if !(s.core c).quiet || s.walkHeld (dieOf c) (s.partOf c) next then s
    else
      match s.walk (dieOf c) (s.partOf c) next with
      | .fail cause => s.seqTrap c k 0x28 (BitVec.ofNat 32 cause) (BitVec.ofNat 64 next)
      | .leaf w _ =>
        if !leafReads w || (wr && !leafWrites w) then s.seqTrap c k 0x28 3 (BitVec.ofNat 64 next)
        else
          let sz := 2 ^ pageBits (wfld w 4 3)
          let leaf := if next = base then w else leaf
          let next := next + (sz - next % sz)
          if stop ≤ next then s.seqDone c k rd leaf else s.seqWait c k (.probe base next stop wr leaf rd)
  | _ => s

/-- R95. -/
def State.seqProbe (s : State) (c k : Nat) (b r d : BitVec 5) : State :=
  let x := s.ctx c k
  let v := x.reg b
  let base := (x.reg r).toNat
  if wfld v 52 11 ≠ 0 then s.illegalInstr c k (.probe b r d)
  else s.seqWait c k (.probe base base (base + max (wfld v 0 52) 1) (bit v.toNat 63) 0 d)

/-! ## Code caches (R283, R284) -/

/-- Lines of a range: the number of the first, and how many. -/
def rangeLines (a n : Nat) : Nat × Nat := (a / 128, if n = 0 then 0 else ceilDiv (a + n) 128 - a / 128)

/-- Bring a line into a level, if it is absent. -/
def State.fetchLine (s : State) (c : Nat) (die : Bool) (line : Nat) : State :=
  let key := (s.core c).lineKey line
  if die then
    let mine := (s.dlines.filter fun e => e.1 == dieOf c).map (·.2)
    if mine.contains key then s
    else
      let (d, s) := s.draw
      let gone := evicted mine (s.locked c true) (levelLines true) d
      { s with dlines := (s.dlines.filter fun e => !(e.1 == dieOf c && gone == some e.2)) ++ [(dieOf c, key)] }
  else if (tblFind (s.core c).icache key).isSome then s
  else s.fillCode c line

/-- The context pins a line; a soft pin of it becomes a hard one. -/
def Ctx.pin (x : Ctx) (die : Bool) (key : Nat) : Ctx :=
  let e : Pin := { die := die, line := key, soft := false }
  if x.pins.contains e then x
  else { x with pins := x.pins.filter (fun e => !(e.die == die && e.line == key)) ++ [e] }

/-- Pin line after line; the flag says that capacity has stopped the walk. None after a fatal error.
DEDUCED (log 91). -/
def State.pinLines (s : State) (c k : Nat) (die : Bool) : Nat → Nat → Option Bool × State
  | _, 0 => (some false, s)
  | line, n + 1 =>
    match (s.core c).check false (128 * line) 128 with
    | some f => (none, s.fatalCheck c k f)
    | none =>
      let key := (s.core c).lineKey line
      let ls := s.locked c die
      if !ls.contains key && lockable die ≤ ls.length then (some true, s)
      else
        let s := (s.fetchLine c die line).modCtx c k fun x => x.pin die key
        State.pinLines s c k die (line + 1) n

/-- The offset in a page whose byte a last code places at an offset: the inverse of `placeIn`. DEDUCED (log 14). -/
def unplace (last bits o : Nat) : Nat :=
  if 1 ≤ last ∧ last ≤ 4 ∧ 18 ≤ bits then
    (o >>> 18) <<< 18 + (fld o 8 6) <<< 12 + (fld o 14 4) <<< 8 + fld o 0 8
  else if last = 5 ∧ 14 ≤ bits then
    (o >>> 14) <<< 14 + (fld o 6 2) <<< 12 + (fld o 8 6) <<< 6 + fld o 0 6
  else o

/-- A line of a range, by its key, which some page of the table maps there. DEDUCED (log 61). -/
def CoreSt.inRange (q : CoreSt) (lo n key : Nat) : Bool :=
  q.tt.any fun e =>
    let bits := pageBits (wfld e.2 4 3)
    let pa := wfld e.2 12 28 <<< 12
    let dva := (wfld e.1 12 40 <<< 12) / 2 ^ bits * 2 ^ bits + unplace (wfld e.2 60 4) bits (64 * key - pa)
    decide (pa ≤ 64 * key) && decide (64 * key < pa + 2 ^ bits) && dva % 128 == 0 && decide (lo ≤ dva / 128) &&
      decide (dva / 128 < lo + n)

/-- Pins of a context at a level on the lines of a range. -/
def State.pinsOn (s : State) (c k : Nat) (die : Bool) (lo n : Nat) : List Pin :=
  (s.ctx c k).pins.filter fun e => e.die == die && (s.core c).inRange lo n e.line

/-- R283. PIN. -/
def State.seqPin (s : State) (c k : Nat) (die : Bool) (b r d : BitVec 5) : State :=
  let x := s.ctx c k
  let (lo, n) := rangeLines (x.reg r).toNat (x.reg b).toNat
  match s.pinLines c k die lo n with
  | (none, s) => s
  | (some stopped, s) =>
    s.seqDone c k d (BitVec.ofNat 64 ((s.pinsOn c k die lo n).length + (b2n stopped) <<< 63))

/-- R283. UNPIN. DEDUCED (log 61). -/
def State.seqUnpin (s : State) (c k : Nat) (die : Bool) (b r d : BitVec 5) : State :=
  let x := s.ctx c k
  let (lo, n) := rangeLines (x.reg r).toNat (x.reg b).toNat
  let gone := s.pinsOn c k die lo n
  (s.modCtx c k fun x => { x with pins := x.pins.filter fun e => !gone.contains e }).seqDone c k d
    (BitVec.ofNat 64 gone.length)

/-- Fetch the lines of a range that are mapped and readable. -/
def State.fetchLines (s : State) (c : Nat) (lvl : Bool) : Nat → Nat → State
  | _, 0 => s
  | line, n + 1 =>
    let s := if ((s.core c).check false (128 * line) 128).isSome then s else s.fetchLine c lvl line
    State.fetchLines s c lvl (line + 1) n

/-- R283. IPREF: how far the fetches come before anything else happens is free (DESIGN CHOICE, log 5). -/
def State.seqIpref (s : State) (c k : Nat) (lvl : Bool) (b r : BitVec 5) : State :=
  let x := s.ctx c k
  let (lo, n) := rangeLines (x.reg r).toNat (x.reg b).toNat
  let (d, s) := s.draw
  (s.fetchLines c lvl lo (Config.freeNat d % (n + 1))).seqNext c k

/-- R284. A line that only soft pins hold may be evicted. -/
def State.softEvict (s : State) (c : Nat) (lvl : Bool) (line : Nat) : State :=
  if (s.locked c lvl).contains line then s
  else if lvl then { s with dlines := s.dlines.filter (· != (dieOf c, line)) }
  else s.modCore c fun q => { q with icache := tblErase q.icache line }

/-! ## AMO.S (R282) -/

/-- The first failing check of a read and a write. -/
def CoreSt.checkBoth (q : CoreSt) (a n : Nat) : Option (Nat × Nat) :=
  match q.check false a n, q.check true a n with
  | some f, some g => some (if f.2 ≤ g.2 then f else g)
  | some f, none => some f
  | none, g => g

/-- rd of an atomic. -/
def amoResult (op v : Nat) : Word := if atomicSize op = 4 then sext64 32 v else BitVec.ofNat 64 v

/-- The atomic itself, after its fence; at CORE scope or wider it acts as a fence behind itself too, which nothing delays
since only it has been performed meanwhile. DESIGN CHOICE (log 113). -/
def State.amoAct (s : State) (c k op a : Nat) (x scope : Nat) (rd : BitVec 5) : State :=
  let n := atomicSize op
  if inWindow a then
    let o := a % 2 ^ 19
    if ((s.core c).pendingAt o n).isSome then s.seqTrap c k 0x23 0 (BitVec.ofNat 64 a)
    else if !(s.core c).banksFree o n then s
    else
      let ((old, lost), s) := s.spAtomic c op o x 0
      let s := ((s.modCore c fun q => q.holdBanks o n 2).fenceStep c k scope).2
      if lost then (s.flag c k flPoison).poisoned c k a rd (amoResult op old) else s.seqDone c k rd (amoResult op old)
  else
    let as := (s.core c).dpas a n
    if !s.reaches c as then s
    else
      let ((old, lost), s) := s.memAtomic c as op x 0
      let s := ((s.modCore c fun q => { q with dcache := tblErase q.dcache (lineOf as) }).fenceStep c k scope).2
      if lost then (s.hubCount (offBustat (as.headD 0 / (48 * 2 ^ 30))) 32 32 1).poisoned c k a rd (amoResult op old)
      else s.seqDone c k rd (amoResult op old)

/-- R282. -/
def State.seqAmo (s : State) (c k : Nat) (o : BitVec 4) (scope : BitVec 3) (b r d : BitVec 5) : State :=
  let x := s.ctx c k
  let a := (x.reg r).toNat
  let op := o.toNat
  let n := atomicSize op
  match s.homeOf c k a n false with
  | (none, s) => s
  | (some (scratch, h), s) =>
    match (if scratch then none else (s.core c).checkBoth a n) with
    | some f => s.fatalCheck c k f
    | none =>
      if scope = 0 then
        if x.storeTo scratch h n then s else s.amoAct c k op a ((x.reg b).toNat % 2 ^ (8 * n)) 0 d
      else
        match s.fenceStep c k scope.toNat with
        | (false, s) => s
        | (true, s) => s.amoAct c k op a ((x.reg b).toNat % 2 ^ (8 * n)) scope.toNat d

/-! ## The end of a task (R286) and HALT.D (R287) -/

/-- DEDUCED (log 22). -/
def State.tryEnd (s : State) (c k : Nat) : State :=
  match (s.ctx c k).wait with
  | .taskEnd =>
    match s.drained c k with
    | (true, s) => s.endTask c k
    | (false, s) => s
  | _ => s

/-- R286. -/
def State.seqTrapr (s : State) (c k : Nat) (code : BitVec 12) : State :=
  if code = 0 then (s.seqWait c k .taskEnd).tryEnd c k
  else if code.getLsbD 11 then s.illegalInstr c k (.trapr code)
  else s.seqTrap c k 0x26 (code.setWidth 32) 0

/-- R287. The context stops before the next instruction while a debugger is attached. -/
def State.seqHalt (s : State) (c k : Nat) (code : BitVec 12) : State :=
  if bit (s.hubGet (offDbgctl c)).toNat 2 then
    ((s.seqNext c k).seqWait c k (.halted code)).emit (.haltCode c k code)
  else s.seqNext c k

/-! ## Meanings -/

def execTtload (b r d : BitVec 5) (s : State) : Host.Outcome State Fault Refusal :=
  asSeq (fun c k s => s.seqTtload c k b r d) s

def execTtloadReplace (c k : Nat) (s : State) : Host.Outcome State Fault Refusal := .next (s.tryTtload c k)

def execProbe (b r d : BitVec 5) (s : State) : Host.Outcome State Fault Refusal :=
  asSeq (fun c k s => s.seqProbe c k b r d) s

/-- R88. One page of a waiting PROBE is walked. -/
def execPageWalk (c k : Nat) (s : State) : Host.Outcome State Fault Refusal := .next (s.tryProbe c k)

def execPin (l : Bool) (b r d : BitVec 5) (s : State) : Host.Outcome State Fault Refusal :=
  asSeq (fun c k s => s.seqPin c k l b r d) s

def execUnpin (l : Bool) (b r d : BitVec 5) (s : State) : Host.Outcome State Fault Refusal :=
  asSeq (fun c k s => s.seqUnpin c k l b r d) s

def execIpref (l : Bool) (b r : BitVec 5) (s : State) : Host.Outcome State Fault Refusal :=
  asSeq (fun c k s => s.seqIpref c k l b r) s

def execSoftPinEviction (c : Nat) (lvl : Bool) (line : Nat) (s : State) : Host.Outcome State Fault Refusal :=
  .next (s.softEvict c lvl line)

def execAmoS (o : BitVec 4) (scope : BitVec 3) (b r d : BitVec 5) (s : State) :
    Host.Outcome State Fault Refusal := asSeq (fun c k s => s.seqAmo c k o scope b r d) s

def execTraprEnd (s : State) : Host.Outcome State Fault Refusal := asSeq (fun c k s => s.seqTrapr c k 0) s

def execTrapr (code : BitVec 12) (s : State) : Host.Outcome State Fault Refusal :=
  asSeq (fun c k s => s.seqTrapr c k code) s

def execTaskEnd (c k : Nat) (s : State) : Host.Outcome State Fault Refusal := .next (s.tryEnd c k)

def execHaltD (code : BitVec 12) (s : State) : Host.Outcome State Fault Refusal :=
  asSeq (fun c k s => s.seqHalt c k code) s

end Sys2Proof.Machine
end

