-- ==== Sys2Proof/Machine/Csr.lean ====
section
/-! DEFINITION. The sequencer CSRs: what each reads as and what a write of it does (00_scope.md R7, 12_sequencer.md
R260 to R263 and the register maps of the other chapters). -/
namespace Sys2Proof.Machine

/-- Owner state that only the owner reaches (12_sequencer.md R262). DEDUCED (log 17). -/
def csrOwned (n : Nat) : Bool :=
  n == 0x815 || n == 0x820 || n == 0x821 || n == 0x823 || n == 0x824 || (decide (0x838 ≤ n) && decide (n < 0x848))

/-- TASKCTX (R263). -/
def Ctx.taskctx (x : Ctx) (k : Nat) : Word :=
  at64 x.task.toNat 32 + at64 x.prio.toNat 24 + at64 (b2n x.kernel) 16 + at64 x.gen.toNat 8 + BitVec.ofNat 64 (k % 8)

/-- PINST (R263). -/
def Ctx.pinst (x : Ctx) : Word :=
  at64 ((x.pins.filter fun e => e.die).length % 65536) 32 + at64 ((x.pins.filter fun e => !e.die).length % 512) 16 +
    BitVec.ofNat 64 (b2n x.lost)

/-- EXSTAT (16_scheduling.md R324). -/
def Ctx.exstat (x : Ctx) : Word := at64 x.exLate.toNat 32 + at64 x.exClass.toNat 16 + x.exEvt.setWidth 64

/-- CLKST (R328). -/
def Cluster.clkst (u : Cluster) : Word :=
  at64 u.permits 16 + at64 u.bmax.toNat 12 + at64 u.swal 8 + at64 u.idle 4 + u.state.setWidth 64

/-- WSRWINb (04_device_memory.md R103). -/
def wsrwin (b : Nat) : Word := at64 102400 34 + at64 1600 17 + BitVec.ofNat 64 (3200 * b)

/-- LKST of a link (21_links.md R363). -/
def Link.lkst (l : Link) : Word :=
  at64 l.cls.toNat 62 + at64 l.mup.toNat 52 + at64 l.curr 48 + at64 l.width1 39 + at64 l.width0 30 +
    at64 l.spuse.toNat 12 + BitVec.ofNat 64 (b2n l.train.isSome)

/-- CPSTAT (06_copy_scratchpad.md R138). -/
def CoreSt.cpstat (q : CoreSt) : Word :=
  at64 q.noslot 48 + at64 q.uce 32 + at64 q.bstall 12 +
    BitVec.ofNat 64 (1024 - (q.jobs.filter fun j => decide (1 ≤ j.stage)).length)

/-- The 64 bytes of a trace record (24_debug.md R404). -/
def TraceRec.bytes (r : TraceRec) : List Byte :=
  bytesLe 8 r.ringph.toNat ++ bytesLe 8 r.ftick ++
    ((upFrom 0 5).flatMap fun e => bytesLe 6 ((tblFind r.words e).getD 0).toNat) ++ bytesLe 2 r.classes.toNat ++ bytesLe 16 0

/-- TRDAT: the word that TRRD selects. -/
def CoreSt.trdat (q : CoreSt) : Word :=
  match q.trace[(q.trRd.extractLsb' 3 10).toNat]? with
  | none => 0
  | some r => BitVec.ofNat 64 (ofBytesLe ((r.bytes.drop (8 * (q.trRd.toNat % 8))).take 8))

/-- What a CSR reads as. -/
def State.csrRead (s : State) (c k n : Nat) : Word :=
  let q := s.core c
  let x := q.ctx k
  let o := q.own
  match n with
  | 0x810 => x.numMode.setWidth 64
  | 0x811 => x.numSt.setWidth 64
  | 0x812 => BitVec.ofNat 64 s.ftick
  | 0x813 => BitVec.ofNat 64 (b2n q.pendMode)
  | 0x814 => q.cpstat
  | 0x815 => q.ringph
  | 0x816 => at64 q.colLast.toNat 32 + BitVec.ofNat 64 q.colCount
  | 0x817 => BitVec.ofNat 64 (b2n q.ctrap)
  | 0x820 => o.rqstat
  | 0x821 => o.stack.word o.stack.ents.length
  | 0x822 => at64 q.rsSpill 40 + at64 q.rsRefill 16 + BitVec.ofNat 64 q.rsSlap
  | 0x823 => o.stack.markWord
  | 0x824 => o.mxstat
  | 0x825 => at64 q.mxDrop 32 + BitVec.ofNat 64 q.mxReplay
  | 0x826 => BitVec.ofNat 64 c
  | 0x827 => x.taskctx k
  | 0x830 => x.wmask.setWidth 64
  | 0x831 => x.pinst
  | 0x832 => x.segLast
  | 0x833 => x.rqLast
  | 0x834 => x.exstat
  | 0x835 => (s.cluster (clusterOf c)).clkst
  | 0x836 => x.boost.setWidth 64
  | 0x837 => x.saveb
  | 0x848 => at64 q.void 32 + at64 q.segOk 16 + BitVec.ofNat 64 q.segTrap
  | 0x858 => BitVec.ofNat 64 (b2n q.qhFrz * 2 + b2n q.qhEn)
  | 0x859 => q.qhIdx.setWidth 64
  | 0x85A => BitVec.ofNat 64 (if 60 ≤ q.qhIdx.toNat then 0 else tblGet 0 q.qh q.qhIdx.toNat)
  | 0x85B => at64 q.trace.length 20 + BitVec.ofNat 64 (b2n q.trWrap * 4 + b2n q.trAct * 2 + b2n q.trEn)
  | 0x85C => q.trStart
  | 0x85D => q.trStop
  | 0x85E => q.trRd.setWidth 64
  | 0x85F => q.trdat
  | 0x860 => s.hubGet offStpass
  | 0x868 => s.hubGet (offWsstat (dieOf c))
  | _ =>
    if 0x818 ≤ n ∧ n ≤ 0x81F then q.chw (n - 0x818)
    else if 0x828 ≤ n ∧ n ≤ 0x82F then (o.tile (n - 0x828)).mshp
    else if 0x838 ≤ n ∧ n ≤ 0x83F then tblGet 0 o.es (n - 0x838)
    else if 0x840 ≤ n ∧ n ≤ 0x847 then o.guard (n - 0x840)
    else if 0x850 ≤ n ∧ n ≤ 0x857 then (s.link (n - 0x850)).lkst
    else if 0x870 ≤ n ∧ n ≤ 0x88F then wsrwin (n - 0x870)
    else 0

/-- A count of a register after a write: any 1 in its field clears it (06_copy_scratchpad.md R138). -/
def wipe (count : Nat) (v : Word) (lo n : Nat) : Nat := if wfld v lo n = 0 then count else 0

/-- A write of a CSR that has no row of its own; RO and reserved fields ignore it (R7, R9). -/
def State.csrPut (s : State) (c k n : Nat) (v : Word) : State :=
  match n with
  | 0x810 => s.modCtx c k fun x => { x with numMode := v.setWidth 4 }
  | 0x811 => s.modCtx c k fun x => { x with numSt := x.numSt &&& ~~~(v.setWidth 7) }
  | 0x813 => s.modCore c fun q => { q with pendMode := v.getLsbD 0 }
  | 0x814 => s.modCore c fun q =>
    { q with noslot := wipe q.noslot v 48 16, uce := wipe q.uce v 32 16, bstall := wipe q.bstall v 12 20 }
  | 0x816 => s.modCore c fun q => { q with colCount := wipe q.colCount v 0 32 }
  | 0x817 => s.modCore c fun q => { q with ctrap := v.getLsbD 0 }
  | 0x820 => s.modOwn c fun o => { o with rqOvf := o.rqOvf && !v.getLsbD 5 }
  | 0x822 => s.modCore c fun q =>
    { q with rsSpill := wipe q.rsSpill v 40 24, rsRefill := wipe q.rsRefill v 16 24, rsSlap := wipe q.rsSlap v 0 16 }
  | 0x825 => s.modCore c fun q => { q with mxDrop := wipe q.mxDrop v 32 32, mxReplay := wipe q.mxReplay v 0 32 }
  | 0x830 => s.modCtx c k fun x => { x with wmask := v.setWidth 32 &&& ~~~1 }
  | 0x831 => s.modCtx c k fun x => { x with lost := x.lost && !v.getLsbD 0 }
  | 0x834 => s.modCtx c k fun x =>
    { x with
      exLate := if wfld v 32 32 = 0 then x.exLate else 0
      exEvt := x.exEvt &&& ~~~(v.setWidth 8) }
  | 0x848 => s.modCore c fun q =>
    { q with void := wipe q.void v 32 32, segOk := wipe q.segOk v 16 16, segTrap := wipe q.segTrap v 0 16 }
  | 0x858 => s.modCore c fun q => { q with qhEn := v.getLsbD 0, qhFrz := v.getLsbD 1 }
  | 0x85C => s.modCore c fun q => { q with trStart := v &&& 0xE00FFFFFFFFFFFFF }
  | 0x85D => s.modCore c fun q => { q with trStop := v &&& 0xE00FFFFFFFFFFFFF }
  | 0x85E => s.modCore c fun q => { q with trRd := v.setWidth 13 }
  | _ => s

/-- The value that a CSR instruction writes, if it writes: CSRRS and CSRRC with x0 or 0 write nothing (R260). -/
def csrNew (op : CsrOp) (rs : BitVec 5) (old v : Word) : Option Word :=
  match op with
  | .rw => some v
  | .rs => if rs = 0 then none else some (old ||| v)
  | .rc => if rs = 0 then none else some (old &&& ~~~v)

/-- A CSR instruction: `put` makes the write, and tells whether it has been made; else the context waits, or a
trap or fatal error has been taken. -/
def State.csrAccess (s : State) (c k : Nat) (op : CsrOp) (imm : Bool) (n : Nat) (rs rd : BitVec 5)
    (put : State → Word → Bool × State) : State :=
  let act (s : State) : State :=
    let old := s.csrRead c k n
    let v := if imm then rs.setWidth 64 else (s.ctx c k).reg rs
    match csrNew op rs old v with
    | none => s.seqDone c k rd old
    | some w =>
      match put s w with
      | (true, s) => s.seqDone c k rd old
      | (false, s) => s
  if csrOwned n then s.asOwner c k act else act s

/-- Every VX entry of the owner has drained, and what an abandonment has left in flight is complete (10_reversible.md R214,
19_faults.md R345). -/
def Own.vxDrained (o : Own) : Bool := (o.queue 3).count == 0 && o.flights.all fun f => f.eng != .vx

/-- R214. A write of RSTK: its checks, the flush, and the new CAP and DEPTH. -/
def State.rstkPut (s : State) (c k : Nat) (i : Instr) (v : Word) : Bool × State :=
  let o := s.own c
  let cap := wfld v 48 16
  let depth := wfld v 0 16
  if !o.vxDrained then (false, s)
  else if (o.stack.cap < o.stack.depth ∧ o.stack.depth ≠ 0) ∨ (cap < depth ∧ depth ≠ 0) then (false, s.illegalInstr c k i)
  else
    match s.flushStack c with
    | (s, some a) => (false, s.fatal c k 6 a)
    | (s, none) =>
      (true, s.modOwn c fun o => { o with stack := { o.stack with cap := cap, depth := depth, ents := [], hold := true } })

/-- R215. A write of RSMARK. -/
def State.rsmarkPut (s : State) (c : Nat) (v : Word) : Bool × State :=
  if !(s.own c).vxDrained then (false, s)
  else (true, s.modOwn c fun o => { o with stack := o.stack.setMarks v })

/-- R165. A write of a guard lands between two cycles. -/
def State.grdPut (s : State) (c g : Nat) (v : Word) : State := s.modOwn c fun o => o.setGuard g v

/-- R350. -/
def savebOf (v : Word) : Word := v &&& 0x000F_FFFF_FFFF_F001

/-- R328. A claim of 3 is stored as 2. -/
def boostOf (v : Word) : BitVec 2 := if v.setWidth 2 = (3 : BitVec 2) then 2 else v.setWidth 2

/-- R400. -/
def CoreSt.qhselPut (q : CoreSt) (v : Word) : CoreSt :=
  { q with qhIdx := v.setWidth 6, qh := if v.getLsbD 63 then [] else q.qh }

/-- R403. -/
def CoreSt.trctlPut (q : CoreSt) (v : Word) : CoreSt :=
  let fresh := !q.trEn && v.getLsbD 0
  { q with
    trEn := v.getLsbD 0, trWrap := v.getLsbD 2
    trace := if fresh then [] else q.trace
    trAct := if fresh then false else q.trAct }

/-! ## Meanings -/

def execCsrWrite (op : CsrOp) (imm : Bool) (csr : BitVec 12) (rs rd : BitVec 5) (s : State) :
    Host.Outcome State Fault Refusal :=
  asSeq (fun c k s =>
    if csrKnown csr.toNat then s.csrAccess c k op imm csr.toNat rs rd fun s v => (true, s.csrPut c k csr.toNat v)
    else s.illegalInstr c k (.csrWrite op imm csr rs rd)) s

def execRstkWrite (op : CsrOp) (imm : Bool) (rs rd : BitVec 5) (s : State) : Host.Outcome State Fault Refusal :=
  asSeq (fun c k s => s.csrAccess c k op imm 0x821 rs rd fun s v => s.rstkPut c k (.rstkWrite op imm rs rd) v) s

def execRsmarkWrite (op : CsrOp) (imm : Bool) (rs rd : BitVec 5) (s : State) : Host.Outcome State Fault Refusal :=
  asSeq (fun c k s => s.csrAccess c k op imm 0x823 rs rd fun s v => s.rsmarkPut c v) s

def execGrdWrite (op : CsrOp) (imm : Bool) (g : BitVec 3) (rs rd : BitVec 5) (s : State) :
    Host.Outcome State Fault Refusal :=
  asSeq (fun c k s => s.csrAccess c k op imm (0x840 + g.toNat) rs rd fun s v => (true, s.grdPut c g.toNat v)) s

def execSavebWrite (op : CsrOp) (imm : Bool) (rs rd : BitVec 5) (s : State) : Host.Outcome State Fault Refusal :=
  asSeq (fun c k s => s.csrAccess c k op imm 0x837 rs rd fun s v =>
    (true, s.modCtx c k fun x => { x with saveb := savebOf v })) s

def execBoostWrite (op : CsrOp) (imm : Bool) (rs rd : BitVec 5) (s : State) : Host.Outcome State Fault Refusal :=
  asSeq (fun c k s => s.csrAccess c k op imm 0x836 rs rd fun s v =>
    (true, s.modCtx c k fun x => { x with boost := boostOf v })) s

def execQhselClr (op : CsrOp) (imm : Bool) (rs rd : BitVec 5) (s : State) : Host.Outcome State Fault Refusal :=
  asSeq (fun c k s => s.csrAccess c k op imm 0x859 rs rd fun s v => (true, s.modCore c fun q => q.qhselPut v)) s

def execTrctlWrite (op : CsrOp) (imm : Bool) (rs rd : BitVec 5) (s : State) : Host.Outcome State Fault Refusal :=
  asSeq (fun c k s => s.csrAccess c k op imm 0x85B rs rd fun s v => (true, s.modCore c fun q => q.trctlPut v)) s

end Sys2Proof.Machine
end

