-- ==== Sys2Proof/Machine/Post.lean ====
section
/-! DEFINITION. The fault queues of the partitions and the actions of their runtimes (19_faults.md R337 to
R344). -/
namespace Sys2Proof.Machine

/-! ## Records (R339) -/

/-- The words f0 to f6 of a record, and f7 with a SEQ. -/
def Record.words (r : Record) (seq : Nat) : List Word :=
  [at64 r.cause.toNat 56 + at64 r.eng 52 + at64 r.gen.toNat 44 + at64 (r.ctx % 8) 41 + at64 (r.core % 512) 32 +
     r.task.setWidth 64,
   at64 r.status.toNat 32 + at64 (r.word % 4096) 20 + BitVec.ofNat 64 (r.iter % 65536),
   r.code.setWidth 64,
   r.pc,
   r.addr,
   BitVec.ofNat 64 ((upFrom 0 5).foldl (fun a e => a + (r.heads.getD e 0 % 4096) <<< (12 * e)) 0),
   BitVec.ofNat 64 r.tick,
   at64 (min r.lost 255) 56 + BitVec.ofNat 64 (seq % 2 ^ 32)]

/-- log2 of a ring's size: values below 4 and above 12 act as 4 (R308, R337). -/
def ringLog (v : Nat) : Nat := if 4 ≤ v ∧ v ≤ 12 then v else 4

/-- The DVA of slot `n` of a ring of 64-byte records: BASE is aligned down to the ring (R308, R337). -/
def ringSlot (cfg : Word) (size n : Nat) : Nat := (wfld cfg 6 46 / 2 ^ size * 2 ^ size + n % 2 ^ size) * 64

/-! ## Posting (R338) -/

/-- The partition whose queue a record goes to: that of its core, of its launch queue, or of its send queue (a
bad packet's `live` is 1 there). -/
def State.recordPart (s : State) (r : Record) : Nat :=
  if r.eng ≠ 6 then s.partOf r.core
  else if r.live = 1 then wfld (s.hubGet (offWsqcfg (r.core / 16) (r.core % 16))) 60 3
  else wfld (s.hubGet (offLqcfg (r.core / 16) (r.core % 16))) 60 3

def State.heldOf (s : State) (p : Nat) : List Record := s.held.filter fun r => s.recordPart r == p

def State.fqSize (s : State) (p : Nat) : Nat := ringLog (wfld (s.hubGet (offFqcfg p)) 52 4)

def State.fqTail (s : State) (p : Nat) : Nat := wfld (s.hubGet (offFqstat p)) 32 32

def State.fqFull (s : State) (p : Nat) : Bool :=
  (s.fqTail p + 2 ^ 32 - wfld (s.hubGet (offFqhead p)) 0 32) % 2 ^ 32 == 2 ^ s.fqSize p

/-- FQSTAT as it reads (R337). -/
def State.fqstat (s : State) (p : Nat) : Word :=
  (s.hubGet (offFqstat p) &&& 0xFFFF_FFFF_FFFF_0000) + at64 (min (s.heldOf p).length 64) 8 + BitVec.ofNat 64 (b2n (s.fqFull p))

/-- Remove the first record of a partition from those held. -/
def dropFirst (p : Record → Bool) : List Record → List Record
  | [] => []
  | r :: rs => if p r then rs else r :: dropFirst p rs

/-- Write words through the walk units, one behind another. -/
def State.walkPuts (s : State) (p : Nat) : Nat → List Word → State
  | _, [] => s
  | a, w :: ws => State.walkPuts (s.walkPut 4 p a w) p (a + 8) ws

/-- The hub posts the oldest record it holds for a partition. -/
def State.post (s : State) (p : Nat) : State :=
  let cfg := s.hubGet (offFqcfg p)
  match (s.heldOf p).head? with
  | none => s
  | some r =>
    let n := s.fqTail p
    if !bit cfg.toNat 63 || s.fqFull p || s.rangeHeld 4 p (ringSlot cfg (s.fqSize p) n) 64 then s
    else
      let seq := (n + 1) % 2 ^ 32
      let held := dropFirst (fun r => s.recordPart r == p) s.held
      let s := s.walkPuts p (ringSlot cfg (s.fqSize p) n) (r.words seq)
      let s := ({ s with held := held }).hubField (offFqstat p) 32 32 (n + 1)
      let s :=
        if r.eng = 6 then s
        else
          s.modCtx r.core r.ctx fun x =>
            match x.trapped with
            | some t => if t.r = r ∧ t.seq.isNone then { x with trapped := some { t with seq := some (BitVec.ofNat 32 seq) } } else x
            | none => x
      s.emit (.faultIrq p (s.irqCore p))

/-! ## Acting on a record (R342 to R345) -/

/-- Causes 0x24 to 0x27, behind which a context goes on. -/
def passes (cause : BitVec 8) : Bool := decide (0x24 ≤ cause.toNat) && decide (cause.toNat ≤ 0x27)

/-- The outstanding record that an action names; SEQ must match (R343). DEDUCED (log 65). -/
def State.actedOn (s : State) (p c k : Nat) (seq : BitVec 32) : Option Record :=
  match (s.ctx c k).trapped with
  | some t => if t.seq = some seq ∧ s.partOf c = p then some t.r else none
  | none => none

/-- x10 takes TRVAL (R342). -/
def State.setx (s : State) (p c k : Nat) (on : Bool) : State :=
  if on then s.modCtx c k fun x => x.setReg 10 (s.hubGet (offTrval p)) else s

/-- The next record kept behind the one acted on is posted at once; the core stays held when it is an engine fault, else
the hold ends (R336). -/
def State.nextKept (s : State) (c k : Nat) : State :=
  let s :=
    match (s.core c).kept.find? fun r => r.ctx == k with
    | some r => (s.modCore c fun q => { q with kept := dropFirst (fun r => r.ctx == k) q.kept }).postRecord r
    | none => s
  s.modCore c CoreSt.endHold

/-- The illegal word that an engine stands at is to issue as a NOP that pops and pushes nothing (R344). -/
def EngQ.skip (q : EngQ) : EngQ := { q with run := q.run.map fun r => { r with skip := true } }

/-- The word at the cursor is fetched again. -/
def EngQ.refetch (q : EngQ) : EngQ := { q with run := q.run.map fun r => { r with code := none } }

/-- RESUME, and SKIP where it differs (R344). -/
def State.resume (s : State) (c k : Nat) (r : Record) (skip : Bool) : State :=
  let s := s.modCtx c k fun x => { x with trapped := none }
  let s :=
    if 0x20 ≤ r.cause.toNat then
      if skip || passes r.cause then
        s.modCtx c k fun x =>
          let x := if r.cause = 0x27 ∧ !skip then x.setReg r.rd 2 else x
          { x with pc := r.pc + 4 }
      else s
    else if r.cause = 0x01 then
      if (s.core c).owner = some k then
        s.modCore c fun q => q.modQ r.eng fun w => if skip then w.skip else w.refetch
      else s
    else s
  s.nextKept c k

/-- ABANDON (R344, R345). DEDUCED (log 26). -/
def State.abandonAt (s : State) (c k : Nat) (r : Record) : State :=
  let s := (s.abandon c k).modCtx c k fun x =>
    { x with trapped := none, pc := if passes r.cause then r.pc + 4 else r.pc }
  s.modCore c CoreSt.endHold

/-- A write of TACT (R343): an action on the record it names, else it is counted. DEDUCED (log 65). -/
def State.tact (s : State) (p : Nat) (on : Bool) (c k : Nat) (seq : BitVec 32) (act : State → Record → State) : State :=
  match s.actedOn p c k seq with
  | some r => act (s.setx p c k on) r
  | none => s.hubCount (offFqstat p) 16 16 1

/-- R337. A write of FQCFG; EN rising empties the queue. -/
def State.fqcfgPut (s : State) (p : Nat) (v : Word) : State :=
  let rise := !bit (s.hubGet (offFqcfg p)).toNat 63 && bit v.toNat 63
  let s := s.hubPut (offFqcfg p) (v &&& 0x80FF_FFFF_FFFF_FFC0)
  if rise then (s.hubField (offFqstat p) 32 32 0).hubPut (offFqhead p) 0 else s

/-! ## Meanings -/

def execFaultRecordPost (p : Nat) (s : State) : Host.Outcome State Fault Refusal := .next (s.post p)

def execTactResume (p : Nat) (setx : Bool) (c k : Nat) (seq : BitVec 32) (s : State) :
    Host.Outcome State Fault Refusal := .next (s.tact p setx c k seq fun s r => s.resume c k r false)

def execTactSkip (p : Nat) (setx : Bool) (c k : Nat) (seq : BitVec 32) (s : State) :
    Host.Outcome State Fault Refusal := .next (s.tact p setx c k seq fun s r => s.resume c k r true)

def execTactAbandon (p : Nat) (setx : Bool) (c k : Nat) (seq : BitVec 32) (s : State) :
    Host.Outcome State Fault Refusal := .next (s.tact p setx c k seq fun s r => s.abandonAt c k r)

def execTactEnd (p : Nat) (setx : Bool) (c k : Nat) (seq : BitVec 32) (s : State) :
    Host.Outcome State Fault Refusal := .next (s.tact p setx c k seq fun s _ => (s.abandon c k).endTask c k)

def execFqcfgWrite (p : Nat) (v : Word) (s : State) : Host.Outcome State Fault Refusal :=
  if p < 8 then .next (s.fqcfgPut p v) else .next s

end Sys2Proof.Machine
end

