-- ==== Sys2Proof/Machine/Launch.lean ====
section
/-! DEFINITION. Launch queues, task queues and the dispatcher, and the end of barriers (16_scheduling.md R308 to
R320, 12_sequencer.md R273). -/
namespace Sys2Proof.Machine

/-! ## Launch queues (R308 to R314) -/

def qKey (d q : Nat) : Nat := 16 * d + q

def State.lqPos (s : State) (d q : Nat) : LqPos := tblGet LqPos.reset s.lqs (qKey d q)

def State.modLq (s : State) (d q : Nat) (f : LqPos → LqPos) : State :=
  { s with lqs := tblMod LqPos.reset s.lqs (qKey d q) f }

def State.lqHead (s : State) (d q : Nat) : Nat := wfld (s.hubGet (offLqstat d q)) 32 32
def State.lqTail (s : State) (d q : Nat) : Nat := wfld (s.hubGet (offLqkick d q)) 0 32
def State.lqSize (s : State) (d q : Nat) : Nat := ringLog (wfld (s.hubGet (offLqcfg d q)) 56 4)
def State.lqPart (s : State) (d q : Nat) : Nat := wfld (s.hubGet (offLqcfg d q)) 60 3

/-- DVA of the packet at HEAD. -/
def State.lqAddr (s : State) (d q : Nat) : Nat :=
  ringSlot (s.hubGet (offLqcfg d q)) (s.lqSize d q) (s.lqHead d q)

/-- In-service cores of a partition in the clusters of die `d` that a mask names, in rising order.
DEDUCED (log 84). -/
def State.launchCores (s : State) (d : Nat) (mask p : Nat) : List Nat :=
  (upFrom (128 * d) 128).filter fun c =>
    bit mask (clusterOf c % 8) && s.inService c && s.partOf c == p

/-- Every cluster that the mask names has an in-service core of the partition. -/
def State.maskGood (s : State) (d : Nat) (mask p : Nat) : Bool :=
  decide (mask ≠ 0) && (upFrom 0 8).all fun cl => !bit mask cl || (s.launchCores d mask p).any fun c => clusterOf c % 8 == cl

/-- The checks of step 3. -/
def State.packetGood (s : State) (d q : Nat) (w : List Word) : Bool :=
  let p (i : Nat) : Word := w.getD i 0
  wfld (p 0) 52 12 == 0 && wfld (p 0) 0 2 == 0 && wfld (p 1) 48 7 == 0 && wfld (p 1) 16 24 == 0 &&
    wfld (p 7) 32 32 == 0 && s.maskGood d (wfld (p 1) 40 8) (s.lqPart d q)

/-- The lowest breakpoint that a packet matches (R314). -/
def State.breakAt (s : State) (d q : Nat) (w : List Word) : Option Nat :=
  (upFrom 0 4).find? fun n =>
    let b := s.hubGet (offLbp d n)
    let ma := bit b.toNat 62
    let mq := bit b.toNat 61
    bit b.toNat 63 && (ma || mq) && (!ma || wfld b 0 52 == wfld (w.getD 0 0) 0 52) && (!mq || wfld b 57 4 == q)

/-- HEAD moves past a packet. -/
def State.lqAdvance (s : State) (d q : Nat) : State := s.hubField (offLqstat d q) 32 32 (s.lqHead d q + 1)

/-- The record of a bad packet (19_faults.md R339, R341). -/
def badPacket (d q addr tick : Nat) : Record :=
  { cause := 0x60, eng := 6, gen := 0, ctx := 0, core := qKey d q, task := 0, status := 0, word := 0, iter := 0, code := 0
    pc := 0, addr := BitVec.ofNat 64 addr, heads := [], tick := tick, lost := 0, rd := 0, det := 0, live := 0 }

/-- A bad packet: it is passed and counted, and its record goes to the hub. -/
def State.lqBad (s : State) (d q addr : Nat) : State :=
  (((s.modLq d q fun x => { x with rereads := 0, nextRead := none }).lqAdvance d q).hubCount (offLqstat d q) 8 8 1).postPlain
    (badPacket d q addr s.ftick)

/-- Step 2 and 3 of R311, for a packet whose p7 is valid. -/
def State.lqTake (s : State) (d q : Nat) (p7 : Word) : State :=
  let a := s.lqAddr d q
  match (upFrom 0 7).mapM fun i => s.walkWord 4 (s.lqPart d q) (a + 8 * i) with
  | none => s.lqBad d q a
  | some ws =>
    let w := ws ++ [p7]
    if !s.packetGood d q w then s.lqBad d q a
    else
      let s := s.modLq d q fun x => { x with placing := some (w, 0), rereads := 0, nextRead := none }
      match s.breakAt d q w with
      | some n => ((s.hubField (offLqstat d q) 5 1 1).hubField (offLqstat d q) 6 2 n)
      | none => s

/-- Step 1 of R311: read p7; `again` says what an invalid one leads to. -/
def State.lqRead (s : State) (d q : Nat) (again : State → State) : State :=
  let a := s.lqAddr d q
  if s.rangeHeld 4 (s.lqPart d q) a 64 then s
  else match s.walkWord 4 (s.lqPart d q) (a + 56) with
  | none => s.lqBad d q a
  | some v =>
    let (_, s) := s.draw
    if wfld v 0 32 = (s.lqHead d q + 1) % 2 ^ 32 then s.lqTake d q v else again s

/-- A record of the queue waits among more than 64 records of its partition (19_faults.md R338). -/
def State.lqBlocked (s : State) (d q : Nat) : Bool :=
  ((s.heldOf (s.lqPart d q)).drop 64).any fun r => r.eng == 6 && r.live == 0 && r.core == qKey d q

/-- The conditions for a turn of a queue. -/
def State.lqServed (s : State) (d q : Nat) : Bool :=
  let st := (s.hubGet (offLqstat d q)).toNat
  let x := s.lqPos d q
  decide (d < 4) && decide (q < 16) && bit (s.hubGet (offLqcfg d q)).toNat 63 && s.lqHead d q != s.lqTail d q &&
    !bit st 3 && !bit st 5 && x.placing.isNone && x.nextRead.isNone && !s.lqBlocked d q

/-- The queue of a die that the launch unit serves next: the first in turn that has a packet to take (R311). -/
def State.lqNext (s : State) (d : Nat) : Option Nat :=
  ((upFrom 0 16).map fun i => (tblGet 0 s.lqTurn d + i) % 16).find? fun q => s.lqServed d q

/-- R311. A turn of a queue: the launch unit takes one packet and goes on to the next queue. -/
def State.launchTurn (s : State) (d q : Nat) : State :=
  if s.lqNext d ≠ some q then s
  else
    let s := { s with lqTurn := tblSet 0 s.lqTurn d ((q + 1) % 16) }
    s.lqRead d q fun s => s.modLq d q fun x => { x with rereads := 0, nextRead := some (s.ftick + 1600) }

/-- R312. A re-read of p7. -/
def State.launchReread (s : State) (d q : Nat) : State :=
  let x := s.lqPos d q
  match x.nextRead with
  | none => s
  | some t =>
    if s.ftick < t then s
    else
      s.lqRead d q fun s =>
        if 8 ≤ x.rereads + 1 then
          ((s.hubCount (offLqstat d q) 16 16 1).hubField (offLqstat d q) 3 1 1).modLq d q fun y =>
            { y with rereads := 0, nextRead := none }
        else s.modLq d q fun y => { y with rereads := x.rereads + 1, nextRead := some (t + 1600) }

/-! ## Task queues (R315, R316) -/

/-- The core's task queue has room. -/
def CoreSt.taskRoom (q : CoreSt) : Bool := decide (q.taskQ.length < 256)

/-- Woken continuations of a core, oldest first. DEDUCED (log 66). -/
def State.wokenOf (s : State) (c : Nat) : List Cont := s.conts.filter fun e => e.core == c && e.woken.isSome

/-- The task that a packet gives for index `i` (R318). -/
def taskOf (w : List Word) (task : BitVec 32) (i : Nat) : QTask :=
  let p (n : Nat) : Word := w.getD n 0
  { entry := p 0, prio := (p 1).extractLsb' 56 8, kernel := (p 1).getLsbD 55, task := task
    x := tblSetRange 0 [] 9 (BitVec.ofNat 64 i :: (upFrom 2 5).map p), groups := [], waited := 0, cont := false }

/-- R315. The launch unit places the next task of a packet. Tasks whose clusters have all left service are
dropped (25_service.md R413). DEDUCED (log 84). -/
def State.placeTask (s : State) (d q : Nat) : State :=
  match (s.lqPos d q).placing with
  | none => s
  | some (w, i) =>
    if bit (s.hubGet (offLqstat d q)).toNat 5 then s
    else
      let p1 := w.getD 1 0
      let cs := s.launchCores d (wfld p1 40 8) (s.lqPart d q)
      match cs[i % cs.length]? with
      | none => (s.modLq d q fun x => { x with placing := none }).lqAdvance d q
      | some c =>
        if !(s.core c).taskRoom || !(s.wokenOf c).isEmpty then s
        else
          let made := tblGet 0 s.tasksMade d
          let t := taskOf w (BitVec.ofNat 32 (d * 2 ^ 30 + made % 2 ^ 30)) i
          let s := { s with tasksMade := tblSet 0 s.tasksMade d (made + 1) }
          let s := s.modCore c fun q => { q with taskQ := q.taskQ ++ [t] }
          if i = wfld p1 0 16 then (s.modLq d q fun x => { x with placing := none }).lqAdvance d q
          else s.modLq d q fun x => { x with placing := some (w, i + 1) }

/-- R273, R316. A woken continuation enters the task queue of its core, oldest first. DEDUCED (log 66). -/
def State.contEnqueue (s : State) (id : Nat) : State :=
  match s.conts.find? fun e => e.id == id with
  | none => s
  | some e =>
    match e.woken with
    | none => s
    | some w =>
      if !(s.core e.core).taskRoom || ((s.wokenOf e.core).head?.map (·.id)) != some id then s
      else
        let t : QTask :=
          { entry := e.pc, prio := e.prio, kernel := e.kernel, task := e.task
            x := if e.rd = 0 then e.x else tblSet 0 e.x e.rd.toNat (BitVec.ofNat 64 w)
            groups := e.groups, waited := 0, cont := true }
        ({ s with conts := s.conts.filter fun y => y.id != id }).modCore e.core fun q => { q with taskQ := q.taskQ ++ [t] }

/-! ## Dispatch (R317, R318) -/

/-- The lowest-numbered free context (16_scheduling.md R317). -/
def CoreSt.freeContext (q : CoreSt) : Option Nat :=
  (upFrom 0 8).find? fun i => !(q.ctx i).live

/-- Position of the task that is dispatched next: the longest waiting of those that have waited through 65,535
decisions, else the first of the highest level. -/
def pickTask (ts : List QTask) : Option Nat :=
  let best (old : Bool) : Option Nat :=
    (upFrom 0 ts.length).foldl (fun b i =>
      match ts[i]? with
      | none => b
      | some t =>
        if old && decide (t.waited < 65535) then b
        else
          match b.bind fun j => (ts[j]?).map fun u => (j, u) with
          | none => some i
          | some (j, u) =>
            if (if old then decide (u.waited < t.waited) else decide (u.prio < t.prio)) then some i else some j) none
  match best true with
  | some i => some i
  | none => best false

/-- The context of a dispatched task (R318). DESIGN CHOICE (log 3). -/
def QTask.start (t : QTask) : Ctx :=
  { Ctx.reset with
    live := true, pc := t.entry, x := t.x, task := t.task, prio := t.prio, kernel := t.kernel, groups := t.groups }

/-- A weight-store write of the partition is under way on a core's die: a kernel of the partition waits until it has
landed (04_device_memory.md R100). DEDUCED (log 94). -/
def State.weightsComing (s : State) (c : Nat) : Bool :=
  s.cores.any fun e => dieOf e.1 == dieOf c && s.partOf e.1 == s.partOf c && e.2.jobs.any fun j => j.op == .wswr

/-- R317. A dispatch decision of a core. DEDUCED (log 94). -/
def State.dispatch (s : State) (c : Nat) : State :=
  let q := s.core c
  if !s.inService c then s
  else
    match q.freeContext, pickTask q.taskQ with
    | some k, some i =>
      match q.taskQ[i]? with
      | none => s
      | some t =>
        if t.kernel && s.weightsComing c then s
        else
        let left := (q.taskQ.take i ++ q.taskQ.drop (i + 1)).map fun u => { u with waited := min (u.waited + 1) 65535 }
        (s.setCore c { q with taskQ := left }).setCtx c k t.start
    | _, _ => s

/-! ## Writes of the queue registers -/

/-- R308. EN rising sets HEAD to 0 and clears PARKED. -/
def State.lqcfgPut (s : State) (d q : Nat) (v : Word) : State :=
  let rise := !bit (s.hubGet (offLqcfg d q)).toNat 63 && bit v.toNat 63
  let s := s.hubPut (offLqcfg d q) (v &&& 0xFF0F_FFFF_FFFF_FFC0)
  if rise then
    ((s.hubField (offLqstat d q) 32 32 0).hubField (offLqstat d q) 3 1 0).modLq d q fun x =>
      { x with rereads := 0, nextRead := none }
  else s

/-- Whether an agent may use a queue of a partition (25_service.md R420). -/
def HubAgent.mayUse (who : HubAgent) (part : Nat) : Bool :=
  match who with
  | .partition p => p == part
  | _ => true

/-- R310, R311. A write of TAIL. -/
def State.lqkickPut (s : State) (who : HubAgent) (d q : Nat) (tail : BitVec 32) : State :=
  if !HubAgent.mayUse who (s.lqPart d q) then s
  else
    let s := s.hubPut (offLqkick d q) (tail.setWidth 64)
    if 2 ^ s.lqSize d q < (tail.toNat + 2 ^ 32 - s.lqHead d q) % 2 ^ 32 then
      (s.hubField (offLqstat d q) 4 1 1).hubField (offLqstat d q) 3 1 1
    else s.hubField (offLqstat d q) 3 1 0

/-- A write of LQSTAT: its W1C fields (R310). -/
def State.lqstatPut (s : State) (who : HubAgent) (d q : Nat) (v : Word) : State :=
  if !HubAgent.mayUse who (s.lqPart d q) then s
  else
    let o := offLqstat d q
    let s := if wfld v 16 16 ≠ 0 then s.hubField o 16 16 0 else s
    let s := if wfld v 8 8 ≠ 0 then s.hubField o 8 8 0 else s
    let s := if bit v.toNat 5 then s.hubField o 5 1 0 else s
    if bit v.toNat 4 then s.hubField o 4 1 0 else s

/-! ## Route tags (R319) -/

/-- The barrier of a tag is reset: every SSTEP that has entered returns −2. DEDUCED (log 64). -/
def State.barrierReset (s : State) (t : Nat) : State :=
  let b := s.tag t
  let s := b.entered.foldl (fun s e =>
    match (s.ctx e.1 e.2).wait with
    | .sstep _ _ _ rd => s.seqDone e.1 e.2 rd (minus 2)
    | _ => s) s
  s.modTag t fun b => { b with entered := [], tlast := none, release := none }

/-- R319. The hypervisor and the management core write PART; the runtime of partition PART writes GROUP and EN.
DEDUCED (log 64). -/
def State.rtbindPut (s : State) (who : HubAgent) (t : Nat) (v : Word) : State :=
  let o := offRtbind t
  let old := s.hubGet o
  match who with
  | .partition p =>
    if wfld old 60 3 = p then
      (s.hubPut o ((old &&& 0x7000_0000_0000_0000) ||| (v &&& 0x8000_0000_0000_FFFF))).barrierReset t
    else s
  | _ => (s.hubPut o ((old &&& 0x8000_0000_0000_FFFF) ||| (v &&& 0x7000_0000_0000_0000))).barrierReset t

/-! ## Meanings -/

def execLqcfgWrite (d q : Nat) (v : Word) (s : State) : Host.Outcome State Fault Refusal :=
  if d < 4 ∧ q < 16 then .next (s.lqcfgPut d q v) else .next s

def execLqkickWrite (who : HubAgent) (d q : Nat) (tail : BitVec 32) (s : State) : Host.Outcome State Fault Refusal :=
  if d < 4 ∧ q < 16 then .next (s.lqkickPut who d q tail) else .next s

/-- R314. Writing 1 to BPHALT. -/
def execLqstatBphaltRelease (who : HubAgent) (d q : Nat) (s : State) : Host.Outcome State Fault Refusal :=
  if d < 4 ∧ q < 16 then .next (s.lqstatPut who d q 0x20) else .next s

def execRtbindWrite (who : HubAgent) (t : Nat) (v : Word) (s : State) : Host.Outcome State Fault Refusal :=
  if t < 8 then .next (s.rtbindPut who t v) else .next s

def execLaunchPacket (d q : Nat) (s : State) : Host.Outcome State Fault Refusal := .next (s.launchTurn d q)
def execLaunchSeqReread (d q : Nat) (s : State) : Host.Outcome State Fault Refusal := .next (s.launchReread d q)
def execTaskPlace (d q : Nat) (s : State) : Host.Outcome State Fault Refusal := .next (s.placeTask d q)
def execTaskDispatch (c : Nat) (s : State) : Host.Outcome State Fault Refusal := .next (s.dispatch c)
def execContinuationEnqueue (id : Nat) (s : State) : Host.Outcome State Fault Refusal := .next (s.contEnqueue id)

end Sys2Proof.Machine
end

