-- ==== Sys2Proof/Machine/Exchange.lean ====
section
/-! DEFINITION. The completion of barriers and the exchange plans that they start (16_scheduling.md R320 to
R324). -/
namespace Sys2Proof.Machine

/-! ## Members and classes -/

/-- Contexts of a group's member tasks, as (core, context). -/
def State.memberCtxs (s : State) (p : Nat) (n : BitVec 16) : List (Nat × Nat) :=
  s.cores.flatMap fun e =>
    if s.partOf e.1 = p then
      ((upFrom 0 8).filter fun k => (e.2.ctx k).live && (e.2.ctx k).groups.contains n).map fun k => (e.1, k)
    else []

/-- Change the contexts of a group's members. -/
def State.modMembers (s : State) (p : Nat) (n : BitVec 16) (f : Nat → Ctx → Ctx) : State :=
  (s.memberCtxs p n).foldl (fun s e => s.modCtx e.1 e.2 (f e.1)) s

/-- Plan sets installed on a tag for a group, by core. -/
def State.setsFor (s : State) (t p : Nat) (n : BitVec 16) : List (Nat × PlanSet) :=
  (s.tag t).sets.filter fun e => e.2.part == p && e.2.group == n

/-- The largest class of a link on the preferred path between two cores (01_module.md R16), which is that of the plan for
class 0; a link without a working lane has class 3, whose plan is built for the path through other dies (21_links.md R369).
DEDUCED (log 100). -/
def State.pathClass (s : State) (a b : Nat) : Nat :=
  if dieOf a = dieOf b then 0
  else ((diePaths (dieOf a) (dieOf b)).headD []).foldl (fun m l => max m (s.link l).cls.toNat) 0

/-- The class of a group: the largest class of a link that a record of its installed plan for class 0 crosses, over the
tags on which it has one (R323). DEDUCED (log 100). -/
def State.groupClass (s : State) (p : Nat) (n : BitVec 16) : Nat :=
  ((upFrom 0 8).flatMap fun t => s.setsFor t p n).foldl (fun m e =>
    (e.2.plans.getD 0 []).foldl (fun m r => max m (s.pathClass r.srcc r.dstc)) m) 0

/-- Class events, on every tag bound to it, of each group that changes class between two states (R323).
DEDUCED (log 100). -/
def State.classEvents (old s : State) : State :=
  (upFrom 0 8).foldl (fun s t =>
    match s.bound t with
    | some (p, n) =>
      if old.groupClass p n = s.groupClass p n then s
      else s.modMembers p n fun _ x => { x with exEvt := x.exEvt ||| BitVec.ofNat 8 (2 ^ t) }
    | none => s) s

/-! ## The barrier (R320) -/

/-- The records that an exchange runs: each source core runs those that its own set gives it (R321). -/
def State.planRecords (s : State) (t p : Nat) (n : BitVec 16) (cls : Nat) : List ExRec :=
  (s.setsFor t p n).flatMap fun e => (e.2.plans.getD cls []).filter fun r => r.srcc == e.1

/-- The plan of the group's class starts (R322); a cross-module tag starts none (21_links.md R374). -/
def State.startPlan (s : State) (t p : Nat) (n : BitVec 16) (t0 : Nat) : State :=
  if (s.setsFor t p n).isEmpty || bit (s.hubGet (offXrt t)).toNat 63 then s
  else
    let cls := s.groupClass p n
    let recs := s.planRecords t p n cls
    (s.modTag t fun b => { b with t0 := some t0, recs := recs, late := [], run := some (p, n) }).modMembers p n fun _ x =>
      { x with exClass := BitVec.ofNat 2 cls }

/-- A member's loads after the barrier find what bank jobs have written before it (17_program_gemv.md R330): the lines of
pages of class DIE and above leave its data cache. -/
def State.freshLoads (s : State) (c : Nat) : State :=
  s.modCore c fun k => { k with dcache := k.dcache.filter fun e => decide (e.2.2.toNat < 2) }

/-- R320. The barrier of a tag completes: every SSTEP returns, and the plan starts. -/
def State.barrierEnd (s : State) (t : Nat) : State :=
  let b := s.tag t
  match b.release, s.bound t with
  | some r, some (p, n) =>
    if s.ftick < r then s
    else
      let s := b.entered.foldl (fun s e =>
        match (s.ctx e.1 e.2).wait with
        | .sstep _ _ _ rd => (s.seqDone e.1 e.2 rd 0).freshLoads e.1
        | _ => s) s
      (s.modTag t fun b => { b with entered := [], tlast := none, release := none }).startPlan t p n r
  | _, _ => s

/-! ## Deliveries (R322) -/

def TagSt.modRec (b : TagSt) (i : Nat) (f : ExRec → ExRec) : TagSt :=
  match b.recs[i]? with
  | some r => { b with recs := setAt b.recs i (f r) }
  | none => b

/-- Earlier records of the same source have been sent whole. -/
def TagSt.mayStart (b : TagSt) (i : Nat) (r : ExRec) : Bool :=
  (b.recs.take i).all fun q => q.srcc != r.srcc || decide (q.len ≤ q.sent)

/-- Read the next bytes of a record at its source, once their bank is granted (06_copy_scratchpad.md R133). A lost unit is
sent as zeros and counted (R130). DEDUCED (log 67). -/
def State.exSend (s : State) (t i : Nat) (r : ExRec) (n : Nat) : State :=
  let a := r.src + r.sent
  let q := s.core r.srcc
  if !q.banksFree a n then s
  else
    let bs := q.spRead a n
    let s := s.setCore r.srcc
      { q.holdBanks a n 1 with uce := if bs.any (·.2) then satAdd q.uce 1 0xFFFF else q.uce }
    s.modTag t fun b => b.modRec i fun x =>
      { x with sent := x.sent + n, buf := x.buf ++ bs.map fun e => if e.2 then 0 else e.1 }

/-- Land the next bytes of a record, once their bank is granted. -/
def State.exLand (s : State) (t i : Nat) (r : ExRec) (n : Nat) : State :=
  let a := r.dst + r.done
  if !(s.core r.dstc).banksFree a n then s
  else
    ((s.modCore r.dstc fun q => q.holdBanks a n 1).spWrite r.dstc a (r.buf.take n)).modTag t fun b =>
      b.modRec i fun x => { x with done := x.done + n, buf := x.buf.drop n }

/-- Bytes of the 128-byte beat that an address lies in, from it on. -/
def beatLeft (a : Nat) : Nat := 128 - a % 128

/-- R322. A record of an exchange moves on by a beat or a part of one, in whole 8-byte units: it reads its source, or it
lands, unless a link of its path retrains (21_links.md R366); how many bytes at once is free (DESIGN CHOICE, log 5).
Where no path is left it waits (DEDUCED, log 96). -/
def State.exStep (s : State) (t i : Nat) : State :=
  let b := s.tag t
  match b.t0, b.recs[i]? with
  | some _, some r =>
    let (d, s) := s.draw
    let units (m : Nat) : Nat := 8 * (1 + Config.freeNat (d + 1) % (m / 8))
    let s := { s with draws := s.draws + 1 }
    if r.sent < r.len ∧ b.mayStart i r ∧ (r.buf.isEmpty ∨ Config.freeBool d = true) then
      s.exSend t i r (min (units (r.len - r.sent)) (beatLeft (r.src + r.sent)))
    else if r.buf.isEmpty || !s.diesMeet (dieOf r.srcc) (dieOf r.dstc) || s.pathHeld (dieOf r.srcc) (dieOf r.dstc) then s
    else s.exLand t i r (min (units r.buf.length) (beatLeft (r.dst + r.done)))
  | _, _ => s

/-- R322. A delivery that has not landed by its deadline is late. -/
def State.exDeadline (s : State) (t i : Nat) : State :=
  let b := s.tag t
  match b.t0, b.recs[i]? with
  | some t0, some r =>
    if s.ftick ≤ t0 + r.deadline ∨ r.late ∨ r.len ≤ r.done then s
    else
      let s := s.modTag t fun b =>
        { b.modRec i (fun x => { x with late := true }) with late := tblSet 0 b.late r.dstc (tblGet 0 b.late r.dstc + 1) }
      match b.run with
      | some (p, n) =>
        s.modMembers p n fun c x =>
          if c = r.dstc then { x with exLate := BitVec.ofNat 32 (satAdd x.exLate.toNat 1 (2 ^ 32 - 1)) } else x
      | none => s
  | _, _ => s

/-- R322. An exchange ends when every record has landed and its largest deadline has passed; EXWAITs on the tag
return. -/
def State.exEnd (s : State) (t : Nat) : State :=
  let b := s.tag t
  match b.t0 with
  | none => s
  | some t0 =>
    if b.recs.all fun r => decide (r.len ≤ r.done) && decide (t0 + r.deadline ≤ s.ftick) then
      let s := s.modTag t fun b => { b with t0 := none, recs := [], run := none }
      s.cores.foldl (fun s e => (upFrom 0 8).foldl (fun s k =>
        match (s.ctx e.1 k).wait with
        | .exwait u _ => if u = t then s.tryExwait e.1 k else s
        | _ => s) s) s
    else s

/-! ## Meanings -/

def execBarrierComplete (t : Nat) (s : State) : Host.Outcome State Fault Refusal := .next (s.barrierEnd t)
def execExchangeDelivery (t r : Nat) (s : State) : Host.Outcome State Fault Refusal := .next (s.exStep t r)
def execExchangeDeadline (t r : Nat) (s : State) : Host.Outcome State Fault Refusal := .next (s.exDeadline t r)
def execExchangeEnd (t : Nat) (s : State) : Host.Outcome State Fault Refusal := .next (s.exEnd t)

end Sys2Proof.Machine
end

