-- ==== Sys2Proof/Machine/Repair.lean ====
section
/-! DEFINITION. Retiring cores, clusters, bank units, rows and lanes, and the die links (25_service.md R406 to
R415, 05_bank_units.md R106, 21_links.md R360 to R369). -/
namespace Sys2Proof.Machine

/-! ## Ends of tasks by retirement (25 R413) -/

/-- The service interrupt of a partition. DESIGN CHOICE (log 70). -/
def State.serviceIrq (s : State) (p : Nat) : State := if p < 8 then s.emit (.serviceIrq p (s.irqCore p)) else s

/-- Set a bit of SVCEVT and raise the service interrupt. -/
def State.svcEvent (s : State) (p bit_ : Nat) : State :=
  if p < 8 then (s.hubPut (offSvcevt p) (s.hubGet (offSvcevt p) ||| at64 1 bit_)).serviceIrq p else s

/-- A task that holds no context ends with sub-cause 9, and leaves its groups; its record names the words that the engines of
its core would issue next (19_faults.md R339). -/
def State.endAway (s : State) (c : Nat) (task : BitVec 32) (groups : List (BitVec 16)) (pc : Word) : State :=
  let p := s.partOf c
  let s := groups.foldl (fun s n => s.groupDrop p n task) s
  s.postPlain
    { s.blankRecord c 0 with cause := 0x40, gen := 0, task := task, status := 9, pc := pc, heads := (s.own c).heads }

/-- The continuations of a core end as fatal context errors with sub-cause 9, and leave their groups.
DEDUCED (log 71). -/
def State.endConts (s : State) (c : Nat) : State :=
  let mine := s.conts.filter fun e => e.core == c
  let s := { s with conts := s.conts.filter fun e => e.core != c }
  (mine.foldl (fun s e => s.endAway c e.task e.groups e.pc) s).barrierChecks

/-- Every task and continuation of a core ends with sub-cause 9. -/
def State.endCore (s : State) (c : Nat) : State :=
  let s := (upFrom 0 8).foldl (fun s k => s.fatal c k 9 0) s
  s.endConts c

/-- A core's state after another physical core has taken its index, or after it has left service. Channels
that its jobs held are free. -/
def State.freshCore (s : State) (c : Nat) (tasks : List QTask) : State :=
  { s.setCore c { CoreSt.reset with taskQ := tasks } with chanLock := s.chanLock.filter fun l => l.2.2.1 != c }

/-- The partition of a cluster. -/
def State.clusterPart (s : State) (cl : Nat) : Nat := s.partOf (16 * cl)

/-- The tasks that wait in a core's task queue again, after a continuation, end with sub-cause 9; tasks of launch packets are
dropped with the queue. DEDUCED (log 71). -/
def State.endQueued (s : State) (c : Nat) : State :=
  (((s.core c).taskQ.filter (·.cont)).foldl (fun s t => s.endAway c t.task t.groups t.entry) s).barrierChecks

/-- A cluster leaves service (01_module.md R21, 25 R413): its tasks end, and its queued tasks are dropped. -/
def State.clusterOut (s : State) (cl : Nat) : State :=
  if !(s.cluster cl).inService then s
  else
    let cs := upFrom (16 * cl) 16
    let s := cs.foldl (fun s c => (s.endCore c).endQueued c) s
    let s := cs.foldl (fun s c => s.freshCore c []) s
    let s := s.modCluster cl fun u => { u with inService := false }
    let s := s.hubField offStpass cl 1 0
    s.svcEvent (s.clusterPart cl) (32 + cl)

/-- The physical core under a logical number (R20). -/
def State.physOf (s : State) (c : Nat) : Nat := tblGet (c % 16) s.svc.physMap c

/-- A core joins the retirement map. -/
def State.noteCore (s : State) (cl phys : Nat) : State :=
  if s.svc.nv.retCores.contains (cl, phys) then s
  else { s with svc := { s.svc with nv := { s.svc.nv with retCores := s.svc.nv.retCores ++ [(cl, phys)] } } }

/-- The 16 cores of a cluster will be held from their next lap boundaries on (25 R413, 24_debug.md R402), for at most 1 ms;
when the repair is done is free (DESIGN CHOICE, log 5). -/
def State.holdCluster (s : State) (cl : Nat) : State :=
  let (d, s) := s.draw
  let u := s.ftick + 1 + Config.freeNat d % 1599000
  (upFrom (16 * cl) 16).foldl (fun s c => s.modCore c fun q => { q with repairDue := some u }) s

/-- The spare takes a logical index. -/
def State.spareIn (s : State) (c : Nat) : State :=
  let cl := clusterOf c
  let s := s.endCore c
  let s := (s.freshCore c (s.core c).taskQ).holdCluster cl
  let s := s.modCluster cl fun u => { u with spareUsed := true }
  { s with svc := { s.svc with physMap := tblPut s.svc.physMap c 16 } }

/-- R413. A core is retired. -/
def State.retireCore (s : State) (c : Nat) : State :=
  let cl := clusterOf c
  if 512 ≤ c || !(s.cluster cl).inService then s
  else
    let s := s.noteCore cl (s.physOf c)
    if (s.cluster cl).spareUsed then s.clusterOut cl
    else (s.spareIn c).svcEvent (s.clusterPart cl) cl

/-! ## Bank units and rows (05 R106, 25 R414) -/

/-- Spare units of a sole die that serve. -/
def State.spareUnits (s : State) (sd : Nat) : Nat := tblGet 0 s.svc.unitSpares sd

/-- R106. A spare takes the pseudo-channel of a bank unit, or unit p XOR 1 serves both. DESIGN CHOICE (log 101). -/
def State.replaceUnit (s : State) (sd u : Nat) : State :=
  if 12 ≤ sd ∨ 64 ≤ u then s
  else
    let v := s.svc
    let n := s.spareUnits sd
    if n < 4 then
      ({ s with svc :=
          { v with
            unitSpares := tblSet 0 v.unitSpares sd (n + 1)
            unitsOut := if v.unitsOut.contains (sd, u) then v.unitsOut else v.unitsOut ++ [(sd, u)] } }).hubField (offBustat sd) 4 4 (n + 1)
    else
      let add (l : List (Nat × Nat)) (x : Nat × Nat) : List (Nat × Nat) := if l.contains x then l else l ++ [x]
      ({ s with svc := { v with shared := add (add v.shared (sd, u)) (sd, u ^^^ 1) } }).hubField (offBustat sd) 0 1 1

/-- R106, R414. A bank unit is retired and replaced. The unit that serves in place of one retired before is retired in its turn,
and each retirement stands in the map. DESIGN CHOICE (log 101). -/
def State.retireUnit (s : State) (sd u : Nat) : State :=
  if 12 ≤ sd ∨ 64 ≤ u then s
  else
    ({ s with svc := { s.svc with nv := { s.svc.nv with retUnits := s.svc.nv.retUnits ++ [(sd, u)] } } }).replaceUnit sd u

/-- R414. A row is copied to a spare row; a lost word stays lost. -/
def State.repairRow (s : State) (sd row : Nat) : State :=
  let v := s.svc
  { s with svc := { v with nv := { v.nv with retRows := if v.nv.retRows.contains (sd, row) then v.nv.retRows else v.nv.retRows ++ [(sd, row)] } } }

/-! ## Lanes, widths and classes (21 R361 to R369) -/

/-- Lanes in service, and spares in use, of one direction of a module, from its retired lanes (R361). -/
def moduleWidth (ret : List (Nat × Nat × Nat)) (dir m : Nat) : Nat × Nat :=
  let lanes := (ret.filter fun e => e.1 == dir && e.2.1 == m).map (·.2.2)
  let lo := (lanes.filter (· < 32)).length
  let hi := lanes.length - lo
  if lanes.length ≤ 4 then (64, lanes.length)
  else if lo ≤ 4 then (32, lo)
  else if hi ≤ 4 then (32, hi)
  else (0, 0)

/-- A module carries traffic in both directions. -/
def moduleUp (ret : List (Nat × Nat × Nat)) (m : Nat) : Bool :=
  decide (0 < (moduleWidth ret 0 m).1) && decide (0 < (moduleWidth ret 1 m).1)

/-- Widths, MUP and SPUSE of a link from its retired lanes. -/
def Link.measure (l : Link) : Link :=
  let w (dir : Nat) : Nat := (upFrom 0 4).foldl (fun a m => a + if moduleUp l.ret m then (moduleWidth l.ret dir m).1 else 0) 0
  { l with
    width0 := w 0, width1 := w 1
    mup := BitVec.ofNat 4 ((upFrom 0 4).foldl (fun a m => a + (b2n (moduleUp l.ret m)) <<< m) 0)
    spuse := BitVec.ofNat 12
      ((upFrom 0 4).foldl (fun a m => a + (max (moduleWidth l.ret 0 m).2 (moduleWidth l.ret 1 m).2) <<< (3 * m)) 0) }

def State.lkRate (s : State) (l : Nat) : Nat := wfld (s.hubGet (offLkctl l)) 16 4

/-- The class of a link (R368). -/
def State.linkClass (s : State) (l : Nat) : Nat :=
  let k := s.link l
  let w := min k.width0 k.width1
  if w = 0 then 3 else if w < 256 then 2 else if k.curr < s.lkRate l ∨ k.lastOver then 1 else 0

/-- Dies that reach no other compute die lose their clusters (01_module.md R16). -/
def State.dropIsolated (s : State) : State :=
  (upFrom 0 4).foldl (fun s d =>
    if (upFrom 0 4).all fun e => e == d || (s.diePath d e).isNone then
      (upFrom (8 * d) 8).foldl State.clusterOut s
    else s) s

/-- Compute a link's class; a change is recorded, and groups whose class is another than it was in `old` have their event
(R369). -/
def State.reclassFrom (old s : State) (l : Nat) : State :=
  let c := s.linkClass l
  let o := (s.link l).cls
  if o.toNat = c then s
  else
    let s := s.modLink l fun k => { k with cls := BitVec.ofNat 2 c }
    let s := s.emit (.linkRecord l o (BitVec.ofNat 2 c) s.ftick)
    (State.classEvents old s).dropIsolated

/-- Compute the class of a link whose widths stand as before. -/
def State.reclass (s : State) (l : Nat) : State := State.reclassFrom s s l

/-- The widths of a link after a retrain, and LKPASS, which a link without a working lane loses until the next self-test
(25_service.md R408). -/
def State.measureLink (s : State) (l : Nat) : State :=
  let s := s.modLink l Link.measure
  if s.linkWidth l = 0 then s.hubField offStpass (44 + l) 1 0 else s

/-- A retrain begins, or restarts, at a rate; it takes at most 16,000 ticks (R366). DESIGN CHOICE (log 57). -/
def State.startTrain (s : State) (l rate : Nat) : State :=
  let (d, s) := s.draw
  s.modLink l fun k => { k with train := some (s.ftick + 1 + Config.freeNat d % 16000), toRate := rate }

/-- A lane joins the retirement maps. -/
def State.noteLane (s : State) (l dir m lane : Nat) : State :=
  if s.svc.nv.retLanes.contains (l, dir, m, lane) then s
  else { s with svc := { s.svc with nv := { s.svc.nv with retLanes := s.svc.nv.retLanes ++ [(l, dir, m, lane)] } } }

/-- R361, R366. Retire a data lane: at once with a retrain, or by a further retrain. DEDUCED (log 72). -/
def State.retireLane (s : State) (l dir m lane : Nat) : State :=
  let k := s.link l
  let e := (dir, m, lane)
  if 8 ≤ l ∨ 2 ≤ dir ∨ 4 ≤ m ∨ 64 ≤ lane ∨ k.ret.contains e ∨ k.again.contains e then s
  else
    let s := s.noteLane l dir m lane
    if k.train.isSome then s.modLink l fun k => { k with again := k.again ++ [e] }
    else (s.modLink l fun k => { k with ret := k.ret ++ [e] }).startTrain l k.curr

/-- R366. A retrain ends: rate, widths and class; retirements that arrived meanwhile start a further one.
DESIGN CHOICE (log 57). -/
def State.trainEnd (s : State) (l : Nat) : State :=
  let k := s.link l
  match k.train with
  | none => s
  | some t =>
    if s.ftick < t then s
    else
      let s := State.reclassFrom s ((s.modLink l fun k => { k with train := none, curr := k.toRate }).measureLink l) l
      if k.again.isEmpty then s
      else (s.modLink l fun k => { k with ret := k.ret ++ k.again, again := [] }).startTrain l k.toRate

/-- R364. A flit is received with a CRC error: it is discarded with every later one until the replay; how many
are resent is free (DESIGN CHOICE, log 5). AUTO retires a lane at its sixteenth error of a window (R362). -/
def State.crcError (s : State) (l dir m lane : Nat) : State :=
  if 8 ≤ l then s
  else
    let (d, s) := s.draw
    let n := 1 + Config.freeNat d
    let s := (s.hubCount (offLkcnt l) 0 32 1).hubCount (offLkcnt l) 32 32 n
    let key := 512 * dir + 128 * m + lane
    let s := s.modLink l fun k => { k with wReplay := k.wReplay + n, errs := tblSet 0 k.errs key (tblGet 0 k.errs key + 1) }
    if bit (s.hubGet (offLkctl l)).toNat 2 && decide (16 ≤ tblGet 0 (s.link l).errs key) then s.retireLane l dir m lane else s

/-- R364, R370. A flit meets a CRC error at a WSL port: it is replayed, and counted for the module and for the port; what
forward error correction could not repair is counted too (R373). How many flits are resent is free (DESIGN CHOICE, log 5).
DEDUCED (log 103). -/
def State.wslCrcError (s : State) (d p : Nat) (unrepaired : Bool) : State :=
  if 4 ≤ d ∨ 12 ≤ p then s
  else
    let (x, s) := s.draw
    let n := 1 + Config.freeNat x
    let s := (s.hubCount offWslcnt 32 32 n).hubCount offWslcnt 16 16 (b2n unrepaired)
    let key := 12 * d + p
    { s with wslReplays := tblSet 0 s.wslReplays key (satAdd (tblGet 0 s.wslReplays key) n (2 ^ 32 - 1)) }

/-- R366, R368. The end of a window of a link: fallback after two windows above RTHR, and its class.
DEDUCED (log 68). -/
def State.windowEnd (s : State) (l : Nat) : State :=
  let ctl := s.hubGet (offLkctl l)
  let k := s.link l
  let high := decide (wfld ctl 32 16 < k.wReplay)
  let overs := if high then k.overs + 1 else 0
  let fall := bit ctl.toNat 1 && decide (2 ≤ overs) && decide (0 < k.curr)
  let s := s.modLink l fun k =>
    { k with
      wReplay := 0, errs := [], lastOver := high, overs := if fall then 0 else overs
      curr := if fall then k.curr - 1 else k.curr }
  let s := if fall then s.startTrain l (k.curr - 1) else s
  -- the rate histogram counts a unit of 65,536 ticks (24_debug.md R405)
  let key := 7 <<< 16 + k.curr <<< 12 + l
  let s := { s with svc := { s.svc with ram := tblPut s.svc.ram key (BitVec.ofNat 64 (satAdd (tblGet 0 s.svc.ram key).toNat 1 (2 ^ 64 - 1))) } }
  s.reclass l

/-- R362. A write of LKCTL: every write of RATE retrains; a RATE of 5 to 15 is ignored. -/
def State.lkctlPut (s : State) (l : Nat) (v : Word) : State :=
  let o := offLkctl l
  let old := s.hubGet o
  let ok := decide (wfld v 16 4 ≤ 4)
  let keep : Word := if ok then v &&& 0xF0000 else old &&& 0xF0000
  let s := s.hubPut o ((v &&& 0x0000_FFFF_0000_0006) ||| keep)
  if ok || bit v.toNat 0 then s.startTrain l (s.lkRate l) else s

/-! ## Meanings -/

def execCoreRetire (c : Nat) (s : State) : Host.Outcome State Fault Refusal := .next (s.retireCore c)
def execBankUnitRetire (sd u : Nat) (s : State) : Host.Outcome State Fault Refusal := .next (s.retireUnit sd u)
def execHbmRowRepair (sd row : Nat) (s : State) : Host.Outcome State Fault Refusal := .next (s.repairRow sd row)

def execLkctlRateWrite (l : Nat) (v : Word) (s : State) : Host.Outcome State Fault Refusal :=
  if l < 8 then .next (s.lkctlPut l v) else .next s

/-- R362. RTR = 1: retrain at RATE. -/
def execLkctlRetrain (l : Nat) (s : State) : Host.Outcome State Fault Refusal :=
  if l < 8 then .next (s.startTrain l (s.lkRate l)) else .next s

def execLkretRetire (l dir m lane : Nat) (s : State) : Host.Outcome State Fault Refusal :=
  .next (s.retireLane l dir m lane)

def execLinkRetrainEnd (l : Nat) (s : State) : Host.Outcome State Fault Refusal := .next (s.trainEnd l)

def execLinkWindowBoundary (s : State) : Host.Outcome State Fault Refusal :=
  if s.ftick % 65536 = 0 then .next ((upFrom 0 8).foldl State.windowEnd s) else .next s

def execFlitCrcError (site : FlitSite) (dir m lane : Nat) (s : State) : Host.Outcome State Fault Refusal :=
  match site with
  | .link l => .next (s.crcError l dir m lane)
  | .wsl d p unrepaired => .next (s.wslCrcError d p unrepaired)

end Sys2Proof.Machine
end

