-- ==== Sys2Proof/Machine/Wsl.lean ====
section
/-! DEFINITION. The scale-up fabric: send queues, acknowledgements, ports and inbound operations (21_links.md
R370 to R374). -/
namespace Sys2Proof.Machine

def State.sqPos (s : State) (d q : Nat) : LqPos := tblGet LqPos.reset s.sqs (qKey d q)

def State.modSq (s : State) (d q : Nat) (f : LqPos → LqPos) : State :=
  { s with sqs := tblMod LqPos.reset s.sqs (qKey d q) f }

def State.sqHead (s : State) (d q : Nat) : Nat := wfld (s.hubGet (offWsqstat d q)) 32 32
def State.sqTail (s : State) (d q : Nat) : Nat := wfld (s.hubGet (offWsqkick d q)) 0 32
def State.sqSize (s : State) (d q : Nat) : Nat := ringLog (wfld (s.hubGet (offWsqcfg d q)) 56 4)
def State.sqPart (s : State) (d q : Nat) : Nat := wfld (s.hubGet (offWsqcfg d q)) 60 3

/-- DVA of the descriptor at HEAD. BASE is [51:6]; [55:52] is PEER (R371). -/
def State.sqAddr (s : State) (d q : Nat) : Nat := ringSlot (s.hubGet (offWsqcfg d q)) (s.sqSize d q) (s.sqHead d q)

/-- Bytes of an atomic's operands at the sender: a compare value and a new value for CAS.D. DEDUCED (log 73). -/
def wslOpBytes (aop : Nat) : Nat := if aop = 12 then 16 else atomicSize aop

/-- A descriptor is well formed (R371). DEDUCED (log 73). -/
def descGood (w : List Word) : Bool :=
  let w2 := w.getD 2 0
  let op := wfld w2 60 4
  let space := wfld w2 56 4
  let aop := wfld w2 52 4
  decide (op ≤ 1) && (space == 0 || space == 2) && w.getD 3 0 == 0 && w.getD 4 0 == 0 && w.getD 5 0 == 0 &&
    (op == 0 || (decide (aop ≤ 12) && wfld w2 0 32 + 1 == atomicSize aop))

/-- HEAD moves past a descriptor. -/
def State.sqAdvance (s : State) (d q : Nat) : State := s.hubField (offWsqstat d q) 32 32 (s.sqHead d q + 1)

/-- A bad descriptor follows the bad-packet path (R371). -/
def State.sqBad (s : State) (d q addr : Nat) : State :=
  (((s.modSq d q fun x => { x with rereads := 0, nextRead := none }).sqAdvance d q).hubCount (offWsqstat d q) 8 8 1).postPlain
    { badPacket d q addr s.ftick with live := 1 }

/-- Some port that a die reaches is up to a peer module (R372, 01_module.md R16). DEDUCED (log 74). -/
def State.portTo (s : State) (d : Nat) (peer : BitVec 12) : Bool :=
  (upFrom 0 4).any fun e =>
    s.diesMeet d e &&
      (upFrom 0 12).any fun p =>
        let w := s.hubGet (offWslport e p)
        bit w.toNat 63 && w.setWidth 12 == peer

/-- The peer module of a queue. -/
def State.sqPeer (s : State) (d q : Nat) : BitVec 12 := Config.peerList (wfld (s.hubGet (offWsqcfg d q)) 52 4)

/-- The end of a descriptor: its old value and its STATUS are written, and HEAD advances (R372). -/
def State.sqFinish (s : State) (d q : Nat) (status : Nat) (old : Option Word) : State :=
  let a := s.sqAddr d q
  let p := s.sqPart d q
  let w7 := (((s.sqPos d q).sent.bind fun w => w[7]?).getD 0).toNat
  let s := match old with | some v => s.walkPut d p (a + 48) v | none => s
  let s := s.walkPut d p (a + 56) (BitVec.ofNat 64 (w7 / 256 * 256 + status))
  (s.modSq d q fun x => { x with sent := none }).sqAdvance d q

/-- The descriptor at HEAD stands behind a link that retrains, from the die of the queue (R366). -/
def State.sqHeld (s : State) (d q : Nat) : Bool := s.rangeHeld d (s.sqPart d q) (s.sqAddr d q) 64

/-- What has been sent goes through another port to the same peer, or ends with STATUS 0x06 when none is up (R372). -/
def State.sqResend (s : State) (d q : Nat) : State :=
  if (s.sqPos d q).sent.isNone || s.portTo d (s.sqPeer d q) || s.sqHeld d q then s else s.sqFinish d q 0x06 none

/-- Ports have changed: every queue looks for a port. -/
def State.portsChanged (s : State) : State :=
  (upFrom 0 4).foldl (fun s d => (upFrom 0 16).foldl (fun s q => s.sqResend d q) s) s

/-- Take a descriptor whose SEQ is valid: its data are read from the die of the queue (01_module.md R16) and sent to the peer;
it waits for a link that retrains, and a byte that meets an uncorrectable error is free (DESIGN CHOICE, log 82).
DEDUCED (log 74). -/
def State.sqTake (s : State) (d q : Nat) (w7 : Word) : State :=
  let a := s.sqAddr d q
  let p := s.sqPart d q
  match (upFrom 0 7).mapM fun i => s.walkWord d p (a + 8 * i) with
  | none => s.sqBad d q a
  | some ws =>
    let w := ws ++ [w7]
    if !descGood w then s.sqBad d q a
    else
      let w2 := w.getD 2 0
      let n := if wfld w2 60 4 = 0 then wfld w2 0 32 + 1 else wslOpBytes (wfld w2 52 4)
      if s.rangeHeld d p (wfld (w.getD 0 0) 0 52) n then s
      else match s.walkDpas d p leafReads (wfld (w.getD 0 0) 0 52) n with
      | none => s.sqBad d q a
      | some as =>
        let (bs, s) := s.outRead d as
        let data := freeBytes s.draws bs
        let s := { s.modSq d q fun x => { x with sent := some w, rereads := 0, nextRead := none } with draws := s.draws + n }
        if s.portTo d (s.sqPeer d q) then s.emit (.wslRequest d q w data)
        else s.sqFinish d q 0x06 none

/-- Read w7 of the descriptor at HEAD. -/
def State.sqRead (s : State) (d q : Nat) (again : State → State) : State :=
  let a := s.sqAddr d q
  if s.sqHeld d q then s
  else match s.walkWord d (s.sqPart d q) (a + 56) with
  | none => s.sqBad d q a
  | some v =>
    let (_, s) := s.draw
    if wfld v 32 32 = (s.sqHead d q + 1) % 2 ^ 32 then s.sqTake d q v else again s

/-- A record of the queue waits among more than 64 records of its partition (19_faults.md R338). -/
def State.sqBlocked (s : State) (d q : Nat) : Bool :=
  ((s.heldOf (s.sqPart d q)).drop 64).any fun r => r.eng == 6 && r.live == 1 && r.core == qKey d q

/-- The conditions for a turn of a send queue. -/
def State.sqServed (s : State) (d q : Nat) : Bool :=
  let x := s.sqPos d q
  decide (d < 4) && decide (q < 16) && bit (s.hubGet (offWsqcfg d q)).toNat 63 && s.sqHead d q != s.sqTail d q &&
    !bit (s.hubGet (offWsqstat d q)).toNat 3 && x.sent.isNone && x.nextRead.isNone && !s.sqBlocked d q

/-- R371, R372. The next descriptor of a queue, when the one before it has been acknowledged; one that was sent and has lost its
ports ends. -/
def State.sqTurn (s : State) (d q : Nat) : State :=
  if decide (d < 4) && decide (q < 16) && (s.sqPos d q).sent.isSome then s.sqResend d q
  else if !s.sqServed d q then s
  else s.sqRead d q fun s => s.modSq d q fun x => { x with rereads := 0, nextRead := some (s.ftick + 1600) }

/-- A re-read of a descriptor whose SEQ was not valid. EARLY is not used (R371). -/
def State.sqReread (s : State) (d q : Nat) : State :=
  let x := s.sqPos d q
  match x.nextRead with
  | none => s
  | some t =>
    if s.ftick < t then s
    else
      s.sqRead d q fun s =>
        if 8 ≤ x.rereads + 1 then
          (s.hubField (offWsqstat d q) 3 1 1).modSq d q fun y => { y with rereads := 0, nextRead := none }
        else s.modSq d q fun y => { y with rereads := x.rereads + 1, nextRead := some (t + 1600) }

/-- R372. The peer acknowledges the descriptor that has been sent; an atomic brings the old value. It comes again while a link
to the descriptor retrains. -/
def State.sqAck (s : State) (d q : Nat) (refused : Bool) (old : Word) : State :=
  match (s.sqPos d q).sent with
  | none => s
  | some w =>
    let atomic := wfld (w.getD 2 0) 60 4 == 1
    if s.sqHeld d q then s
    else s.sqFinish d q (if refused then 0x05 else 0x01) (if atomic && !refused then some old else none)

/-- R372. A port goes down; what it carried goes through another port to the same peer, or ends with STATUS
0x06. -/
def State.portDown (s : State) (d p : Nat) : State :=
  if 4 ≤ d ∨ 12 ≤ p then s else (s.hubField (offWslport d p) 63 1 0).portsChanged

/-- R371. WSQCFG; EN rising starts the queue anew, as in R308. -/
def State.wsqcfgPut (s : State) (d q : Nat) (v : Word) : State :=
  let rise := !bit (s.hubGet (offWsqcfg d q)).toNat 63 && bit v.toNat 63
  let s := s.hubPut (offWsqcfg d q) (v &&& 0xFFFF_FFFF_FFFF_FFC0)
  if rise then
    ((s.hubField (offWsqstat d q) 32 32 0).hubField (offWsqstat d q) 3 1 0).modSq d q fun _ => LqPos.reset
  else s

/-- R371. A write of TAIL: one too far ahead parks the queue; OVERRUN is not used. -/
def State.wsqkickPut (s : State) (who : HubAgent) (d q : Nat) (tail : BitVec 32) : State :=
  if !HubAgent.mayUse who (s.sqPart d q) then s
  else
    let s := s.hubPut (offWsqkick d q) (tail.setWidth 64)
    s.hubField (offWsqstat d q) 3 1 (b2n (decide (2 ^ s.sqSize d q < (tail.toNat + 2 ^ 32 - s.sqHead d q) % 2 ^ 32)))

/-- A write of WSQSTAT: BAD is cleared. -/
def State.wsqstatPut (s : State) (who : HubAgent) (d q : Nat) (v : Word) : State :=
  if HubAgent.mayUse who (s.sqPart d q) && wfld v 8 8 != 0 then s.hubField (offWsqstat d q) 8 8 0 else s

/-! ## Inbound operations (R373) -/

/-- An inbound operation is refused: nothing is written, and it is counted. -/
def State.wslRefuse (s : State) : State := (s.hubCount offWslcnt 0 16 1).emit (.wslReply true 0)

/-- An operand of an inbound atomic. -/
def wslOperand (o : WslOp) : Nat := ofBytesLe (o.data.take (atomicSize o.aop))
def wslNew (o : WslOp) : Nat := ofBytesLe ((o.data.drop 8).take 8)

/-- Pages that an inbound operation may use. -/
def wslLeaf (atomic : Bool) (w : Word) : Bool := leafSystem w && leafWrites w && (!atomic || leafReads w)

/-- An atomic's operation and address are well formed. -/
def wslAtomicOk (o : WslOp) : Bool :=
  decide (o.aop ≤ 12) && o.data.length == wslOpBytes o.aop && o.dst % atomicSize o.aop == 0

/-- R373. On device memory of the paired partition, from the die of the port; it comes again while a link on its way retrains. -/
def State.wslMem (s : State) (o : WslOp) : State :=
  if s.rangeHeld o.die o.part o.dst (if o.atomic then atomicSize o.aop else o.data.length) then s
  else if o.atomic then
    if !wslAtomicOk o then s.wslRefuse
    else
      match s.walkDpas o.die o.part (wslLeaf true) o.dst (atomicSize o.aop) with
      | none => s.wslRefuse
      | some as =>
        let (bs, s) := s.memReadFrom o.die as
        if bs.any (·.2) then
          (s.hubCount (offBustat (as.headD 0 / (48 * 2 ^ 30))) 32 32 1).emit (.wslReply false (BitVec.ofNat 64 (atomicLost o.aop)))
        else
          let old := ofBytesLe (bs.map (·.1))
          (s.outWrite o.die (as.zip (bytesLe (atomicSize o.aop) (atomicNew o.aop old (wslOperand o) (wslNew o))))).emit
            (.wslReply false (BitVec.ofNat 64 old))
  else
    match s.walkDpas o.die o.part (wslLeaf false) o.dst o.data.length with
    | none => s.wslRefuse
    | some as => (s.outWrite o.die (as.zip o.data)).emit (.wslReply false 0)

/-- The beats of a write, as (address, bytes). -/
def beatsIn : Nat → Nat → List Byte → List (Nat × List Byte)
  | 0, _, _ => []
  | n + 1, a, bs =>
    let m := min bs.length (128 - a % 128)
    if m = 0 then [] else (a, bs.take m) :: beatsIn n (a + m) (bs.drop m)

/-- A write that has come over WSL goes to its scratchpad as remote writes do, beat by beat; the channel is its own until
the last one has landed (06_copy_scratchpad.md R135). DEDUCED (log 102). -/
def State.wslSend (s : State) (o : WslOp) : State :=
  let id := s.nextMsg
  let ms := ((beatsIn o.data.length o.dst o.data).zip (upFrom id o.data.length)).map fun e =>
    ({ id := e.2, src := 512 + o.die, dst := o.pcore, ch := o.ch, job := id, addr := e.1.1, data := e.1.2, add := false, marks := [] } : Msg)
  if ms.isEmpty then s.emit (.wslReply false 0)
  else
    { s with nextMsg := id + ms.length, msgs := s.msgs ++ ms, chanLock := s.chanLock ++ [(o.pcore, o.ch, 512 + o.die, id)] }

/-- R373. On the scratchpad of a core of the paired partition; CHWP of the channel advances. An operation waits, and comes
again, while a job of a core holds the channel, and an atomic while anything holds it, or its bank is taken
(06_copy_scratchpad.md R133, R135). One that no path brings to its core any more is lost (01_module.md R16; DEDUCED, log 96).
DEDUCED (log 102). -/
def State.wslScratch (s : State) (o : WslOp) : State :=
  let n := if o.atomic then atomicSize o.aop else o.data.length
  if !s.inService o.pcore || s.partOf o.pcore != o.part || decide (0x80000 < o.dst + n) || (o.atomic && !wslAtomicOk o) ||
      decide (8 ≤ o.ch) then s.wslRefuse
  else if s.chanLock.any fun l => l.1 == o.pcore && l.2.1 == o.ch && (o.atomic || decide (l.2.2.1 < 512)) then s
  else if o.atomic then
    let k := s.core o.pcore
    if s.pathHeld o.die (dieOf o.pcore) then s
    else if !s.diesMeet o.die (dieOf o.pcore) then s.emit (.wslReply false (BitVec.ofNat 64 (atomicLost o.aop)))
    else if !k.banksFree o.dst n || k.beating o.ch then s
    else
    let ((old, _), s) := (s.setCore o.pcore (k.holdBanks o.dst n 2)).spAtomic o.pcore o.aop o.dst (wslOperand o) (wslNew o)
    (s.chwAdd o.pcore o.ch n).emit (.wslReply false (BitVec.ofNat 64 old))
  else s.wslSend o

/-! ## Meanings -/

def execWslDescriptor (d q : Nat) (s : State) : Host.Outcome State Fault Refusal := .next (s.sqTurn d q)
def execSendQueueSeqReread (d q : Nat) (s : State) : Host.Outcome State Fault Refusal := .next (s.sqReread d q)

def execWslAck (d q : Nat) (refused : Bool) (old : Word) (s : State) : Host.Outcome State Fault Refusal :=
  .next (s.sqAck d q refused old)

def execWslPortDown (d p : Nat) (s : State) : Host.Outcome State Fault Refusal := .next (s.portDown d p)

def execWsqcfgWrite (d q : Nat) (v : Word) (s : State) : Host.Outcome State Fault Refusal :=
  if d < 4 ∧ q < 16 then .next (s.wsqcfgPut d q v) else .next s

def execWsqkickWrite (who : HubAgent) (d q : Nat) (tail : BitVec 32) (s : State) :
    Host.Outcome State Fault Refusal :=
  if d < 4 ∧ q < 16 then .next (s.wsqkickPut who d q tail) else .next s

def execWslInboundOp (op : WslOp) (s : State) : Host.Outcome State Fault Refusal :=
  if op.part < 8 ∧ op.die < 4 then .next (if op.scratch then s.wslScratch op else s.wslMem op) else .next s.wslRefuse

end Sys2Proof.Machine
end

