-- ==== Sys2Proof/Machine/Service.lean ====
section
/-! DEFINITION. Resets, self-test, boot and attestation, temperature, ageing, lifetime records and soft errors
(25_service.md R407 to R418, 24_debug.md R405, R406, 19_faults.md R352). -/
namespace Sys2Proof.Machine

/-! ## Resets (25 R407) -/

/-- Every field at its reset value; the store of the management core and what has been given to the outside
stay, and so does the place in the free values. The retired lanes that LKMAP shows are none until self-test applies the
stored map (DESIGN CHOICE, log 13). -/
def State.afterReset (s : State) (ram : Tbl Word) : State :=
  { State.reset with
    draws := s.draws, out := s.out
    svc := { Svc.reset with nv := s.svc.nv, ram := ram } }

/-- Power is applied: the lifetime records are those of the store. -/
def State.powerOn (s : State) : State := s.afterReset s.svc.nv.life

/-- The links after a warm reset: a retired lane stays retired until power-on (21_links.md R361). DESIGN CHOICE (log 13). -/
def keptLinks (ls : Tbl Link) : Tbl Link :=
  (ls.filter fun e => !(e.2.ret ++ e.2.again).isEmpty).map fun e =>
    (e.1, { ({ Link.reset with ret := e.2.ret ++ e.2.again } : Link).measure with cls := e.2.cls })

/-- A warm reset keeps the lifetime records, with what is left of the time to their next sample and write-back (24_debug.md
R406), and the retired lanes. -/
def State.warm (s : State) : State :=
  let t := s.afterReset s.svc.ram
  { t with links := keptLinks s.links, svc := { t.svc with lifeBase := (s.svc.lifeBase + s.ftick) % 2 ^ 32 } }

/-! ## Self-test (R408) -/

/-- A cluster after self-test: with one physical core out of use the spare takes its index; with two or more it
leaves service. -/
def State.testCluster (s : State) (cl : Nat) : State :=
  match (s.svc.nv.retCores.filter fun e => e.1 == cl).map (·.2) with
  | [] => s
  | [x] =>
    let s := s.modCluster cl fun u => { u with spareUsed := true }
    if x = 16 then s else { s with svc := { s.svc with physMap := tblPut s.svc.physMap (16 * cl + x) 16 } }
  | _ => s.modCluster cl fun u => { u with inService := false }

/-- A link under the stored retirements. -/
def State.testLink (s : State) (l : Nat) : State :=
  let mine := (s.svc.nv.retLanes.filter fun e => e.1 == l).map fun e => e.2
  if mine.isEmpty then s else (s.modLink l fun k => { k with ret := mine }.measure).reclass l

/-- Bits of a set of numbers. -/
def bitsOf (n : Nat) (p : Nat → Bool) : Nat := (upFrom 0 n).foldl (fun a i => a + (b2n (p i)) <<< i) 0

/-- STPASS. -/
def State.stpass (s : State) (res : SelfTest) : Word :=
  at64 (b2n (!res.hub)) 52 + at64 (bitsOf 8 fun l => decide (0 < s.linkWidth l)) 44 +
    at64 (bitsOf 12 fun d => !res.soles.contains d) 32 + BitVec.ofNat 64 (bitsOf 32 fun c => (s.cluster c).inService)

/-- The module stops: its boot has failed (R409). -/
def State.bootStop (s : State) : State := ({ s with svc := { s.svc with stopped := true } }).emit .bootStopped

/-- WSLID and WSLPORT from the management core's store. -/
def State.wslBoot (s : State) : State :=
  let s := s.hubPut offWslid (Config.wslId.setWidth 64)
  (upFrom 0 4).foldl (fun s d => (upFrom 0 12).foldl (fun s p =>
    s.hubPut (offWslport d p) (0x8000_0000_0000_0000 ||| (Config.wslPeer d p).setWidth 64)) s) s

/-- The drift of every cluster is measured next (R417); what the monitors read is free (DESIGN CHOICE, log 104). -/
def State.measureAll (s : State) : State :=
  ({ s with draws := s.draws + 32 }).push ((upFrom 0 32).map fun cl => .event (.ageingMeasure cl (Config.freeNat (s.draws + cl))))

/-- R408, and step 2 of R409: the verified firmware runs self-test once after a reset, before anything boots; the stored maps
and the new failures apply, and WSLID and WSLPORT are written. The step fails when the hub die has failed.
DEDUCED (log 75). -/
def State.selfTest (s : State) (res : SelfTest) : State :=
  if !s.svc.verified || s.svc.tested || s.svc.stopped then s
  else
    let s := (res.cores.filter fun e => decide (e.1 < 32) && decide (e.2 < 17)).foldl (fun s e => s.noteCore e.1 e.2) s
    let s := (upFrom 0 32).foldl State.testCluster s
    let old := s.svc.nv.retUnits
    let s := old.foldl (fun s u => s.replaceUnit u.1 u.2) s
    let s := (res.units.filter fun u => !old.contains u).foldl (fun s u => s.retireUnit u.1 u.2) s
    let s := (res.lanes.filter fun e => decide (e.1 < 8) && decide (e.2.1 < 2) && decide (e.2.2.1 < 4) && decide (e.2.2.2 < 64)).foldl
      (fun s e => s.noteLane e.1 e.2.1 e.2.2.1 e.2.2.2) s
    let s := (upFrom 0 8).foldl State.testLink s
    let s := ({ s with svc := { s.svc with tested := true } }).hubPut offStpass (s.stpass res)
    if res.hub then s.bootStop else s.wslBoot.measureAll

/-! ## Boot and attestation (R409, R410) -/

def Svc.measure (v : Svc) (slot n : Nat) : Svc := { v with slots := tblSet 0 v.slots slot (Config.imageHash n) }

/-- Partition images that verify are measured, and their partitions start. -/
def Svc.startParts (v : Svc) (images : BitVec 8) : Svc :=
  ((upFrom 0 8).filter fun p => images.getLsbD p).foldl (fun v p =>
    { v.measure (2 + p) (2 + p) with parts := if v.parts.contains p then v.parts else v.parts ++ [p] }) v

/-- R409. The next step of boot: the boot ROM verifies the firmware, self-test comes between, the firmware verifies and starts
the hypervisor, and the hypervisor, having written its registers, has partition images verified; `images` names those that
verify. DEDUCED (log 75). -/
def State.bootUp (s : State) (firmware hypervisor : Bool) (images : BitVec 8) : State :=
  let v := s.svc
  if v.stopped then s
  else if !v.verified then
    if firmware then { s with svc := { v.measure 0 0 with verified := true } } else s.bootStop
  else if !v.tested then s
  else if !v.booted then
    if hypervisor then { s with svc := { v.measure 1 1 with booted := true } } else s.bootStop
  else { s with svc := v.startParts images }

/-- Bytes 0x000 to 0x1FF of a report. DEDUCED (log 77). -/
def State.reportBody (s : State) (nonce : BitVec 256) : List Byte :=
  let v := s.svc
  let maps := Config.sm3 (Config.mapsImage v.nv.retCores v.nv.retUnits v.nv.retRows v.nv.retLanes)
  let slot (i : Nat) : BitVec 256 := if i = 10 then maps else if i = 11 then 0 else tblGet 0 v.slots i
  bytesLe 4 1 ++ bytesLe 4 0 ++ bytesLe 8 Config.serial.toNat ++ bytesLe 32 nonce.toNat ++
    bytesLe 8 (s.hubGet offStpass).toNat ++ bytesLe 8 s.ftick ++ ((upFrom 0 12).flatMap fun i => bytesLe 32 (slot i).toNat) ++
    bytesLe 64 Config.publicKey.toNat

/-- R410. DEDUCED (log 77). -/
def State.report (s : State) (nonce : BitVec 256) : State :=
  let b := s.reportBody nonce
  s.emit (.report (b ++ bytesLe 64 (Config.sm2Sign b).toNat))

/-! ## Lifetime records (24_debug.md R405, R406) -/

/-- The key of a record, as LRSEL selects it. -/
def lifeKey (kind part index : Nat) : Nat := kind <<< 16 + part <<< 12 + index

/-- Add to a lifetime record, saturating. -/
def State.addLife (s : State) (key n : Nat) : State :=
  if n = 0 then s
  else
    { s with svc := { s.svc with ram := tblSet 0 s.svc.ram key (BitVec.ofNat 64 (satAdd (tblGet 0 s.svc.ram key).toNat n (2 ^ 64 - 1))) } }

/-- The counters that are sampled, with their keys. DEDUCED (log 103). -/
def State.lifeSources (s : State) : List (Nat × Nat) :=
  (s.cores.flatMap fun e =>
    [(lifeKey 0 0 e.1, e.2.mxReplay), (lifeKey 1 0 e.1, e.2.void), (lifeKey 1 1 e.1, e.2.mxDrop), (lifeKey 1 2 e.1, e.2.uce),
     (lifeKey 2 0 e.1, e.2.segOk), (lifeKey 2 1 e.1, e.2.segTrap), (lifeKey 4 0 e.1, e.2.lapCount)]) ++
  ((upFrom 0 12).map fun d => (lifeKey 1 3 d, wfld (s.hubGet (offBustat d)) 32 32)) ++
  ((upFrom 0 8).flatMap fun l =>
    [(lifeKey 3 0 l, wfld (s.hubGet (offLkcnt l)) 32 32), (lifeKey 3 1 l, wfld (s.hubGet (offLkcnt l)) 0 32)]) ++
  ((upFrom 0 48).map fun p => (lifeKey 3 2 p, tblGet 0 s.wslReplays p))

/-- Sample one source: a source that reads lower than before is taken to have been cleared. -/
def State.sampleOne (s : State) (e : Nat × Nat) : State :=
  let last := tblGet 0 s.svc.nv.last e.1
  let s := s.addLife e.1 (if last ≤ e.2 then e.2 - last else e.2)
  { s with svc := { s.svc with nv := { s.svc.nv with last := tblSet 0 s.svc.nv.last e.1 e.2 } } }

def State.sampleLife (s : State) : State := s.lifeSources.foldl State.sampleOne s

def State.writeBack (s : State) : State :=
  { s with svc := { s.svc with nv := { s.svc.nv with life := s.svc.ram } } }

/-! ## Temperature (25 R416) -/

/-- The band of a reading: 0 below T1 − 5, 1 up to T1, 2 up to T2, 3 up to T3, 4 from T3 on. -/
def bandOf (cfg : Word) (r : Nat) : Nat :=
  let t1 := wfld cfg 0 8
  let t2 := wfld cfg 8 8
  let t3 := wfld cfg 16 8
  if t3 ≤ r then 4 else if t2 ≤ r then 3 else if t1 ≤ r then 2 else if t1 ≤ r + 5 then 1 else 0

/-- Thresholds that a band lies above. -/
def bandLevel (b : Nat) : Nat := b - 1

/-- The bands that a reading enters on its way from band `a` to band `b`, one for each threshold that it crosses.
DESIGN CHOICE (log 70). -/
def crossings (a b : Nat) : List Nat :=
  if bandLevel a < bandLevel b then (upFrom (bandLevel a) (bandLevel b - bandLevel a)).map fun t => t + 2
  else ((upFrom (bandLevel b) (bandLevel a - bandLevel b)).map fun t => t + 1).reverse

/-- BMAX is the lower of what temperature and ageing allow. DEDUCED (log 69). -/
def Cluster.limit (u : Cluster) : Cluster := { u with bmax := if u.thermalMax < u.ageMax then u.thermalMax else u.ageMax }

/-- A reading puts a cluster in a band at a tick: its limit, and the first step of SWAL; those that follow come every 64 µs
(Cluster.swallow). DEDUCED (log 69). -/
def Cluster.thermal (u : Cluster) (b now : Nat) : Cluster :=
  let u := if u.band = b then u else { u with band := b, lastSwal := now }.step
  match b with
  | 0 => { u with thermalMax := 2 }.limit
  | 2 => { u with thermalMax := 1 }.limit
  | 3 => { u with thermalMax := 0 }.limit
  | _ => u

/-- R416. A reading of a cluster's sensor. DESIGN CHOICE (log 70). -/
def State.sampleHeat (s : State) (cl r : Nat) : State :=
  if 32 ≤ cl then s
  else
    let b := bandOf (s.hubGet (offThcfg (cl / 8))) r
    let xs := crossings (s.cluster cl).band b
    let s := s.addLife (lifeKey 5 0 cl) xs.length
    let s := xs.foldl (fun s x => s.emit (.thermalAlert cl x)) s
    let s := s.modCluster cl fun u => u.thermal b s.ftick
    if b = 4 ∧ s.svc.downAt.isNone then
      (upFrom 0 8).foldl State.serviceIrq { s with svc := { s.svc with downAt := some (s.ftick + 1600000) } }
    else s

/-- Power goes: nothing but the store of the management core lasts. -/
def State.powerOff (s : State) : State := { s.afterReset [] with power := false }

/-- R416. The power-down, 1 ms after a critical reading; it is orderly, so the records are written back. -/
def State.criticalDown (s : State) : State :=
  match s.svc.downAt with
  | some t => if t ≤ s.ftick then s.writeBack.powerOff else s
  | none => s

/-! ## Ageing (R417) -/

/-- The ageing limit of a drift in parts per million. DEDUCED (log 78). -/
def ageLimit (drift : Nat) : BitVec 2 := if drift < 30000 then 2 else if drift < 50000 then 1 else 0

/-- R417. A measurement of a cluster's drift, in parts per million. DEDUCED (log 78). -/
def State.age (s : State) (cl drift : Nat) : State :=
  if 32 ≤ cl then s
  else
    let s := s.addLife (lifeKey 8 (min 15 (drift / 5000)) cl) 1
    let steps := (drift - 75000) / 10000
    if 4 < steps then s.clusterOut cl
    else s.modCluster cl fun u => { u with ageMax := ageLimit drift, volt := steps }.limit

/-! ## Soft errors (19 R352) -/

def addMark (l : List Nat) (n : Nat) : List Nat := if l.contains n then l else l ++ [n]

/-- R352. An uncorrectable error arises in protected storage. -/
def State.strike (s : State) (loc : SoftLoc) : State :=
  match loc with
  | .hbm u => { s with memBad := addMark s.memBad u }
  | .weight d u => { s with wsBad := addMark s.wsBad (d * 2 ^ 25 + u % 2 ^ 25) }
  | .scratch c u => s.modCore c fun q => { q with spBad := addMark q.spBad (u % 2 ^ 16) }
  | .slot c n u => s.modOwn c fun o => o.setSlot (n % 16) { o.slot (n % 16) with bad := addMark (o.slot (n % 16)).bad (u % 16) }
  | .tile c t u => s.modOwn c fun o => o.setTile (t % 8) { o.tile (t % 8) with bad := addMark (o.tile (t % 8)).bad (u % 4096) }
  | .tileScale c t u =>
    s.modOwn c fun o => o.setTile (t % 8) { o.tile (t % 8) with badScales := addMark (o.tile (t % 8)).badScales (u % 64) }
  | .acc c a e => s.modOwn c fun o => o.setAcc (a % 2) { o.acc (a % 2) with bad := addMark (o.acc (a % 2)).bad (e % 32768) }
  | .partialSum c a e =>
    s.modOwn c fun o =>
      if (o.acc (a % 2)).blk.isSome then
        o.setAcc (a % 2) { o.acc (a % 2) with badParts := addMark (o.acc (a % 2)).badParts (e % 32768) }
      else o
  | .remData c i =>
    let (d, s) := s.draw
    s.modOwn c fun o => { o with stack := { o.stack with ents := o.stack.ents.map fun e =>
      if e.1 = i then (i, { e.2 with bad := addMark e.2.bad (Config.freeNat d % 16) }) else e } }
  | .remMeta c i =>
    s.modOwn c fun o => { o with stack := { o.stack with ents := o.stack.ents.map fun e =>
      if e.1 = i then (i, { e.2 with badMeta := true }) else e } }
  | .control c k => s.fatal c k 8 0

/-! ## Meanings -/

def execPowerOnReset (s : State) : Host.Outcome State Fault Refusal := .next s.powerOn
def execWarmReset (s : State) : Host.Outcome State Fault Refusal := .next (if s.power then s.warm else s)
def execSelfTest (res : SelfTest) (s : State) : Host.Outcome State Fault Refusal := .next (s.selfTest res)

def execBoot (firmware hypervisor : Bool) (images : BitVec 8) (s : State) : Host.Outcome State Fault Refusal :=
  .next (s.bootUp firmware hypervisor images)

def execAttestationReport (nonce : BitVec 256) (s : State) : Host.Outcome State Fault Refusal := .next (s.report nonce)
def execLifetimeSample (s : State) : Host.Outcome State Fault Refusal := .next s.sampleLife
def execLifetimeWriteback (s : State) : Host.Outcome State Fault Refusal := .next s.writeBack

def execThermalSample (cl : Nat) (reading : BitVec 8) (s : State) : Host.Outcome State Fault Refusal :=
  .next (s.sampleHeat cl reading.toNat)

def execCriticalPowerDown (s : State) : Host.Outcome State Fault Refusal := .next s.criticalDown
def execAgeingMeasure (cl drift : Nat) (s : State) : Host.Outcome State Fault Refusal := .next (s.age cl drift)
def execPowerLoss (s : State) : Host.Outcome State Fault Refusal := .next s.powerOff
def execSoftError (loc : SoftLoc) (s : State) : Host.Outcome State Fault Refusal := .next (s.strike loc)

end Sys2Proof.Machine
end

