-- ==== Sys2Proof/WellFormed.lean ====
section
/-! DEFINITION. Which terms of `Instr` are instructions and steps of the hardware: fields within their
encodings' values and indices within their ranges. -/
namespace Sys2Proof

/-- A core number and a context number (01_module.md R19, 12_sequencer.md R261). -/
def coreOk (c : Nat) : Bool := c < 512
def ctxOk (c k : Nat) : Bool := c < 512 && k < 8
/-- A launch or send queue (16_scheduling.md R308). -/
def queueOk (d q : Nat) : Bool := d < 4 && q < 16
/-- A lane of a die link (21_links.md R361). -/
def laneOk (l dir m lane : Nat) : Bool := l < 8 && dir < 2 && m < 4 && lane < 68

/-- Legal shift amount of an immediate shift. -/
def ShOp.amountOk (o : ShOp) (sh : BitVec 6) : Bool :=
  match o with
  | .slli | .srli | .srai => true
  | .slliw | .srliw | .sraiw => sh < 32

/-- An AluForm that has an encoding. -/
def AluForm.wf : AluForm → Bool
  | .shift o _ _ sh => o.amountOk sh
  | _ => true

/-- Which numbers csrWrite carries: those with no row of their own. -/
def csrPlain (n : Nat) : Bool :=
  csrKnown n && n != 0x821 && n != 0x823 && !(0x840 ≤ n && n ≤ 0x847) && n != 0x837 && n != 0x836 &&
    n != 0x859 && n != 0x85B

/-- The indices of a place an error strikes. -/
def SoftLoc.wf : SoftLoc → Bool
  | .hbm u => u < 576 * 2 ^ 27
  | .weight d u => d < 4 && u < 2 ^ 25
  | .scratch c u => c < 512 && u < 0x10000
  | .slot c s u => c < 512 && s < 16 && u < 16
  | .tile c t u => c < 512 && t < 8 && u < 4096
  | .tileScale c t u => c < 512 && t < 8 && u < 64
  | .acc c a e => c < 512 && a < 2 && e < 32768
  | .partialSum c a e => c < 512 && a < 2 && e < 32768
  | .remData c p => c < 512 && p < 65536
  | .remMeta c p => c < 512 && p < 65536
  | .control c k => c < 512 && k < 8

/-- What a debugger can write. -/
def DebugTarget.wf : DebugTarget → Bool
  | .slot n _ _ => n < 16
  | .tileByte t a _ => t < 8 && a < 32768
  | .accElem a i _ => a < 2 && i < 32768
  | .guard g _ => g < 8

/-- The indices of a place that flits pass: a lane of a die link, or a WSL port, which names no lane. -/
def FlitSite.wf (site : FlitSite) (dir m lane : Nat) : Bool :=
  match site with
  | .link l => laneOk l dir m lane
  | .wsl d p _ => d < 4 && p < 12 && dir == 0 && m == 0 && lane == 0

/-- A port runs as one, two or eight parts; a frame holds at most 9,216 bytes (21_links.md R376). -/
def EthOp.wf (op : EthOp) (port : Nat) (frame : List Byte) : Bool :=
  match op with
  | .assign owners =>
    port < 2 && frame.isEmpty && (owners.length == 1 || owners.length == 2 || owners.length == 8) && owners.all fun p => p < 8
  | .frame part _ _ => part < 8 && port < 2 && frame.length ≤ 9216

/-- The word of an engine instruction obeys the rules of its payload. -/
def engineFieldsOk (i : Instr) : Bool :=
  (match i.vx? with | some (o, _, p) => o.fieldsOk p | none => true) &&
  (match i.ld? with | some (o, _, p) => o.fieldsOk p | none => true) &&
  (match i.st? with | some (o, _, p) => o.fieldsOk p | none => true) &&
  (match i.mx? with | some (o, _, p) => o.fieldsOk p | none => true)

/-- A well-formed instruction or event. -/
def Instr.wf (i : Instr) : Bool :=
  match i with
  | .csrWrite _ _ csr _ _ => csrPlain csr.toNat
  | .scalarAlu a => a.wf
  | .illegalInstruction w => (decodeSeq? w).isNone
  | .bfence c => c.toNat ≤ 4
  | .fenceS c => c.toNat ≤ 4
  | .amoS o c _ _ _ => o.toNat ≤ 11 && c.toNat ≤ 4
  | .trapr code => code != 0
  | .engineIgnoredWord lo _ _ => lo != 0 && lo != 0xF
  | .illegalWord _ sub => sub != 0
  | .lqcfgWrite d q _ => queueOk d q
  | .lqkickWrite _ d q _ => queueOk d q
  | .lqstatBphaltRelease _ d q => queueOk d q
  | .fqcfgWrite p _ => p < 8
  | .rtbindWrite _ t _ => t < 8
  | .tactResume p _ c k _ => p < 8 && ctxOk c k
  | .tactSkip p _ c k _ => p < 8 && ctxOk c k
  | .tactAbandon p _ c k _ => p < 8 && ctxOk c k
  | .tactEnd p _ c k _ => p < 8 && ctxOk c k
  | .lkctlRateWrite l _ => l < 8
  | .lkctlRetrain l => l < 8
  | .lkretRetire l dir m lane => laneOk l dir m lane && lane < 64
  | .flitCrcError x dir m lane => x.wf dir m lane
  | .ethernetFrame port x frame => x.wf port frame
  | .dbgctlStop c | .dbgctlRelease c | .debugStopTake c => coreOk c
  | .debugSlotRead c s => coreOk c && s < 16
  | .debugWrite c t => coreOk c && t.wf
  | .wsqcfgWrite d q _ => queueOk d q
  | .wsqkickWrite _ d q _ => queueOk d q
  | .forkEnqueue c k | .rendvReturn c k | .ttloadReplace c k | .waitcArm c k | .exwaitReturn c k
  | .rqpopReturn c k | .segeMeasure c k | .taskEnd c k | .pageWalk c k => ctxOk c k
  | .barrierComplete t | .exchangeEnd t => t < 8
  | .exchangeDelivery t _ | .exchangeDeadline t _ => t < 8
  | .wordFinish c _ | .vxSourceRead c _ | .vxResultWrite c _ | .ldSlotWrite c _ | .stSlotRead c _
  | .stWriteAccess c _ | .dvaReadArrival c _ | .dvaStoreVisible c _ => coreOk c
  | .transferComplete c e => coreOk c && (e == .ld || e == .st)
  | .lapStallEnd c | .tokenDeadlockFault c | .engineFaultTaken c | .holdRelease c | .remainderSpill c
  | .remainderRefill c | .mxIssueEnd c | .mxReplay c | .ownershipPass c | .contextSwitch c
  | .taskDispatch c | .coreRetire c | .cycle c => coreOk c
  | .faultRecordPost p => p < 8
  | .footprintEdgeRelease c _ | .gatedJobRelease c _ | .cpJobDelivery c _ | .cpJobComplete c _
  | .bankJobDelivery c _ | .bankJobComplete c _ | .atomicUnitOp c _ | .bankAluAtomic c _ => coreOk c
  | .wsRefreshWindowOpen d b | .wsRefreshWindowClose d b => d < 4 && b < 32
  | .launchPacket d q | .launchSeqReread d q | .taskPlace d q | .wslDescriptor d q | .wslAck d q _ _
  | .sendQueueSeqReread d q => queueOk d q
  | .linkRetrainEnd l => l < 8
  | .wslPortDown d p => d < 4 && p < 12
  | .wslInboundOp op => op.part < 8 && op.die < 4
  | .hostPcieWrite (.mem _ _ data _) => data.length ≤ 512
  | .hostPcieRead (.mem _ _ n) => n ≤ 4096
  | .thermalSample cl _ | .ageingMeasure cl _ => cl < 32
  | .bankUnitRetire sd u => sd < 12 && u < 64
  | .hbmRowRepair sd _ => sd < 12
  | .storePerformedAtHome c k _ => ctxOk c k
  | .scalarCacheEviction c _ => coreOk c
  | .softPinEviction c _ _ => coreOk c
  | .softError l => l.wf
  | i => engineFieldsOk i

end Sys2Proof
end

