-- ==== Sys2Proof/Machine/Hub.lean ====
section
/-! DEFINITION. The hub register space as the hypervisor, the management core and the partitions read and write it
(25_service.md R419, R420), the host interface and Ethernet (21_links.md R375, R376). -/
namespace Sys2Proof.Machine

/-! ## The registers of R419 -/

/-- A hub register named by its place in the table of R419. -/
inductive HubReg where
  | ptroot (p : Nat)
  | passign (p : Nat)
  | pgrant (p n : Nat)
  | stpass
  | wslid
  | wslcnt
  | xrt (t : Nat)
  | lrsel
  | lrdat
  | thcfg (d : Nat)
  | lkctl (l : Nat)
  | lkret (l : Nat)
  | lkst (l : Nat)
  | lkcnt (l : Nat)
  | lkmap (l m r : Nat)
  | wslport (d p : Nat)
  | lqcfg (d q : Nat)
  | lqkick (d q : Nat)
  | lqstat (d q : Nat)
  | wsqcfg (d q : Nat)
  | wsqkick (d q : Nat)
  | wsqstat (d q : Nat)
  | lbp (d n : Nat)
  | dbgctl (c : Nat)
  | dbghead (c : Nat)
  | wsstat (d : Nat)
  | wsrwin (d b : Nat)
  | bustat (s : Nat)
  | fqcfg (p : Nat)
  | fqhead (p : Nat)
  | fqstat (p : Nat)
  | trval (p : Nat)
  | tact (p : Nat)
  | svcevt (p : Nat)
  | rtbind (t : Nat)
  deriving DecidableEq, Repr

/-- The registers of a partition at 0x10_0000 + 0x1000p. -/
def partReg (p o : Nat) : Option HubReg :=
  match o with
  | 0x00 => some (.fqcfg p)
  | 0x08 => some (.fqhead p)
  | 0x10 => some (.fqstat p)
  | 0x18 => some (.trval p)
  | 0x20 => some (.tact p)
  | 0x28 => some (.svcevt p)
  | _ => none

/-- The registers of a link at 0x1_0000 + 0x100l. -/
def linkReg (l o : Nat) : Option HubReg :=
  match o with
  | 0x00 => some (.lkctl l)
  | 0x08 => some (.lkret l)
  | 0x10 => some (.lkst l)
  | 0x18 => some (.lkcnt l)
  | _ => if 0x40 ≤ o ∧ o < 0x80 then some (.lkmap l ((o - 0x40) / 16) (o / 8 % 2)) else none

/-- The register at an offset. -/
def hubReg (off : Nat) : Option HubReg :=
  if off % 8 ≠ 0 then none
  else if off < 0x40 then some (.ptroot (off / 8))
  else if 0x100 ≤ off ∧ off < 0x140 then some (.passign ((off - 0x100) / 8))
  else if 0x200 ≤ off ∧ off < 0x400 then some (.pgrant ((off - 0x200) / 64) (off / 8 % 8))
  else if off = 0x400 then some .stpass
  else if off = 0x408 then some .wslid
  else if off = 0x410 then some .wslcnt
  else if 0x500 ≤ off ∧ off < 0x540 then some (.xrt ((off - 0x500) / 8))
  else if off = 0x600 then some .lrsel
  else if off = 0x608 then some .lrdat
  else if 0x700 ≤ off ∧ off < 0x720 then some (.thcfg ((off - 0x700) / 8))
  else if 0x10000 ≤ off ∧ off < 0x10800 then linkReg ((off - 0x10000) / 0x100) (off % 0x100)
  else if 0x20000 ≤ off ∧ off < 0x20200 then
    if off % 0x80 < 0x60 then some (.wslport ((off - 0x20000) / 0x80) (off % 0x80 / 8)) else none
  else if 0x30000 ≤ off ∧ off < 0x31000 then
    let d := (off - 0x30000) / 0x400
    let q := off / 0x40 % 16
    match off % 0x40 with
    | 0x00 => some (.lqcfg d q)
    | 0x08 => some (.lqkick d q)
    | 0x10 => some (.lqstat d q)
    | _ => none
  else if 0x40000 ≤ off ∧ off < 0x41000 then
    let d := (off - 0x40000) / 0x400
    let q := off / 0x40 % 16
    match off % 0x40 with
    | 0x00 => some (.wsqcfg d q)
    | 0x08 => some (.wsqkick d q)
    | 0x10 => some (.wsqstat d q)
    | _ => none
  else if 0x50000 ≤ off ∧ off < 0x50100 then
    if off % 0x40 < 0x20 then some (.lbp ((off - 0x50000) / 0x40) (off % 0x40 / 8)) else none
  else if 0x60000 ≤ off ∧ off < 0x62000 then
    if off % 16 = 0 then some (.dbgctl ((off - 0x60000) / 16)) else some (.dbghead ((off - 0x60000) / 16))
  else if 0x70000 ≤ off ∧ off < 0x74000 then
    let d := (off - 0x70000) / 0x1000
    let o := off % 0x1000
    if o = 0 then some (.wsstat d)
    else if 0x100 ≤ o ∧ o < 0x200 then some (.wsrwin d ((o - 0x100) / 8))
    else none
  else if 0x80000 ≤ off ∧ off < 0x80060 then some (.bustat ((off - 0x80000) / 8))
  else if 0x100000 ≤ off ∧ off < 0x108000 then partReg ((off - 0x100000) / 0x1000) (off % 0x1000)
  else if 0x108000 ≤ off ∧ off < 0x108040 then some (.rtbind ((off - 0x108000) / 8))
  else none

/-- LKMAP: the retired lanes of a module in a direction (21_links.md R363). DEDUCED (log 72). -/
def Link.lkmap (l : Link) (m r : Nat) : Word :=
  BitVec.ofNat 64 (bitsOf 64 fun j => (l.ret ++ l.again).contains (r, m, j))

/-- LRDAT: the record that LRSEL selects; 0 for one that names nothing (R418). -/
def State.lrdat (s : State) : Word := tblGet 0 s.svc.ram (wfld (s.hubGet offLrsel) 0 24)

/-- What a register reads as. WO fields read as 0 (00_scope.md R7). -/
def State.regRead (s : State) (r : HubReg) : Word :=
  match r with
  | .ptroot p => s.hubGet (offPtroot p)
  | .passign p => s.hubGet (offPassign p)
  | .pgrant p n => s.hubGet (offPgrant p n)
  | .stpass => s.hubGet offStpass
  | .wslid => s.hubGet offWslid
  | .wslcnt => s.hubGet offWslcnt
  | .xrt t => (s.hubGet (offXrt t) &&& 0x8000_0000_0000_0000) + BitVec.ofNat 64 ((96 + 256 * Config.wslHops t) % 2 ^ 16)
  | .lrsel => s.hubGet offLrsel
  | .lrdat => s.lrdat
  | .thcfg d => s.hubGet (offThcfg d)
  | .lkctl l => s.hubGet (offLkctl l)
  | .lkret _ => 0
  | .lkst l => (s.link l).lkst
  | .lkcnt l => s.hubGet (offLkcnt l)
  | .lkmap l m r => (s.link l).lkmap m r
  | .wslport d p => s.hubGet (offWslport d p)
  | .lqcfg d q => s.hubGet (offLqcfg d q)
  | .lqkick _ _ => 0
  | .lqstat d q => s.hubGet (offLqstat d q)
  | .wsqcfg d q => s.hubGet (offWsqcfg d q)
  | .wsqkick _ _ => 0
  | .wsqstat d q => s.hubGet (offWsqstat d q)
  | .lbp d n => s.hubGet (offLbp d n)
  | .dbgctl c => s.hubGet (offDbgctl c)
  | .dbghead c => s.hubGet (offDbghead c)
  | .wsstat d => s.hubGet (offWsstat d)
  | .wsrwin _ b => wsrwin b
  | .bustat d => s.hubGet (offBustat d)
  | .fqcfg p => s.hubGet (offFqcfg p)
  | .fqhead p => s.hubGet (offFqhead p)
  | .fqstat p => s.fqstat p
  | .trval p => s.hubGet (offTrval p)
  | .tact _ => 0
  | .svcevt p => s.hubGet (offSvcevt p)
  | .rtbind t => s.hubGet (offRtbind t)

/-- A read of the hypervisor or the management core. -/
def State.hubRead (s : State) (off : Nat) : Word :=
  match hubReg off with
  | some r => s.regRead r
  | none => 0

/-! ## The 64 KiB of a partition (R420) -/

/-- The register at a VF offset of a partition. -/
def vfReg (p off : Nat) : Option HubReg :=
  if off % 8 ≠ 0 ∨ 8 ≤ p then none
  else if off < 0x30 then partReg p off
  else if 0x1000 ≤ off ∧ off < 0x2000 then
    match off % 0x40 with
    | 0x08 => some (.lqkick ((off - 0x1000) / 0x400) (off / 0x40 % 16))
    | 0x10 => some (.lqstat ((off - 0x1000) / 0x400) (off / 0x40 % 16))
    | _ => none
  else if 0x3000 ≤ off ∧ off < 0x4000 then
    match off % 0x40 with
    | 0x08 => some (.wsqkick ((off - 0x3000) / 0x400) (off / 0x40 % 16))
    | 0x10 => some (.wsqstat ((off - 0x3000) / 0x400) (off / 0x40 % 16))
    | _ => none
  else if 0x5000 ≤ off ∧ off < 0x5040 then some (.rtbind ((off - 0x5000) / 8))
  else none

/-- Whether a partition may use a register that it reaches. -/
def State.vfMay (s : State) (p : Nat) (r : HubReg) : Bool :=
  match r with
  | .lqkick d q => s.lqPart d q == p
  | .lqstat d q => s.lqPart d q == p
  | .wsqkick d q => s.sqPart d q == p
  | .wsqstat d q => s.sqPart d q == p
  | .rtbind t => wfld (s.hubGet (offRtbind t)) 60 3 == p
  | _ => true

/-- A read of a partition. -/
def State.vfRead (s : State) (p off : Nat) : Word :=
  match vfReg p off with
  | some r => if s.vfMay p r then s.regRead r else 0
  | none => 0

/-! ## Writes -/

/-- The hypervisor alone. -/
def isHyper : HubAgent → Bool
  | .hypervisor => true
  | _ => false

/-- The management core alone. -/
def isManagement : HubAgent → Bool
  | .management => true
  | _ => false

/-- The hypervisor or the management core. -/
def isService : HubAgent → Bool
  | .partition _ => false
  | _ => true

/-- A partition's own registers are used by it, and by the two above it. -/
def ofPart (who : HubAgent) (p : Nat) : Bool := HubAgent.mayUse who p

/-- A value of PASSIGN(p) gives no cluster and no application core to two partitions (R411). -/
def State.passignGood (s : State) (p : Nat) (v : Word) : Bool :=
  (upFrom 0 8).all fun o => o == p || v &&& s.hubGet (offPassign o) &&& 0xFFFF_0000_FFFF_FFFF == 0

/-- W1C fields of counts: any 1 written in a field clears it (04_device_memory.md R104, 21_links.md R363). -/
def State.wipeFields (s : State) (off : Nat) (v : Word) (fs : List (Nat × Nat)) : State :=
  fs.foldl (fun s f => if wfld v f.1 f.2 = 0 then s else s.hubField off f.1 f.2 0) s

/-- A write of TACT (19_faults.md R342 to R344). -/
def State.tactPut (s : State) (p : Nat) (v : Word) : State :=
  let on := bit v.toNat 61
  let c := wfld v 52 9
  let k := wfld v 49 3
  let seq : BitVec 32 := v.setWidth 32
  match wfld v 62 2 with
  | 0 => s.tact p on c k seq fun s r => s.resume c k r false
  | 1 => s.tact p on c k seq fun s r => s.resume c k r true
  | 2 => s.tact p on c k seq fun s r => s.abandonAt c k r
  | _ => s.tact p on c k seq fun s _ => (s.abandon c k).endTask c k

/-- A write of DBGCTL: ATT, and STOP as a request or a release (24_debug.md R401, R402). -/
def State.dbgctlPut (s : State) (c : Nat) (v : Word) : State :=
  let s := s.hubField (offDbgctl c) 2 1 (b2n (bit v.toNat 2))
  if bit v.toNat 0 then s.hubField (offDbgctl c) 0 1 1 else (s.unhalt c).hubField (offDbgctl c) 0 1 0

/-- A write of a register by an agent. Fields that the agent does not own and read-only fields ignore it.
DEDUCED (log 79). -/
def State.regWrite (s : State) (who : HubAgent) (r : HubReg) (v : Word) : State :=
  match r with
  | .ptroot p => if isHyper who then s.hubPut (offPtroot p) (v &&& 0xFF_FFFC_0001) else s
  | .passign p =>
    let v := v &&& 0xFFFF_F000_FFFF_FFFF
    if isHyper who && s.passignGood p v then s.hubPut (offPassign p) v else s
  | .pgrant p n => if isHyper who then s.hubPut (offPgrant p n) (v &&& 0x8000_03FF_0000_03FF) else s
  | .stpass => s
  | .wslid => if isManagement who then s.hubPut offWslid (v &&& 0xFFF) else s
  | .wslcnt => if isService who then s.wipeFields offWslcnt v [(32, 32), (16, 16), (0, 16)] else s
  | .xrt t => if isHyper who then s.hubPut (offXrt t) (v &&& 0x8000_0000_0000_0000) else s
  | .lrsel => if isService who then s.hubPut offLrsel (v &&& 0xFF_FFFF) else s
  | .lrdat => s
  | .thcfg d => if isService who then s.hubPut (offThcfg d) (v &&& 0xFF_FFFF) else s
  | .lkctl l => if isService who then s.lkctlPut l v else s
  | .lkret l =>
    if isService who && bit v.toNat 63 then s.retireLane l (wfld v 10 1) (wfld v 8 2) (wfld v 0 6) else s
  | .lkst _ => s
  | .lkcnt l => if isService who then s.wipeFields (offLkcnt l) v [(32, 32), (0, 32)] else s
  | .lkmap _ _ _ => s
  | .wslport d p =>
    if isManagement who then (s.hubPut (offWslport d p) (v &&& 0x8000_0000_0000_0FFF)).portsChanged else s
  | .lqcfg d q => if isHyper who then s.lqcfgPut d q v else s
  | .lqkick d q => s.lqkickPut who d q (v.setWidth 32)
  | .lqstat d q => s.lqstatPut who d q v
  | .wsqcfg d q => if isHyper who then s.wsqcfgPut d q v else s
  | .wsqkick d q => s.wsqkickPut who d q (v.setWidth 32)
  | .wsqstat d q => s.wsqstatPut who d q v
  | .lbp d n => if isManagement who then s.hubPut (offLbp d n) (v &&& 0xFE0F_FFFF_FFFF_FFFF) else s
  | .dbgctl c => if isManagement who then s.dbgctlPut c v else s
  | .dbghead _ => s
  | .wsstat d => if isService who then s.wipeFields (offWsstat d) v [(32, 32), (0, 32)] else s
  | .wsrwin _ _ => s
  | .bustat d => if isService who then s.wipeFields (offBustat d) v [(32, 32), (16, 16)] else s
  | .fqcfg p => if isHyper who then s.fqcfgPut p v else s
  | .fqhead p => if ofPart who p then s.hubPut (offFqhead p) (v &&& 0xFFFF_FFFF) else s
  | .fqstat p => if ofPart who p then s.wipeFields (offFqstat p) v [(16, 16)] else s
  | .trval p => if ofPart who p then s.hubPut (offTrval p) v else s
  | .tact p => if ofPart who p then s.tactPut p v else s
  | .svcevt p => if ofPart who p then s.hubPut (offSvcevt p) (s.hubGet (offSvcevt p) &&& ~~~v) else s
  | .rtbind t => s.rtbindPut who t v

/-- R419, R420. A write at an offset: of the whole space, or of a partition's 64 KiB. DEDUCED (log 79). -/
def State.hubWrite (s : State) (who : HubAgent) (off : Nat) (v : Word) : State :=
  match who with
  | .partition p =>
    match vfReg p off with
    | some r => if s.vfMay p r then s.regWrite who r v else s
    | none => s
  | _ =>
    match hubReg off with
    | some r => s.regWrite who r v
    | none => s

/-- Accesses to hub registers are 8 bytes wide; any other is ignored (R419). -/
def State.hubWriteOf (s : State) (who : HubAgent) (off width : Nat) (v : Word) : State :=
  if width = 8 then s.hubWrite who off v else s

/-- A read by an agent. -/
def State.hubReadBy (s : State) (who : HubAgent) (off : Nat) : Word :=
  match who with
  | .partition p => s.vfRead p off
  | _ => s.hubRead off

/-- A read of any other width than 8 bytes gives 0 (R419). -/
def State.hubReadOf (s : State) (who : HubAgent) (off width : Nat) : Word :=
  if width = 8 then s.hubReadBy who off else 0

/-! ## The host (21_links.md R375) and Ethernet (R376) -/

/-- Pages that the host may write, and read. -/
def hostWrites (w : Word) : Bool := leafSystem w && leafWrites w
def hostReads (w : Word) : Bool := leafSystem w && leafReads w

/-- A write of the host is performed at its home; its payload is at most 512 bytes, and it waits for a link that retrains.
DEDUCED (log 81). -/
def State.hostPut (s : State) (w : HostWrite) : State :=
  match w with
  | .mem part dva data _ =>
    if 512 < data.length ∨ s.rangeHeld 4 part dva data.length then s
    else match s.walkDpas 4 part hostWrites dva data.length with
    | some as => s.outWrite 4 (as.zip data)
    | none => s.emit (.unsupported part dva)
  | .bar off width v => s.hubWriteOf .hypervisor off width v
  | .vfBar part off width v => s.hubWriteOf (.partition part) off width v
  | .reset v => if v then s.warm else s

/-- A read of the host, of at most 4,096 bytes; it waits for a link that retrains. DEDUCED (log 81).
DESIGN CHOICE (log 82). -/
def State.hostGet (s : State) (r : HostRead) : State :=
  match r with
  | .mem part dva len =>
    if 4096 < len ∨ s.rangeHeld 4 part dva len then s
    else match s.walkDpas 4 part hostReads dva len with
    | some as =>
      let (bs, s) := s.outRead 4 as
      ({ s with draws := s.draws + len }).emit (.readData part dva (freeBytes s.draws bs))
    | none => s.emit (.unsupported part dva)
  | .bar off width => s.emit (.barData off (s.hubReadOf .hypervisor off width))
  | .vfBar part off width => s.emit (.barData off (s.hubReadOf (.partition part) off width))

/-! ## Meanings -/

/-- DESIGN CHOICE (log 88). -/
def execHubRegWrite (who : HubAgent) (off : Nat) (a : HubAccess) (s : State) : Host.Outcome State Fault Refusal :=
  match a with
  | .write width v => .next (s.hubWriteOf who off width v)
  | .read width => .next (s.emit (.barData off (s.hubReadOf who off width)))

def execHostPcieWrite (w : HostWrite) (s : State) : Host.Outcome State Fault Refusal := .next (s.hostPut w)
def execHostPcieRead (r : HostRead) (s : State) : Host.Outcome State Fault Refusal := .next (s.hostGet r)

/-- R376. The hypervisor splits a port and assigns its parts; a partition sends a frame on a part that is its own, and the
frame is given to the outside; one that is received is the system image's. DEDUCED (log 83). -/
def execEthernetFrame (port : Nat) (op : EthOp) (frame : List Byte) (s : State) : Host.Outcome State Fault Refusal :=
  match op with
  | .assign owners => if op.wf port frame then .next { s with eth := tblSet [] s.eth port owners } else .next s
  | .frame part sub out =>
    if op.wf port frame && (tblGet [] s.eth port)[sub]? == some part && out then .next (s.emit (.frame port sub frame))
    else .next s

end Sys2Proof.Machine
end

