-- ==== Sys2Proof/Machine/Spill.lean ====
section
/-! DEFINITION. The spill machine: moves of remainder-stack entries between the core and their region (10_reversible.md
R217), through port 8 (07_ring.md R164) and the scratchpad's banks (06_copy_scratchpad.md R133). -/
namespace Sys2Proof.Machine

/-- The lowest entry on core. -/
def Stack.lowest (k : Stack) : Option (Nat × RemEnt) := k.ents.head?

/-- The entry that a move takes off the core, as it stands; none when it has left the stack. -/
def CoreSt.moving (k : CoreSt) (m : SpillMove) : Option RemEnt :=
  (tblFind k.own.stack.ents m.pos).filter fun e => e.id == m.ent.id

/-- Make the use of port 8 of a move: asked for in a cycle in which nothing has the port, and no image is saved or restored
(07_ring.md R164). DEDUCED (log 32). -/
def State.movePort (s : State) (c : Nat) (m : SpillMove) : State :=
  let k := s.core c
  if m.port || k.cyc.port || k.swap.isSome then s
  else s.setCore c { k with move := some { m with port := true }, cyc := { k.cyc with port := true } }

/-- Make one of the two accesses of a move, when its bank is free (06_copy_scratchpad.md R133): 128 bytes of data, or the
8 bytes of metadata. A spill writes what the entry holds then, with its errors (R233). -/
def State.moveAccess (s : State) (c : Nat) (m : SpillMove) (info : Bool) : State :=
  let k := s.core c
  let st := k.own.stack
  let a := if info then st.metaAt m.pos else st.dataAt m.pos
  let n := if info then 8 else 128
  if (if info then m.info else m.data) || !k.banksFree a n then s
  else
    let hold (s : State) : State := s.modCore c fun k => k.holdBanks a n 1
    let m := if info then { m with info := true } else { m with data := true }
    if m.spill then
      match k.moving m with
      | none => s.modCore c fun k => { k with move := none }
      | some e =>
        let s := (hold s).spWrite c a (if info then bytesLe 8 e.metaWord else bytesLe 128 e.data.toNat)
        s.modCore c fun k =>
          { k with
            move := some m
            spBad := k.spBad ++ (if info then (if e.badMeta then [a / 8] else []) else e.bad.map fun u => a / 8 + u) }
    else
      let s := hold s
      let e := s.regionEntry c m.pos
      let e :=
        if info then { e with data := m.ent.data, bad := m.ent.bad }
        else { m.ent with data := e.data, bad := e.bad }
      s.modCore c fun k => { k with move := some { m with ent := e } }

/-- The end of a move, when all its parts have been made: ON changes and it is counted. A move whose entry has left the stack
meanwhile comes to nothing. -/
def CoreSt.moveEnd (k : CoreSt) : CoreSt :=
  match k.move with
  | none => k
  | some m =>
    let st := k.own.stack
    if !(m.port && m.data && m.info) then k
    else if m.spill then
      if (k.moving m).isSome then
        { k.dropEnt m.pos with move := none, rsSpill := satAdd k.rsSpill 1 (2 ^ 24 - 1) }
      else { k with move := none }
    else if st.on < st.depth ∧ m.pos + st.on + 1 = st.depth then
      { k with
        move := none
        rsRefill := satAdd k.rsRefill 1 (2 ^ 24 - 1)
        own := { k.own with stack := { st with ents := tblPut st.ents m.pos m.ent } } }
    else { k with move := none }

/-- One part of a move: which of those that are left, is free; each waits for its bank or the port. DEDUCED (log 32). -/
def State.moveStep (s : State) (c : Nat) (m : SpillMove) : State :=
  let (d, s) := s.draw
  let s :=
    match Config.freeNat d % 3 with
    | 0 => s.movePort c m
    | 1 => s.moveAccess c m false
    | _ => s.moveAccess c m true
  s.modCore c CoreSt.moveEnd

/-- The spill machine moves an entry to the region: the lowest on core, once its data have been written. -/
def State.spillStep (s : State) (c : Nat) : State :=
  let k := s.core c
  let st := k.own.stack
  match k.move with
  | some m => if m.spill then s.moveStep c m else s
  | none =>
    match st.lowest, k.owner with
    | some (i, e), some o =>
      if st.on ≤ 48 ∨ e.writer ≠ 0 then s
      else
        match st.beyond i with
        | some a => s.fatal c o 6 a
        | none => s.moveStep c { spill := true, pos := i, port := false, data := false, info := false, ent := e }
    | _, _ => s

/-- The spill machine moves an entry back onto the core. -/
def State.refillStep (s : State) (c : Nat) : State :=
  let k := s.core c
  let st := k.own.stack
  match k.move with
  | some m => if m.spill then s else s.moveStep c m
  | none =>
    match k.owner with
    | some o =>
      if st.on < 16 ∧ st.on < st.depth ∧ !st.hold then
        let i := st.depth - st.on - 1
        match st.beyond i with
        | some a => s.fatal c o 6 a
        | none =>
          s.moveStep c
            { spill := false, pos := i, port := false, data := false, info := false, ent := s.regionEntry c i }
      else s
    | none => s

/-! ## Meanings -/

def execRemainderSpill (c : Nat) (s : State) : Host.Outcome State Fault Refusal := .next (s.spillStep c)
def execRemainderRefill (c : Nat) (s : State) : Host.Outcome State Fault Refusal := .next (s.refillStep c)

end Sys2Proof.Machine
end

