-- ==== Sys2Proof/Machine/Time.lean ====
section
/-! DEFINITION. The fabric clock, what is due at a tick, the arithmetic clocks and boost permits (00_scope.md R5,
04_device_memory.md R101, 16_scheduling.md R325 to R328, 18_program_boost.md R331, R332), and what may move when nothing
is due. -/
namespace Sys2Proof.Machine

/-! ## Refresh windows (04_device_memory.md R101, R104) -/

/-- Ticks since bank `b`'s window last opened. -/
def windowAge (t b : Nat) : Nat := (t + 102400 - 3200 * b) % 102400

/-- The refresh window of bank `b` is open. -/
def windowOpen (t b : Nat) : Bool := decide (windowAge t b < 1600)

/-- A window opens, or closes, as the schedule has it at this tick. -/
def State.setWindow (s : State) (d b : Nat) : State :=
  if 4 ≤ d ∨ 32 ≤ b then s
  else
    let l := s.wsOpen.filter (· != (d, b))
    { s with wsOpen := if windowOpen s.ftick b then l ++ [(d, b)] else l }

/-! ## Boost permits (R326 to R328) -/

/-- Contexts of a cluster that hold a task. -/
def State.clusterTasks (s : State) (cl : Nat) : List Ctx :=
  (upFrom (16 * cl) 16).flatMap fun c => ((upFrom 0 8).map (s.ctx c)).filter (·.live)

/-- The claim of a cluster: its level and its priority. -/
def State.claim (s : State) (cl : Nat) : Nat × Nat :=
  let ts := s.clusterTasks cl
  let level := ts.foldl (fun m x => max m x.boost.toNat) 0
  (level, (ts.filter fun x => x.boost.toNat == level).foldl (fun m x => max m x.prio.toNat) 0)

/-- The refill at the end of an interval (R327). -/
def Cluster.refill (u : Cluster) : Cluster :=
  if u.busy then { u with idle := 0 }
  else if u.idle = 3 then { u with idle := 0, permits := min 64 (u.permits + 1) }
  else { u with idle := u.idle + 1 }

/-- Put a candidate (cluster, priority) behind those of its priority or above. -/
def rankIn (e : Nat × Nat) : List (Nat × Nat) → List (Nat × Nat)
  | [] => [e]
  | x :: xs => if x.2 < e.2 then e :: x :: xs else x :: rankIn e xs

/-- The clusters of a die that run at 960 MHz and those refused, with the die's pointer (R326, steps 1 to 3). -/
def State.boostGrants (s : State) (d : Nat) : List Nat × List Nat :=
  let p := tblGet 0 s.diePtr d
  let order := (upFrom 0 8).map fun i => 8 * d + (p + i) % 8
  let cands := order.filter fun cl => (s.claim cl).1 == 2 && (s.cluster cl).bmax == 2 && decide (2 ≤ (s.cluster cl).permits)
  let ranked := cands.foldl (fun l cl => rankIn (cl, (s.claim cl).2) l) []
  ((ranked.take 4).map (·.1), (ranked.drop 4).map (·.1))

/-- A cluster's state and charge (R326, steps 3 to 5). -/
def Cluster.grant (u : Cluster) (level : Nat) (top : Bool) : Cluster :=
  if top then { u with state := 2, permits := u.permits - 2 }
  else if u.state = 2 then { u with state := 1, permits := u.permits - 1 }
  else if 1 ≤ level ∧ u.bmax ≠ 0 ∧ 1 ≤ u.permits then { u with state := 1, permits := u.permits - 1 }
  else { u with state := 0 }

/-- The claim goes unmet for want of permits (24_debug.md R405). DEDUCED (log 80). -/
def Cluster.unmet (u : Cluster) (level : Nat) : Bool :=
  (level == 2 && u.bmax == 2 && decide (u.permits < 2)) ||
    (decide (1 ≤ level) && u.bmax != 0 && decide (u.permits = 0) && u.state != 2)

/-- The grants of a die. DEDUCED (log 80). -/
def State.grantDie (s : State) (d : Nat) : State :=
  let (top, refused) := s.boostGrants d
  let s' := (upFrom (8 * d) 8).foldl (fun a cl =>
    let level := (s.claim cl).1
    (if (s.cluster cl).unmet level then a.addLife (lifeKey 6 0 cl) 1 else a).modCluster cl fun u =>
      u.grant level (top.contains cl)) s
  if refused.isEmpty then s' else { s' with diePtr := tblSet 0 s'.diePtr d ((tblGet 0 s'.diePtr d + 1) % 8) }

/-- A task is held on a cluster now. -/
def State.clusterBusy (s : State) (cl : Nat) : Bool :=
  (upFrom (16 * cl) 16).any fun c => (upFrom 0 8).any fun k => (s.ctx c k).live

/-- R326. A boundary: the refills of the interval that ends, then the grants; a new interval begins.
DEDUCED (log 85). -/
def State.boundary (s : State) : State :=
  if s.ftick % 8000 ≠ 0 then s
  else
    let s := (upFrom 0 32).foldl (fun s cl => s.modCluster cl Cluster.refill) s
    let s := (upFrom 0 4).foldl State.grantDie s
    (upFrom 0 32).foldl (fun s cl => let b := s.clusterBusy cl; s.modCluster cl fun u => { u with busy := b }) s

/-! ## Pulses (R325, R331) -/

/-- Pulses of an interval at a state. -/
def pulsesOf (state : BitVec 2) : Nat := if state = 2 then 4800 else if state = 1 then 4400 else 4000

/-- A cluster gives a pulse at this tick of its interval: the pulses of an interval are spread evenly (DESIGN CHOICE, log 5). -/
def Cluster.due (u : Cluster) (tick : Nat) : Bool := decide (u.pulses < ceilDiv ((tick % 8000 + 1) * pulsesOf u.state) 8000)

/-- The SWAL of the group that a pulse belongs to. -/
def Cluster.groupSwal (u : Cluster) : Nat := if u.pulses % 16 = 0 then u.nextSwal else u.swal

/-- The pulse is a cycle: it is not among the last SWAL of its group. -/
def Cluster.isCycle (u : Cluster) : Bool := decide (u.pulses % 16 < 16 - u.groupSwal)

/-- Count a pulse. -/
def Cluster.count (u : Cluster) : Cluster := { u with swal := u.groupSwal, pulses := u.pulses + 1 }

/-- A cluster at a tick, before its pulse: an interval begins, or it is busy in this one, and SWAL takes a step that is due. -/
def State.clusterNote (s : State) (cl : Nat) : State :=
  s.modCluster cl fun u =>
    (if s.ftick % 8000 = 0 then { u with pulses := 0 } else { u with busy := u.busy || s.clusterBusy cl }).swallow s.ftick

/-- The pulse of a cluster, if one is due: cores to which a cycle is delivered. -/
def State.clusterPulse (s : State) (cl : Nat) : List Nat × State :=
  let u := s.cluster cl
  if u.inService && u.due s.ftick then
    (if u.isCycle then (upFrom (16 * cl) 16).filter s.inService else [], s.modCluster cl Cluster.count)
  else ([], s)

/-- The cluster's part of a tick. -/
def State.clusterTick (s : State) (cl : Nat) : List Nat × State := (s.clusterNote cl).clusterPulse cl

/-- Every cluster's part of a tick. -/
def State.clusterTicks (s : State) : List Nat × State :=
  (upFrom 0 32).foldl (fun a cl => let r := a.2.clusterTick cl; (a.1 ++ r.1, r.2)) ([], s)

/-! ## A tick -/

/-- Moves on one condition. -/
def dueIf (b : Bool) (i : Instr) : List Turn := if b then [.event i] else []

/-- A time has come. DESIGN CHOICE (log 89). -/
def dueAt (t : Option Nat) (now : Nat) : Bool :=
  match t with
  | some u => decide (u ≤ now)
  | none => false

/-- What is due for a route tag. -/
def TagSt.dues (b : TagSt) (t now : Nat) : List Turn :=
  dueIf (dueAt b.release now) (.barrierComplete t) ++
    (match b.t0 with
     | none => []
     | some t0 =>
       ((upFrom 0 b.recs.length).flatMap fun i =>
         match b.recs[i]? with
         | some r => dueIf (decide (t0 + r.deadline < now) && !r.late && decide (r.done < r.len)) (.exchangeDeadline t i)
         | none => []) ++
       dueIf (b.recs.all fun r => decide (r.len ≤ r.done) && decide (t0 + r.deadline ≤ now)) (.exchangeEnd t))

/-- Everything that is due at this tick, but for the pulses. What a sensor or a monitor reads is free (DESIGN CHOICE,
log 104). -/
def State.dues (s : State) : List Turn :=
  let t := s.ftick
  dueIf (decide (t % 8000 = 0)) .boostBoundary ++ dueIf (decide (t % 65536 = 0)) .linkWindowBoundary ++
    ((upFrom 0 32).flatMap fun b => (upFrom 0 4).flatMap fun d =>
      dueIf (windowAge t b == 0) (.wsRefreshWindowOpen d b) ++ dueIf (windowAge t b == 1600) (.wsRefreshWindowClose d b)) ++
    (s.links.flatMap fun e => dueIf (dueAt e.2.train t) (.linkRetrainEnd e.1)) ++
    (s.lqs.flatMap fun e => dueIf (dueAt e.2.nextRead t) (.launchSeqReread (e.1 / 16) (e.1 % 16))) ++
    (s.sqs.flatMap fun e => dueIf (dueAt e.2.nextRead t) (.sendQueueSeqReread (e.1 / 16) (e.1 % 16))) ++
    (s.tags.flatMap fun e => e.2.dues e.1 t) ++ dueIf (dueAt s.svc.downAt t) .criticalPowerDown ++
    -- what the management core does of its own: readings, lifetime samples and write-backs, measurements of drift
    ((upFrom 0 32).flatMap fun cl =>
      dueIf (decide (t % 8000 = 0)) (.thermalSample cl (BitVec.ofNat 8 (Config.freeNat (s.draws + cl)))) ++
        dueIf (decide (t % 2 ^ 40 = 0)) (.ageingMeasure cl (Config.freeNat (s.draws + 32 + cl)))) ++
    dueIf (decide ((t + s.svc.lifeBase) % 2 ^ 26 = 0)) .lifetimeSample ++
    dueIf (decide ((t + s.svc.lifeBase) % 2 ^ 32 = 0)) .lifetimeWriteback

/-- The fabric clock counts a tick. -/
def State.countTick (s : State) : State := { s with ftick := (s.ftick + 1) % 2 ^ 64 }

/-- Free values of a number of draws have been taken. -/
def State.drawn (s : State) (n : Nat) : State := { s with draws := s.draws + n }

/-- One tick of the fabric clock: what is due, then a cycle at each core that has one. DEDUCED (log 85).
DESIGN CHOICE (log 89). -/
def State.tick (s : State) : State :=
  let s := s.countTick
  let r := s.clusterTicks
  (r.2.drawn (if s.ftick % 8000 = 0 then 64 else 0)).push (s.dues ++ r.1.map Turn.pulse)

/-! ## What may move when nothing is due -/

/-- Steps that are part of a cycle or of a tick: they come only when they are due. DESIGN CHOICE (log 104). -/
def inTime : Instr → Bool
  | .wordFinish _ _ | .lapStallEnd _ | .tokenDeadlockFault _ | .engineFaultTaken _ | .holdRelease _ | .debugStopTake _
  | .vxSourceRead _ _ | .vxResultWrite _ _ | .ldSlotWrite _ _ | .stSlotRead _ _ | .stWriteAccess _ _
  | .transferComplete _ _ | .mxIssueEnd _ | .mxReplay _ | .ownershipPass _ | .contextSwitch _ | .cycle _
  | .boostBoundary | .linkWindowBoundary | .thermalSample _ _ | .ageingMeasure _ _ => true
  | _ => false

/-- Steps of opcode_table.json that are no instruction of an agent. -/
def isStep : Instr → Bool
  | .powerOnReset | .warmReset | .selfTest _ | .boot _ _ _ | .attestationReport _ | .hubRegWrite _ _ _
  | .lqcfgWrite _ _ _ | .lqkickWrite _ _ _ _ | .lqstatBphaltRelease _ _ _ | .fqcfgWrite _ _ | .rtbindWrite _ _ _
  | .tactResume _ _ _ _ _ | .tactSkip _ _ _ _ _ | .tactAbandon _ _ _ _ _ | .tactEnd _ _ _ _ _ | .lkctlRateWrite _ _
  | .lkctlRetrain _ | .lkretRetire _ _ _ _ | .dbgctlStop _ | .dbgctlRelease _ | .debugStopTake _ | .debugSlotRead _ _
  | .debugWrite _ _ | .wsqcfgWrite _ _ _ | .wsqkickWrite _ _ _ _ | .forkEnqueue _ _ | .rendvReturn _ _
  | .ttloadReplace _ _ | .waitcArm _ _ | .continuationEnqueue _ | .barrierComplete _ | .exwaitReturn _ _
  | .rqpopReturn _ _ | .segeMeasure _ _ | .taskEnd _ _ | .wordFinish _ _ | .lapStallEnd _ | .tokenDeadlockFault _
  | .engineFaultTaken _ | .holdRelease _ | .faultRecordPost _ | .vxSourceRead _ _ | .vxResultWrite _ _
  | .ldSlotWrite _ _ | .stSlotRead _ _ | .stWriteAccess _ _ | .transferComplete _ _ | .dvaReadArrival _ _
  | .dvaStoreVisible _ _ | .remainderSpill _ | .remainderRefill _ | .mxIssueEnd _ | .mxReplay _
  | .footprintEdgeRelease _ _ | .gatedJobRelease _ _ | .cpJobDelivery _ _ | .cpJobComplete _ _ | .bankJobDelivery _ _
  | .bankJobComplete _ _ | .atomicUnitOp _ _ | .bankAluAtomic _ _ | .remoteWriteArrival _ | .pageWalk _ _
  | .wsRefreshWindowOpen _ _ | .wsRefreshWindowClose _ _ | .ownershipPass _ | .contextSwitch _ | .launchPacket _ _
  | .launchSeqReread _ _ | .taskPlace _ _ | .taskDispatch _ | .exchangeDelivery _ _ | .exchangeDeadline _ _
  | .boostBoundary | .linkRetrainEnd _ | .linkWindowBoundary | .flitCrcError _ _ _ _ | .wslDescriptor _ _
  | .wslAck _ _ _ _ | .wslPortDown _ _ | .wslInboundOp _ | .hostPcieWrite _ | .hostPcieRead _ | .ethernetFrame _ _ _
  | .thermalSample _ _ | .criticalPowerDown | .ageingMeasure _ _ | .lifetimeSample | .lifetimeWriteback
  | .coreRetire _ | .bankUnitRetire _ _ | .hbmRowRepair _ _ | .cycle _ | .storePerformedAtHome _ _ _
  | .scalarCacheEviction _ _ | .softPinEviction _ _ _ | .softError _ | .exchangeEnd _ | .powerLoss
  | .sendQueueSeqReread _ _ => true
  | _ => false

/-- The module has power and has not stopped at a failed boot (25_service.md R409). -/
def State.runs (s : State) : Bool := s.power && !s.svc.stopped

/-- An agent has been started: the hypervisor and a partition's system image by boot (25_service.md R409). -/
def State.agentUp (s : State) (who : HubAgent) : Bool :=
  match who with
  | .management => true
  | .hypervisor => s.svc.booted
  | .partition p => s.svc.parts.contains p

/-- The agent of a step from outside, where it is one that boot starts. -/
def agentOf : Instr → HubAgent
  | .hubRegWrite who _ _ | .lqkickWrite who _ _ _ | .lqstatBphaltRelease who _ _ | .rtbindWrite who _ _
  | .wsqkickWrite who _ _ _ => who
  | .lqcfgWrite _ _ _ | .fqcfgWrite _ _ | .wsqcfgWrite _ _ _ | .ethernetFrame _ (.assign _) _ => .hypervisor
  | .tactResume p _ _ _ _ | .tactSkip p _ _ _ _ | .tactAbandon p _ _ _ _ | .tactEnd p _ _ _ _ => .partition p
  | .ethernetFrame _ (.frame part _ _) _ => .partition part
  | _ => .management

/-- What an unpowered or a stopped module may do: power, and after a failed boot a warm reset (25_service.md R407,
R409). -/
def State.mayStep (s : State) (i : Instr) : Bool :=
  isStep i &&
    (match i with
     | .powerOnReset => true
     | .warmReset | .powerLoss | .criticalPowerDown => s.power
     | .hostPcieWrite w => s.power && (!s.svc.stopped || (match w with | .reset _ => true | _ => false))
     | _ => s.runs && s.agentUp (agentOf i))

/-- What may come next of its own: a tick, a sequencer, or a well-formed step that is not bound to its time. -/
def freeTurn : Turn → Bool
  | .tick => true
  | .sequencer _ => true
  | .event i => i.wf && isStep i && !inTime i
  | _ => false

/-- The move of this step: the first that is due, else a free one (DESIGN CHOICE, log 4). -/
def State.nextMove (s : State) : Option Turn × State :=
  match s.turns with
  | t :: ts => (some t, { s with turns := ts })
  | [] =>
    let (d, s) := s.draw
    let t := Config.nextTurn d
    (if freeTurn t then some t else none, s)

/-! ## The sequencer's turn (12_sequencer.md R261) -/

/-- A context can issue an instruction: a task, not waiting, not suspended, and not the owner under a hold
(19_faults.md R334). -/
def CoreSt.readyCtx (q : CoreSt) (k : Nat) : Bool :=
  let x := q.ctx k
  x.live && (x.wait == .none) && x.trapped.isNone && !(q.holdFault && q.owner == some k)

/-- A context waits in an instruction that goes on when it can. -/
def CoreSt.waitsAgain (q : CoreSt) (k : Nat) : Bool :=
  let x := q.ctx k
  x.live && (x.wait == .again) && x.trapped.isNone && !(q.holdFault && q.owner == some k)

/-- The context whose turn comes next, and whether it goes on with an instruction in which it waits: one of those, or the next
ready context in round-robin order, if none has issued in this cycle; which is free (DESIGN CHOICE, log 5). A stopped
core and one held for a repair issue nothing (24_debug.md R402, 25_service.md R413). -/
def State.seqPick (s : State) (c : Nat) : Option (Nat × Bool) :=
  let q := s.core c
  if q.stop || q.repair.isSome || !s.inService c then none
  else
    let ws := (upFrom 0 8).filter q.waitsAgain
    let fresh := if q.cyc.seq then none else (((upFrom 0 8).map fun i => (q.rr + i) % 8).find? q.readyCtx).map fun k => (k, false)
    match ws[Config.freeNat s.draws % (ws.length + b2n fresh.isSome)]? with
    | some k => some (k, true)
    | none => fresh

/-- The context is the agent of the instruction that it has fetched, the one after it is first in the next turn, and the
sequencer has issued in this cycle. -/
def State.seqTake (s : State) (c k : Nat) (w : BitVec 32) : State :=
  { (s.modCore c fun q => { q with rr := (k + 1) % 8, cyc := { q.cyc with seq := true } }).modCtx c k fun x =>
      { x with cur := w } with at_ := .seq c k }

/-- The context goes on with the instruction in which it waits. -/
def State.seqRetry (s : State) (c k : Nat) : State :=
  { s.modCtx c k fun x => { x with wait := .none } with at_ := .seq c k }

/-- An instruction that can leave its pc as it is when it has been carried out. -/
def mayStay : Instr → Bool
  | .scalarBranchJump _ => true
  | _ => false

/-- What becomes of the context after its instruction, which stood at `pc`: one that waits goes on with it when it can, and no
agent acts. -/
def State.seqEnd (s : State) (c k : Nat) (pc : Word) (i : Instr) : State :=
  let x := s.ctx c k
  let s :=
    if x.live && x.pc == pc && (x.wait == .none) && x.trapped.isNone && !mayStay i then
      s.modCtx c k fun y => { y with wait := .again }
    else s
  { s with at_ := .none }

/-- An engine is the agent of its instruction. -/
def State.atEngine (s : State) (c : Nat) (e : Engine) : State := { s with at_ := .engine c e }

/-- The locked-table entry of the page that `placeTaskWord` uses: 4 KiB at DVA 0x1000, DPA 0x1000, readable and
writable, class DEVICE. -/
def programPage : Word × Word := (0x1000, 0x0300_0000_0000_100F)

/-- A task stands in context 0 of core 0 at an instruction word in device memory, and its sequencer moves next. It
stands for a task that a launch packet has brought there (DEDUCED, log 16). -/
def State.placeTaskWord (s : State) (w : Nat) : State :=
  { s.setCore 0
      { s.core 0 with
        ctxs := tblSet Ctx.reset (s.core 0).ctxs 0
          { (s.core 0).ctx 0 with live := true, pc := 0x1000, wait := .none, trapped := none }
        rr := 0, holdFault := false, stop := false, repairDue := none, repair := none, cyc := .empty, inService := true
        icache := []
        tt := programPage :: (s.core 0).tt } with
    power := true
    turns := [.sequencer 0]
    mem := memPutAll s.mem ((upFrom 0x1000 4).zip (bytesLe 4 w))
    memBad := s.memBad.filter (· != 0x200)
    clusters := tblMod Cluster.reset s.clusters 0 fun u => { u with inService := true }
    svc := { s.svc with stopped := false } }

/-- No agent acts. -/
def State.atNone (s : State) : State := { s with at_ := .none }

/-! ## Meanings -/

/-- R101. The window of a bank opens; reads of the bank are held (R104). -/
def execWsRefreshWindowOpen (d b : Nat) (s : State) : Host.Outcome State Fault Refusal := .next (s.setWindow d b)
/-- R101, R104. The window closes; what was held goes on. -/
def execWsRefreshWindowClose (d b : Nat) (s : State) : Host.Outcome State Fault Refusal :=
  if windowOpen s.ftick b then .next s else .next (s.setWindow d b)
def execBoostBoundary (s : State) : Host.Outcome State Fault Refusal := .next s.boundary

end Sys2Proof.Machine
end

