-- ==== Sys2Proof/Machine/Dispatch.lean ====
section
/-! DEFINITION. One arm for each row of opcode_table.json: the meaning of the instruction or step. -/
namespace Sys2Proof.Machine
open Sys2Proof

/-- What an instruction or step does. -/
def exec (i : Instr) (s : State) : Host.Outcome State Fault Refusal :=
  match i with
  | .powerOnReset => Sys2Proof.Machine.execPowerOnReset s
  | .warmReset => Sys2Proof.Machine.execWarmReset s
  | .selfTest res => Sys2Proof.Machine.execSelfTest res s
  | .boot firmware hypervisor images => Sys2Proof.Machine.execBoot firmware hypervisor images s
  | .attestationReport nonce => Sys2Proof.Machine.execAttestationReport nonce s
  | .hubRegWrite who off a => Sys2Proof.Machine.execHubRegWrite who off a s
  | .csrWrite op imm csr rs rd => Sys2Proof.Machine.execCsrWrite op imm csr rs rd s
  | .rstkWrite op imm rs rd => Sys2Proof.Machine.execRstkWrite op imm rs rd s
  | .rsmarkWrite op imm rs rd => Sys2Proof.Machine.execRsmarkWrite op imm rs rd s
  | .grdWrite op imm g rs rd => Sys2Proof.Machine.execGrdWrite op imm g rs rd s
  | .savebWrite op imm rs rd => Sys2Proof.Machine.execSavebWrite op imm rs rd s
  | .boostWrite op imm rs rd => Sys2Proof.Machine.execBoostWrite op imm rs rd s
  | .qhselClr op imm rs rd => Sys2Proof.Machine.execQhselClr op imm rs rd s
  | .trctlWrite op imm rs rd => Sys2Proof.Machine.execTrctlWrite op imm rs rd s
  | .lqcfgWrite d q v => Sys2Proof.Machine.execLqcfgWrite d q v s
  | .lqkickWrite who d q tail => Sys2Proof.Machine.execLqkickWrite who d q tail s
  | .lqstatBphaltRelease who d q => Sys2Proof.Machine.execLqstatBphaltRelease who d q s
  | .fqcfgWrite p v => Sys2Proof.Machine.execFqcfgWrite p v s
  | .rtbindWrite who t v => Sys2Proof.Machine.execRtbindWrite who t v s
  | .tactResume p setx c k seq => Sys2Proof.Machine.execTactResume p setx c k seq s
  | .tactSkip p setx c k seq => Sys2Proof.Machine.execTactSkip p setx c k seq s
  | .tactAbandon p setx c k seq => Sys2Proof.Machine.execTactAbandon p setx c k seq s
  | .tactEnd p setx c k seq => Sys2Proof.Machine.execTactEnd p setx c k seq s
  | .lkctlRateWrite l v => Sys2Proof.Machine.execLkctlRateWrite l v s
  | .lkctlRetrain l => Sys2Proof.Machine.execLkctlRetrain l s
  | .lkretRetire l dir m lane => Sys2Proof.Machine.execLkretRetire l dir m lane s
  | .dbgctlStop c => Sys2Proof.Machine.execDbgctlStop c s
  | .dbgctlRelease c => Sys2Proof.Machine.execDbgctlRelease c s
  | .debugStopTake c => Sys2Proof.Machine.execDebugStopTake c s
  | .debugSlotRead c slot => Sys2Proof.Machine.execDebugSlotRead c slot s
  | .debugWrite c target => Sys2Proof.Machine.execDebugWrite c target s
  | .wsqcfgWrite d q v => Sys2Proof.Machine.execWsqcfgWrite d q v s
  | .wsqkickWrite who d q tail => Sys2Proof.Machine.execWsqkickWrite who d q tail s
  | .scalarAlu a => Sys2Proof.Machine.execScalarAlu a s
  | .scalarLoad wd rd rs1 imm => Sys2Proof.Machine.execScalarLoad wd rd rs1 imm s
  | .scalarStore wd rs1 rs2 imm => Sys2Proof.Machine.execScalarStore wd rs1 rs2 imm s
  | .scalarBranchJump j => Sys2Proof.Machine.execScalarBranchJump j s
  | .fence imm rs1 rd => Sys2Proof.Machine.execFence imm rs1 rd s
  | .ecall => Sys2Proof.Machine.execEcall s
  | .ebreak => Sys2Proof.Machine.execEbreak s
  | .fenceI imm rs1 rd => Sys2Proof.Machine.execFenceI imm rs1 rd s
  | .illegalInstruction wd => Sys2Proof.Machine.execIllegalInstruction wd s
  | .fork m rs1 d => Sys2Proof.Machine.execFork m rs1 d s
  | .forkEnqueue c k => Sys2Proof.Machine.execForkEnqueue c k s
  | .rendv m rs1 => Sys2Proof.Machine.execRendv m rs1 s
  | .rendvReturn c k => Sys2Proof.Machine.execRendvReturn c k s
  | .genf d => Sys2Proof.Machine.execGenf d s
  | .eset rs1 e => Sys2Proof.Machine.execEset rs1 e s
  | .eseti n e => Sys2Proof.Machine.execEseti n e s
  | .tshape rs1 t => Sys2Proof.Machine.execTshape rs1 t s
  | .qalign => Sys2Proof.Machine.execQalign s
  | .ttload b rs1 d => Sys2Proof.Machine.execTtload b rs1 d s
  | .ttloadReplace c k => Sys2Proof.Machine.execTtloadReplace c k s
  | .waitcW b rs1 d => Sys2Proof.Machine.execWaitcW b rs1 d s
  | .waitcD b rs1 d => Sys2Proof.Machine.execWaitcD b rs1 d s
  | .waitcArm c k => Sys2Proof.Machine.execWaitcArm c k s
  | .signlW b rs1 d => Sys2Proof.Machine.execSignlW b rs1 d s
  | .signlD b rs1 d => Sys2Proof.Machine.execSignlD b rs1 d s
  | .continuationEnqueue id => Sys2Proof.Machine.execContinuationEnqueue id s
  | .join rs1 d => Sys2Proof.Machine.execJoin rs1 d s
  | .leave rs1 d => Sys2Proof.Machine.execLeave rs1 d s
  | .sstep t rs1 d => Sys2Proof.Machine.execSstep t rs1 d s
  | .barrierComplete t => Sys2Proof.Machine.execBarrierComplete t s
  | .exwait t d => Sys2Proof.Machine.execExwait t d s
  | .exwaitReturn c k => Sys2Proof.Machine.execExwaitReturn c k s
  | .explan t b rs1 d => Sys2Proof.Machine.execExplan t b rs1 d s
  | .rqpop n d => Sys2Proof.Machine.execRqpop n d s
  | .rqpopReturn c k => Sys2Proof.Machine.execRqpopReturn c k s
  | .pin l b rs1 d => Sys2Proof.Machine.execPin l b rs1 d s
  | .unpin l b rs1 d => Sys2Proof.Machine.execUnpin l b rs1 d s
  | .ipref l b rs1 => Sys2Proof.Machine.execIpref l b rs1 s
  | .probe b rs1 d => Sys2Proof.Machine.execProbe b rs1 d s
  | .bfence c => Sys2Proof.Machine.execBfence c s
  | .fenceS c => Sys2Proof.Machine.execFenceS c s
  | .amoS o c b rs1 d => Sys2Proof.Machine.execAmoS o c b rs1 d s
  | .segb rs1 => Sys2Proof.Machine.execSegb rs1 s
  | .sege rs1 d => Sys2Proof.Machine.execSege rs1 d s
  | .segeMeasure c k => Sys2Proof.Machine.execSegeMeasure c k s
  | .prept m => Sys2Proof.Machine.execPrept m s
  | .traprEnd => Sys2Proof.Machine.execTraprEnd s
  | .trapr code => Sys2Proof.Machine.execTrapr code s
  | .taskEnd c k => Sys2Proof.Machine.execTaskEnd c k s
  | .haltD code => Sys2Proof.Machine.execHaltD code s
  | .illegalWord wd sub => Sys2Proof.Machine.execIllegalWord wd sub s
  | .engineNop f => Sys2Proof.Machine.execEngineNop f s
  | .engineIgnoredWord lo f p => Sys2Proof.Machine.execEngineIgnoredWord lo f p s
  | .wordFinish c id => Sys2Proof.Machine.execWordFinish c id s
  | .lapStallEnd c => Sys2Proof.Machine.execLapStallEnd c s
  | .tokenDeadlockFault c => Sys2Proof.Machine.execTokenDeadlockFault c s
  | .engineFaultTaken c => Sys2Proof.Machine.execEngineFaultTaken c s
  | .holdRelease c => Sys2Proof.Machine.execHoldRelease c s
  | .faultRecordPost p => Sys2Proof.Machine.execFaultRecordPost p s
  | .vxSourceRead c id => Sys2Proof.Machine.execVxSourceRead c id s
  | .vxResultWrite c id => Sys2Proof.Machine.execVxResultWrite c id s
  | .ldSlotWrite c id => Sys2Proof.Machine.execLdSlotWrite c id s
  | .stSlotRead c id => Sys2Proof.Machine.execStSlotRead c id s
  | .stWriteAccess c id => Sys2Proof.Machine.execStWriteAccess c id s
  | .transferComplete c e => Sys2Proof.Machine.execTransferComplete c e s
  | .dvaReadArrival c id => Sys2Proof.Machine.execDvaReadArrival c id s
  | .dvaStoreVisible c id => Sys2Proof.Machine.execDvaStoreVisible c id s
  | .vxAdd f p => Sys2Proof.Machine.execVxAdd f p s
  | .vxSub f p => Sys2Proof.Machine.execVxSub f p s
  | .vxMul f p => Sys2Proof.Machine.execVxMul f p s
  | .vxFma f p => Sys2Proof.Machine.execVxFma f p s
  | .vxFms f p => Sys2Proof.Machine.execVxFms f p s
  | .vxFnma f p => Sys2Proof.Machine.execVxFnma f p s
  | .vxMin f p => Sys2Proof.Machine.execVxMin f p s
  | .vxMax f p => Sys2Proof.Machine.execVxMax f p s
  | .vxAbs f p => Sys2Proof.Machine.execVxAbs f p s
  | .vxNeg f p => Sys2Proof.Machine.execVxNeg f p s
  | .vxClamp f p => Sys2Proof.Machine.execVxClamp f p s
  | .vxRcp f p => Sys2Proof.Machine.execVxRcp f p s
  | .vxRsq f p => Sys2Proof.Machine.execVxRsq f p s
  | .vxExp2 f p => Sys2Proof.Machine.execVxExp2 f p s
  | .vxLog2 f p => Sys2Proof.Machine.execVxLog2 f p s
  | .vxAnd f p => Sys2Proof.Machine.execVxAnd f p s
  | .vxOr f p => Sys2Proof.Machine.execVxOr f p s
  | .vxXor f p => Sys2Proof.Machine.execVxXor f p s
  | .vxNot f p => Sys2Proof.Machine.execVxNot f p s
  | .vxShl f p => Sys2Proof.Machine.execVxShl f p s
  | .vxShr f p => Sys2Proof.Machine.execVxShr f p s
  | .vxSra f p => Sys2Proof.Machine.execVxSra f p s
  | .vxAdds f p => Sys2Proof.Machine.execVxAdds f p s
  | .vxMuls f p => Sys2Proof.Machine.execVxMuls f p s
  | .vxFmas f p => Sys2Proof.Machine.execVxFmas f p s
  | .vxMulh f p => Sys2Proof.Machine.execVxMulh f p s
  | .vxMins f p => Sys2Proof.Machine.execVxMins f p s
  | .vxMaxs f p => Sys2Proof.Machine.execVxMaxs f p s
  | .vxCeq f p => Sys2Proof.Machine.execVxCeq f p s
  | .vxCne f p => Sys2Proof.Machine.execVxCne f p s
  | .vxClt f p => Sys2Proof.Machine.execVxClt f p s
  | .vxCle f p => Sys2Proof.Machine.execVxCle f p s
  | .vxCgt f p => Sys2Proof.Machine.execVxCgt f p s
  | .vxCge f p => Sys2Proof.Machine.execVxCge f p s
  | .vxCun f p => Sys2Proof.Machine.execVxCun f p s
  | .vxCcl f p => Sys2Proof.Machine.execVxCcl f p s
  | .vxSel f p => Sys2Proof.Machine.execVxSel f p s
  | .vxGand f p => Sys2Proof.Machine.execVxGand f p s
  | .vxGor f p => Sys2Proof.Machine.execVxGor f p s
  | .vxGxor f p => Sys2Proof.Machine.execVxGxor f p s
  | .vxGandn f p => Sys2Proof.Machine.execVxGandn f p s
  | .vxGmov f p => Sys2Proof.Machine.execVxGmov f p s
  | .vxGtov f p => Sys2Proof.Machine.execVxGtov f p s
  | .vxVtog f p => Sys2Proof.Machine.execVxVtog f p s
  | .vxCvt f p => Sys2Proof.Machine.execVxCvt f p s
  | .vxCvtb f p => Sys2Proof.Machine.execVxCvtb f p s
  | .vxTag f p => Sys2Proof.Machine.execVxTag f p s
  | .vxReda f p => Sys2Proof.Machine.execVxReda f p s
  | .vxRedx f p => Sys2Proof.Machine.execVxRedx f p s
  | .vxRedn f p => Sys2Proof.Machine.execVxRedn f p s
  | .vxRedd f p => Sys2Proof.Machine.execVxRedd f p s
  | .vxMov f p => Sys2Proof.Machine.execVxMov f p s
  | .vxSwz f p => Sys2Proof.Machine.execVxSwz f p s
  | .vxLrot f p => Sys2Proof.Machine.execVxLrot f p s
  | .vxBcst f p => Sys2Proof.Machine.execVxBcst f p s
  | .vxZip f p => Sys2Proof.Machine.execVxZip f p s
  | .vxUzp f p => Sys2Proof.Machine.execVxUzp f p s
  | .vxSlide f p => Sys2Proof.Machine.execVxSlide f p s
  | .vxSplat f p => Sys2Proof.Machine.execVxSplat f p s
  | .vxAcrd f p => Sys2Proof.Machine.execVxAcrd f p s
  | .vxSret f p => Sys2Proof.Machine.execVxSret f p s
  | .vxSretc f p => Sys2Proof.Machine.execVxSretc f p s
  | .vxRmulq f p => Sys2Proof.Machine.execVxRmulq f p s
  | .vxUmulq f p => Sys2Proof.Machine.execVxUmulq f p s
  | .vxRsra f p => Sys2Proof.Machine.execVxRsra f p s
  | .vxUsra f p => Sys2Proof.Machine.execVxUsra f p s
  | .vxRnrw f p => Sys2Proof.Machine.execVxRnrw f p s
  | .vxUnrw f p => Sys2Proof.Machine.execVxUnrw f p s
  | .vxRleak f p => Sys2Proof.Machine.execVxRleak f p s
  | .vxUleak f p => Sys2Proof.Machine.execVxUleak f p s
  | .vxRaddq f p => Sys2Proof.Machine.execVxRaddq f p s
  | .vxUsubq f p => Sys2Proof.Machine.execVxUsubq f p s
  | .vxRmix f p => Sys2Proof.Machine.execVxRmix f p s
  | .vxUmix f p => Sys2Proof.Machine.execVxUmix f p s
  | .vxRmark f p => Sys2Proof.Machine.execVxRmark f p s
  | .vxRchk f p => Sys2Proof.Machine.execVxRchk f p s
  | .vxRdrop f p => Sys2Proof.Machine.execVxRdrop f p s
  | .remainderSpill c => Sys2Proof.Machine.execRemainderSpill c s
  | .remainderRefill c => Sys2Proof.Machine.execRemainderRefill c s
  | .ldV f p => Sys2Proof.Machine.execLdV f p s
  | .ldVb f p => Sys2Proof.Machine.execLdVb f p s
  | .ldVg f p => Sys2Proof.Machine.execLdVg f p s
  | .ldLn f p => Sys2Proof.Machine.execLdLn f p s
  | .ldGd f p => Sys2Proof.Machine.execLdGd f p s
  | .ldVd f p => Sys2Proof.Machine.execLdVd f p s
  | .ldT f p => Sys2Proof.Machine.execLdT f p s
  | .ldTw f p => Sys2Proof.Machine.execLdTw f p s
  | .ldTd f p => Sys2Proof.Machine.execLdTd f p s
  | .ldSc f p => Sys2Proof.Machine.execLdSc f p s
  | .ldTr f p => Sys2Proof.Machine.execLdTr f p s
  | .ldAm f p => Sys2Proof.Machine.execLdAm f p s
  | .stV f p => Sys2Proof.Machine.execStV f p s
  | .stVs f p => Sys2Proof.Machine.execStVs f p s
  | .stLn f p => Sys2Proof.Machine.execStLn f p s
  | .stGd f p => Sys2Proof.Machine.execStGd f p s
  | .stVd f p => Sys2Proof.Machine.execStVd f p s
  | .stVe f p => Sys2Proof.Machine.execStVe f p s
  | .stT f p => Sys2Proof.Machine.execStT f p s
  | .stRc f p => Sys2Proof.Machine.execStRc f p s
  | .stRd f p => Sys2Proof.Machine.execStRd f p s
  | .stAm f p => Sys2Proof.Machine.execStAm f p s
  | .mxMzero f p => Sys2Proof.Machine.execMxMzero f p s
  | .mxMma f p => Sys2Proof.Machine.execMxMma f p s
  | .mxMmac f p => Sys2Proof.Machine.execMxMmac f p s
  | .mxMmat f p => Sys2Proof.Machine.execMxMmat f p s
  | .mxMman f p => Sys2Proof.Machine.execMxMman f p s
  | .mxMscl f p => Sys2Proof.Machine.execMxMscl f p s
  | .mxMpre f p => Sys2Proof.Machine.execMxMpre f p s
  | .mxMtrn f p => Sys2Proof.Machine.execMxMtrn f p s
  | .mxMcpy f p => Sys2Proof.Machine.execMxMcpy f p s
  | .mxMfil f p => Sys2Proof.Machine.execMxMfil f p s
  | .mxMret f p => Sys2Proof.Machine.execMxMret f p s
  | .mxMrcv f p => Sys2Proof.Machine.execMxMrcv f p s
  | .mxMswp f p => Sys2Proof.Machine.execMxMswp f p s
  | .mxMadd f p => Sys2Proof.Machine.execMxMadd f p s
  | .mxWelt f p => Sys2Proof.Machine.execMxWelt f p s
  | .mxIssueEnd c => Sys2Proof.Machine.execMxIssueEnd c s
  | .mxReplay c => Sys2Proof.Machine.execMxReplay c s
  | .cpCopy f p => Sys2Proof.Machine.execCpCopy f p s
  | .cpRcopy f p => Sys2Proof.Machine.execCpRcopy f p s
  | .cpRamo f p => Sys2Proof.Machine.execCpRamo f p s
  | .cpWswr f p => Sys2Proof.Machine.execCpWswr f p s
  | .cpBcast f p => Sys2Proof.Machine.execCpBcast f p s
  | .cpFill f p => Sys2Proof.Machine.execCpFill f p s
  | .cpGath f p => Sys2Proof.Machine.execCpGath f p s
  | .cpScat f p => Sys2Proof.Machine.execCpScat f p s
  | .cpBgemv f p => Sys2Proof.Machine.execCpBgemv f p s
  | .cpBgemva f p => Sys2Proof.Machine.execCpBgemva f p s
  | .cpBatom f p => Sys2Proof.Machine.execCpBatom f p s
  | .cpBqry f p => Sys2Proof.Machine.execCpBqry f p s
  | .footprintEdgeRelease c j => Sys2Proof.Machine.execFootprintEdgeRelease c j s
  | .gatedJobRelease c j => Sys2Proof.Machine.execGatedJobRelease c j s
  | .cpJobDelivery c j => Sys2Proof.Machine.execCpJobDelivery c j s
  | .cpJobComplete c j => Sys2Proof.Machine.execCpJobComplete c j s
  | .bankJobDelivery c j => Sys2Proof.Machine.execBankJobDelivery c j s
  | .bankJobComplete c j => Sys2Proof.Machine.execBankJobComplete c j s
  | .atomicUnitOp c j => Sys2Proof.Machine.execAtomicUnitOp c j s
  | .bankAluAtomic c j => Sys2Proof.Machine.execBankAluAtomic c j s
  | .remoteWriteArrival m => Sys2Proof.Machine.execRemoteWriteArrival m s
  | .pageWalk c k => Sys2Proof.Machine.execPageWalk c k s
  | .wsRefreshWindowOpen d b => Sys2Proof.Machine.execWsRefreshWindowOpen d b s
  | .wsRefreshWindowClose d b => Sys2Proof.Machine.execWsRefreshWindowClose d b s
  | .ownershipPass c => Sys2Proof.Machine.execOwnershipPass c s
  | .contextSwitch c => Sys2Proof.Machine.execContextSwitch c s
  | .launchPacket d q => Sys2Proof.Machine.execLaunchPacket d q s
  | .launchSeqReread d q => Sys2Proof.Machine.execLaunchSeqReread d q s
  | .taskPlace d q => Sys2Proof.Machine.execTaskPlace d q s
  | .taskDispatch c => Sys2Proof.Machine.execTaskDispatch c s
  | .exchangeDelivery t r => Sys2Proof.Machine.execExchangeDelivery t r s
  | .exchangeDeadline t r => Sys2Proof.Machine.execExchangeDeadline t r s
  | .boostBoundary => Sys2Proof.Machine.execBoostBoundary s
  | .linkRetrainEnd l => Sys2Proof.Machine.execLinkRetrainEnd l s
  | .linkWindowBoundary => Sys2Proof.Machine.execLinkWindowBoundary s
  | .flitCrcError site dir m lane => Sys2Proof.Machine.execFlitCrcError site dir m lane s
  | .wslDescriptor d q => Sys2Proof.Machine.execWslDescriptor d q s
  | .wslAck d q refused old => Sys2Proof.Machine.execWslAck d q refused old s
  | .wslPortDown d p => Sys2Proof.Machine.execWslPortDown d p s
  | .wslInboundOp op => Sys2Proof.Machine.execWslInboundOp op s
  | .hostPcieWrite wd => Sys2Proof.Machine.execHostPcieWrite wd s
  | .hostPcieRead r => Sys2Proof.Machine.execHostPcieRead r s
  | .ethernetFrame port op frame => Sys2Proof.Machine.execEthernetFrame port op frame s
  | .thermalSample cl reading => Sys2Proof.Machine.execThermalSample cl reading s
  | .criticalPowerDown => Sys2Proof.Machine.execCriticalPowerDown s
  | .ageingMeasure cl drift => Sys2Proof.Machine.execAgeingMeasure cl drift s
  | .lifetimeSample => Sys2Proof.Machine.execLifetimeSample s
  | .lifetimeWriteback => Sys2Proof.Machine.execLifetimeWriteback s
  | .coreRetire c => Sys2Proof.Machine.execCoreRetire c s
  | .bankUnitRetire sd u => Sys2Proof.Machine.execBankUnitRetire sd u s
  | .hbmRowRepair sd row => Sys2Proof.Machine.execHbmRowRepair sd row s
  | .cycle c => Sys2Proof.Machine.execCycle c s
  | .storePerformedAtHome c k n => Sys2Proof.Machine.execStorePerformedAtHome c k n s
  | .scalarCacheEviction c line => Sys2Proof.Machine.execScalarCacheEviction c line s
  | .softPinEviction c lvl line => Sys2Proof.Machine.execSoftPinEviction c lvl line s
  | .softError at_ => Sys2Proof.Machine.execSoftError at_ s
  | .exchangeEnd t => Sys2Proof.Machine.execExchangeEnd t s
  | .powerLoss => Sys2Proof.Machine.execPowerLoss s
  | .sendQueueSeqReread d q => Sys2Proof.Machine.execSendQueueSeqReread d q s

end Sys2Proof.Machine
end

