-- ==== Sys2Proof/Machine/Step.lean ====
section
/-! DEFINITION. One step of the module: the move that comes next, carried out. -/
namespace Sys2Proof.Machine
open Sys2Proof

/-- The outcome of an instruction, after which no agent acts. -/
def ended (o : Host.Outcome State Fault Refusal) : Host.Outcome State Fault Refusal :=
  match o with
  | .next s => .next s.atNone
  | .fault r => .fault r
  | .refused r => .refused r

/-- The outcome of an instruction of a context whose pc was `pc`. -/
def seqEnded (c k : Nat) (pc : Word) (i : Instr) (o : Host.Outcome State Fault Refusal) : Host.Outcome State Fault Refusal :=
  match o with
  | .next s => .next (s.seqEnd c k pc i)
  | .fault r => .fault r
  | .refused r => .refused r

/-- The sequencer of a core fetches and issues one instruction of the next ready context, or a context goes on with the one in
which it waits (12_sequencer.md R261). -/
def seqTurn (c : Nat) (s : State) : Host.Outcome State Fault Refusal :=
  match s.seqPick c with
  | none => .next s.draw.2
  | some (k, true) =>
    let i := decodeSeq (s.ctx c k).cur
    seqEnded c k (s.ctx c k).pc i (exec i (s.draw.2.seqRetry c k))
  | some (k, false) =>
    match s.seqFetch c k with
    | (none, s) => .next s
    | (some w, s) =>
      let i := decodeSeq w
      seqEnded c k (s.ctx c k).pc i (exec i (s.seqTake c k w))

/-- An engine of a core makes the issue that its stream unit stands at. -/
def engineTurn (c : Nat) (e : Engine) (s : State) : Host.Outcome State Fault Refusal :=
  match (s.core c).standing e with
  | none => .next s
  | some (_, i) => ended (exec i (s.atEngine c e))

/-- Carry out a move. -/
def turn (t : Turn) (s : State) : Host.Outcome State Fault Refusal :=
  match t with
  | .tick => .next (if s.runs then s.tick else s)
  | .sequencer c => if s.runs then seqTurn c s else .next s
  | .engine c e => engineTurn c e s
  | .pulse c => .next (s.pulse c)
  | .settle c => .next (s.settle c)
  | .access c id => .next (s.ldAccess c id)
  | .beat c e => .next (s.beat c e)
  | .finish c => .next (s.finish c)
  | .event i => if s.mayStep i then exec i s else .next s

/-- One step: the first move that is due, else a free one. -/
def step (s : State) : Host.Outcome State Fault Refusal :=
  match s.nextMove with
  | (some t, s) => turn t s
  | (none, s) => .next s

/-- The state with an instruction of the sequencer stored where the next step fetches it: context 0 of core 0 holds a
task at DVA 0x1000, a page of DPA 0x1000, and the sequencer of core 0 moves next. DEDUCED (log 16). -/
def State.withFetchWord (s : State) (nbits w : Nat) : State :=
  s.placeTaskWord (w % 2 ^ nbits)

end Sys2Proof.Machine
end

