-- ==== Sys2Proof/Safety.lean ====
section
/-! DEFINITION. What a safe run is, and the relations between a state and the next in which claims are stated. -/
namespace Sys2Proof.Machine
open Sys2Proof

/-- The states that steps reach from a state. -/
inductive Reaches : State → State → Prop where
  | refl (s : State) : Reaches s s
  | tail (s t u : State) : Reaches s t → step t = .next u → Reaches s u

/-- A run from a state is safe: no step of it stops with a fault or a refusal. -/
def SafeFrom (s : State) : Prop := ∀ t, Reaches s t → ∃ u, step t = .next u

/-! ## Where two states may differ -/

/-- Outside the cores, nothing differs. -/
def OnlyCores (s t : State) : Prop := t = { s with cores := t.cores }

/-- Nothing differs but what core `c` holds. -/
def OnlyCore (c : Nat) (s t : State) : Prop := OnlyCores s t ∧ ∀ d, d ≠ c → t.core d = s.core d

/-- Nothing differs but what core `c` holds and how many free values have been drawn. -/
def OnlyCoreDraws (c : Nat) (s t : State) : Prop :=
  t = { s with cores := t.cores, draws := t.draws } ∧ ∀ d, d ≠ c → t.core d = s.core d

/-- Nothing differs but what context `k` of core `c` holds. -/
def OnlyCtx (c k : Nat) (s t : State) : Prop :=
  OnlyCore c s t ∧ t.core c = { s.core c with ctxs := (t.core c).ctxs } ∧ ∀ j, j ≠ k → t.ctx c j = s.ctx c j

/-- Of context `k` of core `c`, nothing differs but the program counter and register `rd`. -/
def OnlyPcRegOf (c k : Nat) (rd : BitVec 5) (s t : State) : Prop :=
  t.ctx c k = { s.ctx c k with pc := (t.ctx c k).pc, x := (t.ctx c k).x } ∧
    ∀ r, r ≠ rd → (t.ctx c k).reg r = (s.ctx c k).reg r

/-- Nothing differs but the program counter and register `rd` of context `k` of core `c`. -/
def OnlyPcReg (c k : Nat) (rd : BitVec 5) (s t : State) : Prop := OnlyCtx c k s t ∧ OnlyPcRegOf c k rd s t

/-- Every byte of device memory, of the weight stores and of the scratchpads reads as before. -/
def SameBytes (s t : State) : Prop :=
  (∀ a, tblFind t.mem a = tblFind s.mem a) ∧ (∀ a, tblFind t.ws a = tblFind s.ws a) ∧
    ∀ c a, (t.core c).spByte a = (s.core c).spByte a

/-- The trap of a sequencer instruction of context `k` of core `c` has been taken: a record with its cause, status and
address waits to be posted, the context is suspended with it at its instruction, and nothing else differs. -/
def TrapTaken (c k : Nat) (cause : BitVec 8) (status : BitVec 32) (addr : Word) (s t : State) : Prop :=
  ∃ r : Record, r.cause = cause ∧ r.status = status ∧ r.addr = addr ∧ r.eng = 5 ∧ r.core = c ∧ r.ctx = k ∧
    r.pc = (s.ctx c k).pc ∧ r.task = (s.ctx c k).task ∧ r.gen = (s.ctx c k).gen ∧
    t.ctx c k = { s.ctx c k with trapped := some { r := r, seq := none } } ∧
    t = { s with cores := t.cores, held := s.held ++ [r] } ∧ (∀ d, d ≠ c → t.core d = s.core d) ∧
    t.core c = { s.core c with ctxs := (t.core c).ctxs } ∧ ∀ j, j ≠ k → t.ctx c j = s.ctx c j

/-- An issue of the word at cursor `r` of engine `e` of core `c` has begun (03_words.md R57, R61): its first issue has
taken its pops, and the stream unit stands at what comes next; the other queues, the slots, guards and es registers are
as before. -/
def IssueBegun (c : Nat) (e : Engine) (r : Cursor) (s t : State) : Prop :=
  (∀ q, (t.own c).token q = (s.own c).token q - (if q ∈ r.pops (engNo e) then 1 else 0)) ∧
    (t.own c).queue (engNo e) = ((s.own c).queue (engNo e)).advance (r.frame.rep.toNat + 1)
      (if r.issue = 0 then (s.core c).nextJob else r.live) ∧
    (∀ n, n ≠ engNo e → (t.own c).queue n = (s.own c).queue n) ∧
    (t.own c).ring = (s.own c).ring ∧ (t.own c).g = (s.own c).g ∧ (t.own c).es = (s.own c).es

/-- One more fault of a word of engine `e` of core `c` has been detected (19_faults.md R333). -/
def FaultFound (c : Nat) (e : Engine) (cause : BitVec 8) (status : BitVec 32) (addr : Word) (s t : State) : Prop :=
  ∃ r : Record, (t.core c).faults = (s.core c).faults ++ [r] ∧ r.cause = cause ∧ r.status = status ∧ r.addr = addr ∧
    r.eng = engNo e

/-! ## Who acts -/

/-- Context `k` of core `c` executes an instruction: it holds a task, waits inside no instruction and is not suspended. -/
def State.runsCtx (s : State) (c k : Nat) : Prop :=
  s.at_ = .seq c k ∧ (s.ctx c k).live = true ∧ (s.ctx c k).wait = .none ∧ (s.ctx c k).trapped = none

/-- It is also the owner of the engines (12_sequencer.md R262). -/
def State.runsOwner (s : State) (c k : Nat) : Prop := s.runsCtx c k ∧ (s.core c).owner = some k

/-- Context `k` of core `c` waits inside an instruction. -/
def State.waitsIn (s : State) (c k : Nat) (w : Wait) : Prop :=
  (s.ctx c k).live = true ∧ (s.ctx c k).wait = w ∧ (s.ctx c k).trapped = none

/-- The agent whose word issues is engine `e` of core `c`. -/
def State.runsEngine (s : State) (c : Nat) (e : Engine) : Prop := s.at_ = .engine c e

/-- Engine `e` of core `c` stands at cursor `r` before a word `w` that it has fetched, which is instruction `i`, and may
make an issue of it: its context owns the engines, no lap stall or busy unit holds it, and the tokens it pops are
there. -/
def State.issues (s : State) (c : Nat) (e : Engine) (r : Cursor) (w : EWord) (i : Instr) : Prop :=
  s.runsEngine c e ∧ ((s.own c).queue (engNo e)).run = some r ∧ r.code = some w ∧ r.instr e = some i ∧
    (s.core c).mayIssue e r i = true ∧ ∀ q ∈ r.pops (engNo e), (s.own c).token q ≠ 0

/-- The live words of a core's owner have their own numbers, none of them to come. -/
def State.liveOk (s : State) (c : Nat) : Prop := ∀ w ∈ (s.own c).live, w.id < (s.core c).nextJob

/-- The work of context `k` of core `c` has drained (12_sequencer.md R272): no bank or copy job of its task runs, no fault is to
be taken, and none of its entries stands in a queue or in its save image. -/
def State.workDrained (s : State) (c k : Nat) : Prop :=
  (s.core c).jobsOf k = [] ∧ (s.core c).faults = [] ∧
    ((s.core c).owner = some k → ∀ e, e < 5 → ((s.own c).queue e).count = 0) ∧
    ((s.core c).owner ≠ some k → (s.ctx c k).saved = false)

/-- The naturally aligned word of `n` bytes at address `a` of core `c` has its home at `home` and holds `v` there, and a read
is served at once. In scratchpad no bank of it is held, and nothing there is pending or lost. In device memory its page
allows reads, its way is open with no store of the core published before the read, and its bytes have been written, are
missed by nobody and hold no error. -/
def State.wordAt (s : State) (c a n home v : Nat) : Prop :=
  a % n = 0 ∧
    if inWindow a = true then
      home = a % 2 ^ 19 ∧ (s.core c).pendingAt home n = none ∧ (s.core c).spBad = [] ∧
        (s.core c).banksFree home n = true ∧ v = ofBytesLe ((s.core c).spBytes home n)
    else
      home = ((s.core c).dpas a n).headD 0 ∧ (s.core c).check false a n = none ∧ s.reaches c (upFrom home n) = true ∧
        s.missed = [] ∧ s.memBad = [] ∧
        ∃ bs, (upFrom home n).map (fun x => tblFind s.mem x) = bs.map some ∧ v = ofBytesLe bs

/-- A live record of a table image passes the checks of TTLOAD behind the live records `earlier` of the same image
(04_device_memory.md R91): its leaf is well formed with V = 1, its base is aligned to the size of the leaf, its page
overlaps none before it, and lies in the grants of partition `p`. -/
def State.recordPasses (s : State) (p : Nat) (earlier : List (Word × Word)) (r : Word × Word) : Prop :=
  let va (r : Word × Word) := wfld r.1 12 40 <<< 12
  let size (r : Word × Word) := 2 ^ pageBits (wfld r.2 4 3)
  (wfld r.1 1 11 = 0 ∧ wfld r.1 52 12 = 0) ∧
    (bit r.2.toNat 0 = true ∧ bit r.2.toNat 1 = true ∧ wfld r.2 4 3 ≤ 6 ∧ leafMalformed (6 - wfld r.2 4 3) r.2 = false) ∧
    va r % size r = 0 ∧
    (∀ e ∈ earlier, va r + size r ≤ va e ∨ va e + size e ≤ va r) ∧
    s.granted p (wfld r.2 12 28 <<< 12) (size r) = true

/-- The instructions that wait until their context owns the engines (12_sequencer.md R262). -/
def ownerOnly : Instr → Bool
  | .fork _ _ _ | .rendv _ _ | .genf _ | .eset _ _ | .eseti _ _ | .tshape _ _ | .qalign | .bfence _ | .segb _ | .sege _ _
  | .prept _ | .rqpop _ _ | .grdWrite _ _ _ _ _ | .rstkWrite _ _ _ _ | .rsmarkWrite _ _ _ _ => true
  | .csrWrite _ _ csr _ _ => csrKnown csr.toNat && csrOwned csr.toNat
  | _ => false

/-! ## Invariants -/

/-- Device memory is in its canonical form. -/
def State.memOk (s : State) : Prop := memWf s.mem = true

/-- A scratchpad is in its canonical form. -/
def State.spOk (s : State) (c : Nat) : Prop := tblWfD (0 : Byte) (s.core c).sp = true

end Sys2Proof.Machine
end

