-- ==== Sys2Proof/Certificates/Slice0/Obligations.lean ====
section
/-! DEFINITION. The statements for the provers. A statement about every state also holds in states that no run
reaches; what rests on a choice of the model names its entry of the assumption log. -/
open Sys2Proof Sys2Proof.Machine

/-! ## Reset, decoding and steps -/

/-- 25_service.md R407 with the reset values of the registers' own tables: NUMMODE (02_numbers.md R35), NUMST (R52), FTICK
(04_device_memory.md R102), the ring and its tags (07_ring.md R151), the shapes of tiles (11_matrix.md R235), CLKST
(16_scheduling.md R328), LQCFG (R308), FQCFG (19_faults.md R337), LKCTL (21_links.md R362) and THCFG (25_service.md R416);
and memory is in its canonical form. -/
def Obligations.ResetValues : Prop :=
  State.reset.power = true ∧ State.reset.ftick = 0 ∧ State.reset.memOk ∧
    (∀ c k, (State.reset.ctx c k).numMode = 0 ∧ (State.reset.ctx c k).numSt = 0 ∧ (State.reset.ctx c k).gen = 0 ∧
      (State.reset.ctx c k).wmask = 0 ∧ (State.reset.ctx c k).boost = 0 ∧ (State.reset.ctx c k).saveb = 0 ∧
      State.reset.csrRead c k 0x835 = 0x402000) ∧
    (∀ c n, (State.reset.own c).slot n = Slot.zero ∧ (State.reset.own c).token n = 0 ∧
      ((State.reset.own c).tile n).rows = 0x7F ∧ ((State.reset.own c).tile n).width = 0xFF ∧
      ((State.reset.own c).tile n).tag = 0 ∧ (State.reset.own c).guard n = (if n = 0 then BitVec.allOnes 64 else 0) ∧
      (State.reset.core c).chw n = 0) ∧
    (∀ d q, d < 4 → q < 16 → State.reset.hubRead (offLqcfg d q) = 0x0400000000000000) ∧
    (∀ p, p < 8 → State.reset.hubRead (offFqcfg p) = 0x0040000000000000 ∧ State.reset.hubRead (offPtroot p) = 0) ∧
    (∀ l, l < 8 → State.reset.hubRead (offLkctl l) = 0x4000000006) ∧
    ∀ d, d < 4 → State.reset.hubRead (offThcfg d) = 0x73695F

/-- Words that the manual writes out, and what they stand for: 12_sequencer.md R264, R267, R281, R282, R286, R271,
03_words.md R76, 05_bank_units.md R125, and the word tables of 09_vector.md, 10_reversible.md, 11_matrix.md,
13_program_median.md and 17_program_gemv.md; and a word of no instruction. -/
def Obligations.WordsDecode : Prop :=
  decodeSeq 0x1004028B = .fork 8 8 5 ∧ decodeSeq 0x0003B08B = .eset 7 1 ∧ decodeSeq 0x0400410B = .eseti 64 2 ∧
    decodeSeq 0x0082900B = .rendv 8 5 ∧ decodeSeq 0x000074AB = .rqpop false 9 ∧ decodeSeq 0x0000307B = .traprEnd ∧
    decodeSeq 0x0030505B = .fenceS 3 ∧ decodeSeq 0xB6C5E55B = .amoS 11 3 12 11 10 ∧
    decodeSeq 0x0030405B = .bfence 3 ∧ decodeSeq 0xFFFFFFFF = .illegalInstruction 0xFFFFFFFF ∧
    decodeWord .vx 0x040002412310 = .vxFma ⟨false, false, false, false, 0, 0⟩ ⟨1, false, 4, 1, 2, 3, 1, 0, 0⟩ ∧
    decodeWord .vx 0x228809256320 = .vxClt ⟨true, false, false, false, 2, 0⟩ ⟨4, true, 2, 5, 6, 3, 2, 0, 0⟩ ∧
    decodeWord .vx 0x60007081201C = .vxAcrd ⟨false, false, false, false, 0, 7⟩ ⟨0, false, 8, 1, 2, 0, 1, 3, 0⟩ ∧
    decodeWord .vx 0x860000545050 = .vxRleak ⟨false, false, false, false, 0, 0⟩ ⟨0, false, 5, 4, 5, 0, 5, 0, 0⟩ ∧
    decodeWord .mx 0x111400208000 = .mxMrcv ⟨false, false, false, true, 1, 0⟩ ⟨0, 0, 4, false, 2, 0⟩ ∧
    decodeWord .mx 0x02000041C000 = .mxMma ⟨false, false, false, false, 0, 0⟩ ⟨0, 1, 0, false, 7, 0⟩ ∧
    decodeWord .ld 0x010020125000 = .ldV ⟨false, false, false, false, 0, 2⟩ ⟨0, false, 1, 1, 2, true, 0⟩ ∧
    decodeWord .ld 0x061000142000 = .ldVd ⟨false, false, false, true, 0, 0⟩ ⟨0, false, 1, 2, 1, false, 0⟩ ∧
    decodeWord .st 0x018000824003 = .stV ⟨true, false, false, false, 0, 0⟩ ⟨0, false, 8, 1, 2, false, 3⟩ ∧
    decodeWord .cp 0x120003000001 = .cpBatom ⟨false, false, false, false, 0, 0⟩ ⟨1, 4, false, 1⟩ ∧
    decodeWord .st 0xF003F0000000 = .engineNop ⟨false, false, false, false, 0, 63⟩

/-- Every instruction that obeys the rules of its encoding reads back from the word that encodes it: the sequencer's from
their 32 bits (12_sequencer.md R260 to R287), the engines' from their 48 (03_words.md R56 to R67). -/
def Obligations.EncodingRoundTrip : Prop :=
  ∀ i : Instr, i.wf = true →
    (∀ w, encodeSeq i = some w → decodeSeq w = i) ∧
    ∀ (e e' : Engine) (w : EWord), encodeWord e i = some (e', w) → (∀ v sub, i ≠ .illegalWord v sub) →
      decodeWord e' w = i

/-- 12_sequencer.md R260, R261 and 03_words.md R56, R71: a step that is the turn of a sequencer whose next ready context has
yet to issue in this cycle runs the instruction that the word it fetches decodes to, for that context, and the sequencer
has then issued in this cycle; the word is, where no copy of code is held, the four bytes at the program counter; a context
that waits in an instruction goes on with it. A step that is the turn of an engine runs the instruction its stream unit
stands at; one that is a step of the table runs it. -/
def Obligations.StepRunsDecoded : Prop :=
  ∀ (s : State) (ts : List Turn),
    (∀ (c k : Nat) (w : BitVec 32) (u : State), s.turns = .sequencer c :: ts → s.runs = true →
      s.seqPick c = some (k, false) → State.seqFetch { s with turns := ts } c k = (some w, u) →
      step s = seqEnded c k (u.ctx c k).pc (decodeSeq w) (exec (decodeSeq w) (u.seqTake c k w)) ∧
      (u.seqTake c k w).at_ = .seq c k ∧ ((u.seqTake c k w).core c).rr = (k + 1) % 8 ∧
      ((u.seqTake c k w).core c).cyc.seq = true) ∧
    (∀ (c k : Nat) (w : BitVec 32), s.memOk → s.links = [] → s.memBad = [] →
      s.reaches c ((s.core c).dpas (s.ctx c k).pc.toNat 4) = true → (s.core c).icache = [] → (s.core c).check false (s.ctx c k).pc.toNat 4 = none →
      ((s.core c).dpas (s.ctx c k).pc.toNat 4).map (fun a => tblFind s.mem a) = (bytesLe 4 w.toNat).map some →
      ∃ u, State.seqFetch { s with turns := ts } c k = (some w, u) ∧
        u = { s with turns := ts, draws := u.draws, cores := u.cores } ∧ (∀ d, d ≠ c → u.core d = s.core d) ∧
        u.core c = { s.core c with icache := (u.core c).icache }) ∧
    (∀ c k : Nat, s.turns = .sequencer c :: ts → s.runs = true → s.seqPick c = some (k, true) →
      step s = seqEnded c k (s.ctx c k).pc (decodeSeq (s.ctx c k).cur)
        (exec (decodeSeq (s.ctx c k).cur) (State.seqRetry { s with turns := ts, draws := s.draws + 1 } c k))) ∧
    (∀ (c : Nat) (e : Engine) (r : Cursor) (i : Instr), s.turns = .engine c e :: ts →
      (s.core c).standing e = some (r, i) →
      step s = ended (exec i { s with turns := ts, at_ := .engine c e })) ∧
    ∀ i : Instr, s.turns = .event i :: ts → s.mayStep i = true → step s = exec i { s with turns := ts }

/-- Every step keeps device memory in its canonical form, so that equal memories are equal data. -/
def Obligations.StepKeepsMemoryCanonical : Prop :=
  ∀ s t : State, s.memOk → step s = .next t → t.memOk

/-- No step stops: whatever the state, the next move has an outcome that the machine goes on from. Every trap, fatal error
and wait that the spec describes is a next state. -/
def Obligations.EveryStepGoesOn : Prop :=
  ∀ s : State, ∃ t, step s = .next t

/-! ## The sequencer: arithmetic, memory, jumps and traps -/

/-- 12_sequencer.md R260, R261. Every RV64IM operation writes its value to rd, moves on, and changes nothing else; x0 stays
zero. -/
def Obligations.ScalarAluResult : Prop :=
  ∀ (a : AluForm) (s : State) (c k : Nat), s.runsCtx c k →
    ∃ t, exec (.scalarAlu a) s = .next t ∧
      (t.ctx c k).pc = (s.ctx c k).pc + 4 ∧
      (t.ctx c k).reg (AluForm.eval a (s.ctx c k)).1 =
        (if (AluForm.eval a (s.ctx c k)).1 = 0 then 0 else (AluForm.eval a (s.ctx c k)).2) ∧
      (t.ctx c k).reg 0 = 0 ∧
      OnlyPcReg c k (AluForm.eval a (s.ctx c k)).1 s t

/-- 12_sequencer.md R260: the products and quotients of RV64M as integers. The two halves of a product together are the
product; a quotient rounds toward zero with a remainder of the dividend's sign; a division by zero gives all ones and
leaves the dividend. -/
def Obligations.ScalarMulDivIntegers : Prop :=
  ∀ a b : Word,
    (RrOp.eval .mulh a b).toInt * 2 ^ 64 + ((RrOp.eval .mul a b).toNat : Int) = a.toInt * b.toInt ∧
    (RrOp.eval .mulhu a b).toNat * 2 ^ 64 + (RrOp.eval .mul a b).toNat = a.toNat * b.toNat ∧
    (RrOp.eval .mulhsu a b).toInt * 2 ^ 64 + ((RrOp.eval .mul a b).toNat : Int) = a.toInt * (b.toNat : Int) ∧
    (b ≠ 0 → ¬ (a = BitVec.intMin 64 ∧ b = BitVec.allOnes 64) →
      (RrOp.eval .div a b).toInt * b.toInt + (RrOp.eval .rem a b).toInt = a.toInt ∧
      (RrOp.eval .rem a b).toInt.natAbs < b.toInt.natAbs ∧
      ((RrOp.eval .rem a b).toInt = 0 ∨ ((RrOp.eval .rem a b).toInt < 0 ↔ a.toInt < 0))) ∧
    (RrOp.eval .div a 0 = BitVec.allOnes 64 ∧ RrOp.eval .rem a 0 = a ∧
      RrOp.eval .divu a 0 = BitVec.allOnes 64 ∧ RrOp.eval .remu a 0 = a) ∧
    (b ≠ 0 → (RrOp.eval .divu a b).toNat = a.toNat / b.toNat ∧ (RrOp.eval .remu a b).toNat = a.toNat % b.toNat) ∧
    (RrOp.eval .div (BitVec.intMin 64) (BitVec.allOnes 64) = BitVec.intMin 64 ∧
      RrOp.eval .rem (BitVec.intMin 64) (BitVec.allOnes 64) = 0)

/-- 12_sequencer.md R260, 14_consistency.md R294 and 06_copy_scratchpad.md R132: a naturally aligned load through the
scratchpad window, whose bytes hold no error and are not pending, at banks that no burst holds, by a context with no
store on its way, writes the bytes read, extended as its width says; every byte reads as before.
14_consistency.md R294 and 04_device_memory.md R87: a naturally aligned load of device memory, whose bytes have been
written and hold no error, by a context with no store on its way, writes the bytes that stand at their home, or those of the
line of its scalar data cache that holds them; while another task of the core has published a store to one of the bytes
that has yet to reach its home, the load waits, with nothing changed. No write of a bank atomic that nothing orders is
outstanding. That a load of any class may be served by a line (log 53), which of the two it gives (log 5) and the wait
(log 52) are the model's choices. -/
def Obligations.ScalarLoads : Prop :=
  (∀ (wd : LoadWidth) (rd rs1 : BitVec 5) (imm : BitVec 12) (s : State) (c k a : Nat), s.runsCtx c k →
     a = ((s.ctx c k).reg rs1 + imm.signExtend 64).toNat →
     a % LoadWidth.bytes wd = 0 → inWindow a = true → (s.ctx c k).stores = [] →
     (s.core c).pendingAt (a % 2 ^ 19) (LoadWidth.bytes wd) = none →
     (s.core c).banksFree (a % 2 ^ 19) (LoadWidth.bytes wd) = true → (s.core c).spBad = [] →
     ∃ t, exec (.scalarLoad wd rd rs1 imm) s = .next t ∧
       (t.ctx c k).pc = (s.ctx c k).pc + 4 ∧
       (t.ctx c k).reg rd =
         (if rd = 0 then 0
           else LoadWidth.extend wd (ofBytesLe ((s.core c).spBytes (a % 2 ^ 19) (LoadWidth.bytes wd)))) ∧
       OnlyPcRegOf c k rd s t ∧ SameBytes s t ∧ OnlyCore c s t ∧
       t.core c = { s.core c with ctxs := (t.core c).ctxs, bursts := (t.core c).bursts } ∧
       ∀ j, j ≠ k → t.ctx c j = s.ctx c j) ∧
  (∀ (wd : LoadWidth) (rd rs1 : BitVec 5) (imm : BitVec 12) (s : State) (c k a : Nat) (bs : List Byte), s.runsCtx c k →
     a = ((s.ctx c k).reg rs1 + imm.signExtend 64).toNat →
     a % LoadWidth.bytes wd = 0 → inWindow a = false → (s.ctx c k).stores = [] →
     (s.core c).check false a (LoadWidth.bytes wd) = none → s.links = [] → s.missed = [] →
     ((s.core c).dpas a (LoadWidth.bytes wd)).map (fun d => tblFind s.mem d) = bs.map some → s.memBad = [] →
     ((s.core c).loadHeld k ((s.core c).dpas a (LoadWidth.bytes wd)) = true →
       exec (.scalarLoad wd rd rs1 imm) s = .next s) ∧
     ((s.core c).loadHeld k ((s.core c).dpas a (LoadWidth.bytes wd)) = false →
     ∃ t vs, exec (.scalarLoad wd rd rs1 imm) s = .next t ∧
       (vs = bs ∨ ∃ l, tblFind (s.core c).dcache (lineOf ((s.core c).dpas a (LoadWidth.bytes wd))) = some l ∧
         vs = ((s.core c).dpas a (LoadWidth.bytes wd)).map fun d => l.1.getD (d % 64) 0) ∧
       (t.ctx c k).pc = (s.ctx c k).pc + 4 ∧
       (t.ctx c k).reg rd = (if rd = 0 then 0 else LoadWidth.extend wd (ofBytesLe vs)) ∧
       OnlyPcRegOf c k rd s t ∧ SameBytes s t ∧ OnlyCoreDraws c s t ∧
       t.core c = { s.core c with
         ctxs := (t.core c).ctxs, dcache := (t.core c).dcache, dstale := (t.core c).dstale } ∧
       ∀ j, j ≠ k → t.ctx c j = s.ctx c j))

/-- 14_consistency.md R294: a naturally aligned store is on its way, with the bytes of rs2 and the address it stores to, once
its instruction has gone on; no byte has changed yet (log 6), it carries the physical address that the table gives then
(log 7), and no register has changed.
14_consistency.md R294 and R292: the oldest store of a context on its way to device memory is performed at its home, on a
module whose links are whole, unless a store that had been published to its core before it executed has yet to reach one
of the same bytes, for which it waits (log 6). Its bytes read as stored, every other byte reads as before, and the store is on its
way no more.
14_consistency.md R294 and 06_copy_scratchpad.md R131: the same for scratchpad below its channel pointer words, at banks
that no burst holds. -/
def Obligations.ScalarStores : Prop :=
  (∀ (wd : StoreWidth) (rs1 rs2 : BitVec 5) (imm : BitVec 12) (s : State) (c k a : Nat), s.runsCtx c k →
     a = ((s.ctx c k).reg rs1 + imm.signExtend 64).toNat → a % StoreWidth.bytes wd = 0 →
     (inWindow a = false → (s.core c).check true a (StoreWidth.bytes wd) = none) →
     ∃ t b, exec (.scalarStore wd rs1 rs2 imm) s = .next t ∧
       (t.ctx c k).stores = (s.ctx c k).stores ++ [b] ∧
       b.scratch = inWindow a ∧
       b.addr = (if inWindow a then a % 2 ^ 19 else ((s.core c).dpas a (StoreWidth.bytes wd)).headD 0) ∧
       b.data = bytesLe (StoreWidth.bytes wd) ((s.ctx c k).reg rs2).toNat ∧
       (inWindow a = false → b.cls = ((s.core c).scopeAt a).toNat) ∧ b.fenced = false ∧
       (t.ctx c k).pc = (s.ctx c k).pc + 4 ∧
       t.ctx c k = { s.ctx c k with pc := (t.ctx c k).pc, stores := (t.ctx c k).stores } ∧
       SameBytes s t ∧ OnlyCoreDraws c s t ∧
       t.core c = { s.core c with ctxs := (t.core c).ctxs, nextJob := (t.core c).nextJob } ∧
       ∀ j, j ≠ k → t.ctx c j = s.ctx c j) ∧
  (∀ (s : State) (c k : Nat) (b : BufStore) (rest : List BufStore), s.memOk → s.links = [] →
     (s.ctx c k).stores = b :: rest → b.scratch = false →
     (s.fencedStore c b.born (upFrom b.addr b.data.length) = true → exec (.storePerformedAtHome c k b.id) s = .next s) ∧
     (s.fencedStore c b.born (upFrom b.addr b.data.length) = false →
       ∃ t, exec (.storePerformedAtHome c k b.id) s = .next t ∧
         (∀ i, i < b.data.length → tblFind t.mem (b.addr + i) = b.data[i]?) ∧
         (∀ a, (a < b.addr ∨ b.addr + b.data.length ≤ a) → tblFind t.mem a = tblFind s.mem a) ∧
         (t.ctx c k).stores = rest.filter (fun e => e.id != b.id) ∧ t.memOk ∧
         (∀ d a, (t.core d).spByte a = (s.core d).spByte a) ∧
         ∀ r, (t.ctx c k).reg r = (s.ctx c k).reg r)) ∧
  (∀ (s : State) (c k : Nat) (b : BufStore) (rest : List BufStore), s.spOk c →
     (s.ctx c k).stores = b :: rest → b.scratch = true → b.addr + b.data.length ≤ 0x7FFC0 →
     (s.core c).banksFree b.addr b.data.length = true →
     ∃ t, exec (.storePerformedAtHome c k b.id) s = .next t ∧
       (∀ i, i < b.data.length → some ((t.core c).spByte (b.addr + i)) = b.data[i]?) ∧
       (∀ a, (a < b.addr ∨ b.addr + b.data.length ≤ a) → (t.core c).spByte a = (s.core c).spByte a) ∧
       (∀ d, d ≠ c → (t.core d).sp = (s.core d).sp) ∧ t.mem = s.mem ∧
       (t.ctx c k).stores = rest.filter (fun e => e.id != b.id) ∧
       ∀ r, (t.ctx c k).reg r = (s.ctx c k).reg r)

/-- 12_sequencer.md R260: a load or store that is not naturally aligned, and a jump or a taken branch to a target that is not
4-byte aligned, take the misaligned-access trap with that address, and do nothing else.
The traps that are an instruction's own effect: ECALL and EBREAK (12_sequencer.md R260), the illegal-instruction trap
with the word (03_words.md R76), and TRAPR, whose codes 0x001 to 0x7FF take the software trap and 0x800 to 0xFFF the
illegal-instruction trap (12_sequencer.md R286; 19_faults.md R335).
12_sequencer.md R260: branches and jumps to aligned targets. A branch not taken moves on; a jump writes the address of
the next instruction to rd. -/
def Obligations.BranchesAndTraps : Prop :=
  (∀ (s : State) (c k : Nat), s.runsCtx c k →
     (∀ (wd : LoadWidth) (rd rs1 : BitVec 5) (imm : BitVec 12),
       ((s.ctx c k).reg rs1 + imm.signExtend 64).toNat % LoadWidth.bytes wd ≠ 0 →
       ∃ t, exec (.scalarLoad wd rd rs1 imm) s = .next t ∧
         TrapTaken c k 0x21 0 ((s.ctx c k).reg rs1 + imm.signExtend 64) s t) ∧
     (∀ (wd : StoreWidth) (rs1 rs2 : BitVec 5) (imm : BitVec 12),
       ((s.ctx c k).reg rs1 + imm.signExtend 64).toNat % StoreWidth.bytes wd ≠ 0 →
       ∃ t, exec (.scalarStore wd rs1 rs2 imm) s = .next t ∧
         TrapTaken c k 0x21 0 ((s.ctx c k).reg rs1 + imm.signExtend 64) s t) ∧
     (∀ (rd : BitVec 5) (i : BitVec 20),
       ((s.ctx c k).pc + (i ++ (0 : BitVec 1)).signExtend 64).toNat % 4 ≠ 0 →
       ∃ t, exec (.scalarBranchJump (.jal rd i)) s = .next t ∧
         TrapTaken c k 0x21 0 ((s.ctx c k).pc + (i ++ (0 : BitVec 1)).signExtend 64) s t) ∧
     (∀ (rd rs1 : BitVec 5) (i : BitVec 12),
       (((s.ctx c k).reg rs1 + i.signExtend 64) &&& ~~~1).toNat % 4 ≠ 0 →
       ∃ t, exec (.scalarBranchJump (.jalr rd rs1 i)) s = .next t ∧
         TrapTaken c k 0x21 0 (((s.ctx c k).reg rs1 + i.signExtend 64) &&& ~~~1) s t) ∧
     ∀ (o : BranchOp) (r1 r2 : BitVec 5) (i : BitVec 12),
       BranchOp.taken o ((s.ctx c k).reg r1) ((s.ctx c k).reg r2) = true →
       ((s.ctx c k).pc + (i ++ (0 : BitVec 1)).signExtend 64).toNat % 4 ≠ 0 →
       ∃ t, exec (.scalarBranchJump (.branch o r1 r2 i)) s = .next t ∧
         TrapTaken c k 0x21 0 ((s.ctx c k).pc + (i ++ (0 : BitVec 1)).signExtend 64) s t) ∧
  (∀ (s : State) (c k : Nat), s.runsCtx c k →
     (∃ t, exec .ecall s = .next t ∧ TrapTaken c k 0x24 0 0 s t) ∧
     (∃ t, exec .ebreak s = .next t ∧ TrapTaken c k 0x25 0 0 s t) ∧
     (∀ w : BitVec 32, ∃ t, exec (.illegalInstruction w) s = .next t ∧ TrapTaken c k 0x20 w 0 s t) ∧
     (∀ code : BitVec 12, code ≠ 0 → code.getLsbD 11 = false →
       ∃ t, exec (.trapr code) s = .next t ∧ TrapTaken c k 0x26 (code.setWidth 32) 0 s t) ∧
     ∀ code : BitVec 12, code.getLsbD 11 = true →
       ∃ t, exec (.trapr code) s = .next t ∧ TrapTaken c k 0x20 ((encodeSeq (.trapr code)).getD 0) 0 s t) ∧
  (∀ (s : State) (c k : Nat), s.runsCtx c k →
     (∀ (o : BranchOp) (r1 r2 : BitVec 5) (i : BitVec 12),
       (BranchOp.taken o ((s.ctx c k).reg r1) ((s.ctx c k).reg r2) = true →
         ((s.ctx c k).pc + (i ++ (0 : BitVec 1)).signExtend 64).toNat % 4 = 0) →
       ∃ t, exec (.scalarBranchJump (.branch o r1 r2 i)) s = .next t ∧
         (t.ctx c k).pc =
           (if BranchOp.taken o ((s.ctx c k).reg r1) ((s.ctx c k).reg r2)
             then (s.ctx c k).pc + (i ++ (0 : BitVec 1)).signExtend 64 else (s.ctx c k).pc + 4) ∧
         OnlyPcReg c k 0 s t) ∧
     (∀ (rd : BitVec 5) (i : BitVec 20),
       ((s.ctx c k).pc + (i ++ (0 : BitVec 1)).signExtend 64).toNat % 4 = 0 →
       ∃ t, exec (.scalarBranchJump (.jal rd i)) s = .next t ∧
         (t.ctx c k).pc = (s.ctx c k).pc + (i ++ (0 : BitVec 1)).signExtend 64 ∧
         (t.ctx c k).reg rd = (if rd = 0 then 0 else (s.ctx c k).pc + 4) ∧ OnlyPcReg c k rd s t) ∧
     ∀ (rd rs1 : BitVec 5) (i : BitVec 12),
       (((s.ctx c k).reg rs1 + i.signExtend 64) &&& ~~~1).toNat % 4 = 0 →
       ∃ t, exec (.scalarBranchJump (.jalr rd rs1 i)) s = .next t ∧
         (t.ctx c k).pc = ((s.ctx c k).reg rs1 + i.signExtend 64) &&& ~~~1 ∧
         (t.ctx c k).reg rd = (if rd = 0 then 0 else (s.ctx c k).pc + 4) ∧ OnlyPcReg c k rd s t)

/-- 12_sequencer.md R281, R260, 04_device_memory.md R87, 14_consistency.md R292, R302 and 03_words.md R71. FENCE.S goes on at
once when no store of its context that it orders is still to be performed: none to scratchpad at CORE or wider, and none
to a page at which it acts beyond the core. The stores to device memory that it does not wait for it publishes to its core.
At CORE and wider it leaves the scalar data cache no line of class DIE, DEVICE or SYSTEM that its scope reaches, SYSTEM
lines as DEVICE, and none that an engine of the core has written since it was filled, and keeps the others; at SYSTEM it
makes pages of class SYSTEM visible outside; and the context misses no more what bank atomics of jobs that are over have
written. FENCE acts as FENCE.S SYSTEM. FENCE.I, with no store on its way, leaves no core a byte of an earlier copy of code.
No register and no byte changes. What publication is before a store's home (log 52), the lines that go beside those of a
class (log 53), what bank atomics leave to be missed (log 56) and the line that is left empty (log 18) are the model's
choices.
12_sequencer.md R281, 04_device_memory.md R87 and 03_words.md R71: a fence waits, with nothing changed, for a store of its
context that it orders: to scratchpad at CORE or wider, or to a page at which it acts beyond the core (log 52); FENCE.I for
any.
14_consistency.md R294: the scalar data cache may drop a line at any time; nothing else differs. -/
def Obligations.FencesAndCaches : Prop :=
  (∀ (s : State) (c k : Nat), s.runsCtx c k →
     (∀ scope : BitVec 3, scope.toNat ≤ 4 →
       (∀ b ∈ (s.ctx c k).stores, if b.scratch then scope = 0 else min scope.toNat b.cls < 2) →
       ∃ t, exec (.fenceS scope) s = .next t ∧
         (scope = 4 → ∀ (imm : BitVec 12) (rs1 rd : BitVec 5), exec (.fence imm rs1 rd) s = .next t) ∧
         (t.ctx c k).pc = (s.ctx c k).pc + 4 ∧
         t.ctx c k = { s.ctx c k with pc := (t.ctx c k).pc, stores := (t.ctx c k).stores } ∧
         (t.ctx c k).stores.length = (s.ctx c k).stores.length ∧
         (∀ (i : Nat) (b : BufStore), (s.ctx c k).stores[i]? = some b →
           ∃ f n, (t.ctx c k).stores[i]? = some { b with fenced := f, since := n } ∧
             f = (b.fenced || (!b.scratch && scope != 0 && b.cls != 0)) ∧ (f = b.fenced → n = b.since)) ∧
         SameBytes s t ∧ t = { s with cores := t.cores, draws := t.draws, unseen := t.unseen, missed := t.missed } ∧
         (∀ d, d ≠ c → t.core d = s.core d) ∧
         t.core c = { s.core c with
           ctxs := (t.core c).ctxs, dcache := (t.core c).dcache, dstale := (t.core c).dstale } ∧
         (∀ e, e ∈ (t.core c).dcache ↔
           e ∈ (s.core c).dcache ∧ (scope = 0 ∨
             e.1 ∉ (s.core c).dstale ∧ (e.2.2.toNat < 2 ∨ scope.toNat < min 3 e.2.2.toNat))) ∧
         (t.core c).dstale = (if scope = 0 then (s.core c).dstale else []) ∧
         t.missed = s.missed.map (fun e =>
           { e with seq := e.seq || (scope != 0 && e.core == c && (s.core c).jobs.all fun j => j.id != e.job) }) ∧
         (scope ≠ 4 → t.unseen = s.unseen) ∧
         (scope = 4 → ∀ e, e ∈ t.unseen ↔ e ∈ s.unseen ∧ (s.core c).systemByte e.1 = false)) ∧
     ((s.ctx c k).stores = [] → ∀ (imm : BitVec 12) (rs1 rd : BitVec 5),
       ∃ t, exec (.fenceI imm rs1 rd) s = .next t ∧ (t.ctx c k).pc = (s.ctx c k).pc + 4 ∧ OnlyPcRegOf c k 0 s t ∧
         SameBytes s t ∧ OnlyCores s t ∧
         ∀ d, (t.core d).icache = (s.core d).icache.map (fun l => (l.1, [])) ∧
           t.core d = { s.core d with ctxs := (t.core d).ctxs, icache := (t.core d).icache })) ∧
  (∀ (s : State) (c k : Nat), s.runsCtx c k →
     (∀ scope : BitVec 3,
       (∃ b ∈ (s.ctx c k).stores, if b.scratch then scope ≠ 0 else 2 ≤ min scope.toNat b.cls) →
       exec (.fenceS scope) s = .next s ∧
       (scope = 4 → ∀ (imm : BitVec 12) (rs1 rd : BitVec 5), exec (.fence imm rs1 rd) s = .next s)) ∧
     ((s.ctx c k).stores ≠ [] → ∀ (imm : BitVec 12) (rs1 rd : BitVec 5), exec (.fenceI imm rs1 rd) s = .next s)) ∧
  (∀ (s : State) (c line : Nat), ∃ t, exec (.scalarCacheEviction c line) s = .next t ∧
     (∀ l, tblFind (t.core c).dcache l = if l = line then none else tblFind (s.core c).dcache l) ∧
     t.core c = { s.core c with dcache := (t.core c).dcache } ∧ OnlyCore c s t ∧ SameBytes s t)

/-- 12_sequencer.md R282 and R260, 05_bank_units.md R120, 06_copy_scratchpad.md R140: AMO.S by a context with no store on
its way changes its element as its operation says and no other byte, and writes the old value to rd; a 32-bit one sign
extended. An address that is not aligned to the element takes the misaligned-access trap. -/
def Obligations.AtomicOfTheSequencer : Prop :=
  ∀ (o : BitVec 4) (scope : BitVec 3) (b r d : BitVec 5) (s : State) (c k a n : Nat), s.runsCtx c k → o.toNat ≤ 11 →
    n = (if o = 0 ∨ o = 2 ∨ o = 11 then 4 else 8) → a = ((s.ctx c k).reg r).toNat →
    (a % n ≠ 0 → ∃ t, exec (.amoS o scope b r d) s = .next t ∧ TrapTaken c k 0x21 0 ((s.ctx c k).reg r) s t) ∧
    (a % n = 0 → (s.ctx c k).stores = [] → inWindow a = true → (s.core c).pendingAt (a % 2 ^ 19) n = none →
      (s.core c).banksFree (a % 2 ^ 19) n = true → (s.core c).spBad = [] → s.spOk c → a % 2 ^ 19 + n ≤ 0x7FFC0 →
      ∃ t old, exec (.amoS o scope b r d) s = .next t ∧ old = ofBytesLe ((s.core c).spBytes (a % 2 ^ 19) n) ∧
        (t.core c).spBytes (a % 2 ^ 19) n =
          bytesLe n (atomicNew o.toNat old (((s.ctx c k).reg b).toNat % 2 ^ (8 * n)) 0) ∧
        (∀ i, (i < a % 2 ^ 19 ∨ a % 2 ^ 19 + n ≤ i) → (t.core c).spByte i = (s.core c).spByte i) ∧
        (∀ e, e ≠ c → (t.core e).sp = (s.core e).sp) ∧ t.mem = s.mem ∧
        (t.ctx c k).reg d = (if d = 0 then 0 else if n = 4 then sext64 32 old else BitVec.ofNat 64 old) ∧
        (t.ctx c k).pc = (s.ctx c k).pc + 4 ∧ OnlyPcRegOf c k d s t) ∧
    ∀ bs : List Byte, a % n = 0 → (s.ctx c k).stores = [] → inWindow a = false → (s.core c).check false a n = none →
      (s.core c).check true a n = none → ((s.core c).dpas a n).Nodup → s.links = [] →
      s.reaches c ((s.core c).dpas a n) = true → s.memBad = [] → s.memOk →
      ((s.core c).dpas a n).map (fun e => tblFind s.mem e) = bs.map some → bs.length = n →
      ∃ t, exec (.amoS o scope b r d) s = .next t ∧
        (∀ i e : Nat, ((s.core c).dpas a n)[i]? = some e → tblFind t.mem e =
          (bytesLe n (atomicNew o.toNat (ofBytesLe bs) (((s.ctx c k).reg b).toNat % 2 ^ (8 * n)) 0))[i]?) ∧
        (∀ e, e ∉ (s.core c).dpas a n → tblFind t.mem e = tblFind s.mem e) ∧
        (∀ e i, (t.core e).spByte i = (s.core e).spByte i) ∧
        (t.ctx c k).reg d =
          (if d = 0 then 0 else if n = 4 then sext64 32 (ofBytesLe bs) else BitVec.ofNat 64 (ofBytesLe bs)) ∧
        (t.ctx c k).pc = (s.ctx c k).pc + 4 ∧ OnlyPcRegOf c k d s t

/-! ## The sequencer: special registers -/

/-- 00_scope.md R7, R9 and 12_sequencer.md R260: a CSR instruction on a register that has no row of its own, by a context
that owns the engines where the register is the owner's. It reads the old value into rd and goes on; a set or clear with
x0 or 0 writes nothing; read/write fields take the value, write-one-to-clear flags are cleared, reserved and read-only
bits keep their value; no byte changes.
00_scope.md R7: a count of a register is cleared by a write that has a 1 anywhere in its field, and is kept otherwise:
CPSTAT (06_copy_scratchpad.md R138), COLST, RSCNT (10_reversible.md R216), MXCNT and the counts of R352 and R356. -/
def Obligations.CsrReadsAndWrites : Prop :=
  (∀ (op : CsrOp) (imm : Bool) (csr : BitVec 12) (rs rd : BitVec 5) (s : State) (c k : Nat), s.runsCtx c k →
     csrKnown csr.toNat = true → (csrOwned csr.toNat = true → (s.core c).owner = some k) →
     ∃ t, exec (.csrWrite op imm csr rs rd) s = .next t ∧
       (t.ctx c k).pc = (s.ctx c k).pc + 4 ∧
       (t.ctx c k).reg rd = (if rd = 0 then 0 else s.csrRead c k csr.toNat) ∧
       (∀ r, r ≠ rd → (t.ctx c k).reg r = (s.ctx c k).reg r) ∧ SameBytes s t ∧ OnlyCore c s t ∧
       match csrNew op rs (s.csrRead c k csr.toNat) (if imm then rs.setWidth 64 else (s.ctx c k).reg rs) with
       | none => OnlyPcReg c k rd s t
       | some v =>
         (csr = 0x810 → t.csrRead c k 0x810 = v &&& 0xF) ∧
         (csr = 0x811 → t.csrRead c k 0x811 = s.csrRead c k 0x811 &&& ~~~v) ∧
         (csr = 0x813 → t.csrRead c k 0x813 = v &&& 1) ∧
         (csr = 0x817 → t.csrRead c k 0x817 = v &&& 1) ∧
         (csr = 0x820 → ((t.own c).rqOvf = true ↔ (s.own c).rqOvf = true ∧ v.getLsbD 5 = false) ∧
           (t.own c).rq = (s.own c).rq) ∧
         (csr = 0x830 → t.csrRead c k 0x830 = v &&& 0xFFFFFFFE) ∧
         (csr = 0x831 → ((t.ctx c k).lost = true ↔ (s.ctx c k).lost = true ∧ v.getLsbD 0 = false) ∧
           (t.ctx c k).pins = (s.ctx c k).pins) ∧
         (csr = 0x834 → (t.ctx c k).exEvt = (s.ctx c k).exEvt &&& ~~~(v.setWidth 8) ∧
           (t.ctx c k).exLate = (if wfld v 32 32 = 0 then (s.ctx c k).exLate else 0) ∧
           (t.ctx c k).exClass = (s.ctx c k).exClass) ∧
         (csr = 0x858 → t.csrRead c k 0x858 = v &&& 3) ∧
         (csr = 0x85C → t.csrRead c k 0x85C = v &&& 0xE00FFFFFFFFFFFFF) ∧
         (csr = 0x85D → t.csrRead c k 0x85D = v &&& 0xE00FFFFFFFFFFFFF) ∧
         (csr = 0x85E → t.csrRead c k 0x85E = v &&& 0x1FFF) ∧
         (csr ∈ [(0x812 : BitVec 12), 0x815, 0x824, 0x826, 0x827, 0x832, 0x833, 0x835, 0x85A, 0x85F, 0x860, 0x868] →
           OnlyPcReg c k rd s t)) ∧
  (∀ (v : Word) (s : State) (c k : Nat),
     let keep := fun n lo w => if wfld v lo w = 0 then n else 0
     ((s.csrPut c k 0x814 v).core c).noslot = keep (s.core c).noslot 48 16 ∧
     ((s.csrPut c k 0x814 v).core c).uce = keep (s.core c).uce 32 16 ∧
     ((s.csrPut c k 0x814 v).core c).bstall = keep (s.core c).bstall 12 20 ∧
     ((s.csrPut c k 0x816 v).core c).colCount = keep (s.core c).colCount 0 32 ∧
     ((s.csrPut c k 0x822 v).core c).rsSpill = keep (s.core c).rsSpill 40 24 ∧
     ((s.csrPut c k 0x822 v).core c).rsRefill = keep (s.core c).rsRefill 16 24 ∧
     ((s.csrPut c k 0x822 v).core c).rsSlap = keep (s.core c).rsSlap 0 16 ∧
     ((s.csrPut c k 0x825 v).core c).mxDrop = keep (s.core c).mxDrop 32 32 ∧
     ((s.csrPut c k 0x825 v).core c).mxReplay = keep (s.core c).mxReplay 0 32 ∧
     ((s.csrPut c k 0x848 v).core c).void = keep (s.core c).void 32 32 ∧
     ((s.csrPut c k 0x848 v).core c).segOk = keep (s.core c).segOk 16 16 ∧
     ((s.csrPut c k 0x848 v).core c).segTrap = keep (s.core c).segTrap 0 16)

/-- The CSR writes that have a row of their own and no wait, when they write `v`: GRDn (07_ring.md R165; g0 discards it),
SAVEB (19_faults.md R350), BOOST (16_scheduling.md R328; a claim of 3 is stored as 2), QHSEL (24_debug.md R400; CLR sets
every counter to 0) and TRCTL (R403; EN from 0 to 1 clears COUNT and ACT). Each reads the old value into rd and goes
on.
10_reversible.md R214 and R215. A write of RSTK or RSMARK waits while VX holds an entry, or words of an
abandoned one complete. Once it has drained, RSMARK takes the four marks; RSTK, where both of its conditions hold and every record lies in scratchpad, takes CAP and DEPTH with no
entry left on core; where a condition fails it takes the illegal-instruction trap with nothing changed. -/
def Obligations.CsrRowsWrite : Prop :=
  (∀ (op : CsrOp) (imm : Bool) (rs rd : BitVec 5) (s : State) (c k : Nat) (v : Word), s.runsCtx c k →
     (∀ g : BitVec 3, (s.core c).owner = some k →
       csrNew op rs ((s.own c).guard g.toNat) (if imm then rs.setWidth 64 else (s.ctx c k).reg rs) = some v →
       ∃ t, exec (.grdWrite op imm g rs rd) s = .next t ∧
         (t.own c).guard g.toNat = (if g = 0 then BitVec.allOnes 64 else v) ∧
         (∀ h, h ≠ g.toNat → (t.own c).guard h = (s.own c).guard h) ∧
         (t.ctx c k).reg rd = (if rd = 0 then 0 else (s.own c).guard g.toNat) ∧
         (t.ctx c k).pc = (s.ctx c k).pc + 4 ∧ t.own c = { s.own c with g := (t.own c).g } ∧ OnlyPcRegOf c k rd s t) ∧
     (csrNew op rs (s.ctx c k).saveb (if imm then rs.setWidth 64 else (s.ctx c k).reg rs) = some v →
       ∃ t, exec (.savebWrite op imm rs rd) s = .next t ∧ (t.ctx c k).saveb = v &&& 0x000FFFFFFFFFF001 ∧
         (t.ctx c k).reg rd = (if rd = 0 then 0 else (s.ctx c k).saveb) ∧
         (t.ctx c k).pc = (s.ctx c k).pc + 4 ∧ OnlyCtx c k s t) ∧
     (csrNew op rs ((s.ctx c k).boost.setWidth 64) (if imm then rs.setWidth 64 else (s.ctx c k).reg rs) = some v →
       ∃ t, exec (.boostWrite op imm rs rd) s = .next t ∧ (t.ctx c k).boost.toNat = min (v.toNat % 4) 2 ∧
         (t.ctx c k).reg rd = (if rd = 0 then 0 else (s.ctx c k).boost.setWidth 64) ∧
         (t.ctx c k).pc = (s.ctx c k).pc + 4 ∧ OnlyCtx c k s t) ∧
     (csrNew op rs (s.csrRead c k 0x859) (if imm then rs.setWidth 64 else (s.ctx c k).reg rs) = some v →
       ∃ t, exec (.qhselClr op imm rs rd) s = .next t ∧ (t.core c).qhIdx = v.setWidth 6 ∧
         (∀ i, tblGet 0 (t.core c).qh i = if v.getLsbD 63 then 0 else tblGet 0 (s.core c).qh i) ∧
         (t.ctx c k).pc = (s.ctx c k).pc + 4 ∧ OnlyPcRegOf c k rd s t) ∧
     (csrNew op rs (s.csrRead c k 0x85B) (if imm then rs.setWidth 64 else (s.ctx c k).reg rs) = some v →
       ∃ t, exec (.trctlWrite op imm rs rd) s = .next t ∧ (t.core c).trEn = v.getLsbD 0 ∧
         (t.core c).trWrap = v.getLsbD 2 ∧
         ((s.core c).trEn = false → v.getLsbD 0 = true → (t.core c).trace = [] ∧ (t.core c).trAct = false) ∧
         ((s.core c).trEn = true ∨ v.getLsbD 0 = false →
           (t.core c).trace = (s.core c).trace ∧ (t.core c).trAct = (s.core c).trAct) ∧
         (t.ctx c k).pc = (s.ctx c k).pc + 4 ∧ OnlyPcRegOf c k rd s t)) ∧
  (∀ (op : CsrOp) (imm : Bool) (rs rd : BitVec 5) (s : State) (c k : Nat) (v : Word), s.runsOwner c k →
     ((s.own c).vxDrained = false →
       csrNew op rs (s.csrRead c k 0x821) (if imm then rs.setWidth 64 else (s.ctx c k).reg rs) = some v →
       exec (.rstkWrite op imm rs rd) s = .next s) ∧
     ((s.own c).vxDrained = false →
       csrNew op rs (s.csrRead c k 0x823) (if imm then rs.setWidth 64 else (s.ctx c k).reg rs) = some v →
       exec (.rsmarkWrite op imm rs rd) s = .next s) ∧
     ((s.own c).vxDrained = true →
       csrNew op rs (s.csrRead c k 0x823) (if imm then rs.setWidth 64 else (s.ctx c k).reg rs) = some v →
       ∃ t, exec (.rsmarkWrite op imm rs rd) s = .next t ∧
         (∀ i, i < 4 → (t.own c).stack.mark i = v.extractLsb' (16 * i) 16) ∧
         t.own c = { s.own c with stack := { (s.own c).stack with marks := (t.own c).stack.marks } } ∧
         (t.ctx c k).pc = (s.ctx c k).pc + 4 ∧ OnlyPcRegOf c k rd s t) ∧
     ((s.own c).vxDrained = true →
       csrNew op rs (s.csrRead c k 0x821) (if imm then rs.setWidth 64 else (s.ctx c k).reg rs) = some v →
       ((s.own c).stack.depth ≤ (s.own c).stack.cap ∨ (s.own c).stack.depth = 0) →
       (wfld v 0 16 ≤ wfld v 48 16 ∨ wfld v 0 16 = 0) →
       (∀ e ∈ (s.own c).stack.ents, (s.own c).stack.beyond e.1 = none) →
       ∃ t, exec (.rstkWrite op imm rs rd) s = .next t ∧
         (t.own c).stack.cap = wfld v 48 16 ∧ (t.own c).stack.depth = wfld v 0 16 ∧ (t.own c).stack.ents = [] ∧
         (t.own c).stack.marks = (s.own c).stack.marks ∧ t.mem = s.mem ∧
         (t.ctx c k).pc = (s.ctx c k).pc + 4 ∧ OnlyPcRegOf c k rd s t) ∧
     ((s.own c).vxDrained = true →
       csrNew op rs (s.csrRead c k 0x821) (if imm then rs.setWidth 64 else (s.ctx c k).reg rs) = some v →
       ((s.own c).stack.cap < (s.own c).stack.depth ∧ (s.own c).stack.depth ≠ 0) ∨
         (wfld v 48 16 < wfld v 0 16 ∧ wfld v 0 16 ≠ 0) →
       ∃ t, exec (.rstkWrite op imm rs rd) s = .next t ∧
         TrapTaken c k 0x20 ((encodeSeq (.rstkWrite op imm rs rd)).getD 0) 0 s t))

/-! ## The sequencer: handing work to the engines -/

/-- 12_sequencer.md R267, with its encodings: `eset` and `eseti` write one es register of the owner, and nothing else; an
encoding with rd[4:3] other than 0 is an illegal instruction. -/
def Obligations.EsetWritesEs : Prop :=
  (∀ (r : BitVec 5) (e : BitVec 3),
    decodeSeq ((0 : BitVec 7) ++ (0 : BitVec 5) ++ r ++ (3 : BitVec 3) ++ (0 : BitVec 2) ++ e ++ (0x0B : BitVec 7)) =
      .eset r e) ∧
  (∀ (i : BitVec 12) (e : BitVec 3),
    decodeSeq (i ++ (0 : BitVec 5) ++ (4 : BitVec 3) ++ (0 : BitVec 2) ++ e ++ (0x0B : BitVec 7)) = .eseti i e) ∧
  decodeSeq 0x0003B08B = .eset 7 1 ∧
  (∀ r d : BitVec 5, 8 ≤ d.toNat →
    decodeSeq ((0 : BitVec 7) ++ (0 : BitVec 5) ++ r ++ (3 : BitVec 3) ++ d ++ (0x0B : BitVec 7)) =
      .illegalInstruction ((0 : BitVec 7) ++ (0 : BitVec 5) ++ r ++ (3 : BitVec 3) ++ d ++ (0x0B : BitVec 7))) ∧
  (∀ (i : BitVec 12) (d : BitVec 5), 8 ≤ d.toNat →
    decodeSeq (i ++ (0 : BitVec 5) ++ (4 : BitVec 3) ++ d ++ (0x0B : BitVec 7)) =
      .illegalInstruction (i ++ (0 : BitVec 5) ++ (4 : BitVec 3) ++ d ++ (0x0B : BitVec 7))) ∧
  ∀ (s : State) (c k : Nat) (e : BitVec 3), s.runsOwner c k →
    (∀ r : BitVec 5, ∃ t, exec (.eset r e) s = .next t ∧
      (∀ i, tblGet 0 (t.own c).es i = if i = e.toNat then (s.ctx c k).reg r else tblGet 0 (s.own c).es i) ∧
      t.own c = { s.own c with es := (t.own c).es } ∧ (t.ctx c k).pc = (s.ctx c k).pc + 4 ∧
      OnlyPcRegOf c k 0 s t ∧ OnlyCore c s t ∧ SameBytes s t) ∧
    ∀ n : BitVec 12, ∃ t, exec (.eseti n e) s = .next t ∧
      (∀ i, tblGet 0 (t.own c).es i = if i = e.toNat then n.signExtend 64 else tblGet 0 (s.own c).es i) ∧
      t.own c = { s.own c with es := (t.own c).es } ∧ (t.ctx c k).pc = (s.ctx c k).pc + 4 ∧
      OnlyPcRegOf c k 0 s t ∧ OnlyCore c s t ∧ SameBytes s t

/-- 12_sequencer.md R268, with its encoding: `tshape` sets ROWS and WIDTH of one tile at once, and neither its tag nor its
contents, or takes the illegal-instruction trap, with the tile as it was, on a value that is no shape. -/
def Obligations.TileShape : Prop :=
  (∀ (r : BitVec 5) (i : BitVec 3),
    decodeSeq ((0 : BitVec 7) ++ (0 : BitVec 5) ++ r ++ (5 : BitVec 3) ++ (0 : BitVec 2) ++ i ++ (0x0B : BitVec 7)) =
      .tshape r i) ∧
  ∀ (s : State) (c k : Nat), s.runsOwner c k →
    (∀ (r : BitVec 5) (i : BitVec 3),
      wfld ((s.ctx c k).reg r) 16 48 = 0 →
      (wfld ((s.ctx c k).reg r) 8 8 + 1) * (wfld ((s.ctx c k).reg r) 0 8 + 1) ≤ 32768 →
      ∃ t, exec (.tshape r i) s = .next t ∧
        (t.own c).tile i.toNat =
          { (s.own c).tile i.toNat with
            rows := ((s.ctx c k).reg r).extractLsb' 8 8, width := ((s.ctx c k).reg r).extractLsb' 0 8 } ∧
        (∀ j, j ≠ i.toNat → (t.own c).tile j = (s.own c).tile j) ∧
        t.own c = { s.own c with tiles := (t.own c).tiles } ∧ (t.ctx c k).pc = (s.ctx c k).pc + 4 ∧
        OnlyPcRegOf c k 0 s t ∧ OnlyCore c s t ∧ SameBytes s t) ∧
    ∀ (r : BitVec 5) (i : BitVec 3),
      wfld ((s.ctx c k).reg r) 16 48 ≠ 0 ∨
        32768 < (wfld ((s.ctx c k).reg r) 8 8 + 1) * (wfld ((s.ctx c k).reg r) 0 8 + 1) →
      ∃ t, exec (.tshape r i) s = .next t ∧ TrapTaken c k 0x20 ((encodeSeq (.tshape r i)).getD 0) 0 s t

/-- 12_sequencer.md R266, R269, R270, R285 and 05_bank_units.md R125: PREPT records the mask and places nothing; where each
may place its marker, GENF places a fence with the recorded mask at the tail of all five queues, advances the generation
and gives it in rd; QALIGN places one marker in LD and ST; BFENCE one in LD, ST and CP, after which no engine of the core
misses a write of a bank atomic of the context before it, and at DEVICE and wider no agent does (R124, R125,
17_program_gemv.md R330; that one may be missed until then is log 56's choice);
SEGB opens a segment with its expected count and places one marker in all five. -/
def Obligations.MarkersPlaced : Prop :=
  ∀ (s : State) (c k : Nat), s.runsOwner c k →
    (∀ m : BitVec 10, ∃ t, exec (.prept m) s = .next t ∧
      t.ctx c k = { s.ctx c k with pc := (s.ctx c k).pc + 4, prept := m } ∧ OnlyCtx c k s t) ∧
    (∀ d : BitVec 5,
      (∀ g ∈ (s.own c).unfinished, ((s.ctx c k).gen + 1 - g).toNat ≤ 127) →
      (∀ e, e < 5 → ((s.own c).queue e).fences < 16) →
      ∃ t n, exec (.genf d) s = .next t ∧
        (∀ e, e < 5 → (t.own c).queue e =
          { (s.own c).queue e with items := ((s.own c).queue e).items ++ [.fence n (s.ctx c k).prept] }) ∧
        (t.ctx c k).gen = (s.ctx c k).gen + 1 ∧
        (t.ctx c k).reg d = (if d = 0 then 0 else ((s.ctx c k).gen + 1).setWidth 64) ∧
        (t.ctx c k).pc = (s.ctx c k).pc + 4 ∧ SameBytes s t ∧ OnlyCore c s t) ∧
    ((∀ e, e = 1 ∨ e = 4 → ((s.own c).queue e).qaligns < 16) →
      ∃ t n, exec .qalign s = .next t ∧
        (∀ e, (t.own c).queue e =
          if e = 1 ∨ e = 4 then { (s.own c).queue e with items := ((s.own c).queue e).items ++ [.qalign n] }
          else (s.own c).queue e) ∧
        (t.ctx c k).pc = (s.ctx c k).pc + 4 ∧ OnlyPcRegOf c k 0 s t ∧ SameBytes s t ∧ OnlyCore c s t) ∧
    (∀ scope : BitVec 3,
      ((s.own c).gates.filter fun g => !(g.cpCrossed && g.ldCrossed && g.stCrossed)).length < 16 →
      ∃ t n, exec (.bfence scope) s = .next t ∧
        (∀ e, (t.own c).queue e =
          if e = 0 ∨ e = 1 ∨ e = 4 then
            { (s.own c).queue e with items := ((s.own c).queue e).items ++ [.bank n scope] }
          else (s.own c).queue e) ∧
        (t.ctx c k).pc = (s.ctx c k).pc + 4 ∧ OnlyPcRegOf c k 0 s t ∧ SameBytes s t ∧
        t = { s with cores := t.cores, missed := t.missed } ∧ (∀ d, d ≠ c → t.core d = s.core d) ∧
        ∀ e ∈ t.missed, e.core = c → e.ctx = k → scope.toNat < 3 ∧ e.own = true) ∧
    ∀ r : BitVec 5, (s.own c).seg = none →
      ∃ t g, exec (.segb r) s = .next t ∧ (t.own c).seg = some g ∧ g.expect = ((s.ctx c k).reg r).setWidth 32 ∧
        g.count = 0 ∧
        (∀ e, e < 5 → (t.own c).queue e =
          { (s.own c).queue e with items := ((s.own c).queue e).items ++ [.seg false] }) ∧
        (t.ctx c k).pc = (s.ctx c k).pc + 4 ∧ OnlyPcRegOf c k 0 s t ∧ SameBytes s t ∧ OnlyCore c s t

/-- 12_sequencer.md R264 and 03_words.md R68, R70: a waiting FORK whose named queues all have room enqueues, in one step, one
entry on each named engine from its record of the descriptor, with the generation, the es registers and NUMMODE of that
moment; the other queues are as before; rd takes the generation and the context goes on.
12_sequencer.md R264: FORK by the owner, with a descriptor in scratchpad that holds no pending word and no error, at banks
that are free, whose context has no store on its way: it reads one 16-byte record for each bit of the mask, holding its
banks for one cycle (06_copy_scratchpad.md R133; log 58), and enqueues as a waiting FORK does. A mask of 0, a misaligned descriptor and a record with a reserved bit take the illegal-instruction
trap. -/
def Obligations.ForkEnqueues : Prop :=
  (∀ (m rd : BitVec 5) (recs : List (Word × Word)) (s : State) (c k : Nat), s.waitsIn c k (.fork m recs rd) →
     (s.core c).owner = some k → recs.length = (maskEngines m).length → (s.own c).hasRoom m = true →
     ∃ t, exec (.forkEnqueue c k) s = .next t ∧
       (∀ e, e < 5 → m.getLsbD e = false → (t.own c).queue e = (s.own c).queue e) ∧
       (∀ e, e < 5 → m.getLsbD e = true → ∃ (x : Entry) (r : Word × Word),
         recs[(maskEngines m).idxOf e]? = some r ∧
         (t.own c).queue e = { (s.own c).queue e with items := ((s.own c).queue e).items ++ [.entry x] } ∧
         x.ctx = k ∧ x.gen = (s.ctx c k).gen ∧ x.es = (s.own c).esList ∧ x.mode = (s.ctx c k).numMode ∧
         x.code = r.1.extractLsb' 0 52 ∧ x.words = wfld r.1 52 12 + 1 ∧ x.iters = wfld r.2 0 16 + 1) ∧
       (t.ctx c k).reg rd = (if rd = 0 then 0 else (s.ctx c k).gen.setWidth 64) ∧
       (t.ctx c k).pc = (s.ctx c k).pc + 4 ∧ (t.ctx c k).wait = .none ∧ (t.ctx c k).gen = (s.ctx c k).gen ∧
       SameBytes s t ∧ OnlyCore c s t) ∧
  (∀ (m r d : BitVec 5) (s : State) (c k a : Nat), s.runsOwner c k → a = ((s.ctx c k).reg r).toNat →
     (m ≠ 0 → a % 16 = 0 → 0xFFFFFFFF80000 ≤ a → a + 80 ≤ 2 ^ 52 → (s.core c).pendMode = false → (s.core c).spBad = [] →
       (s.core c).banksFree (a % 2 ^ 19) (16 * (maskEngines m).length) = true →
       (s.ctx c k).stores = [] → (s.own c).hasRoom m = true →
       (∀ i, i < (maskEngines m).length →
         ofBytesLe ((s.core c).spBytes (a % 2 ^ 19 + 16 * i + 8) 8) < 2 ^ 16) →
       ∃ (recs : List (Word × Word)) (t : State),
         (∀ i, i < (maskEngines m).length → recs[i]? =
           some (BitVec.ofNat 64 (ofBytesLe ((s.core c).spBytes (a % 2 ^ 19 + 16 * i) 8)),
             BitVec.ofNat 64 (ofBytesLe ((s.core c).spBytes (a % 2 ^ 19 + 16 * i + 8) 8)))) ∧
         exec (.fork m r d) s = .next t ∧
         exec (.forkEnqueue c k)
           ((s.modCore c fun q => q.holdBanks (a % 2 ^ 19) (16 * (maskEngines m).length) 1).seqWait c k
             (.fork m recs d)) = .next t ∧
         (t.ctx c k).pc = (s.ctx c k).pc + 4 ∧
         (t.ctx c k).reg d = (if d = 0 then 0 else (s.ctx c k).gen.setWidth 64)) ∧
     (m ≠ 0 → a % 16 = 0 → 0xFFFFFFFF80000 ≤ a → a + 80 ≤ 2 ^ 52 → (s.core c).pendMode = false → (s.core c).spBad = [] →
       (s.core c).banksFree (a % 2 ^ 19) (16 * (maskEngines m).length) = true → (s.ctx c k).stores = [] →
       (∃ i, i < (maskEngines m).length ∧ 2 ^ 16 ≤ ofBytesLe ((s.core c).spBytes (a % 2 ^ 19 + 16 * i + 8) 8)) →
       ∃ t, exec (.fork m r d) s = .next t ∧
         TrapTaken c k 0x20 ((encodeSeq (.fork m r d)).getD 0) 0
           (s.modCore c fun q => q.holdBanks (a % 2 ^ 19) (16 * (maskEngines m).length) 1) t) ∧
     (m = 0 ∨ a % 16 ≠ 0 →
       ∃ t, exec (.fork m r d) s = .next t ∧ TrapTaken c k 0x20 ((encodeSeq (.fork m r d)).getD 0) 0 s t))

/-- 12_sequencer.md R265: RENDV by the owner goes on at once when the named engines have drained its entries up to the
generation, and else waits; a waiting RENDV returns when they have.
12_sequencer.md R271: RQPOP by the owner takes the oldest entry of the return queue; with `nowait` it returns 0 and EMPTY
from an empty queue; without, it waits while the queue is empty and VX holds an entry, and returns 0 and EMPTY when VX
holds none, at once or once it does. -/
def Obligations.RendvAndRqpop : Prop :=
  (∀ (m r : BitVec 5) (g : BitVec 8) (s : State) (c k : Nat), (s.core c).owner = some k →
     (s.runsCtx c k → (s.core c).drainedUpTo k m (((s.ctx c k).reg r).setWidth 8) = true →
       ∃ t, exec (.rendv m r) s = .next t ∧ (t.ctx c k).pc = (s.ctx c k).pc + 4 ∧ OnlyPcReg c k 0 s t) ∧
     (s.runsCtx c k → (s.core c).drainedUpTo k m (((s.ctx c k).reg r).setWidth 8) = false →
       ∃ t, exec (.rendv m r) s = .next t ∧ (t.ctx c k).wait = .rendv m (((s.ctx c k).reg r).setWidth 8) ∧
         t.ctx c k = { s.ctx c k with wait := (t.ctx c k).wait } ∧ OnlyCtx c k s t) ∧
     (s.waitsIn c k (.rendv m g) → (s.core c).drainedUpTo k m g = true →
       ∃ t, exec (.rendvReturn c k) s = .next t ∧
         t.ctx c k = { s.ctx c k with pc := (s.ctx c k).pc + 4, wait := .none } ∧ OnlyCtx c k s t) ∧
     (s.waitsIn c k (.rendv m g) → (s.core c).drainedUpTo k m g = false → exec (.rendvReturn c k) s = .next s)) ∧
  (∀ (s : State) (c k : Nat) (d : BitVec 5), (s.core c).owner = some k →
     (∀ (n : Bool) (e : RqEnt) (rest : List RqEnt), s.runsCtx c k → (s.own c).rq = e :: rest →
       ∃ t, exec (.rqpop n d) s = .next t ∧ (t.own c).rq = rest ∧
         (t.ctx c k).reg d = (if d = 0 then 0 else e.value) ∧
         (t.ctx c k).rqLast = e.gen.setWidth 64 <<< 8 ||| e.tag.setWidth 64 ∧
         (t.ctx c k).pc = (s.ctx c k).pc + 4 ∧ t.own c = { s.own c with rq := rest }) ∧
     (s.runsCtx c k → (s.own c).rq = [] →
       ∃ t, exec (.rqpop true d) s = .next t ∧ t.own c = s.own c ∧
         (t.ctx c k).reg d = 0 ∧ (t.ctx c k).rqLast = (s.ctx c k).rqLast ||| 0x10000 ∧
         (t.ctx c k).pc = (s.ctx c k).pc + 4) ∧
     (s.runsCtx c k → (s.own c).rq = [] → ((s.own c).queue 3).count ≠ 0 →
       ∃ t, exec (.rqpop false d) s = .next t ∧ t.ctx c k = { s.ctx c k with wait := .rqpop d } ∧ OnlyCtx c k s t) ∧
     (s.runsCtx c k → (s.own c).rq = [] → ((s.own c).queue 3).count = 0 →
       ∃ t, exec (.rqpop false d) s = .next t ∧ t.own c = s.own c ∧
         (t.ctx c k).reg d = 0 ∧ (t.ctx c k).rqLast = (s.ctx c k).rqLast ||| 0x10000 ∧
         (t.ctx c k).pc = (s.ctx c k).pc + 4 ∧ (t.ctx c k).wait = .none) ∧
     (∀ (e : RqEnt) (rest : List RqEnt), s.waitsIn c k (.rqpop d) → (s.own c).rq = e :: rest →
       ∃ t, exec (.rqpopReturn c k) s = .next t ∧ (t.own c).rq = rest ∧
         (t.ctx c k).reg d = (if d = 0 then 0 else e.value) ∧ (t.ctx c k).wait = .none ∧
         (t.ctx c k).pc = (s.ctx c k).pc + 4) ∧
     (s.waitsIn c k (.rqpop d) → (s.own c).rq = [] → ((s.own c).queue 3).count = 0 →
       ∃ t, exec (.rqpopReturn c k) s = .next t ∧ (t.ctx c k).reg d = 0 ∧ (t.ctx c k).wait = .none ∧
         (t.ctx c k).rqLast = (s.ctx c k).rqLast ||| 0x10000 ∧ (t.ctx c k).pc = (s.ctx c k).pc + 4))

/-- 12_sequencer.md R285 and 19_faults.md R356: SEGE of the owner of an open segment places the closing marker in all five
queues and waits. Once every engine has passed it, equal measures close the segment with rd 0; unequal ones are measured
again while the windows still hold the words, with rd 1 and SEGCNT.OK counted when they then agree, and the segment-check
trap with SEGLAST and SEGCNT.TRAP counted when they do not; where an engine has issued more than 64 words in the segment
the trap is taken at once. -/
def Obligations.SegmentCheck : Prop :=
  ∀ (s : State) (c k : Nat) (g : Seg) (r d : BitVec 5) (sig : BitVec 32), (s.core c).owner = some k →
    (s.own c).seg = some g →
    (s.runsCtx c k → (s.own c).closing = false →
      ∃ t, exec (.sege r d) s = .next t ∧ (t.ctx c k).wait = .sege (((s.ctx c k).reg r).setWidth 32) false d ∧
        (∀ e, e < 5 → (t.own c).queue e =
          { (s.own c).queue e with items := ((s.own c).queue e).items ++ [.seg true] }) ∧
        t.ctx c k = { s.ctx c k with wait := (t.ctx c k).wait }) ∧
    (∀ again, s.waitsIn c k (.sege sig again d) → (upFrom 0 5).all (fun e => g.closed.contains e) = false →
      exec (.segeMeasure c k) s = .next s) ∧
    (s.waitsIn c k (.sege sig false d) → (upFrom 0 5).all (fun e => g.closed.contains e) = true →
      g.measured = (g.expect, sig) →
      ∃ t, exec (.segeMeasure c k) s = .next t ∧ (t.own c).seg = none ∧ (t.ctx c k).reg d = 0 ∧
        (t.ctx c k).segLast = sig ++ g.expect ∧ (t.ctx c k).wait = .none ∧ (t.ctx c k).pc = (s.ctx c k).pc + 4 ∧
        (t.core c).segOk = (s.core c).segOk) ∧
    (s.waitsIn c k (.sege sig false d) → (upFrom 0 5).all (fun e => g.closed.contains e) = true →
      g.measured ≠ (g.expect, sig) → (∀ e, e < 5 → tblGet 0 g.words e ≤ 64) →
      ∃ t, exec (.segeMeasure c k) s = .next t ∧ (t.ctx c k).wait = .sege sig true d ∧ 0 < (t.core c).segLaps ∧
        (t.own c).seg = some g ∧ (t.ctx c k).pc = (s.ctx c k).pc) ∧
    (s.waitsIn c k (.sege sig false d) → (upFrom 0 5).all (fun e => g.closed.contains e) = true →
      g.measured ≠ (g.expect, sig) → (∃ e, e < 5 ∧ 64 < tblGet 0 g.words e) →
      ∃ t o, exec (.segeMeasure c k) s = .next t ∧ (t.own c).seg = none ∧ (t.ctx c k).trapped = some o ∧
        o.r.cause = 0x27 ∧ (t.core c).segTrap = min ((s.core c).segTrap + 1) 0xFFFF ∧
        (t.ctx c k).segLast = g.measured.2 ++ g.measured.1 ∧ (t.ctx c k).pc = (s.ctx c k).pc) ∧
    (s.waitsIn c k (.sege sig true d) → (upFrom 0 5).all (fun e => g.closed.contains e) = true →
      (s.core c).segLaps = 0 → (s.own c).remeasured g = (g.expect, sig) →
      ∃ t, exec (.segeMeasure c k) s = .next t ∧ (t.own c).seg = none ∧
        (t.ctx c k).reg d = (if d = 0 then 0 else 1) ∧ (t.core c).segOk = min ((s.core c).segOk + 1) 0xFFFF ∧
        (t.ctx c k).pc = (s.ctx c k).pc + 4) ∧
    (s.waitsIn c k (.sege sig true d) → (upFrom 0 5).all (fun e => g.closed.contains e) = true →
      (s.core c).segLaps = 0 → (s.own c).remeasured g ≠ (g.expect, sig) →
      ∃ t o, exec (.segeMeasure c k) s = .next t ∧ (t.own c).seg = none ∧ (t.ctx c k).trapped = some o ∧
        o.r.cause = 0x27 ∧ (t.core c).segTrap = min ((s.core c).segTrap + 1) 0xFFFF ∧
        (t.ctx c k).segLast = ((s.own c).remeasured g).2 ++ ((s.own c).remeasured g).1 ∧
        (t.ctx c k).pc = (s.ctx c k).pc)

/-- 12_sequencer.md R262: an instruction of the owner's, executed by a context that is not the owner while another context is,
waits: the context asks for ownership, keeps its program counter, and nothing is placed in any queue.
19_faults.md R348, R349, 07_ring.md R163 and 12_sequencer.md R262: the highest waiting priority becomes the owner of engines
that nobody owns, with its own state at its reset values when it has no saved image; where no switch is due, none is made;
where one is due, at a fence or with nothing enqueued, the owner is saved, and the next owner takes over after the laps that
the save and its own restore take through port 8 (how many cycles a restore takes until its phase comes is free, and the
image is written and read whole in one step: log 34, log 5); a context that was saved is then restored, or ends where
a module of another profile saved it (22_assembler.md R392; log 105). -/
def Obligations.OwnershipAndSwitches : Prop :=
  (∀ (s : State) (c k j : Nat), s.runsCtx c k → (s.core c).owner = some j → j ≠ k → (s.ctx c k).want = none →
     ∀ i : Instr, ownerOnly i = true →
       ∃ t, exec i s = .next t ∧ t.own c = s.own c ∧ (t.ctx c k).want = some (s.core c).waitNo ∧
         t.ctx c k = { s.ctx c k with want := (t.ctx c k).want } ∧ OnlyCore c s t) ∧
  (∀ (s : State) (c k : Nat),
     ((s.core c).nextOwner = some k → (s.core c).owner = none → (s.own c).inFlight = false → (s.core c).stall = none →
       (s.core c).swap = none → (s.ctx c k).saved = false →
       ∃ t, exec (.ownershipPass c) s = .next t ∧ (t.core c).owner = some k ∧
         t.own c = { Own.freshWith (tblErase (s.own c).win 2) with off := (s.core c).p % 16 } ∧
         t.ctx c k = { s.ctx c k with want := none } ∧ SameBytes s t ∧ OnlyCoreDraws c s t) ∧
     ((s.core c).passNow = false → (s.core c).swapDone = false → exec (.ownershipPass c) s = .next s) ∧
     ((s.core c).switchNow = none → exec (.contextSwitch c) s = .next s) ∧
     ((s.core c).owner = none → (s.core c).swap = some { next := k, left := 0 } → (s.ctx c k).live = true →
       (s.ctx c k).want ≠ none →
       ((s.ctx c k).saved = false →
         ∃ t, exec (.ownershipPass c) s = .next t ∧ (t.core c).owner = some k ∧ (t.core c).swap = none ∧
           t.own c = { Own.freshWith (tblErase (s.own c).win 2) with off := (s.core c).p % 16 } ∧
           t.ctx c k = { s.ctx c k with want := none } ∧ SameBytes s t ∧ OnlyCore c s t) ∧
       ((s.ctx c k).saved = true → ((s.ctx c k).side.getD SaveSide.none).profile ≠ Config.profile →
         (s.core c).check true ((s.ctx c k).imageBase) imageSize = none →
         (s.core c).check false ((s.ctx c k).imageBase) imageSize = none →
         ∃ t, exec (.ownershipPass c) s = .next t ∧ (t.ctx c k).live = false ∧
           ∃ x ∈ t.held, x.cause = 0x40 ∧ x.status = 7 ∧ x.ctx = k) ∧
       ((s.ctx c k).saved = true → (s.ctx c k).aband = false →
         ((s.ctx c k).side.getD SaveSide.none).profile = Config.profile → s.memBad = [] → s.links = [] → s.memOk →
         (s.core c).check true ((s.ctx c k).imageBase) imageSize = none →
         (s.core c).check false ((s.ctx c k).imageBase) imageSize = none →
         (∀ a ∈ (s.core c).dpas ((s.ctx c k).imageBase) imageSize, tblFind s.mem a ≠ none) →
         ∃ t, exec (.ownershipPass c) s = .next t ∧ (t.core c).owner = some k ∧ (t.core c).swap = none ∧
           (t.ctx c k).saved = false ∧ (t.ctx c k).want = none ∧ (t.ctx c k).pc = (s.ctx c k).pc ∧
           (t.ctx c k).x = (s.ctx c k).x)) ∧
     ∀ o, (s.core c).nextOwner = some k → (s.core c).owner = some o → o ≠ k → (s.ctx c o).want = none →
       (s.ctx c k).saved = false → (s.own c).stack.ents = [] →
       (s.core c).check true ((s.ctx c o).imageBase) imageSize = none →
       (s.core c).check false ((s.ctx c o).imageBase) imageSize = none →
       ((s.core c).passNow = true →
         ∃ t, exec (.ownershipPass c) s = .next t ∧ (t.core c).owner = none ∧
           (t.core c).swap = some { next := k, left := 16 } ∧ (t.ctx c o).saved = true ∧
           (t.ctx c o).live = (s.ctx c o).live ∧ (t.ctx c o).pc = (s.ctx c o).pc ∧ (t.ctx c o).x = (s.ctx c o).x ∧
           (t.own c).ring = [] ∧ (t.own c).sigma = 0) ∧
       (∀ mask, (s.core c).switchNow = some mask →
         ∃ t, exec (.contextSwitch c) s = .next t ∧ (t.core c).owner = none ∧
           (t.core c).swap = some { next := k, left := 16 } ∧ (t.ctx c o).saved = true ∧
           (t.ctx c o).live = (s.ctx c o).live ∧ (t.ctx c o).pc = (s.ctx c o).pc ∧ (t.ctx c o).x = (s.ctx c o).x ∧
           (t.own c).ring = [] ∧ (t.own c).sigma = 0))

/-! ## The sequencer: waiting, groups, barriers, translation, code and the end of a task -/

/-- 12_sequencer.md R272: WAITC on a word of scratchpad or of device memory, by a context whose work has drained and has no
store on its way, be it the owner of the engines or not, compares and arms as one operation. The word equal to the low
bytes of rs2: the task retires, its context is free and owns nothing, and a continuation holds the address, the expected
value, the registers of WMASK and the next instruction. Unequal: rd 1. No continuation slot: rd 3.
12_sequencer.md R272: a WAITC whose context still has work in the queues waits, and WAITC_ARM makes the same comparison
when the work has drained. -/
def Obligations.WaitcComparesAndArms : Prop :=
  (∀ (wide : Bool) (b r d : BitVec 5) (s : State) (c k a n home v : Nat), s.runsCtx c k →
     a = ((s.ctx c k).reg r).toNat → n = (if wide then 8 else 4) → s.wordAt c a n home v → s.workDrained c k →
     (s.ctx c k).stores = [] →
     (64 ≤ s.contCount c →
       ∃ t, exec (if wide then .waitcD b r d else .waitcW b r d) s = .next t ∧
         (t.ctx c k).reg d = (if d = 0 then 0 else 3) ∧ (t.ctx c k).pc = (s.ctx c k).pc + 4 ∧ t.conts = s.conts ∧
         SameBytes s t) ∧
     (s.contCount c < 64 → v ≠ ((s.ctx c k).reg b).toNat % 2 ^ (8 * n) →
       ∃ t, exec (if wide then .waitcD b r d else .waitcW b r d) s = .next t ∧
         (t.ctx c k).reg d = (if d = 0 then 0 else 1) ∧ (t.ctx c k).pc = (s.ctx c k).pc + 4 ∧ t.conts = s.conts ∧
         SameBytes s t) ∧
     (s.contCount c < 64 → v = ((s.ctx c k).reg b).toNat % 2 ^ (8 * n) →
       ∃ t e, exec (if wide then .waitcD b r d else .waitcW b r d) s = .next t ∧
         t.conts = s.conts ++ [e] ∧ e.core = c ∧ e.scratch = inWindow a ∧ e.addr = home ∧ e.wide = wide ∧
         e.expect = (s.ctx c k).reg b ∧ e.pc = (s.ctx c k).pc + 4 ∧ e.rd = d ∧ e.woken = none ∧
         e.task = (s.ctx c k).task ∧ e.prio = (s.ctx c k).prio ∧ e.groups = (s.ctx c k).groups ∧
         (∀ i, tblGet 0 e.x i = if (s.ctx c k).wmask.getLsbD i ∧ i ≠ 0 then tblGet 0 (s.ctx c k).x i else 0) ∧
         t.ctx c k = Ctx.reset ∧ (t.core c).owner ≠ some k ∧
         ((s.core c).owner ≠ some k ∨ (s.own c).stack.ents = [] → SameBytes s t))) ∧
  (∀ (wide : Bool) (addr expect : Word) (d : BitVec 5) (s : State) (c k n home v : Nat),
     s.waitsIn c k (.waitc wide addr expect d) → n = (if wide then 8 else 4) →
     ((s.core c).jobsOf k ≠ [] → exec (.waitcArm c k) s = .next s) ∧
     ((s.core c).owner = some k → (∃ e, e < 5 ∧ ((s.own c).queue e).count ≠ 0) → exec (.waitcArm c k) s = .next s) ∧
     (s.wordAt c addr.toNat n home v → s.workDrained c k → (s.ctx c k).stores = [] → s.contCount c < 64 →
       ∃ t, exec (.waitcArm c k) s = .next t ∧
         if v = expect.toNat % 2 ^ (8 * n) then
           t.ctx c k = Ctx.reset ∧ (t.core c).owner ≠ some k ∧ ∃ e, t.conts = s.conts ++ [e] ∧ e.core = c ∧
             e.scratch = inWindow addr.toNat ∧ e.addr = home ∧ e.expect = expect
         else
           (t.ctx c k).reg d = (if d = 0 then 0 else 1) ∧ (t.ctx c k).wait = .none ∧
             (t.ctx c k).pc = (s.ctx c k).pc + 4 ∧ t.conts = s.conts))

/-- 12_sequencer.md R275: SIGNL on a scratchpad word, at banks that no burst holds, by a context with no store on its way:
the low bytes of rs2 are stored, every continuation of the core that still waits on a word with a byte in common is woken
as signalled, whatever the value, and rd is their number; every other byte is as before.
12_sequencer.md R273 and 16_scheduling.md R316: the oldest woken continuation of a core whose task queue has room enters
it as a new task at its saved priority, with the wake in rd, and its slot is free. -/
def Obligations.SignalsAndContinuations : Prop :=
  (∀ (wide : Bool) (b r d : BitVec 5) (s : State) (c k a n : Nat), s.runsCtx c k → s.spOk c →
     a = ((s.ctx c k).reg r).toNat → n = (if wide then 8 else 4) → a % n = 0 → inWindow a = true →
     a % 2 ^ 19 + n ≤ 0x7FFC0 → (s.ctx c k).stores = [] → (s.core c).banksFree (a % 2 ^ 19) n = true →
     ∃ t, exec (if wide then .signlD b r d else .signlW b r d) s = .next t ∧
       (∀ i, i < n → some ((t.core c).spByte (a % 2 ^ 19 + i)) = (bytesLe n ((s.ctx c k).reg b).toNat)[i]?) ∧
       (∀ i, (i < a % 2 ^ 19 ∨ a % 2 ^ 19 + n ≤ i) → (t.core c).spByte i = (s.core c).spByte i) ∧
       (∀ x, x ≠ c → (t.core x).sp = (s.core x).sp) ∧ t.mem = s.mem ∧
       (t.ctx c k).reg d =
         (if d = 0 then 0
           else BitVec.ofNat 64 (s.conts.filter fun e => e.watches true c (a % 2 ^ 19) n).length) ∧
       t.conts = s.conts.map (fun e => if e.watches true c (a % 2 ^ 19) n then { e with woken := some 2 } else e) ∧
       (t.ctx c k).pc = (s.ctx c k).pc + 4 ∧ OnlyPcRegOf c k d s t) ∧
  (∀ (s : State) (id w : Nat) (e : Cont), s.conts.find? (fun y => y.id == id) = some e → e.woken = some w →
     (s.wokenOf e.core).head? = some e → (s.core e.core).taskQ.length < 256 →
     ∃ t q, exec (.continuationEnqueue id) s = .next t ∧
       (t.core e.core).taskQ = (s.core e.core).taskQ ++ [q] ∧ q.entry = e.pc ∧ q.prio = e.prio ∧ q.task = e.task ∧
       q.kernel = e.kernel ∧ q.groups = e.groups ∧
       (∀ i, tblGet 0 q.x i = if i = e.rd.toNat ∧ e.rd ≠ 0 then BitVec.ofNat 64 w else tblGet 0 e.x i) ∧
       t.conts = s.conts.filter (fun y => y.id != id) ∧ OnlyCore e.core { s with conts := t.conts } t)

/-- 12_sequencer.md R276: the results of JOIN and LEAVE, and the membership they leave. -/
def Obligations.JoinAndLeave : Prop :=
  ∀ (r d : BitVec 5) (s : State) (c k : Nat), s.runsCtx c k →
    (wfld ((s.ctx c k).reg r) 16 48 ≠ 0 →
      ∃ t u, exec (.join r d) s = .next t ∧ exec (.leave r d) s = .next u ∧ t = u ∧ t.groups = s.groups ∧
        (t.ctx c k).reg d = (if d = 0 then 0 else BitVec.ofInt 64 (-4)) ∧ OnlyPcReg c k d s t) ∧
    (wfld ((s.ctx c k).reg r) 16 48 = 0 → ((s.ctx c k).reg r).setWidth 16 ∉ (s.ctx c k).groups →
      (∃ t, exec (.leave r d) s = .next t ∧ (t.ctx c k).reg d = (if d = 0 then 0 else BitVec.ofInt 64 (-3)) ∧
        OnlyPcReg c k d s t) ∧
      (s.group? (s.partOf c) (((s.ctx c k).reg r).setWidth 16) = none →
        (s.groups.filter fun g => g.part == s.partOf c).length < 4096 →
        ∃ t, exec (.join r d) s = .next t ∧ (t.ctx c k).reg d = (if d = 0 then 0 else 1) ∧
          t.groups = s.groups ++
            [{ part := s.partOf c, num := ((s.ctx c k).reg r).setWidth 16, members := [(s.ctx c k).task] }] ∧
          (t.ctx c k).groups = (s.ctx c k).groups ++ [((s.ctx c k).reg r).setWidth 16] ∧
          (t.ctx c k).pc = (s.ctx c k).pc + 4) ∧
      (s.group? (s.partOf c) (((s.ctx c k).reg r).setWidth 16) = none →
        4096 ≤ (s.groups.filter fun g => g.part == s.partOf c).length →
        ∃ t, exec (.join r d) s = .next t ∧ (t.ctx c k).reg d = (if d = 0 then 0 else BitVec.ofInt 64 (-1)) ∧
          OnlyPcReg c k d s t) ∧
      (∀ g, s.group? (s.partOf c) (((s.ctx c k).reg r).setWidth 16) = some g → g.members.length < 65535 →
        ∃ t, exec (.join r d) s = .next t ∧
          (t.ctx c k).reg d = (if d = 0 then 0 else BitVec.ofNat 64 (g.members.length + 1)) ∧
          t.members (s.partOf c) (((s.ctx c k).reg r).setWidth 16) = g.members ++ [(s.ctx c k).task] ∧
          (t.ctx c k).pc = (s.ctx c k).pc + 4) ∧
      (∀ g, s.group? (s.partOf c) (((s.ctx c k).reg r).setWidth 16) = some g → 65535 ≤ g.members.length →
        ∃ t, exec (.join r d) s = .next t ∧ (t.ctx c k).reg d = (if d = 0 then 0 else BitVec.ofInt 64 (-6)) ∧
          OnlyPcReg c k d s t)) ∧
    (wfld ((s.ctx c k).reg r) 16 48 = 0 → ((s.ctx c k).reg r).setWidth 16 ∈ (s.ctx c k).groups →
      (∃ t, exec (.join r d) s = .next t ∧ t.groups = s.groups ∧ OnlyPcReg c k d s t ∧
        (t.ctx c k).reg d =
          (if d = 0 then 0
            else BitVec.ofNat 64 (s.members (s.partOf c) (((s.ctx c k).reg r).setWidth 16)).length)) ∧
      ∃ t, exec (.leave r d) s = .next t ∧
        (s.ctx c k).task ∉ t.members (s.partOf c) (((s.ctx c k).reg r).setWidth 16) ∧
        (t.ctx c k).reg d =
          (if d = 0 then 0
            else BitVec.ofNat 64 (t.members (s.partOf c) (((s.ctx c k).reg r).setWidth 16)).length) ∧
        ((s.ctx c k).reg r).setWidth 16 ∉ (t.ctx c k).groups ∧ (t.ctx c k).pc = (s.ctx c k).pc + 4)

/-- 12_sequencer.md R277 and 16_scheduling.md R320: SSTEP returns −3 to a task that is no member and −2 on a tag not bound to
the group. Else, with the context drained, its stores performed and no exchange running, it enters the barrier and waits;
the entry of the last member fixes the release 64 ticks later.
16_scheduling.md R320, R322 and 17_program_gemv.md R330: at its release the barrier of a tag with no plan set completes:
every SSTEP that has entered returns 0, no line of a page of class DIE or wider is left to serve a member's later load,
and the barrier is empty again. Before its release it does nothing. -/
def Obligations.SuperstepBarrier : Prop :=
  (∀ (tag : BitVec 3) (r d : BitVec 5) (s : State) (c k : Nat) (g : BitVec 16), s.runsCtx c k →
     g = ((s.ctx c k).reg r).setWidth 16 →
     (g ∉ (s.ctx c k).groups →
       ∃ t, exec (.sstep tag r d) s = .next t ∧ (t.ctx c k).reg d = (if d = 0 then 0 else BitVec.ofInt 64 (-3)) ∧
         OnlyPcReg c k d s t) ∧
     (g ∈ (s.ctx c k).groups → s.bound tag.toNat ≠ some (s.partOf c, g) →
       ∃ t, exec (.sstep tag r d) s = .next t ∧ (t.ctx c k).reg d = (if d = 0 then 0 else BitVec.ofInt 64 (-2)) ∧
         OnlyPcReg c k d s t) ∧
     (g ∈ (s.ctx c k).groups → s.bound tag.toNat = some (s.partOf c, g) → (s.core c).jobsOf k = [] →
       (s.core c).faults = [] → (s.core c).owner ≠ some k → (s.ctx c k).saved = false → (s.ctx c k).stores = [] →
       (s.tag tag.toNat).t0 = none → (s.tag tag.toNat).tlast = none →
       ∃ t, exec (.sstep tag r d) s = .next t ∧
         (t.tag tag.toNat).entered = (s.tag tag.toNat).entered ++ [(c, k)] ∧
         (t.ctx c k).wait = .sstep tag.toNat g true d ∧ (t.ctx c k).pc = (s.ctx c k).pc ∧
         ((∀ m ∈ s.members (s.partOf c) g,
             m = (s.ctx c k).task ∨ ∃ e ∈ (s.tag tag.toNat).entered, (s.ctx e.1 e.2).task = m) →
           bit (s.hubGet (offXrt tag.toNat)).toNat 63 = false →
           (t.tag tag.toNat).tlast = some s.ftick ∧ (t.tag tag.toNat).release = some (s.ftick + 64)))) ∧
  (∀ (s : State) (tag p rel : Nat) (g : BitVec 16), s.bound tag = some (p, g) → (s.tag tag).release = some rel →
     (s.ftick < rel → exec (.barrierComplete tag) s = .next s) ∧
     (rel ≤ s.ftick → s.setsFor tag p g = [] → (s.tag tag).entered.Nodup →
       ∃ t, exec (.barrierComplete tag) s = .next t ∧ (t.tag tag).entered = [] ∧ (t.tag tag).release = none ∧
         ∀ e ∈ (s.tag tag).entered, ∀ u grp rd, (s.ctx e.1 e.2).wait = .sstep u grp true rd →
           (t.ctx e.1 e.2).reg rd = 0 ∧ (t.ctx e.1 e.2).wait = .none ∧
             (t.ctx e.1 e.2).pc = (s.ctx e.1 e.2).pc + 4 ∧
             ∀ l ∈ (t.core e.1).dcache, l.2.2.toNat < 2))

/-- 12_sequencer.md R278: EXWAIT returns 0 when no exchange runs on its tag, and waits while one runs whose deadlines or
deliveries to the core are open; once they are over it returns the number of the core's late deliveries.
12_sequencer.md R279: EXPLAN returns −3 to a task that is no member, −5 while an exchange runs, −1 for a set that cannot
be read or is malformed, with the installed set unchanged, and else installs what it has read and returns 0. The order in
which −3, −5 and −1 are tried, and that a set that cannot be read takes no trap, are log 62's reading. -/
def Obligations.ExchangePlansAndWaits : Prop :=
  (∀ (tag : BitVec 3) (d : BitVec 5) (s : State) (c k : Nat),
     (s.runsCtx c k → (s.tag tag.toNat).t0 = none →
       ∃ t, exec (.exwait tag d) s = .next t ∧ (t.ctx c k).reg d = 0 ∧ (t.ctx c k).pc = (s.ctx c k).pc + 4 ∧
         OnlyPcReg c k d s t) ∧
     (∀ t0, s.runsCtx c k → (s.tag tag.toNat).t0 = some t0 → (s.tag tag.toNat).overFor s.ftick c = false →
       ∃ t, exec (.exwait tag d) s = .next t ∧ t.ctx c k = { s.ctx c k with wait := .exwait tag.toNat d } ∧
         OnlyCtx c k s t) ∧
     (s.waitsIn c k (.exwait tag.toNat d) → (s.tag tag.toNat).overFor s.ftick c = false →
       exec (.exwaitReturn c k) s = .next s) ∧
     (s.waitsIn c k (.exwait tag.toNat d) → (s.tag tag.toNat).overFor s.ftick c = true →
       ∃ t, exec (.exwaitReturn c k) s = .next t ∧
         (t.ctx c k).reg d = (if d = 0 then 0 else BitVec.ofNat 64 (tblGet 0 (s.tag tag.toNat).late c)) ∧
         (t.ctx c k).wait = .none ∧ (t.ctx c k).pc = (s.ctx c k).pc + 4 ∧ OnlyCtx c k s t)) ∧
  (∀ (tag : BitVec 3) (b r d : BitVec 5) (s : State) (c k : Nat) (g : BitVec 16), s.runsCtx c k →
     g = ((s.ctx c k).reg b).setWidth 16 →
     (g ∉ (s.ctx c k).groups →
       ∃ t, exec (.explan tag b r d) s = .next t ∧
         (t.ctx c k).reg d = (if d = 0 then 0 else BitVec.ofInt 64 (-3)) ∧ OnlyPcReg c k d s t) ∧
     (g ∈ (s.ctx c k).groups → (s.tag tag.toNat).t0 ≠ none →
       ∃ t, exec (.explan tag b r d) s = .next t ∧
         (t.ctx c k).reg d = (if d = 0 then 0 else BitVec.ofInt 64 (-5)) ∧ OnlyPcReg c k d s t) ∧
     (g ∈ (s.ctx c k).groups → (s.tag tag.toNat).t0 = none → ((s.ctx c k).reg r).toNat % 8 ≠ 0 →
       ∃ t, exec (.explan tag b r d) s = .next t ∧ t.tags = s.tags ∧
         (t.ctx c k).reg d = (if d = 0 then 0 else BitVec.ofInt 64 (-1)) ∧ OnlyPcReg c k d s t) ∧
     (∀ u, g ∈ (s.ctx c k).groups → (s.tag tag.toNat).t0 = none →
       s.readSet c k ((s.ctx c k).reg r).toNat (s.memberCores (s.partOf c) g) = (.error .unreadable, u) →
       ∃ t, exec (.explan tag b r d) s = .next t ∧ t.tags = s.tags ∧
         (t.ctx c k).reg d = (if d = 0 then 0 else BitVec.ofInt 64 (-1)) ∧ (t.ctx c k).pc = (s.ctx c k).pc + 4 ∧
         OnlyPcRegOf c k d s t ∧ SameBytes s t) ∧
     ∀ ps u, g ∈ (s.ctx c k).groups → (s.tag tag.toNat).t0 = none →
       s.readSet c k ((s.ctx c k).reg r).toNat (s.memberCores (s.partOf c) g) = (.ok ps, u) →
       ∃ t, exec (.explan tag b r d) s = .next t ∧ (t.ctx c k).reg d = 0 ∧
         tblFind (t.tag tag.toNat).sets c = some { part := s.partOf c, group := g, plans := ps } ∧
         (∀ x, x ≠ c → tblFind (t.tag tag.toNat).sets x = tblFind (s.tag tag.toNat).sets x) ∧
         t.mem = s.mem ∧ (t.ctx c k).pc = (s.ctx c k).pc + 4)

/-- 12_sequencer.md R280 and 04_device_memory.md R91: TTLOAD on a quiet core replaces the locked table by the live records of
an image of which every live record passes, with rd 0; where one fails it leaves the table as it was, with a status that is
not 0 and holds the number of the first that does. On a core that is not quiet it waits, and while a link on the way to the
image retrains (log 57). The cause in a status (log 60) is the model's choice.
04_device_memory.md R95 to R97: PROBE begins to wait; each page walk of a quiet core takes the next page; the walk that
reaches the end of the range returns the first leaf, one before it goes on to the page behind it, and a page that has no
leaf, or whose leaf does not allow the access, takes the probe fault with its cause at its address. A walk waits while a
link on its way retrains (log 57). -/
def Obligations.TranslationLoadsAndProbes : Prop :=
  (∀ (b r d : BitVec 5) (dva n : Nat) (s : State) (c k : Nat),
     (∀ (recs : List (Word × Word)), recs.length ≤ 512 →
       (∀ (i : Nat) (e : Word × Word), recs[i]? = some e →
         s.walkWord (dieOf c) (s.partOf c) (dva + 16 * i) = some e.1 ∧
           s.walkWord (dieOf c) (s.partOf c) (dva + 16 * i + 8) = some e.2) →
       let live := fun e : Word × Word => e.1.getLsbD 0
       let passes := fun i => ∀ e, recs[i]? = some e → live e = true →
         s.recordPasses (s.partOf c) ((recs.take i).filter live) e
       ((∀ i, passes i) → s.readImage (dieOf c) (s.partOf c) dva recs.length 0 [] = .ok (recs.filter live)) ∧
       ∀ i, i < recs.length → ¬ passes i → (∀ j, j < i → passes j) →
         ∃ cause, 0 < cause ∧ s.readImage (dieOf c) (s.partOf c) dva recs.length 0 [] = .error (2 ^ 16 * cause + i)) ∧
     (s.runsCtx c k → dva = ((s.ctx c k).reg r).toNat → n = ((s.ctx c k).reg b).toNat →
       (dva % 16 ≠ 0 ∨ 2 ^ 52 ≤ dva ∨ n = 0 ∨ 512 < n →
         ∃ t, exec (.ttload b r d) s = .next t ∧ TrapTaken c k 0x20 ((encodeSeq (.ttload b r d)).getD 0) 0 s t) ∧
       (dva % 16 = 0 → dva < 2 ^ 52 → 0 < n → n ≤ 512 →
         (s.core c).quiet = false ∨ s.rangeHeld (dieOf c) (s.partOf c) dva (16 * n) = true →
         ∃ t, exec (.ttload b r d) s = .next t ∧ t.ctx c k = { s.ctx c k with wait := .ttload dva n d } ∧
           OnlyCtx c k s t) ∧
       (dva % 16 = 0 → dva < 2 ^ 52 → 0 < n → n ≤ 512 → (s.core c).quiet = true →
         s.rangeHeld (dieOf c) (s.partOf c) dva (16 * n) = false →
         ∀ tt, s.readImage (dieOf c) (s.partOf c) dva n 0 [] = .ok tt →
         ∃ t, exec (.ttload b r d) s = .next t ∧ (t.core c).tt = tt ∧ (t.ctx c k).reg d = 0 ∧
           (t.ctx c k).pc = (s.ctx c k).pc + 4 ∧ SameBytes s t ∧ OnlyPcRegOf c k d s t)) ∧
     (s.waitsIn c k (.ttload dva n d) →
       ((s.core c).quiet = false ∨ s.rangeHeld (dieOf c) (s.partOf c) dva (16 * n) = true →
         exec (.ttloadReplace c k) s = .next s) ∧
       (∀ tt, (s.core c).quiet = true → s.rangeHeld (dieOf c) (s.partOf c) dva (16 * n) = false →
         s.readImage (dieOf c) (s.partOf c) dva n 0 [] = .ok tt →
         ∃ t, exec (.ttloadReplace c k) s = .next t ∧ (t.core c).tt = tt ∧ (t.ctx c k).reg d = 0 ∧
           (t.ctx c k).wait = .none ∧ (t.ctx c k).pc = (s.ctx c k).pc + 4) ∧
       ∀ e, (s.core c).quiet = true → s.rangeHeld (dieOf c) (s.partOf c) dva (16 * n) = false →
         s.readImage (dieOf c) (s.partOf c) dva n 0 [] = .error e →
         ∃ t, exec (.ttloadReplace c k) s = .next t ∧ (t.core c).tt = (s.core c).tt ∧
           (t.ctx c k).reg d = (if d = 0 then 0 else BitVec.ofNat 64 e) ∧ (t.ctx c k).wait = .none ∧
           (t.ctx c k).pc = (s.ctx c k).pc + 4)) ∧
  (∀ (s : State) (c k : Nat),
     (∀ b r d : BitVec 5, s.runsCtx c k → wfld ((s.ctx c k).reg b) 52 11 = 0 →
       ∃ t, exec (.probe b r d) s = .next t ∧ OnlyCtx c k s t ∧
         t.ctx c k =
           { s.ctx c k with
             wait := .probe ((s.ctx c k).reg r).toNat ((s.ctx c k).reg r).toNat
               (((s.ctx c k).reg r).toNat + max (wfld ((s.ctx c k).reg b) 0 52) 1) (bit ((s.ctx c k).reg b).toNat 63) 0
               d }) ∧
     ∀ (base next stop : Nat) (wr : Bool) (first : Word) (d : BitVec 5),
       s.waitsIn c k (.probe base next stop wr first d) → (s.core c).quiet = true →
       (s.walkHeld (dieOf c) (s.partOf c) next = true → exec (.pageWalk c k) s = .next s) ∧
       (s.walkHeld (dieOf c) (s.partOf c) next = false →
       (∀ w l, s.walk (dieOf c) (s.partOf c) next = .leaf w l → leafReads w = true → (wr = true → leafWrites w = true) →
         stop ≤ next + (2 ^ pageBits (wfld w 4 3) - next % 2 ^ pageBits (wfld w 4 3)) →
         ∃ t, exec (.pageWalk c k) s = .next t ∧
           (t.ctx c k).reg d = (if d = 0 then 0 else if next = base then w else first) ∧
           (t.ctx c k).wait = .none ∧ (t.ctx c k).pc = (s.ctx c k).pc + 4 ∧ OnlyCtx c k s t) ∧
       (∀ w l, s.walk (dieOf c) (s.partOf c) next = .leaf w l → leafReads w = true → (wr = true → leafWrites w = true) →
         next + (2 ^ pageBits (wfld w 4 3) - next % 2 ^ pageBits (wfld w 4 3)) < stop →
         ∃ t, exec (.pageWalk c k) s = .next t ∧ OnlyCtx c k s t ∧
           t.ctx c k =
             { s.ctx c k with
               wait := .probe base (next + (2 ^ pageBits (wfld w 4 3) - next % 2 ^ pageBits (wfld w 4 3))) stop wr
                 (if next = base then w else first) d }) ∧
       (∀ w l, s.walk (dieOf c) (s.partOf c) next = .leaf w l → leafReads w = false ∨ wr = true ∧ leafWrites w = false →
         ∃ t o, exec (.pageWalk c k) s = .next t ∧ (t.ctx c k).trapped = some o ∧ o.r.cause = 0x28 ∧ o.r.status = 3 ∧
           o.r.addr = BitVec.ofNat 64 next ∧ (t.ctx c k).pc = (s.ctx c k).pc) ∧
       ∀ cause, s.walk (dieOf c) (s.partOf c) next = .fail cause →
         ∃ t o, exec (.pageWalk c k) s = .next t ∧ (t.ctx c k).trapped = some o ∧ o.r.cause = 0x28 ∧
           o.r.status = BitVec.ofNat 32 cause ∧ o.r.addr = BitVec.ofNat 64 next ∧ (t.ctx c k).pc = (s.ctx c k).pc))

/-- 12_sequencer.md R283 and R284. PIN of lines that are all mapped and readable, with capacity for them, pins each; rd is the
number of the context's pins at the level on lines of the range. At the first line for which a full level has no place it
stops, with bit 63 set. UNPIN removes the context's pins on the lines of the range and counts them; IPREF changes no pin
and no register; a line is evicted only where no pin locks it. That pins name
and are counted by physical lines, and that soft pins lock nothing and count to no capacity, is log 91's reading; that UNPIN
passes over lines that no entry maps, log 61's. -/
def Obligations.CodePins : Prop :=
  ∀ (lvl : Bool) (s : State) (c k : Nat),
    (∀ (b r d : BitVec 5) (lo n : Nat), s.runsCtx c k →
      rangeLines ((s.ctx c k).reg r).toNat ((s.ctx c k).reg b).toNat = (lo, n) →
      (∀ i, i < n → (s.core c).check false (128 * (lo + i)) 128 = none) → (s.locked c lvl).length + n ≤ lockable lvl →
      ∃ t, exec (.pin lvl b r d) s = .next t ∧
        (∀ i, i < n → { die := lvl, line := (s.core c).lineKey (lo + i), soft := false } ∈ (t.ctx c k).pins) ∧
        (∀ e ∈ (s.ctx c k).pins, e.soft = false → e ∈ (t.ctx c k).pins) ∧
        (t.ctx c k).reg d = (if d = 0 then 0 else BitVec.ofNat 64 (t.pinsOn c k lvl lo n).length) ∧
        (t.ctx c k).pc = (s.ctx c k).pc + 4 ∧ SameBytes s t) ∧
    (∀ (b r d : BitVec 5) (lo n : Nat), s.runsCtx c k →
      rangeLines ((s.ctx c k).reg r).toNat ((s.ctx c k).reg b).toNat = (lo, n) → 0 < n →
      (s.core c).check false (128 * lo) 128 = none → (s.core c).lineKey lo ∉ s.locked c lvl →
      lockable lvl ≤ (s.locked c lvl).length →
      ∃ t, exec (.pin lvl b r d) s = .next t ∧ OnlyPcReg c k d s t ∧ (t.ctx c k).pc = (s.ctx c k).pc + 4 ∧
        (t.ctx c k).reg d = (if d = 0 then 0 else BitVec.ofNat 64 ((s.pinsOn c k lvl lo n).length + 2 ^ 63))) ∧
    (∀ (b r d : BitVec 5) (lo n : Nat), s.runsCtx c k →
      rangeLines ((s.ctx c k).reg r).toNat ((s.ctx c k).reg b).toNat = (lo, n) →
      ∃ t, exec (.unpin lvl b r d) s = .next t ∧
        (∀ e, e ∈ (t.ctx c k).pins ↔
          e ∈ (s.ctx c k).pins ∧ ¬ (e.die = lvl ∧ (s.core c).inRange lo n e.line = true)) ∧
        (t.ctx c k).reg d = (if d = 0 then 0 else BitVec.ofNat 64 (s.pinsOn c k lvl lo n).length) ∧
        (t.ctx c k).pc = (s.ctx c k).pc + 4 ∧ SameBytes s t) ∧
    (∀ b r : BitVec 5, s.runsCtx c k →
      ∃ t, exec (.ipref lvl b r) s = .next t ∧ t.ctx c k = { s.ctx c k with pc := (s.ctx c k).pc + 4 } ∧
        SameBytes s t) ∧
    ∀ line : Nat,
      (line ∈ s.locked c lvl → exec (.softPinEviction c lvl line) s = .next s) ∧
      (line ∉ s.locked c lvl → ∃ t, exec (.softPinEviction c lvl line) s = .next t ∧
        (if lvl then (dieOf c, line) ∉ t.dlines else tblFind (t.core c).icache line = none) ∧ SameBytes s t)

/-- 12_sequencer.md R286 and R261: TRAPR 0 of a context whose work has drained frees the context, releases the engines and
takes the task out of its groups; with work left it waits, and TASK_END does the same when the work has drained. Stores
on their way still reach their homes.
12_sequencer.md R287: HALT.D does nothing without a debugger; with one attached to the core the context stops before the
next instruction and its code is reported. -/
def Obligations.TaskEndAndHalt : Prop :=
  (∀ (s : State) (c k : Nat), (s.core c).faults = [] →
     (s.runsCtx c k → (s.core c).jobsOf k = [] →
       ((s.core c).owner = some k → ∀ e, e < 5 → ((s.own c).queue e).count = 0) →
       ((s.core c).owner ≠ some k → (s.ctx c k).saved = false) →
       ∃ t, exec .traprEnd s = .next t ∧ t.ctx c k = Ctx.reset ∧
         (t.core c).posted = (s.core c).posted ++ (s.ctx c k).stores ∧ (t.core c).owner ≠ some k ∧
         (∀ g ∈ (s.ctx c k).groups, (s.ctx c k).task ∉ t.members (s.partOf c) g) ∧ t.mem = s.mem) ∧
     (s.runsCtx c k → (s.core c).jobsOf k ≠ [] →
       ∃ t, exec .traprEnd s = .next t ∧ t.ctx c k = { s.ctx c k with wait := .taskEnd } ∧ OnlyCtx c k s t) ∧
     (s.waitsIn c k .taskEnd → (s.core c).jobsOf k = [] →
       ((s.core c).owner = some k → ∀ e, e < 5 → ((s.own c).queue e).count = 0) →
       ((s.core c).owner ≠ some k → (s.ctx c k).saved = false) →
       ∃ t, exec (.taskEnd c k) s = .next t ∧ t.ctx c k = Ctx.reset ∧
         (t.core c).posted = (s.core c).posted ++ (s.ctx c k).stores ∧ (t.core c).owner ≠ some k ∧ ∀ g ∈ (s.ctx c k).groups, (s.ctx c k).task ∉ t.members (s.partOf c) g)) ∧
  (∀ (code : BitVec 12) (s : State) (c k : Nat), s.runsCtx c k →
     (bit (s.hubGet (offDbgctl c)).toNat 2 = false →
       ∃ t, exec (.haltD code) s = .next t ∧ (t.ctx c k).pc = (s.ctx c k).pc + 4 ∧ OnlyPcReg c k 0 s t) ∧
     (bit (s.hubGet (offDbgctl c)).toNat 2 = true →
       ∃ t, exec (.haltD code) s = .next t ∧
         t.ctx c k = { s.ctx c k with pc := (s.ctx c k).pc + 4, wait := .halted code } ∧
         t.out = s.out ++ [.haltCode c k code] ∧ SameBytes s t))

/-! ## Launching, faults, the hub registers and the service of the module -/

/-- 16_scheduling.md R308 to R312, R314 and 19_faults.md R337: the launch unit of a die takes a packet of the queue whose turn
it is, an enabled one that is not parked, not halted and not empty, and goes on to the next queue. A wrong SEQ is read
again 1,600 ticks later, and parks the queue as EARLY at the eighth re-read. A packet that cannot be read, or is malformed,
is passed as BAD with a record of cause 0x60. A good packet begins to place its tasks, and halts the queue where a
breakpoint matches it. While a link on the way to the packet retrains it is not read (log 57). -/
def Obligations.LaunchPacketRead : Prop :=
  ∀ (d q : Nat) (s u : State), d < 4 → q < 16 →
    u = { s with lqTurn := tblSet 0 s.lqTurn d ((q + 1) % 16), draws := s.draws + 1 } →
    (s.lqNext d ≠ some q → exec (.launchPacket d q) s = .next s) ∧
    (s.lqNext d = some q → s.rangeHeld 4 (s.lqPart d q) (s.lqAddr d q) 64 = true →
      exec (.launchPacket d q) s = .next { s with lqTurn := u.lqTurn }) ∧
    (s.rangeHeld 4 (s.lqPart d q) (s.lqAddr d q) 64 = false →
    (∀ v, s.lqNext d = some q →
      State.walkWord { s with lqTurn := u.lqTurn } 4 (s.lqPart d q) (s.lqAddr d q + 56) = some v →
      wfld v 0 32 ≠ (s.lqHead d q + 1) % 2 ^ 32 →
      ∃ t, exec (.launchPacket d q) s = .next t ∧ (t.lqPos d q).nextRead = some (s.ftick + 1600) ∧
        (t.lqPos d q).rereads = 0 ∧ t.lqTurn = u.lqTurn ∧ t.hub = s.hub ∧ t.mem = s.mem) ∧
    (s.lqNext d = some q →
      State.walkWord { s with lqTurn := u.lqTurn } 4 (s.lqPart d q) (s.lqAddr d q + 56) = none →
      ∃ t r, exec (.launchPacket d q) s = .next t ∧ t.held = s.held ++ [r] ∧ r.cause = 0x60 ∧ r.eng = 6 ∧
        r.addr = BitVec.ofNat 64 (s.lqAddr d q) ∧ t.lqHead d q = (s.lqHead d q + 1) % 2 ^ 32 ∧
        wfld (t.hubGet (offLqstat d q)) 8 8 = min (wfld (s.hubGet (offLqstat d q)) 8 8 + 1) 255) ∧
    (∀ (v : Word) (ws : List Word), s.lqNext d = some q →
      State.walkWord { s with lqTurn := u.lqTurn } 4 (s.lqPart d q) (s.lqAddr d q + 56) = some v →
      wfld v 0 32 = (s.lqHead d q + 1) % 2 ^ 32 → ws.length = 7 →
      (∀ i, i < 7 → u.walkWord 4 (s.lqPart d q) (s.lqAddr d q + 8 * i) = ws[i]?) →
      (u.packetGood d q (ws ++ [v]) = true →
        ∃ t, exec (.launchPacket d q) s = .next t ∧ (t.lqPos d q).placing = some (ws ++ [v], 0) ∧
          t.lqHead d q = s.lqHead d q ∧ t.lqTurn = u.lqTurn ∧ t.held = s.held ∧ t.mem = s.mem ∧ t.cores = s.cores ∧
          (u.breakAt d q (ws ++ [v]) = none → t.hub = s.hub) ∧
          ∀ n, u.breakAt d q (ws ++ [v]) = some n → bit (t.hubGet (offLqstat d q)).toNat 5 = true ∧
            wfld (t.hubGet (offLqstat d q)) 6 2 = n) ∧
      (u.packetGood d q (ws ++ [v]) = false →
        ∃ t r, exec (.launchPacket d q) s = .next t ∧ t.held = s.held ++ [r] ∧ r.cause = 0x60 ∧
          t.lqHead d q = (s.lqHead d q + 1) % 2 ^ 32 ∧ (t.lqPos d q).placing = (s.lqPos d q).placing)) ∧
    ∀ n v, (s.lqPos d q).nextRead = some n → n ≤ s.ftick →
      s.walkWord 4 (s.lqPart d q) (s.lqAddr d q + 56) = some v → wfld v 0 32 ≠ (s.lqHead d q + 1) % 2 ^ 32 →
      ∃ t, exec (.launchSeqReread d q) s = .next t ∧
        if (s.lqPos d q).rereads < 7 then
          (t.lqPos d q).rereads = (s.lqPos d q).rereads + 1 ∧ (t.lqPos d q).nextRead = some (n + 1600) ∧
            t.hub = s.hub
        else
          (t.lqPos d q).nextRead = none ∧ bit (t.hubGet (offLqstat d q)).toNat 3 = true ∧
            wfld (t.hubGet (offLqstat d q)) 16 16 = min (wfld (s.hubGet (offLqstat d q)) 16 16 + 1) 65535)

/-- 16_scheduling.md R315 to R318: task `i` of a packet goes to the in-service core of its mask that stands at `i` modulo
their number, behind its queued tasks, with `i` in x9 and p2 to p6 in x10 to x14; the dispatcher of a core gives its
lowest-numbered free context the first task of the highest priority, whose registers are those of the packet; a kernel
waits while weights of its partition are on their way to the die's store (04_device_memory.md R100, log 94). -/
def Obligations.TasksPlacedAndDispatched : Prop :=
  (∀ (d q i c : Nat) (w : List Word) (s : State), (s.lqPos d q).placing = some (w, i) →
    bit (s.hubGet (offLqstat d q)).toNat 5 = false →
    (s.launchCores d (wfld (w.getD 1 0) 40 8) (s.lqPart d q))[i %
      (s.launchCores d (wfld (w.getD 1 0) 40 8) (s.lqPart d q)).length]? = some c →
    (s.core c).taskRoom = true → s.wokenOf c = [] →
    ∃ t x, exec (.taskPlace d q) s = .next t ∧ (t.core c).taskQ = (s.core c).taskQ ++ [x] ∧ x.entry = w.getD 0 0 ∧
      x.prio = (w.getD 1 0).extractLsb' 56 8 ∧ x.kernel = (w.getD 1 0).getLsbD 55 ∧ x.groups = [] ∧
      tblGet 0 x.x 9 = BitVec.ofNat 64 i ∧ (∀ j, j < 5 → tblGet 0 x.x (10 + j) = w.getD (2 + j) 0) ∧
      (t.lqPos d q).placing = (if i = wfld (w.getD 1 0) 0 16 then none else some (w, i + 1)) ∧
      (∀ y, y ≠ c → t.core y = s.core y) ∧ t.mem = s.mem) ∧
  ∀ (c k : Nat) (x : QTask) (rest : List QTask) (s : State), s.inService c = true → k < 8 →
    (s.ctx c k).live = false → (∀ j, j < k → (s.ctx c j).live = true) →
    (s.core c).taskQ = x :: rest → (∀ y ∈ rest, y.prio ≤ x.prio) → (∀ y ∈ x :: rest, y.waited < 65535) →
    (x.kernel = true → s.weightsComing c = true → exec (.taskDispatch c) s = .next s) ∧
    ((x.kernel = true → s.weightsComing c = false) → ∃ t, exec (.taskDispatch c) s = .next t ∧
      t.ctx c k =
        { Ctx.reset with
          live := true, pc := x.entry, x := x.x, task := x.task, prio := x.prio, kernel := x.kernel
          groups := x.groups } ∧
      (t.core c).taskQ = rest.map (fun y => { y with waited := y.waited + 1 }) ∧
      (∀ j, j ≠ k → t.ctx c j = s.ctx c j) ∧ OnlyCore c s t)

/-- 19_faults.md R337 and R338: with the queue of a partition enabled and not full, the hub posts the oldest record it holds
for it at TAIL with SEQ TAIL + 1, advances TAIL, raises the fault interrupt, and the context's record becomes one that
an action may name; else it keeps the record. It keeps it too while a link on the way to the queue retrains (log 57). -/
def Obligations.FaultRecordPosted : Prop :=
  ∀ (p : Nat) (s : State) (r : Record) (rest : List Record), s.heldOf p = r :: rest → p < 8 →
    (bit (s.hubGet (offFqcfg p)).toNat 63 = false ∨ s.fqFull p = true ∨
        s.rangeHeld 4 p (ringSlot (s.hubGet (offFqcfg p)) (s.fqSize p) (s.fqTail p)) 64 = true →
      exec (.faultRecordPost p) s = .next s) ∧
    (bit (s.hubGet (offFqcfg p)).toNat 63 = true → s.fqFull p = false →
      s.rangeHeld 4 p (ringSlot (s.hubGet (offFqcfg p)) (s.fqSize p) (s.fqTail p)) 64 = false →
      ∃ t, exec (.faultRecordPost p) s = .next t ∧
        t.mem = (s.walkPuts p (ringSlot (s.hubGet (offFqcfg p)) (s.fqSize p) (s.fqTail p))
          (r.words ((s.fqTail p + 1) % 2 ^ 32))).mem ∧
        t.fqTail p = (s.fqTail p + 1) % 2 ^ 32 ∧ t.out = s.out ++ [.faultIrq p (s.irqCore p)] ∧
        t.held.length + 1 = s.held.length ∧
        (∀ o, r.eng ≠ 6 → (s.ctx r.core r.ctx).trapped = some o → o.r = r → o.seq = none →
          (t.ctx r.core r.ctx).trapped = some { r := r, seq := some (BitVec.ofNat 32 (s.fqTail p + 1)) }))

/-- 19_faults.md R342 to R345: an action of the runtime on the record that a context of its partition is suspended by, none
being kept behind it. For a sequencer cause RESUME executes the instruction again, but goes behind it for causes 0x24 to
0x27, and SKIP goes behind it. For an engine cause, 0x01 to 0x0A, both end the suspension where the program counter stands,
and issue goes on with the next word; for an illegal word of the owner, RESUME has it fetched again and SKIP lets it pass as
a NOP. ABANDON drops the work of the owner; END frees the context; SETX puts TRVAL into x10. An action that names no such
record changes nothing but BADACT. -/
def Obligations.RuntimeActions : Prop :=
  ∀ (p c k : Nat) (seq : BitVec 32) (setx : Bool) (s : State),
    (s.actedOn p c k seq = none →
      ∃ t, t = s.hubCount (offFqstat p) 16 16 1 ∧ exec (.tactResume p setx c k seq) s = .next t ∧
        exec (.tactSkip p setx c k seq) s = .next t ∧ exec (.tactAbandon p setx c k seq) s = .next t ∧
        exec (.tactEnd p setx c k seq) s = .next t ∧
        wfld (t.hubGet (offFqstat p)) 16 16 = min (wfld (s.hubGet (offFqstat p)) 16 16 + 1) 65535) ∧
    ∀ r : Record, s.actedOn p c k seq = some r → r.core = c → r.ctx = k →
      (s.core c).kept.find? (fun y => y.ctx == k) = none → (s.ctx c k).live = true →
      (0x20 ≤ r.cause.toNat →
        ∃ t, exec (.tactResume p setx c k seq) s = .next t ∧ (t.ctx c k).trapped = none ∧
        (t.ctx c k).pc = (if 0x24 ≤ r.cause.toNat ∧ r.cause.toNat ≤ 0x27 then r.pc + 4 else (s.ctx c k).pc) ∧
        (r.cause ≠ 0x27 → (t.ctx c k).reg 10 = if setx then s.hubGet (offTrval p) else (s.ctx c k).reg 10) ∧
        (r.cause = 0x27 → (t.ctx c k).reg r.rd = if r.rd = 0 then 0 else 2) ∧ SameBytes s t) ∧
      (0x20 ≤ r.cause.toNat →
        ∃ t, exec (.tactSkip p setx c k seq) s = .next t ∧ (t.ctx c k).trapped = none ∧ (t.ctx c k).pc = r.pc + 4 ∧
        (t.ctx c k).reg 10 = (if setx then s.hubGet (offTrval p) else (s.ctx c k).reg 10) ∧ SameBytes s t) ∧
      (0x01 ≤ r.cause.toNat → r.cause.toNat ≤ 0x0A → r.eng < 5 →
        ∃ t u, exec (.tactResume p setx c k seq) s = .next t ∧ exec (.tactSkip p setx c k seq) s = .next u ∧
          (∀ v, v = t ∨ v = u → (v.ctx c k).trapped = none ∧ (v.ctx c k).pc = (s.ctx c k).pc ∧
            (v.ctx c k).reg 10 = (if setx then s.hubGet (offTrval p) else (s.ctx c k).reg 10) ∧
            (v.core c).owner = (s.core c).owner ∧ SameBytes s v ∧
            ∀ e, ¬ (r.cause = 0x01 ∧ (s.core c).owner = some k ∧ e = r.eng) → (v.own c).queue e = (s.own c).queue e) ∧
          (r.cause = 0x01 → (s.core c).owner = some k →
            (t.own c).queue r.eng =
              { (s.own c).queue r.eng with run := ((s.own c).queue r.eng).run.map fun x => { x with code := none } } ∧
            (u.own c).queue r.eng =
              { (s.own c).queue r.eng with run := ((s.own c).queue r.eng).run.map fun x => { x with skip := true } })) ∧
      (∃ t, exec (.tactAbandon p setx c k seq) s = .next t ∧ (t.ctx c k).trapped = none ∧
        (t.ctx c k).pc = (if 0x24 ≤ r.cause.toNat ∧ r.cause.toNat ≤ 0x27 then r.pc + 4 else r.pc) ∧
        ((s.core c).owner = some k → (∀ e, (t.own c).queue e = EngQ.empty) ∧ (∀ i, (t.own c).token i = 0) ∧
          (t.own c).rq = [] ∧ (t.own c).seg = none ∧ (∀ i, (t.own c).slot i = (s.own c).slot i) ∧
          ∀ i, (t.own c).tile i = (s.own c).tile i) ∧ t.mem = s.mem) ∧
      ∃ t, exec (.tactEnd p setx c k seq) s = .next t ∧
        t.ctx c k = Ctx.reset ∧ (t.core c).posted = (s.core c).posted ++ (s.ctx c k).stores ∧
        (t.core c).owner ≠ some k ∧ t.mem = s.mem

/-- 25_service.md R419, R420 and R411: who may write what in the hub register space. The hypervisor alone writes PTROOT,
PGRANT, PASSIGN, FQCFG and LQCFG; the management core alone WSLID; a partition reaches its own registers alone; what an
agent may not write, an offset that names no register and an access that is not 8 bytes wide change nothing; a register
reads as written with its reserved bits 0, and 0 where the agent or the width reaches none. That a register which the manual
gives to one agent ignores the others, the management core's write of PTROOT and the hypervisor's of WSLID among them, is log
79's reading.
16_scheduling.md R308, R310, R311, R314, R319, 19_faults.md R337 and 21_links.md R371: the registers of the queues and
route tags. EN rising starts a queue at HEAD 0 (a fault queue at TAIL and HEAD 0); TAIL too far ahead of HEAD parks a
queue, and one within it lifts the park; writing BPHALT releases it; RTBIND's PART is the hypervisor's and its EN and
GROUP the partition's. That each of the two leaves the
other's fields of RTBIND as they are, and that every write accepted there resets the barrier of the tag, is log 64's
reading. -/
def Obligations.HubRegisters : Prop :=
  (∀ (s : State) (v : Word),
     (∀ p, p < 8 →
       (∃ t, exec (.hubRegWrite .hypervisor (offPtroot p) (.write 8 v)) s = .next t ∧
         t.hubRead (offPtroot p) = v &&& 0xFFFFFC0001 ∧ t = { s with hub := t.hub } ∧
         ∀ o, o ≠ offPtroot p → t.hubGet o = s.hubGet o) ∧
       exec (.hubRegWrite .management (offPtroot p) (.write 8 v)) s = .next s ∧
       exec (.hubRegWrite .hypervisor (offFqcfg p) (.write 8 v)) s = exec (.fqcfgWrite p v) s ∧
       exec (.hubRegWrite .management (offFqcfg p) (.write 8 v)) s = .next s) ∧
     (∀ d q, d < 4 → q < 16 →
       exec (.hubRegWrite .hypervisor (offLqcfg d q) (.write 8 v)) s = exec (.lqcfgWrite d q v) s ∧
       exec (.hubRegWrite .management (offLqcfg d q) (.write 8 v)) s = .next s) ∧
     (∀ p n, p < 8 → n < 8 →
       (∃ t, exec (.hubRegWrite .hypervisor (offPgrant p n) (.write 8 v)) s = .next t ∧
         t.hubRead (offPgrant p n) = v &&& 0x800003FF000003FF) ∧
       exec (.hubRegWrite .management (offPgrant p n) (.write 8 v)) s = .next s) ∧
     (∃ t, exec (.hubRegWrite .management offWslid (.write 8 v)) s = .next t ∧ t.hubRead offWslid = v &&& 0xFFF) ∧
     exec (.hubRegWrite .hypervisor offWslid (.write 8 v)) s = .next s ∧
     (∀ p off, vfReg p off = none → exec (.hubRegWrite (.partition p) off (.write 8 v)) s = .next s ∧ s.vfRead p off = 0) ∧
     (∀ p, p < 8 → exec (.hubRegWrite (.partition p) 0 (.write 8 v)) s = .next s ∧
       ∃ t, exec (.hubRegWrite (.partition p) 0x18 (.write 8 v)) s = .next t ∧ t.hubGet (offTrval p) = v ∧
         ∀ o, o ≠ offTrval p → t.hubGet o = s.hubGet o) ∧
     (∀ off, hubReg off = none → exec (.hubRegWrite .hypervisor off (.write 8 v)) s = .next s ∧
       exec (.hubRegWrite .management off (.write 8 v)) s = .next s ∧ s.hubRead off = 0) ∧
     (∀ who off width, width ≠ 8 → exec (.hubRegWrite who off (.write width v)) s = .next s ∧
       exec (.hubRegWrite who off (.read width)) s = .next { s with out := s.out ++ [.barData off 0] }) ∧
     (∀ off p, exec (.hubRegWrite .hypervisor off (.read 8)) s = .next { s with out := s.out ++ [.barData off (s.hubRead off)] } ∧
       exec (.hubRegWrite .management off (.read 8)) s = .next { s with out := s.out ++ [.barData off (s.hubRead off)] } ∧
       exec (.hubRegWrite (.partition p) off (.read 8)) s =
         .next { s with out := s.out ++ [.barData off (s.vfRead p off)] }) ∧
     ∀ p, p < 8 →
       (s.passignGood p (v &&& 0xFFFFF000FFFFFFFF) = true →
         ∃ t, exec (.hubRegWrite .hypervisor (offPassign p) (.write 8 v)) s = .next t ∧
           t.hubRead (offPassign p) = v &&& 0xFFFFF000FFFFFFFF) ∧
       (s.passignGood p (v &&& 0xFFFFF000FFFFFFFF) = false →
         exec (.hubRegWrite .hypervisor (offPassign p) (.write 8 v)) s = .next s) ∧
       exec (.hubRegWrite .management (offPassign p) (.write 8 v)) s = .next s) ∧
  (∀ (d q p tag : Nat) (v : Word) (tail : BitVec 32) (s : State), d < 4 → q < 16 → p < 8 → tag < 8 →
     (∃ t, exec (.lqcfgWrite d q v) s = .next t ∧ t.hubGet (offLqcfg d q) = v &&& 0xFF0FFFFFFFFFFFC0 ∧
       if bit (s.hubGet (offLqcfg d q)).toNat 63 = false ∧ v.getLsbD 63 = true then
         t.lqHead d q = 0 ∧ bit (t.hubGet (offLqstat d q)).toNat 3 = false ∧ (t.lqPos d q).nextRead = none
       else t = { s with hub := t.hub } ∧ ∀ o, o ≠ offLqcfg d q → t.hubGet o = s.hubGet o) ∧
     (∃ t, exec (.lqkickWrite .hypervisor d q tail) s = .next t ∧ t.lqTail d q = tail.toNat ∧
       t.lqHead d q = s.lqHead d q ∧
       (bit (t.hubGet (offLqstat d q)).toNat 3 = true ↔
         2 ^ s.lqSize d q < (tail.toNat + 2 ^ 32 - s.lqHead d q) % 2 ^ 32)) ∧
     exec (.lqkickWrite (.partition (s.lqPart d q)) d q tail) s = exec (.lqkickWrite .hypervisor d q tail) s ∧
     (s.lqPart d q ≠ p → exec (.lqkickWrite (.partition p) d q tail) s = .next s ∧
       exec (.lqstatBphaltRelease (.partition p) d q) s = .next s) ∧
     (s.lqPart d q = p → ∃ t, exec (.lqstatBphaltRelease (.partition p) d q) s = .next t ∧
       bit (t.hubGet (offLqstat d q)).toNat 5 = false ∧ t.lqHead d q = s.lqHead d q ∧
       ∀ o, o ≠ offLqstat d q → t.hubGet o = s.hubGet o) ∧
     (∃ t, exec (.fqcfgWrite p v) s = .next t ∧ t.hubGet (offFqcfg p) = v &&& 0x80FFFFFFFFFFFFC0 ∧
       t = { s with hub := t.hub } ∧
       if bit (s.hubGet (offFqcfg p)).toNat 63 = false ∧ v.getLsbD 63 = true then
         t.fqTail p = 0 ∧ t.hubGet (offFqhead p) = 0
       else ∀ o, o ≠ offFqcfg p → t.hubGet o = s.hubGet o) ∧
     (∃ t, exec (.rtbindWrite .hypervisor tag v) s = .next t ∧
       wfld (t.hubGet (offRtbind tag)) 60 3 = wfld v 60 3 ∧
       bit (t.hubGet (offRtbind tag)).toNat 63 = bit (s.hubGet (offRtbind tag)).toNat 63 ∧
       (t.tag tag).entered = []) ∧
     (wfld (s.hubGet (offRtbind tag)) 60 3 = p →
       ∃ t, exec (.rtbindWrite (.partition p) tag v) s = .next t ∧
         bit (t.hubGet (offRtbind tag)).toNat 63 = bit v.toNat 63 ∧
         wfld (t.hubGet (offRtbind tag)) 0 16 = wfld v 0 16 ∧ wfld (t.hubGet (offRtbind tag)) 60 3 = p ∧
         (t.tag tag).entered = []) ∧
     (wfld (s.hubGet (offRtbind tag)) 60 3 ≠ p → exec (.rtbindWrite (.partition p) tag v) s = .next s) ∧
     (∃ t, exec (.wsqcfgWrite d q v) s = .next t ∧ t.hubGet (offWsqcfg d q) = v &&& 0xFFFFFFFFFFFFFFC0 ∧
       if bit (s.hubGet (offWsqcfg d q)).toNat 63 = false ∧ v.getLsbD 63 = true then
         t.sqHead d q = 0 ∧ bit (t.hubGet (offWsqstat d q)).toNat 3 = false ∧ t.sqPos d q = LqPos.reset
       else t = { s with hub := t.hub } ∧ ∀ o, o ≠ offWsqcfg d q → t.hubGet o = s.hubGet o) ∧
     (∃ t, exec (.wsqkickWrite .hypervisor d q tail) s = .next t ∧ t.sqTail d q = tail.toNat ∧
       (bit (t.hubGet (offWsqstat d q)).toNat 3 = true ↔
         2 ^ s.sqSize d q < (tail.toNat + 2 ^ 32 - s.sqHead d q) % 2 ^ 32)))

/-- 21_links.md R361 to R368: link control. Every legal write of RATE, and RTR, starts a retrain, which ends within 16,000
ticks; another RATE is ignored; a retirement takes its lane and retrains, or waits for the retrain under way; the end of a
retrain sets the rate and the widths of the lanes left, and takes LKPASS from a link without a lane (25_service.md R408); a
CRC error counts the flits replayed, at a link and at a WSL port (R370, R373); after a second window running above RTHR,
with FB set, the link falls back by one rate, and is over in no window since (log 68). How long a retrain takes and how many
flits are resent are free (log 57, log 5). -/
def Obligations.LinkControl : Prop :=
  ∀ (l : Nat) (s : State), l < 8 →
    (∀ v : Word, wfld v 16 4 ≤ 4 →
      ∃ t e, exec (.lkctlRateWrite l v) s = .next t ∧ t.lkRate l = wfld v 16 4 ∧ (t.link l).train = some e ∧
        s.ftick < e ∧ e ≤ s.ftick + 16000 ∧ (t.link l).toRate = wfld v 16 4 ∧ (t.link l).curr = (s.link l).curr) ∧
    (∀ v : Word, 4 < wfld v 16 4 → v.getLsbD 0 = false →
      ∃ t, exec (.lkctlRateWrite l v) s = .next t ∧ t.lkRate l = s.lkRate l ∧ t.link l = s.link l) ∧
    (∃ t e, exec (.lkctlRetrain l) s = .next t ∧ (t.link l).train = some e ∧ s.ftick < e ∧ e ≤ s.ftick + 16000 ∧
      (t.link l).toRate = s.lkRate l ∧ t.hub = s.hub) ∧
    (∀ dir m lane, dir < 2 → m < 4 → lane < 64 → (dir, m, lane) ∉ (s.link l).ret → (dir, m, lane) ∉ (s.link l).again →
      ∃ t, exec (.lkretRetire l dir m lane) s = .next t ∧ (l, dir, m, lane) ∈ t.svc.nv.retLanes ∧
        ((s.link l).train = none → (t.link l).ret = (s.link l).ret ++ [(dir, m, lane)] ∧
          (t.link l).train.isSome = true) ∧
        ((s.link l).train ≠ none → (t.link l).ret = (s.link l).ret ∧
          (t.link l).again = (s.link l).again ++ [(dir, m, lane)])) ∧
    (∀ e, (s.link l).train = some e → e ≤ s.ftick → (s.link l).again = [] →
      ∃ t, exec (.linkRetrainEnd l) s = .next t ∧ (t.link l).train = none ∧ (t.link l).curr = (s.link l).toRate ∧
        (t.link l).width0 = (s.link l).measure.width0 ∧ (t.link l).width1 = (s.link l).measure.width1 ∧
        (min (s.link l).measure.width0 (s.link l).measure.width1 = 0 →
          bit (t.hubGet offStpass).toNat (44 + l) = false)) ∧
    (∀ e, (s.link l).train = some e → s.ftick < e → exec (.linkRetrainEnd l) s = .next s) ∧
    (∀ dir m lane, bit (s.hubGet (offLkctl l)).toNat 2 = false →
      ∃ t n, exec (.flitCrcError (.link l) dir m lane) s = .next t ∧ 1 ≤ n ∧
        (t.link l).wReplay = (s.link l).wReplay + n ∧
        wfld (t.hubGet (offLkcnt l)) 0 32 = min (wfld (s.hubGet (offLkcnt l)) 0 32 + 1) (2 ^ 32 - 1) ∧
        wfld (t.hubGet (offLkcnt l)) 32 32 = min (wfld (s.hubGet (offLkcnt l)) 32 32 + n) (2 ^ 32 - 1)) ∧
    (∀ d p un, d < 4 → p < 12 →
      ∃ t n, exec (.flitCrcError (.wsl d p un) 0 0 0) s = .next t ∧ 1 ≤ n ∧
        tblGet 0 t.wslReplays (12 * d + p) = min (tblGet 0 s.wslReplays (12 * d + p) + n) (2 ^ 32 - 1) ∧
        wfld (t.hubGet offWslcnt) 32 32 = min (wfld (s.hubGet offWslcnt) 32 32 + n) (2 ^ 32 - 1) ∧
        wfld (t.hubGet offWslcnt) 16 16 = min (wfld (s.hubGet offWslcnt) 16 16 + if un then 1 else 0) 65535) ∧
    (s.ftick % 65536 = 0 →
      ∃ t, exec .linkWindowBoundary s = .next t ∧
        ∀ j, j < 8 → (t.link j).wReplay = 0 ∧ (t.link j).errs = [] ∧
          ((t.link j).lastOver = true ↔ wfld (s.hubGet (offLkctl j)) 32 16 < (s.link j).wReplay) ∧
          if bit (s.hubGet (offLkctl j)).toNat 1 = true ∧ wfld (s.hubGet (offLkctl j)) 32 16 < (s.link j).wReplay ∧
              1 ≤ (s.link j).overs ∧ 0 < (s.link j).curr then
            (t.link j).curr = (s.link j).curr - 1 ∧ (t.link j).overs = 0 ∧ (t.link j).train.isSome = true ∧
              (t.link j).toRate = (s.link j).curr - 1
          else (t.link j).curr = (s.link j).curr ∧
            (t.link j).overs = (if wfld (s.hubGet (offLkctl j)) 32 16 < (s.link j).wReplay then (s.link j).overs + 1 else 0))

/-- 21_links.md R371 to R373: a send queue reads its descriptor from its die as a launch queue reads its packet; a good one,
which passes the descriptor checks (log 73), is sent to the peer with the bytes that it names, or ends at once, with STATUS
0x06, where no port to the peer is up that the die reaches (log 74); a bad one is passed with a record; one that has been
sent ends in the same way when the last such port has gone down; an acknowledgement ends the descriptor that has been sent
and moves HEAD on; a port that goes down is down; an inbound operation on a partition that does not exist, or that its pages
do not allow, is refused and counted, and one that they allow is performed with its reply. All of them wait while a link on
their way retrains (log 57).
21_links.md R375 and R376: the host reaches device memory through pages of class SYSTEM that allow the access, and an
access to any other is answered as unsupported with nothing changed; a write of the host is performed at its home; a
register access of BAR0 is a hub register access; the hypervisor gives the parts of an Ethernet port to partitions, and a
frame of at most 9,216 bytes goes out on a part that is its sender's, and on no other (log 83). A request that is not
allowed somewhere in its range is refused whole (log 81), and one waits while a link on its way retrains (log 57). -/
def Obligations.FabricHostAndEthernet : Prop :=
  (∀ (d q : Nat) (s : State), d < 4 → q < 16 →
     ((s.sqPos d q).sent = none → s.sqServed d q = false ∨ s.sqHeld d q = true → exec (.wslDescriptor d q) s = .next s) ∧
     (∀ w, (s.sqPos d q).sent = some w →
       (s.portTo d (s.sqPeer d q) = true ∨ s.sqHeld d q = true → exec (.wslDescriptor d q) s = .next s) ∧
       (s.portTo d (s.sqPeer d q) = false → s.sqHeld d q = false →
         ∃ t, exec (.wslDescriptor d q) s = .next t ∧ (t.sqPos d q).sent = none ∧
           t.sqHead d q = (s.sqHead d q + 1) % 2 ^ 32 ∧
           t.mem = (s.walkPut d (s.sqPart d q) (s.sqAddr d q + 56)
             (BitVec.ofNat 64 ((w.getD 7 0).toNat / 256 * 256 + 0x06))).mem)) ∧
     (s.sqHeld d q = false →
     (∀ v, s.sqServed d q = true → s.walkWord d (s.sqPart d q) (s.sqAddr d q + 56) = some v →
       wfld v 32 32 ≠ (s.sqHead d q + 1) % 2 ^ 32 →
       ∃ t, exec (.wslDescriptor d q) s = .next t ∧ (t.sqPos d q).nextRead = some (s.ftick + 1600) ∧ t.mem = s.mem) ∧
     (∀ (v : Word) (ws : List Word), s.sqServed d q = true →
       s.walkWord d (s.sqPart d q) (s.sqAddr d q + 56) = some v → wfld v 32 32 = (s.sqHead d q + 1) % 2 ^ 32 →
       ws.length = 7 → (∀ i, i < 7 → s.draw.2.walkWord d (s.sqPart d q) (s.sqAddr d q + 8 * i) = ws[i]?) →
       (∀ as n, descGood (ws ++ [v]) = true →
         n = (if wfld (ws.getD 2 0) 60 4 = 0 then wfld (ws.getD 2 0) 0 32 + 1 else wslOpBytes (wfld (ws.getD 2 0) 52 4)) →
         s.draw.2.walkDpas d (s.sqPart d q) leafReads (wfld (ws.getD 0 0) 0 52) n = some as → s.links = [] →
         (∀ a ∈ as, (s.outByte a).2 = false) →
         (s.portTo d (s.sqPeer d q) = true →
           ∃ t, exec (.wslDescriptor d q) s = .next t ∧ (t.sqPos d q).sent = some (ws ++ [v]) ∧
             t.out = s.out ++ [.wslRequest d q (ws ++ [v]) (as.map fun a => (s.outByte a).1)] ∧
             t.sqHead d q = s.sqHead d q ∧ t.hub = s.hub ∧ SameBytes s t) ∧
         (s.portTo d (s.sqPeer d q) = false →
           ∃ t, exec (.wslDescriptor d q) s = .next t ∧ (t.sqPos d q).sent = none ∧ t.out = s.out ∧
             t.sqHead d q = (s.sqHead d q + 1) % 2 ^ 32)) ∧
       (descGood (ws ++ [v]) = false →
         ∃ t r, exec (.wslDescriptor d q) s = .next t ∧ t.held = s.held ++ [r] ∧ r.cause = 0x60 ∧
           t.sqHead d q = (s.sqHead d q + 1) % 2 ^ 32)) ∧
     ∀ u v, (s.sqPos d q).nextRead = some u → u ≤ s.ftick →
       s.walkWord d (s.sqPart d q) (s.sqAddr d q + 56) = some v → wfld v 32 32 ≠ (s.sqHead d q + 1) % 2 ^ 32 →
       ∃ t, exec (.sendQueueSeqReread d q) s = .next t ∧ t.mem = s.mem ∧
         if (s.sqPos d q).rereads < 7 then (t.sqPos d q).nextRead = some (u + 1600)
         else (t.sqPos d q).nextRead = none ∧ bit (t.hubGet (offWsqstat d q)).toNat 3 = true) ∧
     (∀ refused old, (s.sqPos d q).sent = none → exec (.wslAck d q refused old) s = .next s) ∧
     (∀ w refused old, (s.sqPos d q).sent = some w → s.sqHeld d q = true → exec (.wslAck d q refused old) s = .next s) ∧
     (∀ w refused old, (s.sqPos d q).sent = some w → s.sqHeld d q = false →
       ∃ t, exec (.wslAck d q refused old) s = .next t ∧ (t.sqPos d q).sent = none ∧
         t.sqHead d q = (s.sqHead d q + 1) % 2 ^ 32) ∧
     (∀ p, p < 12 → ∃ t, exec (.wslPortDown d p) s = .next t ∧
       bit (t.hubGet (offWslport d p)).toNat 63 = false) ∧
     ∀ op : WslOp,
       (8 ≤ op.part → ∃ t, exec (.wslInboundOp op) s = .next t ∧ t.out = s.out ++ [.wslReply true 0] ∧
         wfld (t.hubGet offWslcnt) 0 16 = min (wfld (s.hubGet offWslcnt) 0 16 + 1) 65535 ∧ SameBytes s t) ∧
       (op.part < 8 → op.die < 4 → op.scratch = false → op.atomic = false →
         s.rangeHeld op.die op.part op.dst op.data.length = false →
         s.walkDpas op.die op.part (wslLeaf false) op.dst op.data.length = none → ∃ t, exec (.wslInboundOp op) s = .next t ∧ t.out = s.out ++ [.wslReply true 0] ∧
           wfld (t.hubGet offWslcnt) 0 16 = min (wfld (s.hubGet offWslcnt) 0 16 + 1) 65535 ∧ SameBytes s t) ∧
       (op.part < 8 → op.die < 4 → op.scratch = false → op.atomic = false → s.memOk → s.links = [] →
         ∀ as, s.walkDpas op.die op.part (wslLeaf false) op.dst op.data.length = some as → as.Nodup →
         ∃ t, exec (.wslInboundOp op) s = .next t ∧ t.out = s.out ++ [.wslReply false 0] ∧
           (∀ (i a : Nat), as[i]? = some a → tblFind t.mem a = op.data[i]?) ∧
           ∀ a, a ∉ as → tblFind t.mem a = tblFind s.mem a)) ∧
  (∀ (s : State) (part dva : Nat),
     (∀ data ro, data.length ≤ 512 → s.rangeHeld 4 part dva data.length = true →
       exec (.hostPcieWrite (.mem part dva data ro)) s = .next s) ∧
     (∀ len, len ≤ 4096 → s.rangeHeld 4 part dva len = true → exec (.hostPcieRead (.mem part dva len)) s = .next s) ∧
     (∀ data ro, data.length ≤ 512 → s.rangeHeld 4 part dva data.length = false →
       s.walkDpas 4 part hostWrites dva data.length = none →
       ∃ t, exec (.hostPcieWrite (.mem part dva data ro)) s = .next t ∧ t = { s with out := t.out } ∧
         t.out = s.out ++ [.unsupported part dva]) ∧
     (∀ data ro as, data.length ≤ 512 → s.memOk → s.links = [] → s.walkDpas 4 part hostWrites dva data.length = some as → as.Nodup →
       ∃ t, exec (.hostPcieWrite (.mem part dva data ro)) s = .next t ∧
         (∀ (i a : Nat), as[i]? = some a → tblFind t.mem a = data[i]?) ∧
         (∀ a, a ∉ as → tblFind t.mem a = tblFind s.mem a) ∧ t.cores = s.cores ∧ t.hub = s.hub) ∧
     (∀ off width v, exec (.hostPcieWrite (.bar off width v)) s = exec (.hubRegWrite .hypervisor off (.write width v)) s ∧
       exec (.hostPcieWrite (.vfBar part off width v)) s = exec (.hubRegWrite (.partition part) off (.write width v)) s ∧
       exec (.hostPcieRead (.bar off width)) s = exec (.hubRegWrite .hypervisor off (.read width)) s ∧
       exec (.hostPcieRead (.vfBar part off width)) s = exec (.hubRegWrite (.partition part) off (.read width)) s) ∧
     (∀ len, len ≤ 4096 → s.rangeHeld 4 part dva len = false → s.walkDpas 4 part hostReads dva len = none →
       ∃ t, exec (.hostPcieRead (.mem part dva len)) s = .next t ∧ t = { s with out := s.out ++ [.unsupported part dva] }) ∧
     (∀ len as, len ≤ 4096 → s.walkDpas 4 part hostReads dva len = some as → s.links = [] → (∀ a ∈ as, (s.outByte a).2 = false) →
       ∃ t, exec (.hostPcieRead (.mem part dva len)) s = .next t ∧ t = { s with out := t.out, draws := t.draws } ∧
         t.out = s.out ++ [.readData part dva (as.map fun a => (s.outByte a).1)]) ∧
     (∀ a v, s.unseen = [] → tblFind s.mem a = some v → (s.outByte a).1 = v) ∧
     (∀ port owners, (EthOp.assign owners).wf port [] = true →
       ∃ t, exec (.ethernetFrame port (.assign owners) []) s = .next t ∧ t = { s with eth := t.eth } ∧
         ∀ i, tblGet [] t.eth i = if i = port then owners else tblGet [] s.eth i) ∧
     ∀ (port sub : Nat) (frame : List Byte), (EthOp.frame part sub true).wf port frame = true →
       ((tblGet [] s.eth port)[sub]? = some part →
         exec (.ethernetFrame port (.frame part sub true) frame) s =
           .next { s with out := s.out ++ [.frame port sub frame] }) ∧
       ((tblGet [] s.eth port)[sub]? ≠ some part → exec (.ethernetFrame port (.frame part sub true) frame) s = .next s))

/-- 25_service.md R407 to R410: after power is applied every field is at its reset value but the store of the management
core, from which the lifetime records come; a warm reset keeps the records held in its SRAM, the time of their next
sampling and the retired lanes of the links; a loss of power leaves the store alone. Boot goes stage by stage: the firmware is verified and measured; self-test runs once, sets STPASS and, with
the hub whole, WSLID; the hypervisor is verified, measured and started; partition images that verify are measured and
their partitions start. An image of the first two stages that does not verify, or a failed hub die, stops the module, and no
step goes on before the one ahead of it is done (log 75). A report of attestation goes out with its nonce, its bytes in
order (log 77). -/
def Obligations.ResetsAndBoot : Prop :=
  ∀ s : State,
    (∃ t, exec .powerOnReset s = .next t ∧
      t = { State.reset with draws := s.draws, out := s.out, svc := { Svc.reset with nv := s.svc.nv, ram := s.svc.nv.life } }) ∧
    (s.power = true → ∃ t, exec .warmReset s = .next t ∧
      t = { State.reset with
        draws := s.draws, out := s.out, links := keptLinks s.links
        svc := { Svc.reset with
          nv := s.svc.nv, ram := s.svc.ram, lifeBase := (s.svc.lifeBase + s.ftick) % 2 ^ 32 } } ∧
      ∀ l dir m lane, ((dir, m, lane) ∈ (s.link l).ret ∨ (dir, m, lane) ∈ (s.link l).again) →
        (dir, m, lane) ∈ (t.link l).ret) ∧
    (∃ t, exec .powerLoss s = .next t ∧ t.power = false ∧ t.mem = [] ∧ t.svc.nv = s.svc.nv) ∧
    (s.svc.stopped = true → ∀ fw hv images res, exec (.boot fw hv images) s = .next s ∧ exec (.selfTest res) s = .next s) ∧
    (∀ hv images, s.svc.stopped = false → s.svc.verified = false →
      (∃ t, exec (.boot true hv images) s = .next t ∧ t.svc.verified = true ∧ t.svc.stopped = false ∧
        tblGet 0 t.svc.slots 0 = Config.imageHash 0 ∧ t = { s with svc := t.svc }) ∧
      ∃ t, exec (.boot false hv images) s = .next t ∧ t.svc.stopped = true ∧ t.svc.verified = false ∧
        t.out = s.out ++ [.bootStopped]) ∧
    (∀ res, s.svc.verified = false ∨ s.svc.tested = true → exec (.selfTest res) s = .next s) ∧
    (∀ res, s.svc.verified = true → s.svc.tested = false → s.svc.stopped = false →
      ∃ t, exec (.selfTest res) s = .next t ∧ t.svc.tested = true ∧ t.hubGet offStpass = t.stpass res ∧
        (∀ cl phys, (cl, phys) ∈ res.cores → cl < 32 → phys < 17 → (cl, phys) ∈ t.svc.nv.retCores) ∧
        (t.svc.stopped = true ↔ res.hub = true) ∧
        (res.hub = false → t.hubGet offWslid = Config.wslId.setWidth 64)) ∧
    (∀ fw hv images, s.svc.stopped = false → s.svc.verified = true → s.svc.tested = false →
      exec (.boot fw hv images) s = .next s) ∧
    (∀ fw images, s.svc.stopped = false → s.svc.verified = true → s.svc.tested = true → s.svc.booted = false →
      (∃ t, exec (.boot fw true images) s = .next t ∧ t.svc.booted = true ∧ t.svc.stopped = false ∧
        tblGet 0 t.svc.slots 1 = Config.imageHash 1 ∧ t = { s with svc := t.svc }) ∧
      ∃ t, exec (.boot fw false images) s = .next t ∧ t.svc.stopped = true ∧ t.svc.booted = false ∧
        t.out = s.out ++ [.bootStopped]) ∧
    (∀ (fw hv : Bool) (images : BitVec 8), s.svc.stopped = false → s.svc.verified = true → s.svc.tested = true →
      s.svc.booted = true →
      ∃ t, exec (.boot fw hv images) s = .next t ∧ t = { s with svc := t.svc } ∧
        (∀ p, p ∈ t.svc.parts ↔ p ∈ s.svc.parts ∨ (p < 8 ∧ images.getLsbD p = true)) ∧
        ∀ p, p < 8 → images.getLsbD p = true → tblGet 0 t.svc.slots (2 + p) = Config.imageHash (2 + p)) ∧
    ∀ nonce : BitVec 256, ∃ t b, exec (.attestationReport nonce) s = .next t ∧ t = { s with out := s.out ++ [.report b] } ∧
      b.length = 576 ∧ (b.drop 16).take 32 = bytesLe 32 nonce.toNat

/-- 25_service.md R416 and R417, 24_debug.md R405 and R406: a reading at or above T3 arms the power-down once, 1,600,000
ticks later; at T2 the cluster may not leave 800 MHz; below T1 − 5 it may reach 960 MHz again where age allows it; the
power-down comes at its tick with the records written back; a drift of 5 % limits a cluster to 800 MHz; a sample adds to
each record what its source has gained since the last, or the whole of a source that has been cleared, and a write-back
stores them. -/
def Obligations.ThermalAgeingLifetime : Prop :=
  ∀ (s : State) (cl : Nat), cl < 32 →
    (∀ r : BitVec 8, wfld (s.hubGet (offThcfg (cl / 8))) 16 8 ≤ r.toNat → s.svc.downAt = none →
      ∃ t, exec (.thermalSample cl r) s = .next t ∧ t.svc.downAt = some (s.ftick + 1600000) ∧
        (t.cluster cl).band = 4) ∧
    (∀ r : BitVec 8, wfld (s.hubGet (offThcfg (cl / 8))) 8 8 ≤ r.toNat →
      r.toNat < wfld (s.hubGet (offThcfg (cl / 8))) 16 8 →
      ∃ t, exec (.thermalSample cl r) s = .next t ∧ (t.cluster cl).bmax = 0 ∧ (t.cluster cl).thermalMax = 0 ∧
        t.svc.downAt = s.svc.downAt) ∧
    (∀ r : BitVec 8, r.toNat + 5 < wfld (s.hubGet (offThcfg (cl / 8))) 0 8 →
      wfld (s.hubGet (offThcfg (cl / 8))) 0 8 ≤ wfld (s.hubGet (offThcfg (cl / 8))) 8 8 →
      wfld (s.hubGet (offThcfg (cl / 8))) 8 8 ≤ wfld (s.hubGet (offThcfg (cl / 8))) 16 8 →
      ∃ t, exec (.thermalSample cl r) s = .next t ∧ (t.cluster cl).thermalMax = 2 ∧
        (t.cluster cl).bmax.toNat = min 2 (s.cluster cl).ageMax.toNat) ∧
    (∀ u, s.svc.downAt = some u → u ≤ s.ftick →
      ∃ t, exec .criticalPowerDown s = .next t ∧ t.power = false ∧ t.svc.nv.life = s.svc.ram) ∧
    (∀ u, s.svc.downAt = some u → s.ftick < u → exec .criticalPowerDown s = .next s) ∧
    (∀ drift, 50000 ≤ drift → drift < 75000 →
      ∃ t, exec (.ageingMeasure cl drift) s = .next t ∧ (t.cluster cl).ageMax = 0 ∧ (t.cluster cl).bmax = 0 ∧
        (t.cluster cl).inService = (s.cluster cl).inService) ∧
    (∃ t, exec .lifetimeSample s = .next t ∧ t.svc.nv.life = s.svc.nv.life ∧ t.mem = s.mem ∧ t.cores = s.cores ∧
      (∀ key v, s.lifeSources.filter (fun e => e.1 == key) = [(key, v)] →
        (tblGet 0 t.svc.ram key).toNat = min ((tblGet 0 s.svc.ram key).toNat +
          (if tblGet 0 s.svc.nv.last key ≤ v then v - tblGet 0 s.svc.nv.last key else v)) (2 ^ 64 - 1) ∧
        tblGet 0 t.svc.nv.last key = v) ∧
      ∀ key, s.lifeSources.filter (fun e => e.1 == key) = [] → tblGet 0 t.svc.ram key = tblGet 0 s.svc.ram key) ∧
    ∃ t, exec .lifetimeWriteback s = .next t ∧
      t = { s with svc := { s.svc with nv := { s.svc.nv with life := s.svc.ram } } }

/-- 25_service.md R413, R414, 05_bank_units.md R106 and 19_faults.md R352: a core that is retired ends every task of its
index; with the cluster's spare left the spare serves the index with nothing in its contexts, the 16 cores being held for
the repair for at most 1 ms (log 5), and without it the cluster leaves service; a retired bank unit takes one of four spares, a further one where it has been retired
before (log 101), or shares its neighbour; a repaired row joins the map; an uncorrectable error marks its unit and changes no
byte. -/
def Obligations.RetirementAndErrors : Prop :=
  ∀ s : State,
    (∀ c, c < 512 → (s.cluster (clusterOf c)).inService = true →
      ∃ t, exec (.coreRetire c) s = .next t ∧ (∀ k, (t.ctx c k).live = false) ∧
        (clusterOf c, s.physOf c) ∈ t.svc.nv.retCores ∧
        ((s.cluster (clusterOf c)).spareUsed = false → (t.cluster (clusterOf c)).inService = true ∧
          (t.cluster (clusterOf c)).spareUsed = true ∧ t.physOf c = 16 ∧
          ∃ u, s.ftick < u ∧ u < s.ftick + 1600000 ∧
            ∀ i, i < 16 → (t.core (16 * clusterOf c + i)).repairDue = some u) ∧
        ((s.cluster (clusterOf c)).spareUsed = true → (t.cluster (clusterOf c)).inService = false)) ∧
    (∀ sd u, sd < 12 → u < 64 →
      ∃ t, exec (.bankUnitRetire sd u) s = .next t ∧ (sd, u) ∈ t.svc.nv.retUnits ∧
        (s.spareUnits sd < 4 → t.spareUnits sd = s.spareUnits sd + 1 ∧ t.svc.shared = s.svc.shared) ∧
        (4 ≤ s.spareUnits sd → (sd, u) ∈ t.svc.shared ∧ (sd, u ^^^ 1) ∈ t.svc.shared) ∧ SameBytes s t) ∧
    (∀ sd row, ∃ t, exec (.hbmRowRepair sd row) s = .next t ∧ (sd, row) ∈ t.svc.nv.retRows ∧ SameBytes s t) ∧
    (∀ u, ∃ t, exec (.softError (.hbm u)) s = .next t ∧ u ∈ t.memBad ∧ SameBytes s t) ∧
    (∀ c u, u < 2 ^ 16 → ∃ t, exec (.softError (.scratch c u)) s = .next t ∧ u ∈ (t.core c).spBad ∧ SameBytes s t) ∧
    ∀ c k, (s.ctx c k).live = true →
      ∃ t, exec (.softError (.control c k)) s = .next t ∧ (t.ctx c k).live = false ∧ t.mem = s.mem

/-- 16_scheduling.md R326, R327 and 04_device_memory.md R101: at a multiple of 8,000 ticks every cluster's permits grow by one
in each fourth idle interval running, to 64 at most, and fall by 2 for an interval at 960 MHz and by 1 for one at 880 MHz;
at most four clusters of a die run at 960 MHz, each with a BMAX and a claim of 2; the refresh window
of bank `b` stands open for the 1,600 ticks from 3,200 b of each 102,400. -/
def Obligations.BoostAndRefresh : Prop :=
  ∀ s : State,
    (s.ftick % 8000 ≠ 0 → exec .boostBoundary s = .next s) ∧
    (s.ftick % 8000 = 0 → ∃ t, exec .boostBoundary s = .next t ∧
      (∀ die, die < 4 →
        ((upFrom (8 * die) 8).filter fun cl => (t.cluster cl).state == 2).length ≤ 4) ∧
      (∀ cl, cl < 32 →
        (t.cluster cl).idle = (if (s.cluster cl).busy ∨ (s.cluster cl).idle = 3 then 0 else (s.cluster cl).idle + 1) ∧
        (t.cluster cl).permits =
          (if (s.cluster cl).busy = false ∧ (s.cluster cl).idle = 3 then min 64 ((s.cluster cl).permits + 1)
            else (s.cluster cl).permits) - (t.cluster cl).state.toNat ∧
        ((t.cluster cl).state = 2 → (s.cluster cl).bmax = 2 ∧ (s.claim cl).1 = 2)) ∧ SameBytes s t) ∧
    ∀ die b, die < 4 → b < 32 →
      (∃ t, exec (.wsRefreshWindowOpen die b) s = .next t ∧ t = { s with wsOpen := t.wsOpen } ∧
        ((die, b) ∈ t.wsOpen ↔ (s.ftick + 102400 - 3200 * b) % 102400 < 1600)) ∧
      (1600 ≤ (s.ftick + 102400 - 3200 * b) % 102400 →
        ∃ t, exec (.wsRefreshWindowClose die b) s = .next t ∧ (die, b) ∉ t.wsOpen ∧
          t = { s with wsOpen := t.wsOpen })

/-! ## VX -/

/-- 09_vector.md R184, 07_ring.md R153, R154 and 10_reversible.md R219, R221: an issue of any VX word that the remainder
stack lets pass. Its pops are taken, its guard is read, the cycles in which its slots are read, its operation is made and
its result meets its slot are fixed; a do word pushes its entry, an undo word takes its own. -/
def Obligations.VxWordsIssue : Prop :=
  ∀ (o : VxOp) (f : Frame) (p q : VxFields) (s : State) (c id : Nat) (r : Cursor) (w : EWord) (st st' : Stack)
    (e : Option RemEnt),
    s.issues c .vx r w (o.toInstr f p) → q = vxStepped o p r.issue →
    id = (s.core c).nextJob + (if r.issue = 0 then 1 else 0) → (s.own c).stack.waits o = false →
    (s.own c).stack.marks3 o q r.entry.es = .ok st → st.act o q r.entry.gen id = .ok (st', e) →
    ∃ t fl, exec (o.toInstr f p) s = .next t ∧ IssueBegun c .vx r s t ∧ OnlyCore c s t ∧ SameBytes s t ∧
      (t.own c).tiles = (s.own c).tiles ∧ (t.own c).accs = (s.own c).accs ∧
      (t.own c).flights = (s.own c).flights ++ [fl] ∧ (t.own c).stack = st' ∧ fl.rem = e ∧ fl.id = id ∧
      fl.quiet = false ∧ fl.arrived = false ∧ fl.instr = o.toInstr f p ∧ fl.issue = r.issue ∧ fl.es = r.entry.es ∧
      fl.mode = r.entry.mode ∧ fl.ctx = r.entry.ctx ∧ fl.gen = r.entry.gen ∧
      fl.g = guardN (s.own c) p.guard p.n ∧ fl.d = q.d.toNat ∧
      (o ≠ .acrd → fl.reads.map (fun y => (y.role, y.slot, y.due)) = (vxSources o q).map fun y =>
        let n := if y.1 = 0 then q.a.toNat else if y.1 = 1 then q.b.toNat else q.c.toNat
        (y.1, n, readCycle (s.own c).sigma n (4 * y.1 + 2))) ∧
      fl.x = (if o = .acrd then (s.own c).sigma else (fl.reads.map (·.due)).foldl max (s.own c).sigma) +
        vxLatency o q.fmt ∧
      fl.w = (if vxWritesD o then meetCycle fl.x q.d.toNat 14 else fl.x)

/-- 10_reversible.md R217, R221, R222 and R230: where the first issue of a VX word fails the check of the remainder stack,
the stack-fault record holds its sub-cause and the tag of the top entry, the stack is as before and the issue writes nothing; a word that needs the
spill machine waits.
10_reversible.md R216, R217, 07_ring.md R164 and 06_copy_scratchpad.md R133: the spill machine moves the lowest entry of
a stack of more than 48 entries on core to its place in the region, as it stands then, and an entry back, as it was, into a
stack of fewer than 16. A move has three parts, made in any order (log 32): its use of port 8, its access to the data and
its access to the metadata, each when nothing else has the port or the banks in that cycle; with the last of them the entry
has left the core, or stands on it again, and the move is counted. A spill whose entry has left the stack meanwhile comes to
nothing. -/
def Obligations.RemainderStack : Prop :=
  (∀ (o : VxOp) (f : Frame) (p q : VxFields) (s : State) (c sub : Nat) (r : Cursor) (w : EWord),
     s.issues c .vx r w (o.toInstr f p) → q = vxStepped o p r.issue →
     ((s.own c).stack.waits o = true → exec (o.toInstr f p) s = .next s) ∧
     (r.issue = 0 → s.liveOk c → (s.own c).stack.waits o = false →
       ((∃ n, vxDo o = some n ∧ (s.own c).stack.depth = max (s.own c).stack.cap 48 ∧ sub = 6) ∨
         (∃ n, vxUndo o = some n ∧ (s.own c).stack.depth = 0 ∧ sub = 2) ∨
         (∃ n x, vxUndo o = some n ∧ (s.own c).stack.top = some x ∧ x.tag ≠ entTag n q.a q.d q.fmt ∧ sub = 1) ∨
         (∃ n x, vxUndo o = some n ∧ (s.own c).stack.top = some x ∧ x.tag = entTag n q.a q.d q.fmt ∧
           (x.abn = true ∨ x.badMeta = true) ∧ sub = 3) ∨
         (o = .rchk ∧ ((s.own c).stack.depth + 2 ^ 16 - ((s.own c).stack.mark (q.d.toNat % 4)).toNat) % 2 ^ 16 ≠
           (esAt r.entry.es (q.b.toNat % 8)).toNat % 2 ^ 16 ∧ sub = 4) ∨
         (o = .rdrop ∧ (s.own c).stack.depth < ((s.own c).stack.mark (q.d.toNat % 4)).toNat ∧ sub = 5)) →
       ∃ t fl, exec (o.toInstr f p) s = .next t ∧ IssueBegun c .vx r s t ∧ OnlyCore c s t ∧
         FaultFound c .vx 0x05 (stackStatus (s.topTag c) sub r.issue (w.extractLsb' 40 8)) 0 s t ∧
         (t.own c).stack = (s.own c).stack ∧ (t.own c).flights = (s.own c).flights ++ [fl] ∧ fl.quiet = true)) ∧
  (∀ (s : State) (c : Nat) (m m' : SpillMove) (p : Nat) (st : Stack) (e x : RemEnt), st = (s.own c).stack →
     p = Config.freeNat s.draws % 3 → e = s.regionEntry c m.pos →
     (∀ i x, st.ents.head? = some (i, x) → st.on ≤ 48 → (s.core c).move = none → exec (.remainderSpill c) s = .next s) ∧
     (16 ≤ st.on ∨ st.on = st.depth ∨ st.hold = true → (s.core c).move = none →
       exec (.remainderRefill c) s = .next s) ∧
     ((s.core c).move = some m → m.spill = true → (∀ y, tblFind st.ents m.pos = some y → y.id ≠ m.ent.id) →
       ∃ t, exec (.remainderSpill c) s = .next t ∧ (t.own c).stack = st ∧ (t.core c).rsSpill = (s.core c).rsSpill ∧
         t.mem = s.mem ∧ ∀ d a, (t.core d).spByte a = (s.core d).spByte a) ∧
     ((s.core c).move = some m ∨
       ((s.core c).move = none ∧ (s.core c).owner.isSome = true ∧ m.port = false ∧ m.data = false ∧ m.info = false ∧
         st.beyond m.pos = none ∧
         (m.spill = true → st.ents.head? = some (m.pos, m.ent) ∧ 48 < st.on ∧ m.ent.writer = 0) ∧
         (m.spill = false → st.on < 16 ∧ st.on < st.depth ∧ st.hold = false ∧ m.pos = st.depth - st.on - 1 ∧
           m.ent = e)) →
       (m.spill = true → tblFind st.ents m.pos = some x ∧ x.id = m.ent.id) →
       (p = 0 → m.port = false ∧ (s.core c).cyc.port = false ∧ (s.core c).swap = none ∧ m' = { m with port := true }) →
       (p = 1 → m.data = false ∧ (s.core c).banksFree (st.dataAt m.pos) 128 = true ∧
         m' = { m with data := true
                       ent := if m.spill then m.ent else { m.ent with data := e.data, bad := e.bad } }) →
       (p = 2 → m.info = false ∧ (s.core c).banksFree (st.metaAt m.pos) 8 = true ∧
         m' = { m with info := true, ent := if m.spill then m.ent else { e with data := m.ent.data, bad := m.ent.bad } }) →
       s.spOk c → st.dataAt m.pos + 128 ≤ 0x7FFC0 → st.metaAt m.pos + 8 ≤ 0x7FFC0 →
       ∃ t, exec (if m.spill then .remainderSpill c else .remainderRefill c) s = .next t ∧
         (t.own c).stack.depth = st.depth ∧ t.mem = s.mem ∧ (∀ d, d ≠ c → t.core d = s.core d) ∧
         (m.spill = false ∨ p = 0 → ∀ a, (t.core c).spByte a = (s.core c).spByte a) ∧
         (m.spill = true → p = 1 → (t.core c).spBytes (st.dataAt m.pos) 128 = bytesLe 128 x.data.toNat ∧
           ∀ a, (a < st.dataAt m.pos ∨ st.dataAt m.pos + 128 ≤ a) → (t.core c).spByte a = (s.core c).spByte a) ∧
         (m.spill = true → p = 2 → (t.core c).spBytes (st.metaAt m.pos) 8 = bytesLe 8 x.metaWord ∧
           ∀ a, (a < st.metaAt m.pos ∨ st.metaAt m.pos + 8 ≤ a) → (t.core c).spByte a = (s.core c).spByte a) ∧
         if m'.port ∧ m'.data ∧ m'.info then
           (t.core c).move = none ∧
             (m.spill = true →
               (t.own c).stack.ents = tblErase st.ents m.pos ∧
                 (t.core c).rsSpill = min ((s.core c).rsSpill + 1) (2 ^ 24 - 1)) ∧
             (m.spill = false → st.on < st.depth → m.pos + st.on + 1 = st.depth →
               (t.own c).stack.ents = tblPut st.ents m.pos m'.ent ∧
                 (t.core c).rsRefill = min ((s.core c).rsRefill + 1) (2 ^ 24 - 1))
         else (t.core c).move = some m' ∧ (t.own c).stack = st) ∧
     (∀ x : RemEnt, x.id = 0 → x.writer = 0 → x.bad = [] → x.badMeta = false → (s.core c).spBad = [] →
       (s.core c).spBytes (st.dataAt m.pos) 128 = bytesLe 128 x.data.toNat →
       (s.core c).spBytes (st.metaAt m.pos) 8 = bytesLe 8 x.metaWord → e = x))

/-- 07_ring.md R153, R154, R165, 02_numbers.md R34, R52 and 09_vector.md R209: VX reads a slot as it stands when it passes;
where a tag fails its check in counting mode or in strict mode, FMISM is set or the issue writes nothing. At its cycle x
its operation sets the flags, the guards and the return queue, and a slot that it meets then takes the lanes written;
rmark sets its mark to the depth at its issue (10_reversible.md R230). -/
def Obligations.VxReadsAndResults : Prop :=
  ∀ (o : VxOp) (f : Frame) (p q : VxFields) (s : State) (c id : Nat) (fl : Flight), (s.own c).flight id = some fl →
    fl.instr = o.toInstr f p → q = vxStepped o p fl.issue → o ≠ .acrd →
    ((fl.reads.map (·.role)).Nodup →
      (∀ y ∈ fl.reads, y.role < 3 ∧ y.got = none ∧ ∃ fm, (y.role, fm) ∈ vxSources o q) →
      ∃ t fl', exec (.vxSourceRead c id) s = .next t ∧ (t.own c).flight id = some fl' ∧ (t.own c).ring = (s.own c).ring ∧
        (∀ y ∈ fl.reads, y.due = (s.own c).sigma →
          ∃ z ∈ fl'.reads, z.role = y.role ∧ z.got = some ((s.own c).slot y.slot)) ∧
        ((∃ y ∈ fl.reads, y.due = (s.own c).sigma ∧
            ∃ fm, (y.role, fm) ∈ vxSources o q ∧ tagPass fm ((s.own c).slot y.slot).tag = false) →
          (modeCount fl.mode = false → fl'.quiet = true) ∧
          (modeCount fl.mode = true → fl'.quiet = fl.quiet ∧
            ((s.ctx c fl.ctx).live = true → (t.ctx c fl.ctx).numSt &&& flFmism = flFmism))) ∧
        SameBytes s t ∧ OnlyCore c s t) ∧
    (fl.x = (s.own c).sigma → fl.arrived = false → fl.quiet = false → (s.core c).owner.isSome = true →
      ∃ t, exec (.vxResultWrite c id) s = .next t ∧ SameBytes s t ∧ OnlyCore c s t ∧
        (∀ so tag, (vxEval o (fl.vxIn q)).d = some (so, tag) → fl.w = (s.own c).sigma →
          (vxEval o (fl.vxIn q)).c = none →
          (t.own c).slot fl.d =
            ((s.own c).slot fl.d).merge (BitVec.ofNat 1024 so.data) (BitVec.ofNat 1024 so.mask) tag) ∧
        (∀ n, ((vxEval o (fl.vxIn q)).d = none ∨ fl.w ≠ (s.own c).sigma ∨ n ≠ fl.d) →
          ((vxEval o (fl.vxIn q)).c = none ∨ fl.w2 ≠ (s.own c).sigma ∨ n ≠ fl.c) →
          fl.res = none → fl.res2 = none → (t.own c).slot n = (s.own c).slot n) ∧
        (t.ctx c fl.ctx).numSt =
          (if (s.ctx c fl.ctx).live then (s.ctx c fl.ctx).numSt ||| (vxEval o (fl.vxIn q)).fl
            else (s.ctx c fl.ctx).numSt) ∧
        ((vxEval o (fl.vxIn q)).guards = [] → (t.own c).g = (s.own c).g) ∧
        (∀ g v m, (vxEval o (fl.vxIn q)).guards.filter (fun x => x.1 == g) = [(g, v, m)] → (s.core c).cyc.gOld = [] → 0 < g →
          (t.own c).guard g =
            (((s.own c).guard g &&& ~~~(BitVec.ofNat 64 m)) ||| (BitVec.ofNat 64 v &&& BitVec.ofNat 64 m))) ∧
        ((vxEval o (fl.vxIn q)).push = none → (t.own c).rq = (s.own c).rq) ∧
        ∀ v tag, (vxEval o (fl.vxIn q)).push = some (v, tag) → (s.own c).rq.length < 16 →
          (t.own c).rq = (s.own c).rq ++ [{ value := v, tag := tag, gen := fl.gen }]) ∧
    (o = .rmark → fl.x = (s.own c).sigma → fl.arrived = false → fl.quiet = false → (s.core c).owner.isSome = true →
      ∃ t, exec (.vxResultWrite c id) s = .next t ∧ (t.own c).stack.depth = (s.own c).stack.depth ∧
        ∀ i, (t.own c).stack.mark i =
          if i = q.d.toNat % 4 then BitVec.ofNat 16 fl.addr else (s.own c).stack.mark i)

/-- 09_vector.md R186, R190, R191 and 02_numbers.md R51: the integer sums, differences and products of VX, lane by lane. An
active lane takes the exact result, wrapped or saturated as the mode says; another lane keeps its bits; OVERFLOW is set
when some active lane's result does not fit. -/
def Obligations.VxIntegerLanes : Prop :=
  ∀ (o : VxOp) (op : Int → Int → Int) (i : VxIn) (old : Slot) (n : Nat),
    (o = .add ∧ op = (fun a b => a + b)) ∨ (o = .sub ∧ op = (fun a b => a - b)) ∨
      (o = .mul ∧ op = (fun a b => a * b)) →
    (i.p.fmt = 4 ∧ n = 32) ∨ (i.p.fmt = 5 ∧ n = 16) → i.a.bad = [] → i.b.bad = [] →
    ∃ out, (vxEval o i).d = some (out, i.p.fmt) ∧
      (∀ k, k < lanesOf i.p.fmt →
        laneOf i.p.fmt (old.merge (BitVec.ofNat 1024 out.data) (BitVec.ofNat 1024 out.mask) i.p.fmt).data k =
          if laneOn i.p.fmt i.g k then
            natOf n
              (if modeWrap i.mode then
                op (sintOf n (laneOf i.p.fmt i.a.data k)) (sintOf n (laneOf i.p.fmt i.b.data k))
              else
                max (-(2 ^ (n - 1)))
                  (min (2 ^ (n - 1) - 1)
                    (op (sintOf n (laneOf i.p.fmt i.a.data k)) (sintOf n (laneOf i.p.fmt i.b.data k)))))
          else laneOf i.p.fmt old.data k) ∧
      ((vxEval o i).fl &&& flOverflow = flOverflow ↔
        ∃ k, k < lanesOf i.p.fmt ∧ laneOn i.p.fmt i.g k = true ∧
          (op (sintOf n (laneOf i.p.fmt i.a.data k)) (sintOf n (laneOf i.p.fmt i.b.data k)) < -(2 ^ (n - 1)) ∨
            2 ^ (n - 1) - 1 < op (sintOf n (laneOf i.p.fmt i.a.data k)) (sintOf n (laneOf i.p.fmt i.b.data k))))

/-- 09_vector.md R186, R190 to R195 and 02_numbers.md R37 to R45, R49: the floating-point words of VX, lane by lane. An
active lane takes the sum, difference, product or fused product and sum of its operands' lanes, formed exactly and
rounded once, or their minimum or maximum, and its flags are set; CF16 lanes do so half by half; another lane keeps its
bits. A NaN goes on quieted (of several, the first: log 38), and ∞ − ∞ and 0 × ∞ are invalid. A conversion takes the
lanes of its part.
09_vector.md R205 and 02_numbers.md R36, R50: the reductions of VX. Lane 0 takes the tree of the active lanes, every other
active lane takes zero, an inactive one keeps its bits. Of integer lanes under WRAP the tree is the sum, or the sum of
the products, modulo 2^32, and the maximum and the minimum are those of the active lanes; of floating-point lanes it is
the pairwise tree of additions rounded to nearest even, or of R192's maximum and minimum. -/
def Obligations.VxFloatLanes : Prop :=
  ((∀ (i : VxIn) (old : Slot) (f : Fmt) (m : Nat) (l : Slot → Nat → Nat), f = i.p.fmt → m = modeR i.mode →
     l = (fun x k => laneOf f x.data k) → i.a.bad = [] → i.b.bad = [] → i.c.bad = [] →
     (isFp f = true → ∀ (o : VxOp) (fn : Nat → Nat × Flg),
       (o, fn) ∈ ([(.add, fun k => fpAdd f m (l i.a k) (l i.b k)), (.sub, fun k => fpSub f m (l i.a k) (l i.b k)),
           (.mul, fun k => fpMul f m (l i.a k) (l i.b k)), (.min, fun k => fpMinMax f false (l i.a k) (l i.b k)),
           (.max, fun k => fpMinMax f true (l i.a k) (l i.b k)),
           (.fma, fun k => fpFma f m false false (l i.a k) (l i.b k) (l i.c k)),
           (.fms, fun k => fpFma f m false true (l i.a k) (l i.b k) (l i.c k)),
           (.fnma, fun k => fpFma f m true false (l i.a k) (l i.b k) (l i.c k)),
           (.adds, fun k => fpAdd f m (l i.a k) i.scalar), (.muls, fun k => fpMul f m (l i.a k) i.scalar),
           (.fmas, fun k => fpFma f m false false (l i.a k) i.scalar (l i.c k))] : List (VxOp × (Nat → Nat × Flg))) →
       ∃ out, (vxEval o i).d = some (out, f) ∧
         ∀ k, k < lanesOf f →
           laneOf f (old.merge (BitVec.ofNat 1024 out.data) (BitVec.ofNat 1024 out.mask) f).data k =
             (if laneOn f i.g k then (fn k).1 else laneOf f old.data k) ∧
           (laneOn f i.g k = true → (vxEval o i).fl &&& (fn k).2 = (fn k).2)) ∧
     (f = 9 → ∀ sub : Bool, ∃ out, (vxEval (if sub then .sub else .add) i).d = some (out, f) ∧
       ∀ k, k < 32 →
         laneOf f (old.merge (BitVec.ofNat 1024 out.data) (BitVec.ofNat 1024 out.mask) f).data k =
           if laneOn f i.g k then
             (if sub then fpSub 2 m (l i.a k % 2 ^ 16) (l i.b k % 2 ^ 16)
               else fpAdd 2 m (l i.a k % 2 ^ 16) (l i.b k % 2 ^ 16)).1 +
             (if sub then fpSub 2 m (l i.a k / 2 ^ 16) (l i.b k / 2 ^ 16)
               else fpAdd 2 m (l i.a k / 2 ^ 16) (l i.b k / 2 ^ 16)).1 * 2 ^ 16
           else l old k) ∧
     (f = 9 → ∃ out, (vxEval .mul i).d = some (out, f) ∧
       ∀ k, k < 32 → laneOn f i.g k = true →
         laneOf f (old.merge (BitVec.ofNat 1024 out.data) (BitVec.ofNat 1024 out.mask) f).data k =
           (cfMul m (l i.a k) (l i.b k)).1) ∧
     (∀ tgt : Fmt, tgt = i.p.c → 1 ≤ f.toNat → f.toNat ≤ 8 → 1 ≤ tgt.toNat → tgt.toNat ≤ 8 →
       cvtPart f tgt i.p.b = true →
       ∃ out, (vxEval .cvt i).d = some (out, tgt) ∧
         ∀ j, j < lanesOf tgt →
           laneOf tgt (old.merge (BitVec.ofNat 1024 out.data) (BitVec.ofNat 1024 out.mask) tgt).data j =
             if laneOn tgt i.g j then
               (if lanesOf tgt ≤ lanesOf f then (conv f tgt m (modeWrap i.mode) (l i.a (i.p.b.toNat * lanesOf tgt + j))).1
                 else if i.p.b.toNat * lanesOf f ≤ j ∧ j < i.p.b.toNat * lanesOf f + lanesOf f then
                   (conv f tgt m (modeWrap i.mode) (l i.a (j - i.p.b.toNat * lanesOf f))).1
                 else 0)
             else laneOf tgt old.data j)) ∧
   (∀ (f : Fmt) (m a b c m1 m2 m3 : Nat) (s1 s2 s3 : Bool) (e1 e2 e3 : Int) (sg : Bool → Nat → Int),
     sg = (fun s v => if s then -(v : Int) else v) → isFp f = true →
     fpVal f a = .fin s1 m1 e1 → fpVal f b = .fin s2 m2 e2 → fpVal f c = .fin s3 m3 e3 →
     (∀ z e : Int, e = min e1 e2 → z = sg s1 (m1 * 2 ^ (e1 - e).toNat) + sg s2 (m2 * 2 ^ (e2 - e).toNat) →
       fpAdd f m a b =
         roundFp f m (if z = 0 then (if s1 = s2 then s1 else decide (m = 3)) else decide (z < 0)) z.natAbs e) ∧
     (∀ z e : Int, e = min e1 e2 → z = sg s1 (m1 * 2 ^ (e1 - e).toNat) - sg s2 (m2 * 2 ^ (e2 - e).toNat) →
       fpSub f m a b =
         roundFp f m (if z = 0 then (if s1 = !s2 then s1 else decide (m = 3)) else decide (z < 0)) z.natAbs e) ∧
     fpMul f m a b = roundFp f m (s1 != s2) (m1 * m2) (e1 + e2) ∧
     (∀ (np nc : Bool) (z e : Int), e = min (e1 + e2) e3 →
       z = sg ((s1 != s2) != np) (m1 * m2 * 2 ^ (e1 + e2 - e).toNat) + sg (s3 != nc) (m3 * 2 ^ (e3 - e).toNat) →
       fpFma f m np nc a b c =
         roundFp f m (if z = 0 then (if ((s1 != s2) != np) = (s3 != nc) then s3 != nc else decide (m = 3))
           else decide (z < 0)) z.natAbs e) ∧
     roundFp f m s1 m1 e1 = (a % 2 ^ laneBits f, 0)) ∧
   (∀ (m a b m1 m2 m3 m4 : Nat) (s1 s2 s3 s4 : Bool) (e1 e2 e3 e4 : Int) (sg : Bool → Nat → Int),
     sg = (fun s v => if s then -(v : Int) else v) → fpVal 2 (a % 2 ^ 16) = .fin s1 m1 e1 →
     fpVal 2 (a / 2 ^ 16) = .fin s2 m2 e2 → fpVal 2 (b % 2 ^ 16) = .fin s3 m3 e3 → fpVal 2 (b / 2 ^ 16) = .fin s4 m4 e4 →
     (∀ z e : Int, e = min (e1 + e3) (e2 + e4) →
       z = sg (s1 != s3) (m1 * m3 * 2 ^ (e1 + e3 - e).toNat) - sg (s2 != s4) (m2 * m4 * 2 ^ (e2 + e4 - e).toNat) →
       (cfMul m a b).1 % 2 ^ 16 =
         (roundFp 2 m (if z = 0 then (if (s1 != s3) = !(s2 != s4) then s1 != s3 else decide (m = 3))
           else decide (z < 0)) z.natAbs e).1) ∧
     (∀ z e : Int, e = min (e1 + e4) (e2 + e3) →
       z = sg (s1 != s4) (m1 * m4 * 2 ^ (e1 + e4 - e).toNat) + sg (s2 != s3) (m2 * m3 * 2 ^ (e2 + e3 - e).toNat) →
       (cfMul m a b).1 / 2 ^ 16 =
         (roundFp 2 m (if z = 0 then (if (s1 != s4) = (s2 != s3) then s1 != s4 else decide (m = 3))
           else decide (z < 0)) z.natAbs e).1)) ∧
   (∀ (f : Fmt) (m a b fr w : Nat) (s : Bool), isFp f = true →
     (fpVal f a = .nan s fr w → isNan (fpVal f b) = false →
       fpAdd f m a b = (a % 2 ^ laneBits f ||| 2 ^ (w - 1), if bit fr (w - 1) then 0 else flInvalid) ∧
       fpMul f m a b = (a % 2 ^ laneBits f ||| 2 ^ (w - 1), if bit fr (w - 1) then 0 else flInvalid) ∧
       fpMul f m b a = (a % 2 ^ laneBits f ||| 2 ^ (w - 1), if bit fr (w - 1) then 0 else flInvalid)) ∧
     (fpVal f a = .inf s → fpVal f b = .inf (!s) → fpAdd f m a b = (qnan f, flInvalid)) ∧
     (∀ t e, fpVal f a = .inf s → fpVal f b = .fin t 0 e → fpMul f m a b = (qnan f, flInvalid))) ∧
   ∀ (f : Fmt) (m c : Nat) (wrap : Bool), 1 ≤ f.toNat → f.toNat ≤ 8 → c < 2 ^ packBits f → conv f f m wrap c = (c, 0)) ∧
  (∀ (i : VxIn) (old : Slot) (f fr : Fmt) (on : List Nat) (l : Slot → Nat → Nat), f = i.p.fmt →
     fr = (if isFp f then 1 else 4) → on = (List.range (lanesOf f)).filter (laneOn f i.g) →
     l = (fun x k => laneOf f x.data k) → i.a.bad = [] → i.b.bad = [] →
     (f = 4 ∨ f = 5 → modeWrap i.mode = true → ∀ dot : Bool,
       ∃ out, (vxEval (if dot then .redd else .reda) i).d = some (out, 4) ∧
         ∀ k, k < 32 →
           laneOf 4 (old.merge (BitVec.ofNat 1024 out.data) (BitVec.ofNat 1024 out.mask) 4).data k =
             if laneOn 4 i.g k then
               (if k = 0 then
                 natOf 32 ((on.map fun j => laneInt f (l i.a j) * (if dot then laneInt f (l i.b j) else 1)).sum)
               else 0)
             else laneOf 4 old.data k) ∧
     (f = 4 ∨ f = 5 → ∀ mx : Bool, ∃ out, (vxEval (if mx then .redx else .redn) i).d = some (out, f) ∧
       (laneOn f i.g 0 = true → ∃ j ∈ on, laneOf f (BitVec.ofNat 1024 out.data) 0 = l i.a j ∧
         ∀ k ∈ on, if mx then laneInt f (l i.a k) ≤ laneInt f (l i.a j) else laneInt f (l i.a j) ≤ laneInt f (l i.a k))) ∧
     (isFp f = true → laneOn f i.g 0 = true →
       (∀ dot : Bool, ∃ out, (vxEval (if dot then .redd else .reda) i).d = some (out, 1) ∧
         laneOf 1 (BitVec.ofNat 1024 out.data) 0 =
           ((tree (fpAdd 1 0) 6 ((List.range (lanesOf f)).map fun j =>
             if laneOn f i.g j then
               some (if dot then (deliver 1 0 [fpVal f (l i.a j), fpVal f (l i.b j)]
                   (mulVal (fpVal f (l i.a j)) (fpVal f (l i.b j)))).1
                 else (conv f 1 0 false (l i.a j)).1)
             else none)).1).getD 0 % 2 ^ 32 ∧
         ∀ k, 0 < k → k < 32 → laneOn 1 i.g k = true → laneOf 1 (BitVec.ofNat 1024 out.data) k = 0) ∧
       ∀ mx : Bool, ∃ out, (vxEval (if mx then .redx else .redn) i).d = some (out, f) ∧
         laneOf f (BitVec.ofNat 1024 out.data) 0 =
           ((tree (fpMinMax f mx) 6 ((List.range (lanesOf f)).map fun j =>
             if laneOn f i.g j then some (l i.a j) else none)).1).getD 0 % 2 ^ laneBits f))

/-- 10_reversible.md R224 to R229: every undo word restores, in every active lane, what its do word consumed, from the
result slots and the entry that the do word left; of a narrowing, whatever the modes, the operand comes back bit for bit,
and a lane of D outside the part keeps its bits. -/
def Obligations.UndoRestoresDo : Prop :=
  (∀ (i : VxIn) (old oldC : Slot) (k : Nat), i.p.fmt = 4 ∨ i.p.fmt = 5 → i.a.bad = [] → i.b.bad = [] → old.bad = [] →
    oldC.bad = [] → i.entBad = false → k < lanesOf i.p.fmt → laneOn i.p.fmt i.g k = true →
    (∀ d u, (d, u) ∈ [(VxOp.rmulq, VxOp.umulq), (.rsra, .usra), (.rleak, .uleak)] →
      ∃ out e back, (vxEval d i).d = some (out, i.p.fmt) ∧ (vxEval d i).ent = some e ∧
        (vxEval u { i with
          a := old.merge (BitVec.ofNat 1024 out.data) (BitVec.ofNat 1024 out.mask) i.p.fmt, ent := BitVec.ofNat 1024 e }).d =
            some (back, i.p.fmt) ∧
        laneOf i.p.fmt (BitVec.ofNat 1024 back.data) k = laneOf i.p.fmt i.a.data k) ∧
    (∃ out back, (vxEval .raddq i).d = some (out, i.p.fmt) ∧
      (vxEval .usubq { i with
        a := old.merge (BitVec.ofNat 1024 out.data) (BitVec.ofNat 1024 out.mask) i.p.fmt }).d = some (back, i.p.fmt) ∧
      laneOf i.p.fmt (BitVec.ofNat 1024 back.data) k = laneOf i.p.fmt i.a.data k) ∧
    ∃ out outC e back backC, (vxEval .rmix i).d = some (out, i.p.fmt) ∧ (vxEval .rmix i).c = some (outC, i.p.fmt) ∧
      (vxEval .rmix i).ent = some e ∧
      (vxEval .umix { i with
        a := old.merge (BitVec.ofNat 1024 out.data) (BitVec.ofNat 1024 out.mask) i.p.fmt
        b := oldC.merge (BitVec.ofNat 1024 outC.data) (BitVec.ofNat 1024 outC.mask) i.p.fmt
        ent := BitVec.ofNat 1024 e }).d = some (back, i.p.fmt) ∧
      (vxEval .umix { i with
        a := old.merge (BitVec.ofNat 1024 out.data) (BitVec.ofNat 1024 out.mask) i.p.fmt
        b := oldC.merge (BitVec.ofNat 1024 outC.data) (BitVec.ofNat 1024 outC.mask) i.p.fmt
        ent := BitVec.ofNat 1024 e }).c = some (backC, i.p.fmt) ∧
      laneOf i.p.fmt (BitVec.ofNat 1024 back.data) k = laneOf i.p.fmt i.a.data k ∧
      laneOf i.p.fmt (BitVec.ofNat 1024 backC.data) k = laneOf i.p.fmt i.b.data k) ∧
  ∀ (i : VxIn) (old : Slot) (j k : Nat), (narrows i.p.fmt i.p.c && cvtPart i.p.fmt i.p.c i.p.b) = true → i.a.bad = [] →
    old.bad = [] → i.entBad = false → j = i.p.b.toNat * lanesOf i.p.fmt + k → k < lanesOf i.p.fmt →
    laneOn i.p.fmt i.g k = true →
    ∃ out e back, (vxEval .rnrw i).d = some (out, i.p.c) ∧ (vxEval .rnrw i).ent = some e ∧
      (∀ l, l < lanesOf i.p.c →
        laneOf i.p.c (old.merge (BitVec.ofNat 1024 out.data) (BitVec.ofNat 1024 out.mask) i.p.c).data l =
          if l = j then (conv i.p.fmt i.p.c (modeR i.mode) (modeWrap i.mode) (laneOf i.p.fmt i.a.data k)).1
          else if ∃ m, m < lanesOf i.p.fmt ∧ l = i.p.b.toNat * lanesOf i.p.fmt + m ∧ laneOn i.p.fmt i.g m = true then
            laneOf i.p.c (BitVec.ofNat 1024 out.data) l
          else laneOf i.p.c old.data l) ∧
      (vxEval .unrw { i with
        a := old.merge (BitVec.ofNat 1024 out.data) (BitVec.ofNat 1024 out.mask) i.p.c, ent := BitVec.ofNat 1024 e }).d =
          some (back, i.p.fmt) ∧
      laneOf i.p.fmt (BitVec.ofNat 1024 back.data) k = laneOf i.p.fmt i.a.data k

/-! ## LD, ST, MX and CP -/

/-- 08_load_store.md R167, R168, R173, R175 to R178, R180: what an issue of an LD word fixes. A ring word goes to its address
at its cycle and meets its slot at the cycle of its word; a gather first reads its index slot; a tile word becomes a
transfer and gives its tile the tag. An address that is not aligned faults; a range that leaves the scratchpad ends the task,
at the issue (log 42), with a record that names LD as its engine (log 25); an issue whose guard is all false is not
checked. -/
def Obligations.LdWordsIssue : Prop :=
  ∀ (o : LdOp) (f : Frame) (p : LsFields) (s : State) (c a span d : Nat) (r : Cursor) (w : EWord) (g : BitVec 64),
    s.issues c .ld r w (o.toInstr f p) → g = guardN (s.own c) p.guard p.n →
    d = (stepName p.slot p.sa r.issue 0).toNat →
    a = lsAddr r.entry.es p (o != .vg) r.issue
      (match o with
       | .t | .tw | .td | .tr | .sc => ((((s.own c).liveWord r.live).map (·.size)).getD 0)
       | _ => ldStepSize o p.fmt) →
    span = (match o with
      | .gd => 8
      | .am => if (amLanes p.fmt.toNat g).isEmpty then 0 else 128
      | _ => if g = 0 then 0 else ldSpan o p.fmt) →
    (o = .v ∨ o = .vb ∨ o = .ln ∨ o = .gd ∨ o = .vd ∨ o = .am →
      ((o ≠ .gd ∧ g = 0) ∨ a % ldAlign o p.fmt = 0 →
        (span = 0 ∨ if o = .vd then (s.core c).check false a span = none else a + span ≤ 0x80000) →
        ∃ t fl, exec (o.toInstr f p) s = .next t ∧ IssueBegun c .ld r s t ∧ OnlyCore c s t ∧ SameBytes s t ∧
          (t.own c).flights = (s.own c).flights ++ [fl] ∧ fl.instr = o.toInstr f p ∧ fl.eng = .ld ∧ fl.addr = a ∧
          fl.g = g ∧ fl.quiet = false ∧
          fl.acc = (if span = 0 ∨ o = .vd then none else some ((s.own c).sigma + 1)) ∧
          fl.d = (if o = .gd then (p.slot.toNat + (if p.sa then r.issue else 0)) % 8 else d) ∧
          fl.w = (match o with
            | .gd => (s.own c).sigma + 6
            | .ln => meetCycle ((s.own c).sigma + 7) d 0
            | .vd => meetCycle ((s.own c).sigma + 320) d 0
            | .am => meetCycle ((s.own c).sigma + (if atomicSize p.fmt.toNat = 4 then 72 else 40)) d 0
            | _ => meetCycle ((s.own c).sigma + 6) d 0)) ∧
      (o = .gd ∨ g ≠ 0 → r.issue = 0 → s.liveOk c → a % ldAlign o p.fmt ≠ 0 →
        ∃ t fl, exec (o.toInstr f p) s = .next t ∧ IssueBegun c .ld r s t ∧
          FaultFound c .ld 0x03 (statusWord (w.extractLsb' 40 8) 0 0 r.word) (BitVec.ofNat 64 a) s t ∧
          (t.own c).flights = (s.own c).flights ++ [fl] ∧ fl.quiet = true ∧ fl.acc = none) ∧
      (span ≠ 0 → r.issue = 0 → s.liveOk c → o ≠ .vd → (s.ctx c r.entry.ctx).live = true → a % ldAlign o p.fmt = 0 →
        0x80000 < a + span →
        ∃ t, exec (o.toInstr f p) s = .next t ∧ (t.ctx c r.entry.ctx).live = false ∧
          ∃ x ∈ t.held, x.cause = 0x40 ∧ x.status = 4 ∧ x.addr = BitVec.ofNat 64 (max a 0x80000) ∧ x.eng = 1 ∧
            x.ctx = r.entry.ctx)) ∧
    (o = .vg → g = 0 ∨ a % elemBytes p.fmt = 0 →
      ∃ t fl, exec (o.toInstr f p) s = .next t ∧ IssueBegun c .ld r s t ∧ OnlyCore c s t ∧ SameBytes s t ∧
        (t.own c).flights = (s.own c).flights ++ [fl] ∧ fl.instr = o.toInstr f p ∧ fl.addr = a ∧ fl.g = g ∧
        fl.quiet = false ∧
        fl.reads = [{ role := 4, slot := p.off.toNat / 256, got := none
                      due := readCycle (s.own c).sigma (p.off.toNat / 256) 12 }] ∧
        fl.acc = (if g = 0 then none else some (readCycle (s.own c).sigma (p.off.toNat / 256) 12 + 1)) ∧
        fl.w = meetCycle (readCycle (s.own c).sigma (p.off.toNat / 256) 12 + 12) d 0) ∧
    (o = .vg → g ≠ 0 → r.issue = 0 → s.liveOk c → a % elemBytes p.fmt ≠ 0 →
      ∃ t, exec (o.toInstr f p) s = .next t ∧ IssueBegun c .ld r s t ∧
        FaultFound c .ld 0x03 (statusWord (w.extractLsb' 40 8) 0 0 r.word) (BitVec.ofNat 64 a) s t) ∧
    ∀ ti n, ti = (p.slot.toNat + (if p.sa then r.issue else 0)) % 8 →
      n = (if o = .sc then 512 else ((s.own c).tile ti).size) →
      o = .t ∨ o = .tw ∨ o = .td ∨ o = .sc ∨ o = .tr → (r.issue ≠ 0 → ((s.own c).liveWord r.live).isSome = true) →
      (a % 128 ≠ 0 ∨ (o = .tr ∧ ((s.own c).tile ti).nWidth % elemBytes p.fmt ≠ 0) → r.issue = 0 → s.liveOk c →
        ∃ t x, exec (o.toInstr f p) s = .next t ∧ IssueBegun c .ld r s t ∧
          FaultFound c .ld 0x03 (statusWord (w.extractLsb' 40 8) 0 0 r.word) (BitVec.ofNat 64 a) s t ∧
          (t.own c).xfers = (s.own c).xfers ++ [x] ∧ x.quiet = true ∧ x.total = 0 ∧
          ∀ j, (t.own c).tile j = (s.own c).tile j) ∧
      (a % 128 = 0 →
      (o = .tr → ((s.own c).tile ti).nWidth % elemBytes p.fmt = 0) →
      (if o = .td then (s.core c).check false a n = none else if o = .tw then a + n ≤ 2 ^ 28 else a + n ≤ 0x80000) →
      ∃ t x, exec (o.toInstr f p) s = .next t ∧ IssueBegun c .ld r s t ∧ OnlyCore c s t ∧ SameBytes s t ∧
        (t.own c).xfers = (s.own c).xfers ++ [x] ∧ x.instr = o.toInstr f p ∧ x.eng = .ld ∧ x.tile = ti ∧ x.base = a ∧
        x.total = n ∧ x.done = 0 ∧ x.quiet = false ∧ x.rate = (if o = .tw ∨ o = .td then 64 else 128) ∧
        x.start = (s.own c).sigma + (if o = .tw then 16 else if o = .td then 320 else if o = .tr then 8 else 4) ∧
        (t.own c).tile ti = (if o = .sc then (s.own c).tile ti else { (s.own c).tile ti with tag := p.fmt }) ∧
        ∀ j, j ≠ ti → (t.own c).tile j = (s.own c).tile j)

/-- 08_load_store.md R167, R168, R174 to R176, R178 to R180 and 02_numbers.md R34: what an issue of an ST word fixes. A ring
word reads its slot when it passes and makes its access two cycles later; a scatter reads its index slot too; a tile or a
retire-convert word becomes a transfer, unless its tile's tag fails in strict mode. -/
def Obligations.StWordsIssue : Prop :=
  ∀ (o : StOp) (f : Frame) (p : LsFields) (s : State) (c a span v rd : Nat) (r : Cursor) (w : EWord) (g : BitVec 64),
    s.issues c .st r w (o.toInstr f p) → g = guardN (s.own c) p.guard p.n →
    v = (stepName p.slot p.sa r.issue 0).toNat → rd = readCycle (s.own c).sigma v 12 →
    a = lsAddr r.entry.es p (o != .vs) r.issue
      (match o with
       | .t | .rc | .rd => ((((s.own c).liveWord r.live).map (·.size)).getD 0)
       | .ln => 96
       | .gd => 8
       | _ => 128) →
    span = (match o with
      | .gd => 8
      | .am => if (amLanes p.fmt.toNat g).isEmpty then 0 else 128
      | .ve => activeCount p.fmt g * elemBytes p.fmt
      | .ln => if g = 0 then 0 else 96
      | _ => if g = 0 then 0 else 128) →
    (o = .v ∨ o = .ve ∨ o = .ln ∨ o = .gd ∨ o = .vd ∨ o = .am →
      ((o ≠ .gd ∧ g = 0) ∨ a % stAlign o p.fmt = 0 →
        (span = 0 ∨ if o = .vd then (s.core c).check true a span = none else a + span ≤ 0x80000) →
        ∃ t fl, exec (o.toInstr f p) s = .next t ∧ IssueBegun c .st r s t ∧ OnlyCore c s t ∧ SameBytes s t ∧
          (t.own c).flights = (s.own c).flights ++ [fl] ∧ fl.instr = o.toInstr f p ∧ fl.eng = .st ∧ fl.addr = a ∧
          fl.g = g ∧ fl.quiet = false ∧
          fl.reads = (if o = .gd then [] else [{ role := 3, slot := v, due := rd, got := none }]) ∧
          fl.acc = (if span = 0 then none
            else some (if o = .gd then (s.own c).sigma + 2 else if o = .am then rd + 1 else rd + 2)) ∧
          (o = .gd → fl.g2 = (s.own c).guard ((p.slot.toNat + (if p.sa then r.issue else 0)) % 8))) ∧
      (o = .gd ∨ g ≠ 0 → r.issue = 0 → s.liveOk c → a % stAlign o p.fmt ≠ 0 →
        ∃ t fl, exec (o.toInstr f p) s = .next t ∧ IssueBegun c .st r s t ∧
          FaultFound c .st 0x03 (statusWord (w.extractLsb' 40 8) 0 0 r.word) (BitVec.ofNat 64 a) s t ∧
          (t.own c).flights = (s.own c).flights ++ [fl] ∧ fl.quiet = true ∧ fl.acc = none)) ∧
    (o = .vs → g = 0 ∨ a % elemBytes p.fmt = 0 →
      ∃ t fl, exec (o.toInstr f p) s = .next t ∧ IssueBegun c .st r s t ∧ OnlyCore c s t ∧ SameBytes s t ∧
        (t.own c).flights = (s.own c).flights ++ [fl] ∧ fl.instr = o.toInstr f p ∧ fl.addr = a ∧ fl.g = g ∧
        fl.quiet = false ∧
        fl.reads = [{ role := 3, slot := v, due := rd, got := none },
          { role := 4, slot := p.off.toNat / 256, got := none
            due := readCycle (s.own c).sigma (p.off.toNat / 256) 12 }] ∧
        fl.acc = (if g = 0 then none
          else some (max rd (readCycle (s.own c).sigma (p.off.toNat / 256) 12) + 2))) ∧
    (o = .vs → g ≠ 0 → r.issue = 0 → s.liveOk c → a % elemBytes p.fmt ≠ 0 →
      ∃ t, exec (o.toInstr f p) s = .next t ∧ IssueBegun c .st r s t ∧
        FaultFound c .st 0x03 (statusWord (w.extractLsb' 40 8) 0 0 r.word) (BitVec.ofNat 64 a) s t) ∧
    ∀ ti n, ti = (p.slot.toNat + (if p.sa then r.issue else 0)) % (if o = .t then 8 else 2) →
      n = (if o = .t then ((s.own c).tile ti).size else 128 * rowBytes p.fmt) →
      o = .t ∨ o = .rc ∨ o = .rd → (r.issue ≠ 0 → ((s.own c).liveWord r.live).isSome = true) →
      (o = .t → tagPass p.fmt ((s.own c).tile ti).tag = false → modeCount r.entry.mode = false → r.issue = 0 →
        s.liveOk c →
        ∃ t x, exec (o.toInstr f p) s = .next t ∧ IssueBegun c .st r s t ∧
          FaultFound c .st 0x02 (statusWord (w.extractLsb' 40 8) 0 0 r.word) 0 s t ∧
          (t.own c).xfers = (s.own c).xfers ++ [x] ∧ x.quiet = true ∧ x.total = 0) ∧
      ((o = .t → tagPass p.fmt ((s.own c).tile ti).tag = true ∨ modeCount r.entry.mode = true) →
      (a % 128 ≠ 0 → r.issue = 0 → s.liveOk c →
        ∃ t, exec (o.toInstr f p) s = .next t ∧ IssueBegun c .st r s t ∧
          FaultFound c .st 0x03 (statusWord (w.extractLsb' 40 8) 0 0 r.word) (BitVec.ofNat 64 a) s t) ∧
      (a % 128 = 0 → (if o = .rd then (s.core c).check true a n = none else a + n ≤ 0x80000) →
      ∃ t x, exec (o.toInstr f p) s = .next t ∧ IssueBegun c .st r s t ∧ OnlyCore c s t ∧ SameBytes s t ∧
        (t.own c).xfers = (s.own c).xfers ++ [x] ∧ x.instr = o.toInstr f p ∧ x.eng = .st ∧ x.tile = ti ∧ x.base = a ∧
        x.total = n ∧ x.done = 0 ∧ x.quiet = false ∧ x.rate = (if o = .rd then 64 else 128) ∧
        x.start = (s.own c).sigma + (if o = .t then 4 else 8) ∧ (t.own c).tiles = (s.own c).tiles))

/-- 07_ring.md R155, 08_load_store.md R173, R174, R176, R178, R181, R182: the steps of LD and ST issues in flight. ST reads
its slot as it passes; a plain store writes the bytes of its active lanes and no other byte, with zeros above the six bits of
an LN6 lane (log 20); a load places its lanes and its tag and leaves the others; data of device memory arrive as they stand at their home; a posted store changes the bytes
it names there; a transfer whose end has come is over. -/
def Obligations.LdStAccesses : Prop :=
  ∀ (s : State) (c id : Nat) (f : Frame) (p : LsFields) (fl : Flight), (s.own c).flight id = some fl →
    (∀ v due, fl.instr = .stV f p → fl.reads = [{ role := 3, slot := v, due := due, got := none }] →
      due = (s.own c).sigma → tagPass p.fmt ((s.own c).slot v).tag = true →
      ∃ t fl', exec (.stSlotRead c id) s = .next t ∧ (t.own c).flight id = some fl' ∧
        fl'.got 3 = (s.own c).slot v ∧ fl'.quiet = fl.quiet ∧ SameBytes s t ∧ OnlyCore c s t ∧
        (t.core c).faults = (s.core c).faults) ∧
    (fl.instr = .stV f p → fl.acc = some (s.own c).sigma → fl.quiet = false → p.fmt.toNat < 10 → (fl.got 3).bad = [] →
      fl.addr + 128 ≤ 0x7FFC0 → s.spOk c →
      ∃ t, exec (.stWriteAccess c id) s = .next t ∧ t.mem = s.mem ∧
        (∀ i, i < 128 → (t.core c).spByte (fl.addr + i) =
          if laneOn p.fmt fl.g (8 * i / laneBits p.fmt) then
            BitVec.ofNat 8 (if p.fmt = 8 then fld (fl.got 3).data.toNat (8 * i) 6 else fld (fl.got 3).data.toNat (8 * i) 8)
          else (s.core c).spByte (fl.addr + i)) ∧
        (∀ a, (a < fl.addr ∨ fl.addr + 128 ≤ a) → (t.core c).spByte a = (s.core c).spByte a) ∧
        ∀ d, d ≠ c → (t.core d).sp = (s.core d).sp) ∧
    (fl.instr = .ldV f p → fl.w = (s.own c).sigma → fl.quiet = false → fl.data.length = 128 →
      (∀ b ∈ fl.data, b.2 = false) → p.fmt.toNat < 10 →
      ∃ t, exec (.ldSlotWrite c id) s = .next t ∧ ((t.own c).slot fl.d).tag = p.fmt ∧
        (∀ k, k < lanesOf p.fmt → laneOf p.fmt ((t.own c).slot fl.d).data k =
          if laneOn p.fmt fl.g k then laneOf p.fmt (BitVec.ofNat 1024 (ofBytesLe (fl.data.map (·.1)))) k
          else laneOf p.fmt ((s.own c).slot fl.d).data k) ∧
        (∀ n, n ≠ fl.d → (t.own c).slot n = (s.own c).slot n) ∧
        (t.own c).flights = (s.own c).flights.filter (fun x => x.id != id) ∧ SameBytes s t ∧ OnlyCore c s t) ∧
    (∀ bs : List Byte, fl.instr = .ldVd f p → fl.arrived = false → (s.core c).gateOpen fl.gate = true →
      fl.t < (s.own c).sigma → s.memOk → s.memBad = [] → s.links = [] →
      s.reaches c ((s.core c).dpas fl.addr 128) = true → s.missed = [] →
      ((s.core c).dpas fl.addr 128).map (fun a => tblFind s.mem a) = bs.map some →
      ∃ t fl', exec (.dvaReadArrival c id) s = .next t ∧ (t.own c).flight id = some fl' ∧ fl'.arrived = true ∧
        fl'.data = bs.map (fun b => (b, false)) ∧ SameBytes s t) ∧
    (fl.instr = .stVd f p → fl.data.length = 128 → ((s.core c).dpas fl.addr 128).length = 128 →
      ((s.core c).dpas fl.addr 128).Nodup → fl.arrived = false → (s.core c).gateOpen fl.gate = true →
      (s.core c).postedBefore id fl.addr 128 = false → s.links = [] →
      s.reaches c ((s.core c).dpas fl.addr 128) = true → s.memOk →
      ∃ t, exec (.dvaStoreVisible c id) s = .next t ∧ t.memOk ∧
        (∀ (i a : Nat) (b : Byte × Bool), ((s.core c).dpas fl.addr 128)[i]? = some a → fl.data[i]? = some b →
          tblFind t.mem a = if b.2 then some b.1 else tblFind s.mem a) ∧
        (∀ a, a ∉ (s.core c).dpas fl.addr 128 → tblFind t.mem a = tblFind s.mem a) ∧
        ∀ d a, (t.core d).spByte a = (s.core d).spByte a) ∧
    ∀ e : Engine, ((s.own c).xfers.map (·.id)).Nodup →
      ∃ t, exec (.transferComplete c e) s = .next t ∧ OnlyCore c s t ∧ SameBytes s t ∧
        (t.own c).tiles = (s.own c).tiles ∧
        ∀ x, x ∈ (t.own c).xfers ↔ x ∈ (s.own c).xfers ∧
          ¬ (x.eng = e ∧ x.total ≤ x.done * x.rate ∧ x.start ≤ (s.own c).sigma ∧
            ((∃ f' p', x.instr = .stRd f' p') → x.quiet = true))

/-- 11_matrix.md R242, R251, R252 and 02_numbers.md R34: an issue of any MX word occupies MX for its duration, with its shapes
and tags as they stand; a tag that fails in strict mode, or a shape check, faults, and the issue then changes no tile and
no accumulator. -/
def Obligations.MxWordsIssue : Prop :=
  ∀ (o : MxOp) (f : Frame) (p : MxFields) (s : State) (c n : Nat) (r : Cursor) (w : EWord) (ok : Bool) (shape : Option Nat),
    s.issues c .mx r w (o.toInstr f p) → n = (if p.acc then 1 else 0) →
    ok = mxTagsOk o p.md ((s.own c).tile p.a.toNat) ((s.own c).tile p.b.toNat) ((s.own c).tile p.t.toNat) →
    shape = mxShape o p.md p.imm.toNat ((s.own c).acc n) ((s.own c).acc (1 - n)) ((s.own c).tile p.a.toNat).shape
      ((s.own c).tile p.b.toNat).shape ((s.own c).tile p.t.toNat).shape →
    ∃ t m, exec (o.toInstr f p) s = .next t ∧ IssueBegun c .mx r s t ∧ OnlyCore c s t ∧ SameBytes s t ∧
      (t.own c).mx = some m ∧ m.instr = o.toInstr f p ∧ m.start = (s.own c).sigma ∧ m.mode = r.entry.mode ∧
      m.ctx = r.entry.ctx ∧ m.replayed = false ∧
      m.dur = mxDuration o p.md ((s.own c).tile p.a.toNat).shape ((s.own c).tile p.t.toNat).shape ∧
      m.shA = ((s.own c).tile p.a.toNat).shape ∧ m.shB = ((s.own c).tile p.b.toNat).shape ∧
      m.shT = ((s.own c).tile p.t.toNat).shape ∧
      (m.fault = true ↔ (ok = false ∧ modeCount r.entry.mode = false) ∨ shape ≠ none) ∧
      (t.own c).tiles = (s.own c).tiles ∧ (∀ i, ((t.own c).acc i).elems = ((s.own c).acc i).elems) ∧
      (r.issue = 0 → s.liveOk c → ok = false → modeCount r.entry.mode = false →
        FaultFound c .mx 0x02 (statusWord (w.extractLsb' 40 8) 0 0 r.word) 0 s t) ∧
      (∀ k, r.issue = 0 → s.liveOk c → ok = true ∨ modeCount r.entry.mode = true → shape = some k →
        FaultFound c .mx 0x04 (statusWord (w.extractLsb' 40 8) k 0 r.word) 0 s t) ∧
      (ok = false → modeCount r.entry.mode = true → (s.ctx c r.entry.ctx).live = true →
        (t.ctx c r.entry.ctx).numSt &&& flFmism = flFmism)

/-- 11_matrix.md R245 to R249 and 02_numbers.md R46 to R48: the sums that the words of MX form. Element (i, j) takes, in
increasing K order, the products of row i of A with row j of B: of FP16 and BF16 one rounding to nearest even for each,
of CF16 the four of each step, of the block formats the exact sum of a block in 48 bits, closed with its two scales by
one rounding and one addition; mman subtracts, mmat closes the block that stays open, and mma latches its scales.
Elements outside the product stay. mscl, madd and mpre act on every element they name, and mtrn, mcpy and mrcv fill
their tile; a reserved tag goes on as bits (log 98). Of several NaNs the first goes on (log 38). -/
def Obligations.MxSums : Prop :=
  (∀ (w : Own) (o : MxOp) (p : MxFields) (mode : BitVec 4) (f : Fmt) (n k ra rb : Nat) (x y : Acc) (ta tb : Tile)
      (ea eb : Nat → Nat → Nat), n = (if p.acc then 1 else 0) → x = w.acc n → ta = w.tile p.a.toNat →
    tb = w.tile p.b.toNat → f = p.md → k = rowElems f ta.nWidth → ra = ta.nRows → rb = tb.nRows →
    y = (w.mxEffect o p mode ta.shape tb.shape (w.tile p.t.toNat).shape).1.acc n →
    ea = (fun i e => (tileElem ta f ta.nWidth i e).1) → eb = (fun j e => (tileElem tb f tb.nWidth j e).1) →
    tblWfD (0 : BitVec 32) x.elems = true → ta.nWidth = tb.nWidth → ra ≤ 128 →
    (o = .mma ∨ o = .mman ∨ o = .mmat → rb ≤ 256 → y.form = true ∧
      y.dep = (if x.form then x.dep else 0) + k * mxFactor f ∧
      (∀ i j, (ra ≤ i ∨ rb ≤ j) → j < 256 → y.get i j = x.get i j) ∧
      ∀ i j, i < ra → j < rb →
        (f = 2 ∨ f = 3 →
          y.get i j = (List.range k).foldl (fun v e => (accMac f (o == .mman) v (ea i e) (eb j e)).1) (x.get i j)) ∧
        (f = 6 ∨ f = 7 ∨ f = 8 → (x.blk = none → x.kpos = 0) → ∀ (h : Nat) (z : Partial) (r : Nat × Partial),
          z = { p := 0, void := false } → h = (x.kpos + k) / 256 →
          r = (List.range k).foldl (fun (v : Nat × Partial) e =>
              let q : Partial := match blockTerm f (ea i e) (eb j e) with
                | none => { v.2 with void := true }
                | some t => { v.2 with p := v.2.p + BitVec.ofInt 48 (if o = .mman then -t else t) }
              if (x.kpos + e + 1) % 256 = 0 then
                ((closeBlock f v.1 q (ta.scale (2 * i + (x.kpos + e) / 256)) (tb.scale (2 * j + (x.kpos + e) / 256))).1, z)
              else (v.1, q))
            (x.get i j, tblGet z ((x.blk.map (·.parts)).getD []) (256 * i + j)) →
          if (x.kpos + k) % 256 = 0 then y.get i j = r.1 ∧ y.blk = none
          else if o = .mmat then
            y.get i j = (closeBlock f r.1 r.2 (ta.scale (2 * i + h)) (tb.scale (2 * j + h))).1 ∧ y.blk = none
          else
            y.get i j = r.1 ∧ y.kpos = (x.kpos + k) % 256 ∧
              ∃ b, y.blk = some b ∧ b.fmt = f ∧ b.ra = ra ∧ b.rb = rb ∧ tblGet z b.parts (256 * i + j) = r.2 ∧
                b.latA[i]? = some (ta.scale (2 * i + h)) ∧ b.latB[j]? = some (tb.scale (2 * j + h)))) ∧
    (o = .mmac → f = 9 → rb ≤ 128 → y.form = true ∧ y.dep = (if x.form then x.dep else 0) + k * 4 ∧
      (∀ i j, (ra ≤ i ∨ 2 * rb ≤ j) → j < 256 → y.get i j = x.get i j) ∧
      ∀ i j, i < ra → j < rb → (y.get i (2 * j), y.get i (2 * j + 1)) =
        (List.range k).foldl (fun v e => (mmacStep v.1 v.2 (ea i e) (eb j e)).1) (x.get i (2 * j), x.get i (2 * j + 1))) ∧
    (o = .madd → tblWfD (0 : BitVec 32) (w.acc (1 - n)).elems = true → y.form = true ∧
      ∀ i j, j < 256 → y.get i j = (fpAdd 1 0 (x.get i j) ((w.acc (1 - n)).get i j)).1) ∧
    (o = .mscl → ∀ i j, j < 256 →
      (∀ s m e, fpVal 1 (x.get i j) = .fin s m e → m ≠ 0 →
        y.get i j = (roundFp 1 0 s m (e + sintOf 8 (p.imm.toNat))).1) ∧
      ((∀ s m e, fpVal 1 (x.get i j) = .fin s m e → m = 0) → y.get i j = x.get i j)) ∧
    ∀ (t u : Tile) (kt : Nat), t = w.tile p.t.toNat → tblWfD (0 : Byte) t.bytes = true → kt = rowElems f t.nWidth →
      u = (w.mxEffect o p mode ta.shape tb.shape t.shape).1.tile p.t.toNat →
      (o = .mpre → f = 1 ∨ f = 2 ∨ f = 3 → kt ≤ 256 → p.imm.toNat % 128 + t.nRows ≤ 128 ∨ bit p.imm.toNat 7 = true →
        y.form = true ∧ ∀ i j, j < 256 → i < 128 → y.get i j =
          if p.imm.toNat % 128 ≤ i ∧ j < kt ∧ (bit p.imm.toNat 7 = true ∨ i < p.imm.toNat % 128 + t.nRows) then
            (conv f 1 0 false
              (tileElem t f t.nWidth (if bit p.imm.toNat 7 then 0 else i - p.imm.toNat % 128) j).1).1
          else x.get i j) ∧
      (o = .mtrn → (fmtIn f 1 6 = true ∨ f = 9) → t.nRows * elemBytes f = ta.nWidth → t.nWidth = ra * elemBytes f →
        u.tag = f ∧ ∀ i j, i < t.nRows → j < ra → (tileElem u f u.nWidth i j).1 = ea j i) ∧
      (o = .mcpy → u.tag = (if ta.tag.toNat ≤ 9 then ta.tag else 0) ∧ u.scales = ta.scales ∧
        ∀ b, tblGet 0 u.bytes b = if b < ra * ta.nWidth then tblGet 0 ta.bytes b else tblGet 0 t.bytes b) ∧
      (o = .mrcv → fmtIn f 1 8 = true → wholeElems f t.nWidth = true →
        u.tag = f ∧ u.scales = [] ∧ y.blk = none ∧ y.form = false ∧ y.dep = 0 ∧
        ∀ i j, i < t.nRows → j < kt → 64 * fld p.imm.toNat 7 2 + j < 256 → (tileElem u f u.nWidth i j).1 =
          (conv 1 f (modeR mode) (modeWrap mode)
            (y.get (p.imm.toNat % 128 + i) (64 * fld p.imm.toNat 7 2 + j))).1)) ∧
  (∀ (f : Fmt) (neg : Bool) (x a b m1 m2 m3 : Nat) (s1 s2 s3 : Bool) (e1 e2 e3 z e : Int) (sg : Bool → Nat → Int),
    sg = (fun s v => if s then -(v : Int) else v) → fpVal 1 x = .fin s1 m1 e1 → valOf f a = .fin s2 m2 e2 →
    valOf f b = .fin s3 m3 e3 → e = min e1 (e2 + e3) →
    z = sg s1 (m1 * 2 ^ (e1 - e).toNat) + sg ((s2 != s3) != neg) (m2 * m3 * 2 ^ (e2 + e3 - e).toNat) →
    accMac f neg x a b =
      roundFp 1 0 (if z = 0 then s1 && ((s2 != s3) != neg) else decide (z < 0)) z.natAbs e) ∧
  (∀ (f : Fmt) (x : Nat) (q : Partial) (sa sb : Byte),
    (closeBlock f x q sa sb).1 = (fpAdd 1 0 x
      (if q.void = true ∨ sa = 0x80 ∨ sb = 0x80 then 0x7FC00000
        else (roundFp 1 0 (decide (q.p.toInt < 0)) q.p.toInt.natAbs
          (sa.toInt + sb.toInt - (if f = 8 then 20 else 2))).1)).1) ∧
  ∀ a b : Nat,
    (∀ f : Fmt, f = 6 ∨ f = 7 →
      blockTerm f a b = some ((2 * sintOf (packBits f) a + 1) * (2 * sintOf (packBits f) b + 1))) ∧
    (a % 64 = 32 ∨ b % 64 = 32 → blockTerm 8 a b = none) ∧
    (a % 64 ≠ 32 → b % 64 ≠ 32 → a % 32 = 0 ∨ b % 32 = 0 → blockTerm 8 a b = some 0) ∧
    ∀ q j : Nat, a % 32 ≠ 0 → b % 32 ≠ 0 → a % 32 + b % 32 = 4 * q + j → j < 4 →
      blockTerm 8 a b = some ((if bit a 5 = bit b 5 then 1 else -1) * ((ln6T j * 2 ^ q : Nat) : Int))

/-- 11_matrix.md R242, R245 to R249, R255, R257: at its end an issue of MX has its word's effect on the tiles and accumulators,
all of it in one step, with the tiles and accumulators read as they stand then (log 39); what that is for the words that
compute no sum; mswp makes no check of its tags (log 107). The window of an accumulator that a word retires goes when the
word finishes. An error met on the way to an accumulator that has a welt to go back to starts a replay in its place, which
clears the accumulator to its welt and counts. -/
def Obligations.MxIssueEnds : Prop :=
  ∀ (o : MxOp) (f : Frame) (p : MxFields) (s : State) (c n : Nat) (m : MxRun), (s.own c).mx = some m →
    m.instr = o.toInstr f p → n = (if p.acc then 1 else 0) →
    ((s.own c).sigma + 1 < m.start + m.dur → exec (.mxIssueEnd c) s = .next s) ∧
    (m.start + m.dur ≤ (s.own c).sigma + 1 → m.fault = false → m.replayed = false →
      (∀ i, ((s.own c).tile i).bad = [] ∧ ((s.own c).tile i).badScales = []) →
      (∀ i, ((s.own c).acc i).bad = [] ∧ ((s.own c).acc i).badParts = []) →
      ((s.own c).liveWord m.live).isSome = true →
      ∃ t, exec (.mxIssueEnd c) s = .next t ∧ (t.own c).mx = none ∧ OnlyCore c s t ∧ SameBytes s t ∧
        (t.own c).tiles = ((s.own c).mxEffect o p m.mode m.shA m.shB m.shT).1.tiles ∧
        (t.own c).accs = ((s.own c).mxEffect o p m.mode m.shA m.shB m.shT).1.accs ∧
        (o = .mzero → (∀ i j, ((t.own c).acc n).get i j = 0) ∧ ((t.own c).acc n).blk = none ∧
          ((t.own c).acc n).form = true ∧ ((t.own c).acc n).dep = 0 ∧ (t.own c).acc (1 - n) = (s.own c).acc (1 - n)) ∧
        (o = .mret → ((t.own c).acc n).blk = none ∧ ((t.own c).acc n).form = false ∧ ((t.own c).acc n).dep = 0 ∧
          (((s.own c).acc n).blk = none → ((t.own c).acc n).elems = ((s.own c).acc n).elems)) ∧
        (o = .mfil → tblWfD (0 : Byte) ((s.own c).tile p.t.toNat).bytes = true → (∀ b, b < m.shT.1 * m.shT.2 →
            tblGet 0 ((t.own c).tile p.t.toNat).bytes b = BitVec.ofNat 8 p.imm.toNat) ∧
          ((t.own c).tile p.t.toNat).tag = p.md ∧
          ∀ i, i ≠ p.t.toNat → (t.own c).tile i = (s.own c).tile i) ∧
        (o = .mswp → (t.own c).tile p.t.toNat = (s.own c).tile p.a.toNat ∧
          (t.own c).tile p.a.toNat = (s.own c).tile p.t.toNat ∧
          ∀ i, i ≠ p.t.toNat → i ≠ p.a.toNat → (t.own c).tile i = (s.own c).tile i) ∧
        (mxWrites o = false → (t.own c).accs = (s.own c).accs)) ∧
    (∀ (l : LiveWord) (i : Nat), i < 2 → (s.own c).liveWord l.id = some l → l.ready = true → (s.own c).room l = true →
      l.retires = some i →
      ∃ t, exec (.wordFinish c l.id) s = .next t ∧ ((t.own c).acc i).welt = none ∧ ((t.own c).acc i).struck = false ∧
        (∀ j, ((t.own c).acc j).elems = ((s.own c).acc j).elems) ∧ SameBytes s t ∧ OnlyCore c s t) ∧
    ∀ g, (s.own c).replayFrom n = some g → (s.own c).mxStruck m = true → m.replayed = false →
      m.start + m.dur = (s.own c).sigma + 1 →
      exec (.mxIssueEnd c) s = .next s ∧
      ∃ t m', exec (.mxReplay c) s = .next t ∧ (t.own c).mx = some m' ∧ m'.replayed = true ∧ m.dur ≤ m'.dur ∧
        m'.instr = m.instr ∧ (∀ i j, ((t.own c).acc n).get i j = 0) ∧ ((t.own c).acc n).form = g.form ∧
        ((t.own c).acc n).dep = g.dep ∧ ((t.own c).acc n).struck = true ∧
        (t.core c).mxReplay = min ((s.core c).mxReplay + 1) (2 ^ 32 - 1) ∧ OnlyCore c s t ∧ SameBytes s t

/-- 05_bank_units.md R110, R113, 06_copy_scratchpad.md R133, R143, R147 and 03_words.md R57: an issue of any CP word. A card
beyond the scratchpad ends the task (log 95). Else, where nothing holds c7 and its bank is free, c7 is cleared and the job
has a slot, its card still to be read, or it ends at once with status 3 where 1,024 jobs have theirs; no other byte
changes.
05_bank_units.md R112, R113, 06_copy_scratchpad.md R133, R144, R147, R148 and 04_device_memory.md R100: how a word of CP
goes on when what held it has cleared. Its card is read; then it is checked: a job whose checks pass goes on to its
inputs, a WSWR to a weight store that takes it is dropped with status 4, a job that fails a check writes its status in c7
and faults, and a region that may not be accessed ends the task; with its inputs read, the job is launched, or waits for
its dies. None of them changes a byte but those of c7. -/
def Obligations.CpWordsIssue : Prop :=
  (∀ (o : CpOp) (f : Frame) (p : CpFields) (s : State) (c a id : Nat) (r : Cursor) (w : EWord) (j : Job),
     s.issues c .cp r w (o.toInstr f p) → a = cardAddr r.entry.es p r.issue →
     id = (s.core c).nextJob + (if r.issue = 0 then 1 else 0) →
     (0x80000 < a + 64 → r.issue = 0 → s.liveOk c → (s.ctx c r.entry.ctx).live = true →
       ∃ t, exec (o.toInstr f p) s = .next t ∧ (t.ctx c r.entry.ctx).live = false ∧
         ∃ x ∈ t.held, x.cause = 0x40 ∧ x.status = 4 ∧ x.addr = BitVec.ofNat 64 (max a 0x80000) ∧ x.eng = 0) ∧
     (a + 64 ≤ 0x7FFC0 → (r.issue ≠ 0 → ((s.own c).liveWord r.live).isSome = true) → j.id = id → j.order = r.entry.order →
       (s.core c).mayWrite c j { space := 1, who := c, lo := a + 56, len := 8 } = true →
       (s.core c).banksFree (a + 56) 8 = true → (∀ e ∈ (s.core c).jobs, e.id < (s.core c).nextJob) → s.spOk c →
       ∃ t, exec (o.toInstr f p) s = .next t ∧ IssueBegun c .cp r s t ∧ t.mem = s.mem ∧ t.ws = s.ws ∧
         (∀ b, (b < a + 56 ∨ a + 64 ≤ b) → (t.core c).spByte b = (s.core c).spByte b) ∧
         (∀ d, d ≠ c → t.core d = s.core d) ∧
         if ((s.core c).jobs.filter fun e => decide (1 ≤ e.stage)).length < 1024 then
           (t.core c).spBytes (a + 56) 8 = bytesLe 8 0 ∧
             ∃ x, (t.core c).jobs = (s.core c).jobs ++ [x] ∧ x.id = id ∧ x.op = o ∧ x.card = a ∧ x.ch = p.ch.toNat ∧
               x.ctx = r.entry.ctx ∧ x.order = r.entry.order ∧ x.issue = r.issue ∧ x.stage = 1 ∧ x.c = [] ∧ x.acts = 0 ∧
               x.land = [] ∧ x.buf = []
         else
           (t.core c).spBytes (a + 56) 8 = bytesLe 8 3 ∧ (t.core c).jobs = (s.core c).jobs ∧
             (t.core c).noslot = min ((s.core c).noslot + 1) 0xFFFF)) ∧
  (∀ (s : State) (c id : Nat) (j : Job), (s.core c).job id = some j → (s.core c).spBad = [] →
     (s.core c).pendMode = false → s.spOk c → j.card + 64 ≤ 0x7FFC0 →
     (j.stage = 1 → j.c = [] → (s.core c).mayRead c j { space := 1, who := c, lo := j.card, len := 64 } = true →
       (s.core c).banksFree j.card 64 = true →
       ∃ t x, exec (.footprintEdgeRelease c id) s = .next t ∧ (t.core c).job id = some x ∧ x.stage = 1 ∧
         x.c = (upFrom 0 8).map (fun i => BitVec.ofNat 64 (ofBytesLe ((s.core c).spBytes (j.card + 8 * i) 8))) ∧
         x.op = j.op ∧ x.card = j.card ∧ x.acts = j.acts ∧ x.land = j.land ∧ SameBytes s t) ∧
     (j.stage = 1 → j.c ≠ [] → (j.idxKnown = true → 4 * j.count ≤ j.inp2.length) → (s.core c).c7Free j = true →
       ∀ k : Job, k = { j with code := if j.bank then (s.core c).lastAt j.src else 0
                               scode := if j.bank then (s.core c).lastAt j.dst else 0 } →
       ((j.firsts (s.core c)).all fun x => ((s.core c).regionFault x.1 x.2.1 x.2.2).isNone) = true →
       (j.idxKnown = true ∨ (j.op ≠ .gath ∧ j.op ≠ .scat) →
         ((k.regions c).all fun x => ((s.core c).regionFault x.1 x.2.1 x.2.2).isNone) = true) →
       (j.op = .wswr → j.dsp = 3 → j.dst + j.len ≤ 2 ^ 28) →
       ((s.jobCode c k).1 = 0 → (j.op = .wswr → s.wsDropped c k = false) →
         ∃ t x, exec (.footprintEdgeRelease c id) s = .next t ∧ (t.core c).job id = some x ∧ 2 ≤ x.stage ∧ x.c = j.c ∧
           x.code = k.code ∧ x.scode = k.scode ∧ x.op = j.op ∧ x.card = j.card ∧ x.acts = j.acts ∧ x.land = j.land ∧
           SameBytes s t) ∧
       ((s.jobCode c k).1 = 0 → j.op = .wswr → s.wsDropped c k = true →
         ∃ t, exec (.footprintEdgeRelease c id) s = .next t ∧ (t.core c).job id = none ∧
           (t.core c).spBytes (j.card + 56) 8 = bytesLe 8 4 ∧ t.mem = s.mem ∧ t.ws = s.ws ∧
           wfld (t.hubGet (offWsstat (dieOf c))) 0 32 = min (wfld (s.hubGet (offWsstat (dieOf c))) 0 32 + 1) (2 ^ 32 - 1)) ∧
       ((s.jobCode c k).1 ≠ 0 → (s.ctx c j.ctx).live = true → (s.ctx c j.ctx).task = j.task → j.lw.faulted = false →
         j.lw.eng = .cp →
         ∃ t, exec (.footprintEdgeRelease c id) s = .next t ∧ (t.core c).job id = none ∧
           FaultFound c .cp 0x06 (statusCp j.lw.op (s.jobCode c k).1 j.lw.word) (BitVec.ofNat 64 j.card) s t ∧
           (t.core c).spBytes (j.card + 56) 8 = bytesLe 8 ((s.jobCode c k).1 + (s.jobCode c k).2 <<< 16) ∧
           t.mem = s.mem ∧ t.ws = s.ws ∧
           ∀ b, (b < j.card + 56 ∨ j.card + 64 ≤ b) → (t.core c).spByte b = (s.core c).spByte b)) ∧
     (∀ i, j.stage = 1 → j.c ≠ [] → (j.idxKnown = true → 4 * j.count ≤ j.inp2.length) → (s.core c).c7Free j = true →
       (j.firsts (s.core c)).findSome? (fun x => (s.core c).regionFault x.1 x.2.1 x.2.2) = some i →
       (s.ctx c j.lw.ctx).live = true → (s.ctx c j.lw.ctx).task = j.task → j.lw.ctx < 8 →
       ∃ t, exec (.footprintEdgeRelease c id) s = .next t ∧ (t.ctx c j.lw.ctx).live = false ∧ t.mem = s.mem ∧ t.ws = s.ws) ∧
     (j.stage = 2 → j.nextInput = none → (j.small = true → j.total ≤ j.prod) → j.bank = false →
       ∃ t x, exec (.footprintEdgeRelease c id) s = .next t ∧ (t.core c).job id = some x ∧ x.stage = 4 ∧
         x.gated = j.ge ∧ x.c = j.c ∧ x.buf = j.buf ∧ SameBytes s t) ∧
     (j.stage = 3 → j.bank = true →
       ∃ t x, exec (.footprintEdgeRelease c id) s = .next t ∧ (t.core c).job id = some x ∧ x.c = j.c ∧
         (if Config.freeBool s.draws = true then x = j
           else x.stage = 4 ∧ x.gated = false ∧
             x.buf = (if j.op = .bqry then (s.queryReport c j).flatMap (bytesLe 4) else j.buf)) ∧ SameBytes s t))

/-- 06_copy_scratchpad.md R133, R135, R140, R148, R150, 05_bank_units.md R113, R117, R120 to R122 and 14_consistency.md
R304: the steps of launched jobs. A gated job is released when its channel has reached its value, or when its task has ended and it
waits for bytes of its own (log 116); an atomic changes its
element and no other byte and returns the old value; of a remote write the first beat lands at once, the others cycle by
cycle, and its channel advances by what has landed; a job that has delivered everything writes its final status and is
gone, and one that has not stays.
06_copy_scratchpad.md R133, R135, R145 and R147: a delivery step of a launched FILL to the core's own scratchpad, on a
core with no other job. Whatever the step chooses (log 5), it makes pattern bytes known, or sends some of those known, in
order, to their place: the first beat is written at once and its channel advances by as many, the later beats stand to be
written, one a cycle; no other byte changes.
05_bank_units.md R107, R109, R115 to R117 and 02_numbers.md R46 to R48: the products of BGEMV and BGEMVA and how their
results are delivered. Of the work that a step may choose (log 5), the next record of the next row adds its elements to
the row's sum, FP16 weights one by one, the others as a block with the scale of its row and block and that of x; the last
record of a row yields its element, an FP32 number, and the next row begins at 0; an uncorrectable byte that is read makes the
value a NaN, and one in the tail that a final record does not use is not met (log 95). BGEMV writes an element, BGEMVA adds one to what stands there, and the channel advances by the bytes delivered. -/
def Obligations.JobSteps : Prop :=
  (∀ (s : State) (c id : Nat) (j : Job), (s.core c).job id = some j →
     (j.stage = 4 → j.gated = true →
       ((s.core c).gateReached c j = true →
         ∃ t x, exec (.gatedJobRelease c id) s = .next t ∧ (t.core c).job id = some x ∧ x = { j with gated := false } ∧
           OnlyCore c s t ∧ SameBytes s t) ∧
       ((s.core c).gateReached c j = false → exec (.gatedJobRelease c id) s = .next s)) ∧
     ((s.core c).jobHeld j = true →
       exec (.cpJobDelivery c id) s = .next s ∧ exec (.bankJobDelivery c id) s = .next s ∧
       exec (.cpJobComplete c id) s = .next s ∧ exec (.bankJobComplete c id) s = .next s ∧
       exec (.atomicUnitOp c id) s = .next s ∧ exec (.bankAluAtomic c id) s = .next s) ∧
     (∀ bank : Bool, j.bank = bank → (s.core c).jobHeld j = false → j.allDone c = true →
       (s.core c).mayWrite c j (j.c7 c) = true → (s.core c).c7Free j = true → j.card + 64 ≤ 0x7FFC0 → s.spOk c →
       ∃ t, exec (if bank then .bankJobComplete c id else .cpJobComplete c id) s = .next t ∧
         (t.core c).spBytes (j.card + 56) 8 = bytesLe 8 (if j.poison then 2 else 1) ∧
         (∀ b, (b < j.card + 56 ∨ j.card + 64 ≤ b) → (t.core c).spByte b = (s.core c).spByte b) ∧
         (∀ x ∈ (t.core c).jobs, x.id ≠ j.id) ∧ t.mem = s.mem ∧ t.ws = s.ws) ∧
     (∀ bank : Bool, j.bank = bank → j.allDone c = false →
       exec (if bank then .bankJobComplete c id else .cpJobComplete c id) s = .next s) ∧
     (∀ bs : List Byte, j.op = .batom → (s.core c).jobHeld j = false → j.acts < j.elems →
       (s.core c).mayWrite c j { space := 3, who := 0, lo := j.src + j.acts * j.e, len := j.e } = true → s.memOk →
       s.links = [] → s.reaches c ((s.core c).dpas (j.src + j.acts * j.e) j.e) = true → s.memBad = [] →
       ((s.core c).dpas (j.src + j.acts * j.e) j.e).Nodup →
       ((s.core c).dpas (j.src + j.acts * j.e) j.e).map (fun a => tblFind s.mem a) = bs.map some → bs.length = j.e →
       ∃ t x, exec (.atomicUnitOp c id) s = .next t ∧ (t.core c).job id = some x ∧ x.acts = j.acts + 1 ∧
         x.buf = (if j.noret then j.buf else j.buf ++ bs) ∧
         (∀ i a : Nat, ((s.core c).dpas (j.src + j.acts * j.e) j.e)[i]? = some a →
           tblFind t.mem a =
             (bytesLe j.e (atomicNew j.aop (ofBytesLe bs) (j.operand j.acts) (j.newVal j.acts)))[i]?) ∧
         ∀ a, a ∉ (s.core c).dpas (j.src + j.acts * j.e) j.e → tblFind t.mem a = tblFind s.mem a) ∧
     (∀ a, a = j.w 0 0 19 + j.acts * j.e → j.op = .ramo → j.dcore = c → (s.core c).jobHeld j = false → j.acts < j.elems →
       (s.core c).mayWrite c j { space := 1, who := c, lo := a, len := j.e } = true → s.links = [] →
       (s.core c).banksFree a j.e = true → (s.core c).beating j.ch = false → (s.core c).spBad = [] → s.spOk c →
       a + j.e ≤ 0x7FFC0 →
       ∃ t x, exec (.bankAluAtomic c id) s = .next t ∧ (t.core c).job id = some x ∧ x.acts = j.acts + 1 ∧
         x.buf = (if j.noret then j.buf else j.buf ++ (s.core c).spBytes a j.e) ∧
         (t.core c).spBytes a j.e =
           bytesLe j.e (atomicNew j.aop (ofBytesLe ((s.core c).spBytes a j.e)) (j.operand j.acts) (j.newVal j.acts)) ∧
         (∀ b, (b < a ∨ a + j.e ≤ b) → (t.core c).spByte b = (s.core c).spByte b) ∧ t.mem = s.mem) ∧
     ∀ (m : Msg) (n f : Nat), s.msgs.find? (fun x => x.src == m.src && x.dst == m.dst && x.ch == m.ch) = some m →
       s.msgs.find? (fun x => x.id == m.id) = some m → m.add = false → n = m.data.length → 0 < n →
       f = min n (128 - m.addr % 128) → m.dst ≠ c → m.src = c → c < 512 → m.job = id → s.links = [] →
       (s.core m.dst).banksFree m.addr n = true → (s.core m.dst).beating m.ch = false → s.spOk m.dst →
       m.addr + n ≤ 0x7FFC0 →
       ∃ t x, exec (.remoteWriteArrival m.id) s = .next t ∧ t.msgs = s.msgs.filter (fun y => y.id != m.id) ∧
         (∀ i, i < f → some ((t.core m.dst).spByte (m.addr + i)) = m.data[i]?) ∧
         (∀ b, b < 0x7FFC0 → (b < m.addr ∨ m.addr + f ≤ b) → (t.core m.dst).spByte b = (s.core m.dst).spByte b) ∧
         (t.core m.dst).beats = (s.core m.dst).beats ++
           laterBeats c id m.ch 4 ((s.core m.dst).p + 1) (m.addr + f) (m.data.drop f) ∧
         (t.core m.dst).chw m.ch = (s.core m.dst).chw m.ch + BitVec.ofNat 64 f ∧ (t.core c).job id = some x ∧
         tblGet 0 x.land m.dst = tblGet 0 j.land m.dst + f ∧ t.mem = s.mem) ∧
  (∀ (s : State) (c id i : Nat) (j : Job) (pat : Nat → Byte), (s.core c).jobs = [j] → j.id = id → j.op = .fill → j.dsp = 1 →
     j.stage = 4 → j.gated = false → (s.core c).gateOpen j.gate = true → (s.core c).stages = [] →
     j.dst + j.len ≤ 0x7FFC0 → s.spOk c → i = tblGet 0 j.snt c → j.lo = i → j.prod ≤ j.len →
     pat = (fun n => (bytesLe 8 (j.c.getD 0 0).toNat).getD (n % 8) 0) → j.buf = (upFrom i j.buf.length).map pat →
     ∃ t x n f, exec (.cpJobDelivery c id) s = .next t ∧ (t.core c).jobs = [x] ∧ x.id = id ∧ x.c = j.c ∧
       n ≤ j.buf.length ∧ f = min n (128 - (j.dst + i) % 128) ∧
       tblGet 0 x.snt c = i + n ∧ tblGet 0 x.land c = tblGet 0 j.land c + f ∧ j.prod ≤ x.prod ∧ x.prod ≤ j.len ∧
       x.lo = i + n ∧ x.buf = (upFrom (i + n) x.buf.length).map pat ∧
       (∀ k, k < f → (t.core c).spByte (j.dst + i + k) = pat (i + k)) ∧
       (∀ b, b < 0x7FFC0 → (b < j.dst + i ∨ j.dst + i + f ≤ b) → (t.core c).spByte b = (s.core c).spByte b) ∧
       (t.core c).beats = (s.core c).beats ++
         laterBeats c id j.ch 4 ((s.core c).p + 1) (j.dst + i + f) ((upFrom (i + f) (n - f)).map pat) ∧
       (t.core c).chw j.ch = (s.core c).chw j.ch + BitVec.ofNat 64 f ∧ t.mem = s.mem ∧ ∀ d, d ≠ c → t.core d = s.core d) ∧
  (∀ (s : State) (c id : Nat) (j : Job), (s.core c).job id = some j → j.op = .bgemv ∨ j.op = .bgemva →
     (s.core c).jobHeld j = false →
     (∀ (r kb n acc : Nat) (ws : List (Byte × Bool)) (sc : Option (Byte × Bool)),
       r = j.acts / j.nb → kb = j.acts % j.nb → n = j.blockLen kb → j.acts < j.rows * j.nb →
       (∀ p ∈ j.recPieces r kb, (tblFind j.pieces p).isSome = true) → j.held (j.recAt (r * j.rstr + kb)) j.recSize = some ws →
       (if j.scaled then (j.held (j.scaleAt r kb) 1).map (·.head?) else some none) = some sc →
       acc = (j.addRecord ws sc kb j.sum.toNat).1 →
       ∃ t, exec (.bankJobDelivery c id) s = .next t ∧ (Config.freeNat s.draws % 3 = 1 →
         ∃ x, (t.core c).job id = some x ∧ x.acts = j.acts + 1 ∧
           x.sum = (if kb + 1 = j.nb then 0 else BitVec.ofNat 32 acc) ∧
           x.buf = (if kb + 1 = j.nb then j.buf ++ bytesLe 4 acc else j.buf) ∧ x.c = j.c ∧ x.land = j.land ∧
           SameBytes s t)) ∧
     (∀ (kb n : Nat) (ws : List (Byte × Bool)) (sc : Option (Byte × Bool)), n = j.blockLen kb →
       (∀ b ∈ j.used ws kb, b.2 = false) → (∀ b, sc = some b → b.2 = false) →
       (j.code = 4 → (j.addRecord ws sc kb j.sum.toNat).1 =
         (List.range n).foldl (fun v e => (accMac 2 false v
             (fld (ofBytesLe (ws.map (·.1))) (16 * e) 16)
             (fld (ofBytesLe ((j.inp.drop (kb * 512)).take 512)) (16 * e) 16)).1) j.sum.toNat) ∧
       (j.code = 1 ∨ j.code = 2 ∨ j.code = 3 → (j.addRecord ws sc kb j.sum.toNat).1 =
         (closeBlock j.fmt j.sum.toNat
           ((List.range n).foldl (fun q e =>
             match blockTerm j.fmt (fld (ofBytesLe (ws.map (·.1))) (packBits j.fmt * e) (packBits j.fmt))
               (fld (ofBytesLe ((j.inp.drop (kb * j.recSize)).take j.recSize)) (packBits j.fmt * e) (packBits j.fmt)) with
             | none => { q with void := true }
             | some t => { q with p := q.p + BitVec.ofInt 48 t }) ({ p := 0, void := false } : Partial))
           ((sc.map (·.1)).getD 0) (j.inp2.getD kb 0)).1)) ∧
     (∀ (kb : Nat) (ws : List (Byte × Bool)) (sc : Option (Byte × Bool)),
       (∃ b ∈ j.used ws kb, b.2 = true) ∨ (∃ b, sc = some b ∧ b.2 = true) →
       j.addRecord ws sc kb j.sum.toNat = ((fpAdd 1 0 j.sum.toNat 0x7FC00000).1, true)) ∧
     (∀ (a i v old : Nat), j.op = .bgemva → (s.core c).jobs = [j] → j.dcore = c →
       (s.core c).stages = [] → s.chanLock = [] → i = tblGet 0 j.snt c → j.lo = i → a = j.ret + i → 8 ≤ j.buf.length →
       i + 8 ≤ j.total → v = ofBytesLe (j.buf.take 4) → (s.core c).banksFree a 4 = true → (s.core c).beating j.ch = false →
       (s.core c).spBad = [] → s.spOk c → a + 4 ≤ 0x7FFC0 → old = ofBytesLe ((s.core c).spBytes a 4) →
       ∃ t, exec (.bankJobDelivery c id) s = .next t ∧ (Config.freeNat s.draws % 3 = 2 →
         (t.core c).spBytes a 4 = bytesLe 4 (fpAdd 1 0 old v).1 ∧
         (∀ b, b < 0x7FFC0 → (b < a ∨ a + 4 ≤ b) → (t.core c).spByte b = (s.core c).spByte b) ∧
         (t.core c).chw j.ch = (s.core c).chw j.ch + 4 ∧ t.mem = s.mem)) ∧
     (∀ (a i : Nat), j.op = .bgemv → (s.core c).jobs = [j] → j.dcore = c →
       (s.core c).stages = [] → s.chanLock = [] → i = tblGet 0 j.snt c → j.lo = i → a = j.ret + i → 8 ≤ j.buf.length →
       i + j.buf.length ≤ j.total → (s.core c).banksFree a 512 = true → (s.core c).beating j.ch = false → s.spOk c →
       j.ret + j.total ≤ 0x7FFC0 →
       ∃ t, exec (.bankJobDelivery c id) s = .next t ∧ (Config.freeNat s.draws % 3 = 2 →
         ∃ n f, 0 < n ∧ n ≤ j.buf.length ∧ f = min n (128 - a % 128) ∧
           (t.core c).spBytes a f = j.buf.take f ∧
           (∀ b, b < 0x7FFC0 → (b < a ∨ a + f ≤ b) → (t.core c).spByte b = (s.core c).spByte b) ∧
           (t.core c).beats = (s.core c).beats ++
             laterBeats c id j.ch 4 ((s.core c).p + 1) (a + f) ((j.buf.take n).drop f) ∧
           (t.core c).chw j.ch = (s.core c).chw j.ch + BitVec.ofNat 64 f ∧ t.mem = s.mem)))

/-! ## Exchanges, cycles, faults and the debugger -/

/-- 16_scheduling.md R322 and R323: while an exchange runs, a record moves on by whole 8-byte units, read at its source in
order or landed at its destination (which and how many is free, DESIGN CHOICE, log 5), some bytes of it when no burst holds
banks there and its path is open; a record that has not landed by its deadline is late once and counts; the exchange ends
when all has landed and the largest deadline is past, and not before. -/
def Obligations.ExchangeRuns : Prop :=
  ∀ (s : State) (tag i t0 : Nat) (r : ExRec), (s.tag tag).t0 = some t0 → (s.tag tag).recs[i]? = some r →
    (r.len % 8 = 0 → r.sent % 8 = 0 → r.done % 8 = 0 → r.src % 8 = 0 → r.dst % 8 = 0 → r.sent ≤ r.len →
      r.buf.length + r.done = r.sent → r.dst + r.len ≤ 0x7FFC0 → s.spOk r.dstc → (s.core r.srcc).spBad = [] →
      ∃ t x n, exec (.exchangeDelivery tag i) s = .next t ∧ (t.tag tag).recs[i]? = some x ∧ n % 8 = 0 ∧
        x.buf.length + x.done = x.sent ∧ x.sent ≤ x.len ∧ x = { r with sent := x.sent, buf := x.buf, done := x.done } ∧
        t.mem = s.mem ∧
        ((∀ d a n, (s.core d).banksFree a n = true) → s.links = [] →
          (s.tag tag).mayStart i r = true → r.done < r.len → 0 < n) ∧
        ((x.done = r.done ∧ x.sent = r.sent + n ∧
            x.buf = r.buf ++ (s.core r.srcc).spBytes (r.src + r.sent) n ∧ SameBytes s t) ∨
          (x.sent = r.sent ∧ x.done = r.done + n ∧ x.buf = r.buf.drop n ∧
            (∀ k, k < n → some ((t.core r.dstc).spByte (r.dst + r.done + k)) = r.buf[k]?) ∧
            (∀ a, (a < r.dst + r.done ∨ r.dst + r.done + n ≤ a) →
              (t.core r.dstc).spByte a = (s.core r.dstc).spByte a) ∧
            ∀ d, d ≠ r.dstc → (t.core d).sp = (s.core d).sp))) ∧
    (t0 + r.deadline < s.ftick → r.late = false → r.done < r.len →
      ∃ t, exec (.exchangeDeadline tag i) s = .next t ∧ (t.tag tag).recs[i]? = some { r with late := true } ∧
        tblGet 0 (t.tag tag).late r.dstc = tblGet 0 (s.tag tag).late r.dstc + 1 ∧ SameBytes s t) ∧
    (s.ftick ≤ t0 + r.deadline ∨ r.late = true ∨ r.len ≤ r.done → exec (.exchangeDeadline tag i) s = .next s) ∧
    ((∀ x ∈ (s.tag tag).recs, x.len ≤ x.done ∧ t0 + x.deadline ≤ s.ftick) →
      ∃ t, exec (.exchangeEnd tag) s = .next t ∧ (t.tag tag).t0 = none ∧ (t.tag tag).recs = [] ∧ SameBytes s t) ∧
    ((∃ x ∈ (s.tag tag).recs, x.done < x.len ∨ s.ftick < t0 + x.deadline) →
      exec (.exchangeEnd tag) s = .next s)

/-- 03_words.md R57, R63, R64: an issue of a NOP or of a word that is ignored only moves the stream unit on; an illegal word
does not issue, and is detected once; a word finishes when all its issues have, and pushes its tokens then, unless one
has no room. -/
def Obligations.WordsWithoutEffect : Prop :=
  ∀ (s : State) (c : Nat),
    (∀ (e : Engine) (f : Frame) (r : Cursor) (w : EWord), s.issues c e r w (.engineNop f) →
      ∃ t, exec (.engineNop f) s = .next t ∧ IssueBegun c e r s t ∧ OnlyCore c s t ∧ SameBytes s t ∧
        (t.own c).tiles = (s.own c).tiles ∧ (t.own c).accs = (s.own c).accs ∧
        (t.own c).flights = (s.own c).flights) ∧
    (∀ (e : Engine) (lo : BitVec 4) (f : Frame) (p : BitVec 28) (r : Cursor) (w : EWord),
      s.issues c e r w (.engineIgnoredWord lo f p) →
      ∃ t, exec (.engineIgnoredWord lo f p) s = .next t ∧ IssueBegun c e r s t ∧ OnlyCore c s t ∧ SameBytes s t ∧
        (t.own c).tiles = (s.own c).tiles ∧ (t.own c).accs = (s.own c).accs ∧
        (t.own c).flights = (s.own c).flights) ∧
    (∀ (e : Engine) (w : EWord) (sub : BitVec 2) (r : Cursor), s.runsEngine c e →
      ((s.own c).queue (engNo e)).run = some r → r.issue = 0 →
      (∀ x ∈ (s.core c).faults, ¬ (x.cause = 0x01 ∧ x.eng = engNo e)) →
      ∃ t, exec (.illegalWord w sub) s = .next t ∧
        FaultFound c e 0x01 (statusWord (w.extractLsb' 40 8) sub.toNat 0 r.word) 0 s t ∧
        t.core c = { s.core c with faults := (t.core c).faults } ∧ OnlyCore c s t) ∧
    ∀ (id : Nat) (w : LiveWord), (s.own c).liveWord id = some w →
      (w.ready = true → (s.own c).room w = true →
        ∃ t, exec (.wordFinish c id) s = .next t ∧ (t.own c).live = (s.own c).live.filter (fun x => x.id != id) ∧
          (∀ q, (t.own c).token q = (s.own c).token q + (if q ∈ pushQueues w then 1 else 0)) ∧
          (t.own c).ring = (s.own c).ring ∧ OnlyCore c s t ∧ SameBytes s t) ∧
      (w.ready = false ∨ (s.own c).room w = false → exec (.wordFinish c id) s = .next s)

/-- 07_ring.md R151, R159, R160, R162 and 06_copy_scratchpad.md R133: at the end of a cycle the rotation moves on, and the
schedule with it unless a lap stall holds it or nobody owns the engines; the beat of a granted burst that is due in the cycle
that begins is written, and its channel's pointer counts it; a stalled lap that ends is counted, and ends the stall exactly when nothing
holds the schedule any more. -/
def Obligations.CyclesAndLaps : Prop :=
  ∀ (s : State) (c : Nat),
    ((s.core c).dbg = [] → (s.core c).beats = [] → ∀ k, (s.core c).owner = some k →
      ∃ t, exec (.cycle c) s = .next t ∧ (t.core c).p = (s.core c).p + 1 ∧ (t.core c).owner = some k ∧
        (t.own c).sigma = (s.own c).sigma + (if (s.core c).stall = none then 1 else 0) ∧
        (t.core c).swap = (s.core c).swap.map (fun w => { w with left := w.left - 1 }) ∧
        (t.own c).ring = (s.own c).ring ∧ (t.own c).g = (s.own c).g ∧ (t.own c).q = (s.own c).q ∧
        (t.own c).tokens = (s.own c).tokens ∧ (t.core c).ctxs = (s.core c).ctxs ∧ SameBytes s t ∧
        ∀ d, d ≠ c → t.core d = s.core d) ∧
    ((s.core c).dbg = [] → ∀ b, (s.core c).beats = [b] → b.due ≤ (s.core c).p + 1 →
      b.addr + b.data.length ≤ 0x7FFC0 → s.spOk c →
      ∃ t, exec (.cycle c) s = .next t ∧ (t.core c).beats = [] ∧
        (∀ i, i < b.data.length → some ((t.core c).spByte (b.addr + i)) = b.data[i]?) ∧
        (∀ a, a < 0x7FFC0 → (a < b.addr ∨ b.addr + b.data.length ≤ a) →
          (t.core c).spByte a = (s.core c).spByte a) ∧
        (t.core c).chw b.ch = (s.core c).chw b.ch + BitVec.ofNat 64 b.data.length ∧ t.mem = s.mem) ∧
    ((s.core c).stall = none → exec (.lapStallEnd c) s = .next s) ∧
    ∀ st, (s.core c).stall = some st →
      ((s.core c).lapBoundary = false → exec (.lapStallEnd c) s = .next s) ∧
      ((s.core c).lapBoundary = true → (s.core c).stop = false →
        ∃ t, exec (.lapStallEnd c) s = .next t ∧ (t.own c).slap = min ((s.own c).slap + 1) (2 ^ 28 - 1) ∧
          (t.own c).sigma = (s.own c).sigma ∧ (t.own c).ring = (s.own c).ring ∧ (t.core c).p = (s.core c).p ∧
          ((t.core c).stall = none ↔ t.causes c = []) ∧ SameBytes s t)

/-- 19_faults.md R333, R334, R336, R346 and 03_words.md R421: an engine fault that is due suspends its context at its program
counter and holds the core, through a lap stall too; a core that has waited 65,536 laps for tokens takes the token-deadlock
fault, whose record names one word and the lowest queue that this word waits on, its next word's before those of finished
words (log 109); the hold ends at a lap boundary after the runtime has acted. That the laps of the hold do not count toward the next
such fault is the model's choice (log 99). -/
def Obligations.EngineFaultsTaken : Prop :=
  ∀ (s : State) (c k : Nat),
    (∀ r : Record, (s.core c).faults = [r] → (s.core c).faultDue (s.moves c) r = true → r.core = c →
      r.ctx = k → (s.ctx c k).trapped = none → (s.ctx c k).wait = .none →
      ∃ t x, exec (.engineFaultTaken c) s = .next t ∧ (t.core c).holdFault = true ∧ (t.core c).release = false ∧
        (t.core c).faults = [] ∧
        x = { r with pc := (s.ctx c k).pc, heads := (s.own c).heads, tick := s.ftick } ∧
        t.ctx c k = { s.ctx c k with trapped := some { r := x, seq := none } } ∧ t.held = s.held ++ [x] ∧
        t.own c = s.own c ∧ SameBytes s t) ∧
    ((∀ r ∈ (s.core c).faults, (s.core c).faultDue (s.moves c) r = false) →
      exec (.engineFaultTaken c) s = .next s) ∧
    (∀ st e, (s.core c).stall = some st → (s.core c).owner = some k → 65536 ≤ st.tokenLaps →
      (s.core c).holdFault = false → (s.ctx c k).trapped = none → (s.ctx c k).wait = .none →
      allEngines.find? (fun e => !((s.core c).tokenWaits e).isEmpty) = some e →
      ∃ t o, exec (.tokenDeadlockFault c) s = .next t ∧ (t.core c).holdFault = true ∧
        (t.ctx c k).trapped = some o ∧ o.r.cause = 0x0A ∧ o.r.eng = engNo e ∧ t.held = s.held ++ [o.r] ∧
        (t.ctx c k).pc = (s.ctx c k).pc ∧
        (∀ u, ((s.own c).queue (engNo e)).run = some u → (s.core c).popWaits e ≠ [] →
          o.r.word = u.word ∧ o.r.iter = u.iter ∧ o.r.gen = u.entry.gen ∧
            o.r.addr = BitVec.ofNat 64 (20 + ((s.core c).popWaits e).foldl min 63)) ∧
        ((s.core c).popWaits e = [] →
          ∃ w ∈ (s.own c).live, w.eng = e ∧ w.ready = true ∧
            o.r.word = w.word ∧ o.r.iter = w.iter ∧ o.r.gen = w.gen ∧
            o.r.addr = BitVec.ofNat 64
              (20 + ((pushQueues w).filter fun q => decide (16 ≤ (s.own c).token q)).foldl min 63))) ∧
    (∀ st, (s.core c).stall = some st → st.tokenLaps < 65536 → exec (.tokenDeadlockFault c) s = .next s) ∧
    ((s.core c).release = true → (s.core c).lapBoundary = true →
      ∃ t, exec (.holdRelease c) s = .next t ∧
        t.core c = { s.core c with release := false, holdFault := false } ∧ OnlyCore c s t) ∧
    ((s.core c).release = false ∨ (s.core c).lapBoundary = false → exec (.holdRelease c) s = .next s)

/-- 24_debug.md R402, 07_ring.md R164 and 19_faults.md R357: STOP is set and cleared in DBGCTL; the core stops at a lap
boundary, with STOPPED set, and not elsewhere; a read of a slot gives its contents and tag when it stands at port 8 and
nothing else uses the port in that cycle, and else waits; a write of a slot is made at the port too when no load of it is in
flight, and a write of a tile, an accumulator or a guard when no outstanding word writes it, nor an issue that an abandonment
has left; nothing else changes. That the write of a slot gives it the tag that it names is the model's choice (log 108). -/
def Obligations.DebuggerActs : Prop :=
  ∀ (s : State) (c : Nat),
    (∃ t, exec (.dbgctlStop c) s = .next t ∧ t = { s with hub := t.hub } ∧
      bit (t.hubGet (offDbgctl c)).toNat 0 = true ∧
      ∀ i, 0 < i → i < 64 → bit (t.hubGet (offDbgctl c)).toNat i = bit (s.hubGet (offDbgctl c)).toNat i) ∧
    (∃ t, exec (.dbgctlRelease c) s = .next t ∧ bit (t.hubGet (offDbgctl c)).toNat 0 = false ∧
      (∀ k code, k < 8 → (s.ctx c k).wait = .halted code → (t.ctx c k).wait = .none ∧ (t.ctx c k).pc = (s.ctx c k).pc) ∧
      SameBytes s t) ∧
    (bit (s.hubGet (offDbgctl c)).toNat 0 = true → (s.core c).stop = false → (s.core c).lapBoundary = true →
      ∃ t, exec (.debugStopTake c) s = .next t ∧ (t.core c).stop = true ∧
        bit (t.hubGet (offDbgctl c)).toNat 1 = true ∧ (∀ k, (t.ctx c k).pc = (s.ctx c k).pc) ∧ t.own c = s.own c ∧
        SameBytes s t) ∧
    ((s.core c).lapBoundary = false → exec (.debugStopTake c) s = .next s) ∧
    (∀ n, n < 16 →
      ((n + (s.core c).phase) % 16 = 8 → (s.core c).portFree = true →
        ∃ t, exec (.debugSlotRead c n) s = .next t ∧
          t.out = s.out ++ [.slotData c n ((s.own c).slot n).data ((s.own c).slot n).tag] ∧
          (t.core c).portFree = false ∧ t.own c = s.own c ∧ (t.core c).ctxs = (s.core c).ctxs ∧ SameBytes s t) ∧
      ((n + (s.core c).phase) % 16 ≠ 8 ∨ (s.core c).portFree = false →
        ∃ t, exec (.debugSlotRead c n) s = .next t ∧ (t.core c).dbg = (s.core c).dbg ++ [.readSlot n] ∧ t.out = s.out ∧
          t.core c = { s.core c with dbg := (t.core c).dbg } ∧ OnlyCore c s t)) ∧
    (∀ (n : Nat) (d : BitVec 1024) (g : BitVec 4), n < 16 → (n + (s.core c).phase) % 16 = 8 →
      (s.core c).portFree = true → (s.own c).flights = [] →
      ∃ t, exec (.debugWrite c (.slot n d g)) s = .next t ∧ (t.own c).slot n = { data := d, tag := g, bad := [] } ∧
        (∀ m, m ≠ n → (t.own c).slot m = (s.own c).slot m) ∧ (t.own c).g = (s.own c).g ∧
        (t.own c).tiles = (s.own c).tiles ∧ (t.own c).accs = (s.own c).accs ∧ OnlyCore c s t ∧ SameBytes s t) ∧
    (∀ (n a : Nat) (v : Byte), (s.own c).writesTile n = false →
      tblWfD (0 : Byte) ((s.own c).tile n).bytes = true →
      ∃ t, exec (.debugWrite c (.tileByte n a v)) s = .next t ∧ tblGet 0 ((t.own c).tile n).bytes a = v ∧
        (∀ b, b ≠ a → tblGet 0 ((t.own c).tile n).bytes b = tblGet 0 ((s.own c).tile n).bytes b) ∧
        (∀ m, m ≠ n → (t.own c).tile m = (s.own c).tile m) ∧ (t.own c).ring = (s.own c).ring ∧
        (t.own c).accs = (s.own c).accs ∧ OnlyCore c s t ∧ SameBytes s t) ∧
    (∀ (n i : Nat) (v : BitVec 32), (s.own c).writesAcc n = false →
      ∃ t, exec (.debugWrite c (.accElem n i v)) s = .next t ∧ ((t.own c).acc n).get (i / 256) (i % 256) = v.toNat ∧
        (∀ m, m ≠ n → (t.own c).acc m = (s.own c).acc m) ∧ (t.own c).ring = (s.own c).ring ∧
        (t.own c).tiles = (s.own c).tiles ∧ OnlyCore c s t ∧ SameBytes s t) ∧
    ∀ (g : Nat) (v : BitVec 64), 0 < g → (∀ w ∈ (s.own c).live, w.writesGuard (s.own c).flights g = false) →
      (∀ f ∈ (s.own c).flights, f.writesGuard g = false) →
      ∃ t, exec (.debugWrite c (.guard g v)) s = .next t ∧ (t.own c).guard g = v ∧
        (∀ h, h ≠ g → (t.own c).guard h = (s.own c).guard h) ∧ (t.own c).ring = (s.own c).ring ∧ OnlyCore c s t ∧
        SameBytes s t
end

