-- ==== Sys2Proof/Laws/Tbl.lean ====
section
/-! SUPPORT. Laws of the sparse tables: a read after a write, and the canonical form that every table operation
keeps. -/
namespace Sys2Proof.Machine

variable {α : Type}

/-! ## Read after write -/

@[simp] theorem tblFind_nil (i : Nat) : tblFind ([] : Tbl α) i = none := rfl

theorem tblFind_cons (k : Nat) (v : α) (r : Tbl α) (i : Nat) :
    tblFind ((k, v) :: r) i = if i = k then some v else tblFind r i := rfl

theorem tblFind_put (t : Tbl α) (i j : Nat) (v : α) :
    tblFind (tblPut t i v) j = if j = i then some v else tblFind t j := by
  induction t with
  | nil => simp [tblPut, tblFind]
  | cons e r ih =>
    obtain ⟨k, w⟩ := e
    simp only [tblPut]
    split
    · simp [tblFind]
    · split
      · subst i; simp only [tblFind]; split <;> simp_all
      · simp only [tblFind, ih]; split <;> split <;> simp_all

@[simp] theorem tblFind_put_self (t : Tbl α) (i : Nat) (v : α) : tblFind (tblPut t i v) i = some v := by
  simp [tblFind_put]

theorem tblFind_put_other (t : Tbl α) (v : α) {i j : Nat} (h : j ≠ i) : tblFind (tblPut t i v) j = tblFind t j := by
  simp [tblFind_put, h]

theorem tblFind_filter (p : Nat → Bool) (t : Tbl α) (j : Nat) :
    tblFind (t.filter fun e => p e.1) j = if p j then tblFind t j else none := by
  induction t with
  | nil => simp [tblFind]
  | cons e r ih =>
    obtain ⟨k, w⟩ := e
    simp only [List.filter]
    cases hk : p k <;> by_cases hj : j = k <;> simp_all [tblFind]

theorem tblFind_erase (t : Tbl α) (i j : Nat) : tblFind (tblErase t i) j = if j = i then none else tblFind t j := by
  rw [tblErase, tblFind_filter fun k => k != i]
  by_cases h : j = i <;> simp [h]

theorem tblGet_set [DecidableEq α] (d : α) (t : Tbl α) (i j : Nat) (v : α) :
    tblGet d (tblSet d t i v) j = if j = i then v else tblGet d t j := by
  unfold tblSet tblGet
  split
  · rename_i h; subst h; rw [tblFind_erase]; split <;> simp
  · rw [tblFind_put]; split <;> simp

@[simp] theorem tblGet_set_self [DecidableEq α] (d : α) (t : Tbl α) (i : Nat) (v : α) :
    tblGet d (tblSet d t i v) i = v := by simp [tblGet_set]

theorem tblGet_set_other [DecidableEq α] (d : α) (t : Tbl α) (v : α) {i j : Nat} (h : j ≠ i) :
    tblGet d (tblSet d t i v) j = tblGet d t j := by simp [tblGet_set, h]

theorem tblGet_mod [DecidableEq α] (d : α) (t : Tbl α) (i j : Nat) (f : α → α) :
    tblGet d (tblMod d t i f) j = if j = i then f (tblGet d t i) else tblGet d t j := by
  simp [tblMod, tblGet_set]

@[simp] theorem tblGet_nil (d : α) (i : Nat) : tblGet d [] i = d := rfl

/-! ## The canonical form -/

theorem tblRising_mono {b c : Nat} (h : c ≤ b) : ∀ {t : Tbl α}, tblRising b t = true → tblRising c t = true
  | [], _ => rfl
  | (k, _) :: _, ht => by
    simp only [tblRising, Bool.and_eq_true, decide_eq_true_eq] at ht ⊢
    exact ⟨by omega, ht.2⟩

theorem tblRising_put (i : Nat) (v : α) : ∀ {t : Tbl α} {b : Nat}, tblRising b t = true → b ≤ i →
    tblRising b (tblPut t i v) = true
  | [], b, _, hb => by simp [tblPut, tblRising, hb]
  | (k, w) :: r, b, ht, hb => by
    simp only [tblRising, Bool.and_eq_true, decide_eq_true_eq] at ht
    simp only [tblPut]
    split
    · simp only [tblRising, Bool.and_eq_true, decide_eq_true_eq]; exact ⟨hb, by omega, ht.2⟩
    · split
      · subst i; simp only [tblRising, Bool.and_eq_true, decide_eq_true_eq]; exact ⟨hb, ht.2⟩
      · simp only [tblRising, Bool.and_eq_true, decide_eq_true_eq]
        exact ⟨ht.1, tblRising_put i v ht.2 (by omega)⟩

theorem tblRising_filter (p : Nat × α → Bool) : ∀ {t : Tbl α} {b : Nat}, tblRising b t = true →
    tblRising b (t.filter p) = true
  | [], _, _ => rfl
  | (k, w) :: r, b, ht => by
    simp only [tblRising, Bool.and_eq_true, decide_eq_true_eq] at ht
    simp only [List.filter]
    split
    · simp only [tblRising, Bool.and_eq_true, decide_eq_true_eq]; exact ⟨ht.1, tblRising_filter p ht.2⟩
    · exact tblRising_mono (by omega) (tblRising_filter p ht.2)

/-- Every key is below `n`. -/
def tblBelow (n : Nat) (t : Tbl α) : Prop := ∀ e ∈ t, e.1 < n

/-- A rising table behind another whose keys are all below it. -/
theorem tblRising_append {n : Nat} : ∀ {a u : Tbl α} {b : Nat}, tblRising b a = true → tblBelow n a → b ≤ n →
    tblRising n u = true → tblRising b (a ++ u) = true
  | [], _, _, _, _, hb, hu => tblRising_mono hb hu
  | (k, w) :: r, u, b, ha, hn, _, hu => by
    simp only [tblRising, Bool.and_eq_true, decide_eq_true_eq] at ha
    have hk : k < n := hn (k, w) (by simp)
    simp only [List.cons_append, tblRising, Bool.and_eq_true, decide_eq_true_eq]
    exact ⟨ha.1, tblRising_append ha.2 (fun e he => hn e (by simp [he])) (by omega) hu⟩

theorem tblRising_takeWhile (lo : Nat) : ∀ {t : Tbl α} {b : Nat}, tblRising b t = true →
    tblRising b (t.takeWhile fun e => decide (e.1 < lo)) = true
  | [], _, _ => rfl
  | (k, w) :: r, b, ht => by
    simp only [tblRising, Bool.and_eq_true, decide_eq_true_eq] at ht
    by_cases h : k < lo
    · simp only [List.takeWhile, h, decide_true, tblRising, Bool.and_eq_true, decide_eq_true_eq]
      exact ⟨ht.1, tblRising_takeWhile lo ht.2⟩
    · simp [List.takeWhile, h, tblRising]

theorem tblBelow_takeWhile (lo : Nat) : ∀ t : Tbl α, tblBelow lo (t.takeWhile fun e => decide (e.1 < lo))
  | [] => by simp [tblBelow]
  | (k, w) :: r => by
    by_cases h : k < lo
    · simp only [List.takeWhile, h, decide_true, tblBelow, List.mem_cons, forall_eq_or_imp]
      exact ⟨trivial, tblBelow_takeWhile lo r⟩
    · simp [List.takeWhile, h, tblBelow]

/-- What is left of a rising table from a key on. -/
theorem tblRising_dropWhile (hi : Nat) : ∀ {t : Tbl α} {b : Nat}, tblRising b t = true →
    tblRising (max b hi) (t.dropWhile fun e => decide (e.1 < hi)) = true
  | [], _, _ => rfl
  | (k, w) :: r, b, ht => by
    simp only [tblRising, Bool.and_eq_true, decide_eq_true_eq] at ht
    by_cases h : k < hi
    · simp only [List.dropWhile, h, decide_true]
      exact tblRising_mono (by omega) (tblRising_dropWhile hi ht.2)
    · simp only [List.dropWhile, h, decide_false, tblRising, Bool.and_eq_true, decide_eq_true_eq]
      exact ⟨by omega, ht.2⟩

theorem tblRising_keyed : ∀ (lo : Nat) (vs : List α), tblRising lo (keyed lo vs) = true
  | _, [] => rfl
  | lo, _ :: r => by simp [keyed, tblRising, tblRising_keyed (lo + 1) r]

theorem tblBelow_keyed : ∀ (lo : Nat) (vs : List α), tblBelow (lo + vs.length) (keyed lo vs)
  | _, [] => by simp [keyed, tblBelow]
  | lo, v :: r => by
    intro e he
    simp only [keyed, List.mem_cons] at he
    rcases he with rfl | he
    · simp
    · have := tblBelow_keyed (lo + 1) r e he; simp only [List.length_cons]; omega

/-- A splice of entries within its place keeps a table rising. -/
theorem tblRising_splice {t new : Tbl α} {lo n b : Nat} (ht : tblRising b t = true) (hb : b ≤ lo)
    (hnew : tblRising lo new = true) (hin : tblBelow (lo + n) new) : tblRising b (tblSplice t lo n new) = true := by
  unfold tblSplice
  rw [List.append_assoc]
  refine tblRising_append (tblRising_takeWhile lo ht) (tblBelow_takeWhile lo t) hb ?_
  exact tblRising_append hnew hin (by omega) (tblRising_mono (by omega) (tblRising_dropWhile (lo + n) ht))

theorem tblWf_put {t : Tbl α} (h : tblWf t = true) (i : Nat) (v : α) : tblWf (tblPut t i v) = true :=
  tblRising_put i v h (Nat.zero_le i)

theorem tblWf_erase {t : Tbl α} (h : tblWf t = true) (i : Nat) : tblWf (tblErase t i) = true :=
  tblRising_filter _ h

theorem tblWf_putRange {t : Tbl α} (h : tblWf t = true) (lo : Nat) (vs : List α) :
    tblWf (tblPutRange t lo vs) = true :=
  tblRising_splice h (Nat.zero_le lo) (tblRising_keyed lo vs) (tblBelow_keyed lo vs)

section Canonical
variable [DecidableEq α] {d : α}

theorem tblWfD_iff {t : Tbl α} : tblWfD d t = true ↔ tblRising 0 t = true ∧ ∀ e ∈ t, e.2 ≠ d := by
  simp [tblWfD, List.all_eq_true]

theorem mem_tblPut {t : Tbl α} {i : Nat} {v : α} {e : Nat × α} (h : e ∈ tblPut t i v) : e = (i, v) ∨ e ∈ t := by
  induction t with
  | nil => simpa [tblPut] using h
  | cons f r ih =>
    obtain ⟨k, w⟩ := f
    simp only [tblPut] at h
    split at h
    · simpa using h
    · split at h
      · simp only [List.mem_cons] at h ⊢; tauto
      · simp only [List.mem_cons] at h ⊢
        rcases h with h | h
        · exact .inr (.inl h)
        · exact (ih h).imp id .inr

theorem tblWfD_set {t : Tbl α} (h : tblWfD d t = true) (i : Nat) (v : α) : tblWfD d (tblSet d t i v) = true := by
  rw [tblWfD_iff] at h ⊢
  unfold tblSet
  split
  · exact ⟨tblRising_filter _ h.1, fun e he => h.2 e (List.mem_of_mem_filter he)⟩
  · rename_i hv
    exact ⟨tblRising_put i v h.1 (Nat.zero_le i), fun e he => (mem_tblPut he).elim (fun x => x ▸ hv) (h.2 e)⟩

theorem tblWfD_setRange {t : Tbl α} (h : tblWfD d t = true) (lo : Nat) (vs : List α) :
    tblWfD d (tblSetRange d t lo vs) = true := by
  rw [tblWfD_iff] at h ⊢
  refine ⟨tblRising_splice h.1 (Nat.zero_le lo) (tblRising_filter _ (tblRising_keyed lo vs))
    (fun e he => tblBelow_keyed lo vs e (List.mem_of_mem_filter he)), fun e he => ?_⟩
  simp only [tblSetRange, tblSplice, List.mem_append] at he
  rcases he with (he | he) | he
  · exact h.2 e (List.IsPrefix.subset (List.takeWhile_prefix _) he)
  · simpa using List.of_mem_filter he
  · exact h.2 e (List.IsSuffix.subset (List.dropWhile_suffix _) he)

end Canonical

/-! ## Reads of splices -/

theorem tblFind_append (a u : Tbl α) (i : Nat) : tblFind (a ++ u) i = (tblFind a i).or (tblFind u i) := by
  induction a with
  | nil => simp
  | cons e r ih => obtain ⟨k, w⟩ := e; simp only [List.cons_append, tblFind, ih]; split <;> simp

theorem tblFind_below {t : Tbl α} {b i : Nat} (h : tblRising b t = true) (hi : i < b) : tblFind t i = none := by
  induction t generalizing b with
  | nil => rfl
  | cons e r ih =>
    obtain ⟨k, w⟩ := e
    simp only [tblRising, Bool.and_eq_true, decide_eq_true_eq] at h
    simp only [tblFind, show i ≠ k by omega, if_false]
    exact ih h.2 (by omega)

theorem tblFind_above {t : Tbl α} {n i : Nat} (h : tblBelow n t) (hi : n ≤ i) : tblFind t i = none := by
  induction t with
  | nil => rfl
  | cons e r ih =>
    obtain ⟨k, w⟩ := e
    have hk : k < n := h (k, w) (by simp)
    simp only [tblFind, show i ≠ k by omega, if_false]
    exact ih fun e he => h e (by simp [he])

theorem tblFind_takeWhile (lo : Nat) {t : Tbl α} {b : Nat} (h : tblRising b t = true) (i : Nat) :
    tblFind (t.takeWhile fun e => decide (e.1 < lo)) i = if i < lo then tblFind t i else none := by
  induction t generalizing b with
  | nil => simp
  | cons e r ih =>
    obtain ⟨k, w⟩ := e
    simp only [tblRising, Bool.and_eq_true, decide_eq_true_eq] at h
    by_cases hk : k < lo
    · simp only [List.takeWhile, hk, decide_true, tblFind, ih h.2]; split <;> split <;> simp_all
    · simp only [List.takeWhile, hk, decide_false, tblFind_nil]
      split
      · simp only [tblFind, show i ≠ k by omega, if_false]
        exact (tblFind_below h.2 (by omega)).symm
      · rfl

theorem tblFind_dropWhile (hi : Nat) {t : Tbl α} {b : Nat} (h : tblRising b t = true) (i : Nat) :
    tblFind (t.dropWhile fun e => decide (e.1 < hi)) i = if i < hi then none else tblFind t i := by
  induction t generalizing b with
  | nil => simp
  | cons e r ih =>
    obtain ⟨k, w⟩ := e
    have hr := h
    simp only [tblRising, Bool.and_eq_true, decide_eq_true_eq] at h
    by_cases hk : k < hi
    · simp only [List.dropWhile, hk, decide_true, tblFind, ih h.2]
      split
      · rfl
      · rw [if_neg (by omega)]
    · simp only [List.dropWhile, hk, decide_false]
      split
      · exact tblFind_below (b := k) (by simp [tblRising, h.2]) (by omega)
      · rfl

theorem tblFind_splice {t new : Tbl α} {lo n b : Nat} (ht : tblRising b t = true) (hnew : tblRising lo new = true)
    (hin : tblBelow (lo + n) new) (i : Nat) :
    tblFind (tblSplice t lo n new) i = if lo ≤ i ∧ i < lo + n then tblFind new i else tblFind t i := by
  unfold tblSplice
  rw [tblFind_append, tblFind_append, tblFind_takeWhile lo ht, tblFind_dropWhile (lo + n) ht]
  by_cases h1 : i < lo
  · rw [tblFind_below hnew h1]; simp [h1, show ¬ lo ≤ i by omega]; simp [show i < lo + n by omega]
  · by_cases h2 : i < lo + n
    · simp [h1, h2, show lo ≤ i by omega]
    · rw [tblFind_above hin (by omega)]; simp [h1, h2]

theorem tblFind_keyed : ∀ (lo : Nat) (vs : List α) (i : Nat),
    tblFind (keyed lo vs) i = if lo ≤ i then vs[i - lo]? else none
  | lo, [], i => by simp [keyed]
  | lo, v :: r, i => by
    simp only [keyed, tblFind, tblFind_keyed (lo + 1) r i]
    by_cases h : i = lo
    · simp [h]
    · by_cases h2 : lo + 1 ≤ i
      · simp only [h, if_false, h2, if_true, show lo ≤ i by omega]
        rw [show i - lo = (i - (lo + 1)) + 1 by omega]; simp
      · simp [h, h2, show ¬ lo ≤ i by omega]

/-- A run of bytes put into a rising table: those bytes read back, every other key as before. -/
theorem tblFind_putRange {t : Tbl α} (ht : tblWf t = true) (lo : Nat) (vs : List α) (i : Nat) :
    tblFind (tblPutRange t lo vs) i =
      if lo ≤ i ∧ i < lo + vs.length then vs[i - lo]? else tblFind t i := by
  rw [tblPutRange, tblFind_splice ht (tblRising_keyed lo vs) (tblBelow_keyed lo vs), tblFind_keyed]
  split
  · rename_i h; simp [h.1]
  · rfl

/-- A run of values written: those values read back, every other key as before. -/
theorem tblGet_setRange [DecidableEq α] {d : α} {t : Tbl α} (ht : tblRising 0 t = true) (lo : Nat) (vs : List α)
    (i : Nat) :
    tblGet d (tblSetRange d t lo vs) i =
      if lo ≤ i ∧ i < lo + vs.length then (vs[i - lo]?).getD d else tblGet d t i := by
  unfold tblSetRange tblGet
  rw [tblFind_splice ht (tblRising_filter _ (tblRising_keyed lo vs))
    fun e he => tblBelow_keyed lo vs e (List.mem_of_mem_filter he)]
  split
  · rename_i h
    have key : ∀ (lo : Nat) (vs : List α), (tblFind ((keyed lo vs).filter fun e => decide (e.2 ≠ d)) i).getD d
        = (tblFind (keyed lo vs) i).getD d := by
      intro lo vs
      induction vs generalizing lo with
      | nil => rfl
      | cons v r ih =>
        simp only [keyed, List.filter]
        by_cases hv : v = d
        · simp only [hv, ne_eq, not_true, decide_false, tblFind, ih]
          split
          · rename_i hi
            rw [tblFind_below (tblRising_keyed (lo + 1) r) (by omega)]; rfl
          · rfl
        · simp only [ne_eq, hv, not_false_iff, decide_true, tblFind]
          split
          · rfl
          · exact ih (lo + 1)
    rw [key, tblFind_keyed]; simp [h.1]
  · rfl

end Sys2Proof.Machine
end

