-- ==== Sys2Proof/Laws/State.lean ====
section
/-! SUPPORT. Laws of the state: what each update leaves as it was, field by field, and what a read gives after a
write. -/
namespace Sys2Proof.Machine

/-! ## Reads after writes -/

theorem State.core_setCore (s : State) (c d : Nat) (v : CoreSt) :
    (s.setCore c v).core d = if d = c then v else s.core d := tblGet_set _ _ _ _ _

@[simp] theorem State.core_setCore_self (s : State) (c : Nat) (v : CoreSt) : (s.setCore c v).core c = v := by
  simp [State.core_setCore]

theorem State.core_setCore_other (s : State) {c d : Nat} (v : CoreSt) (h : d ≠ c) :
    (s.setCore c v).core d = s.core d := by simp [State.core_setCore, h]

@[simp] theorem State.core_modCore_self (s : State) (c : Nat) (f : CoreSt → CoreSt) :
    (s.modCore c f).core c = f (s.core c) := by simp [State.modCore]

theorem State.core_modCore_other (s : State) {c d : Nat} (f : CoreSt → CoreSt) (h : d ≠ c) :
    (s.modCore c f).core d = s.core d := by simp [State.modCore, State.core_setCore_other _ _ h]

theorem CoreSt.ctx_setCtx (k : CoreSt) (i j : Nat) (v : Ctx) : (k.setCtx i v).ctx j = if j = i then v else k.ctx j :=
  tblGet_set _ _ _ _ _

@[simp] theorem CoreSt.ctx_setCtx_self (k : CoreSt) (i : Nat) (v : Ctx) : (k.setCtx i v).ctx i = v := by
  simp [CoreSt.ctx_setCtx]

theorem CoreSt.ctx_setCtx_other (k : CoreSt) {i j : Nat} (v : Ctx) (h : j ≠ i) : (k.setCtx i v).ctx j = k.ctx j := by
  simp [CoreSt.ctx_setCtx, h]

@[simp] theorem State.ctx_setCtx_self (s : State) (c k : Nat) (v : Ctx) : (s.setCtx c k v).ctx c k = v := by
  simp [State.setCtx, State.ctx]

@[simp] theorem State.ctx_modCtx_self (s : State) (c k : Nat) (f : Ctx → Ctx) :
    (s.modCtx c k f).ctx c k = f (s.ctx c k) := by simp [State.modCtx]

theorem State.ctx_setCtx_other (s : State) {c d k j : Nat} (v : Ctx) (h : d ≠ c ∨ j ≠ k) :
    (s.setCtx c k v).ctx d j = s.ctx d j := by
  unfold State.ctx State.setCtx
  by_cases hc : d = c
  · subst hc
    rw [State.core_modCore_self, CoreSt.ctx_setCtx_other _ _ (h.resolve_left fun x => x rfl)]
  · rw [State.core_modCore_other _ _ hc]

theorem State.ctx_modCtx_other (s : State) {c d k j : Nat} (f : Ctx → Ctx) (h : d ≠ c ∨ j ≠ k) :
    (s.modCtx c k f).ctx d j = s.ctx d j := State.ctx_setCtx_other s _ h

theorem State.core_modCtx_other (s : State) {c d : Nat} (k : Nat) (f : Ctx → Ctx) (h : d ≠ c) :
    (s.modCtx c k f).core d = s.core d := State.core_modCore_other s _ h

/-- A change of a context changes nothing else of its core. -/
theorem State.core_modCtx_self (s : State) (c k : Nat) (f : Ctx → Ctx) :
    (s.modCtx c k f).core c = (s.core c).setCtx k (f (s.ctx c k)) := by
  simp [State.modCtx, State.setCtx, State.ctx]

@[simp] theorem State.own_modOwn_self (s : State) (c : Nat) (f : Own → Own) : (s.modOwn c f).own c = f (s.own c) := by
  simp [State.modOwn, State.own]

theorem State.own_modOwn_other (s : State) {c d : Nat} (f : Own → Own) (h : d ≠ c) :
    (s.modOwn c f).own d = s.own d := by simp [State.modOwn, State.own, State.core_modCore_other _ _ h]

/-- A change of a context leaves the owner state. -/
@[simp] theorem State.own_modCtx (s : State) (c d k : Nat) (f : Ctx → Ctx) : (s.modCtx c k f).own d = s.own d := by
  unfold State.own
  by_cases h : d = c
  · subst h; rw [State.core_modCtx_self]; rfl
  · rw [State.core_modCtx_other _ _ _ h]

/-- A change of the owner state leaves the contexts. -/
@[simp] theorem State.ctx_modOwn (s : State) (c d k : Nat) (f : Own → Own) : (s.modOwn c f).ctx d k = s.ctx d k := by
  unfold State.ctx State.modOwn
  by_cases h : d = c
  · subst h; rw [State.core_modCore_self]; rfl
  · rw [State.core_modCore_other _ _ h]

/-- A register after a write: x0 stays zero (12_sequencer.md R261). -/
theorem Ctx.reg_setReg (x : Ctx) (r q : BitVec 5) (v : Word) :
    (x.setReg r v).reg q = if q = 0 then 0 else if q = r then v else x.reg q := by
  unfold Ctx.reg Ctx.setReg
  by_cases hq : q = 0
  · rw [if_pos hq, if_pos hq]
  · rw [if_neg hq, if_neg hq, if_neg hq]
    by_cases hr : r = 0
    · rw [if_pos hr, if_neg fun h => hq (h.trans hr)]
    · rw [if_neg hr, tblGet_set]
      simp only [BitVec.toNat_inj]

@[simp] theorem Ctx.reg_zero (x : Ctx) : x.reg 0 = 0 := rfl

@[simp] theorem Ctx.reg_next (x : Ctx) (r : BitVec 5) : x.next.reg r = x.reg r := rfl

@[simp] theorem Ctx.next_pc (x : Ctx) : x.next.pc = x.pc + 4 := rfl

@[simp] theorem Ctx.next_wait (x : Ctx) : x.next.wait = .none := rfl

theorem Own.guard_setGuard (o : Own) (g h : Nat) (v : BitVec 64) :
    (o.setGuard g v).guard h = if h = 0 then BitVec.allOnes 64 else if h = g then v else o.guard h := by
  unfold Own.guard Own.setGuard
  by_cases hh : h = 0
  · simp [hh]
  · by_cases hg : g = 0
    · simp [hh, hg]
    · simp [hh, hg, tblGet_set]

theorem Own.slot_setSlot (o : Own) (i j : Nat) (v : Slot) :
    (o.setSlot i v).slot j = if j = i then v else o.slot j := tblGet_set _ _ _ _ _

theorem Own.tile_setTile (o : Own) (i j : Nat) (v : Tile) :
    (o.setTile i v).tile j = if j = i then v else o.tile j := tblGet_set _ _ _ _ _

theorem Own.acc_setAcc (o : Own) (i j : Nat) (v : Acc) : (o.setAcc i v).acc j = if j = i then v else o.acc j :=
  tblGet_set _ _ _ _ _

theorem Own.queue_setQueue (o : Own) (i j : Nat) (v : EngQ) :
    (o.setQueue i v).queue j = if j = i then v else o.queue j := tblGet_set _ _ _ _ _

theorem Own.token_setToken (o : Own) (i j v : Nat) :
    (o.setToken i v).token j = if j = i then v else o.token j := tblGet_set _ _ _ _ _

theorem State.hubGet_hubPut (s : State) (a b : Nat) (v : Word) :
    (s.hubPut a v).hubGet b = if b = a then v else s.hubGet b := by
  unfold State.hubGet State.hubPut
  by_cases h : b = a
  · subst h; simp
  · simp only [if_neg h, tblGet, tblSet]
    split
    · rw [tblFind_erase, if_neg h]
    · rw [tblFind_put_other _ _ h]

theorem State.cluster_modCluster (s : State) (a b : Nat) (f : Cluster → Cluster) :
    (s.modCluster a f).cluster b = if b = a then f (s.cluster a) else s.cluster b := tblGet_mod _ _ _ _ _

theorem State.link_modLink (s : State) (a b : Nat) (f : Link → Link) :
    (s.modLink a f).link b = if b = a then f (s.link a) else s.link b := tblGet_mod _ _ _ _ _

theorem State.tag_modTag (s : State) (a b : Nat) (f : TagSt → TagSt) :
    (s.modTag a f).tag b = if b = a then f (s.tag a) else s.tag b := tblGet_mod _ _ _ _ _

/-! ## Updates of the module -/

@[simp] theorem State.setCore_power (s : State) (c : Nat) (v : CoreSt) :
    (s.setCore c v).power = s.power := rfl

@[simp] theorem State.setCore_ftick (s : State) (c : Nat) (v : CoreSt) :
    (s.setCore c v).ftick = s.ftick := rfl

@[simp] theorem State.setCore_at (s : State) (c : Nat) (v : CoreSt) :
    (s.setCore c v).at_ = s.at_ := rfl

@[simp] theorem State.setCore_turns (s : State) (c : Nat) (v : CoreSt) :
    (s.setCore c v).turns = s.turns := rfl

@[simp] theorem State.setCore_draws (s : State) (c : Nat) (v : CoreSt) :
    (s.setCore c v).draws = s.draws := rfl

@[simp] theorem State.setCore_mem (s : State) (c : Nat) (v : CoreSt) :
    (s.setCore c v).mem = s.mem := rfl

@[simp] theorem State.setCore_memBad (s : State) (c : Nat) (v : CoreSt) :
    (s.setCore c v).memBad = s.memBad := rfl

@[simp] theorem State.setCore_unseen (s : State) (c : Nat) (v : CoreSt) :
    (s.setCore c v).unseen = s.unseen := rfl

@[simp] theorem State.setCore_missed (s : State) (c : Nat) (v : CoreSt) :
    (s.setCore c v).missed = s.missed := rfl

@[simp] theorem State.setCore_ws (s : State) (c : Nat) (v : CoreSt) :
    (s.setCore c v).ws = s.ws := rfl

@[simp] theorem State.setCore_wsBad (s : State) (c : Nat) (v : CoreSt) :
    (s.setCore c v).wsBad = s.wsBad := rfl

@[simp] theorem State.setCore_wsOpen (s : State) (c : Nat) (v : CoreSt) :
    (s.setCore c v).wsOpen = s.wsOpen := rfl

@[simp] theorem State.setCore_wsTook (s : State) (c : Nat) (v : CoreSt) :
    (s.setCore c v).wsTook = s.wsTook := rfl

@[simp] theorem State.setCore_hub (s : State) (c : Nat) (v : CoreSt) :
    (s.setCore c v).hub = s.hub := rfl

@[simp] theorem State.setCore_clusters (s : State) (c : Nat) (v : CoreSt) :
    (s.setCore c v).clusters = s.clusters := rfl

@[simp] theorem State.setCore_diePtr (s : State) (c : Nat) (v : CoreSt) :
    (s.setCore c v).diePtr = s.diePtr := rfl

@[simp] theorem State.setCore_lqTurn (s : State) (c : Nat) (v : CoreSt) :
    (s.setCore c v).lqTurn = s.lqTurn := rfl

@[simp] theorem State.setCore_lqs (s : State) (c : Nat) (v : CoreSt) :
    (s.setCore c v).lqs = s.lqs := rfl

@[simp] theorem State.setCore_sqs (s : State) (c : Nat) (v : CoreSt) :
    (s.setCore c v).sqs = s.sqs := rfl

@[simp] theorem State.setCore_tasksMade (s : State) (c : Nat) (v : CoreSt) :
    (s.setCore c v).tasksMade = s.tasksMade := rfl

@[simp] theorem State.setCore_links (s : State) (c : Nat) (v : CoreSt) :
    (s.setCore c v).links = s.links := rfl

@[simp] theorem State.setCore_groups (s : State) (c : Nat) (v : CoreSt) :
    (s.setCore c v).groups = s.groups := rfl

@[simp] theorem State.setCore_tags (s : State) (c : Nat) (v : CoreSt) :
    (s.setCore c v).tags = s.tags := rfl

@[simp] theorem State.setCore_conts (s : State) (c : Nat) (v : CoreSt) :
    (s.setCore c v).conts = s.conts := rfl

@[simp] theorem State.setCore_nextCont (s : State) (c : Nat) (v : CoreSt) :
    (s.setCore c v).nextCont = s.nextCont := rfl

@[simp] theorem State.setCore_msgs (s : State) (c : Nat) (v : CoreSt) :
    (s.setCore c v).msgs = s.msgs := rfl

@[simp] theorem State.setCore_nextMsg (s : State) (c : Nat) (v : CoreSt) :
    (s.setCore c v).nextMsg = s.nextMsg := rfl

@[simp] theorem State.setCore_chanLock (s : State) (c : Nat) (v : CoreSt) :
    (s.setCore c v).chanLock = s.chanLock := rfl

@[simp] theorem State.setCore_held (s : State) (c : Nat) (v : CoreSt) :
    (s.setCore c v).held = s.held := rfl

@[simp] theorem State.setCore_svc (s : State) (c : Nat) (v : CoreSt) :
    (s.setCore c v).svc = s.svc := rfl

@[simp] theorem State.setCore_dlines (s : State) (c : Nat) (v : CoreSt) :
    (s.setCore c v).dlines = s.dlines := rfl

@[simp] theorem State.setCore_wslReplays (s : State) (c : Nat) (v : CoreSt) :
    (s.setCore c v).wslReplays = s.wslReplays := rfl

@[simp] theorem State.setCore_eth (s : State) (c : Nat) (v : CoreSt) :
    (s.setCore c v).eth = s.eth := rfl

@[simp] theorem State.setCore_out (s : State) (c : Nat) (v : CoreSt) :
    (s.setCore c v).out = s.out := rfl

@[simp] theorem State.modCore_power (s : State) (c : Nat) (f : CoreSt → CoreSt) :
    (s.modCore c f).power = s.power := rfl

@[simp] theorem State.modCore_ftick (s : State) (c : Nat) (f : CoreSt → CoreSt) :
    (s.modCore c f).ftick = s.ftick := rfl

@[simp] theorem State.modCore_at (s : State) (c : Nat) (f : CoreSt → CoreSt) :
    (s.modCore c f).at_ = s.at_ := rfl

@[simp] theorem State.modCore_turns (s : State) (c : Nat) (f : CoreSt → CoreSt) :
    (s.modCore c f).turns = s.turns := rfl

@[simp] theorem State.modCore_draws (s : State) (c : Nat) (f : CoreSt → CoreSt) :
    (s.modCore c f).draws = s.draws := rfl

@[simp] theorem State.modCore_mem (s : State) (c : Nat) (f : CoreSt → CoreSt) :
    (s.modCore c f).mem = s.mem := rfl

@[simp] theorem State.modCore_memBad (s : State) (c : Nat) (f : CoreSt → CoreSt) :
    (s.modCore c f).memBad = s.memBad := rfl

@[simp] theorem State.modCore_unseen (s : State) (c : Nat) (f : CoreSt → CoreSt) :
    (s.modCore c f).unseen = s.unseen := rfl

@[simp] theorem State.modCore_missed (s : State) (c : Nat) (f : CoreSt → CoreSt) :
    (s.modCore c f).missed = s.missed := rfl

@[simp] theorem State.modCore_ws (s : State) (c : Nat) (f : CoreSt → CoreSt) :
    (s.modCore c f).ws = s.ws := rfl

@[simp] theorem State.modCore_wsBad (s : State) (c : Nat) (f : CoreSt → CoreSt) :
    (s.modCore c f).wsBad = s.wsBad := rfl

@[simp] theorem State.modCore_wsOpen (s : State) (c : Nat) (f : CoreSt → CoreSt) :
    (s.modCore c f).wsOpen = s.wsOpen := rfl

@[simp] theorem State.modCore_wsTook (s : State) (c : Nat) (f : CoreSt → CoreSt) :
    (s.modCore c f).wsTook = s.wsTook := rfl

@[simp] theorem State.modCore_hub (s : State) (c : Nat) (f : CoreSt → CoreSt) :
    (s.modCore c f).hub = s.hub := rfl

@[simp] theorem State.modCore_clusters (s : State) (c : Nat) (f : CoreSt → CoreSt) :
    (s.modCore c f).clusters = s.clusters := rfl

@[simp] theorem State.modCore_diePtr (s : State) (c : Nat) (f : CoreSt → CoreSt) :
    (s.modCore c f).diePtr = s.diePtr := rfl

@[simp] theorem State.modCore_lqTurn (s : State) (c : Nat) (f : CoreSt → CoreSt) :
    (s.modCore c f).lqTurn = s.lqTurn := rfl

@[simp] theorem State.modCore_lqs (s : State) (c : Nat) (f : CoreSt → CoreSt) :
    (s.modCore c f).lqs = s.lqs := rfl

@[simp] theorem State.modCore_sqs (s : State) (c : Nat) (f : CoreSt → CoreSt) :
    (s.modCore c f).sqs = s.sqs := rfl

@[simp] theorem State.modCore_tasksMade (s : State) (c : Nat) (f : CoreSt → CoreSt) :
    (s.modCore c f).tasksMade = s.tasksMade := rfl

@[simp] theorem State.modCore_links (s : State) (c : Nat) (f : CoreSt → CoreSt) :
    (s.modCore c f).links = s.links := rfl

@[simp] theorem State.modCore_groups (s : State) (c : Nat) (f : CoreSt → CoreSt) :
    (s.modCore c f).groups = s.groups := rfl

@[simp] theorem State.modCore_tags (s : State) (c : Nat) (f : CoreSt → CoreSt) :
    (s.modCore c f).tags = s.tags := rfl

@[simp] theorem State.modCore_conts (s : State) (c : Nat) (f : CoreSt → CoreSt) :
    (s.modCore c f).conts = s.conts := rfl

@[simp] theorem State.modCore_nextCont (s : State) (c : Nat) (f : CoreSt → CoreSt) :
    (s.modCore c f).nextCont = s.nextCont := rfl

@[simp] theorem State.modCore_msgs (s : State) (c : Nat) (f : CoreSt → CoreSt) :
    (s.modCore c f).msgs = s.msgs := rfl

@[simp] theorem State.modCore_nextMsg (s : State) (c : Nat) (f : CoreSt → CoreSt) :
    (s.modCore c f).nextMsg = s.nextMsg := rfl

@[simp] theorem State.modCore_chanLock (s : State) (c : Nat) (f : CoreSt → CoreSt) :
    (s.modCore c f).chanLock = s.chanLock := rfl

@[simp] theorem State.modCore_held (s : State) (c : Nat) (f : CoreSt → CoreSt) :
    (s.modCore c f).held = s.held := rfl

@[simp] theorem State.modCore_svc (s : State) (c : Nat) (f : CoreSt → CoreSt) :
    (s.modCore c f).svc = s.svc := rfl

@[simp] theorem State.modCore_dlines (s : State) (c : Nat) (f : CoreSt → CoreSt) :
    (s.modCore c f).dlines = s.dlines := rfl

@[simp] theorem State.modCore_wslReplays (s : State) (c : Nat) (f : CoreSt → CoreSt) :
    (s.modCore c f).wslReplays = s.wslReplays := rfl

@[simp] theorem State.modCore_eth (s : State) (c : Nat) (f : CoreSt → CoreSt) :
    (s.modCore c f).eth = s.eth := rfl

@[simp] theorem State.modCore_out (s : State) (c : Nat) (f : CoreSt → CoreSt) :
    (s.modCore c f).out = s.out := rfl

@[simp] theorem State.setCtx_power (s : State) (c k : Nat) (v : Ctx) :
    (s.setCtx c k v).power = s.power := rfl

@[simp] theorem State.setCtx_ftick (s : State) (c k : Nat) (v : Ctx) :
    (s.setCtx c k v).ftick = s.ftick := rfl

@[simp] theorem State.setCtx_at (s : State) (c k : Nat) (v : Ctx) :
    (s.setCtx c k v).at_ = s.at_ := rfl

@[simp] theorem State.setCtx_turns (s : State) (c k : Nat) (v : Ctx) :
    (s.setCtx c k v).turns = s.turns := rfl

@[simp] theorem State.setCtx_draws (s : State) (c k : Nat) (v : Ctx) :
    (s.setCtx c k v).draws = s.draws := rfl

@[simp] theorem State.setCtx_mem (s : State) (c k : Nat) (v : Ctx) :
    (s.setCtx c k v).mem = s.mem := rfl

@[simp] theorem State.setCtx_memBad (s : State) (c k : Nat) (v : Ctx) :
    (s.setCtx c k v).memBad = s.memBad := rfl

@[simp] theorem State.setCtx_unseen (s : State) (c k : Nat) (v : Ctx) :
    (s.setCtx c k v).unseen = s.unseen := rfl

@[simp] theorem State.setCtx_missed (s : State) (c k : Nat) (v : Ctx) :
    (s.setCtx c k v).missed = s.missed := rfl

@[simp] theorem State.setCtx_ws (s : State) (c k : Nat) (v : Ctx) :
    (s.setCtx c k v).ws = s.ws := rfl

@[simp] theorem State.setCtx_wsBad (s : State) (c k : Nat) (v : Ctx) :
    (s.setCtx c k v).wsBad = s.wsBad := rfl

@[simp] theorem State.setCtx_wsOpen (s : State) (c k : Nat) (v : Ctx) :
    (s.setCtx c k v).wsOpen = s.wsOpen := rfl

@[simp] theorem State.setCtx_wsTook (s : State) (c k : Nat) (v : Ctx) :
    (s.setCtx c k v).wsTook = s.wsTook := rfl

@[simp] theorem State.setCtx_hub (s : State) (c k : Nat) (v : Ctx) :
    (s.setCtx c k v).hub = s.hub := rfl

@[simp] theorem State.setCtx_clusters (s : State) (c k : Nat) (v : Ctx) :
    (s.setCtx c k v).clusters = s.clusters := rfl

@[simp] theorem State.setCtx_diePtr (s : State) (c k : Nat) (v : Ctx) :
    (s.setCtx c k v).diePtr = s.diePtr := rfl

@[simp] theorem State.setCtx_lqTurn (s : State) (c k : Nat) (v : Ctx) :
    (s.setCtx c k v).lqTurn = s.lqTurn := rfl

@[simp] theorem State.setCtx_lqs (s : State) (c k : Nat) (v : Ctx) :
    (s.setCtx c k v).lqs = s.lqs := rfl

@[simp] theorem State.setCtx_sqs (s : State) (c k : Nat) (v : Ctx) :
    (s.setCtx c k v).sqs = s.sqs := rfl

@[simp] theorem State.setCtx_tasksMade (s : State) (c k : Nat) (v : Ctx) :
    (s.setCtx c k v).tasksMade = s.tasksMade := rfl

@[simp] theorem State.setCtx_links (s : State) (c k : Nat) (v : Ctx) :
    (s.setCtx c k v).links = s.links := rfl

@[simp] theorem State.setCtx_groups (s : State) (c k : Nat) (v : Ctx) :
    (s.setCtx c k v).groups = s.groups := rfl

@[simp] theorem State.setCtx_tags (s : State) (c k : Nat) (v : Ctx) :
    (s.setCtx c k v).tags = s.tags := rfl

@[simp] theorem State.setCtx_conts (s : State) (c k : Nat) (v : Ctx) :
    (s.setCtx c k v).conts = s.conts := rfl

@[simp] theorem State.setCtx_nextCont (s : State) (c k : Nat) (v : Ctx) :
    (s.setCtx c k v).nextCont = s.nextCont := rfl

@[simp] theorem State.setCtx_msgs (s : State) (c k : Nat) (v : Ctx) :
    (s.setCtx c k v).msgs = s.msgs := rfl

@[simp] theorem State.setCtx_nextMsg (s : State) (c k : Nat) (v : Ctx) :
    (s.setCtx c k v).nextMsg = s.nextMsg := rfl

@[simp] theorem State.setCtx_chanLock (s : State) (c k : Nat) (v : Ctx) :
    (s.setCtx c k v).chanLock = s.chanLock := rfl

@[simp] theorem State.setCtx_held (s : State) (c k : Nat) (v : Ctx) :
    (s.setCtx c k v).held = s.held := rfl

@[simp] theorem State.setCtx_svc (s : State) (c k : Nat) (v : Ctx) :
    (s.setCtx c k v).svc = s.svc := rfl

@[simp] theorem State.setCtx_dlines (s : State) (c k : Nat) (v : Ctx) :
    (s.setCtx c k v).dlines = s.dlines := rfl

@[simp] theorem State.setCtx_wslReplays (s : State) (c k : Nat) (v : Ctx) :
    (s.setCtx c k v).wslReplays = s.wslReplays := rfl

@[simp] theorem State.setCtx_eth (s : State) (c k : Nat) (v : Ctx) :
    (s.setCtx c k v).eth = s.eth := rfl

@[simp] theorem State.setCtx_out (s : State) (c k : Nat) (v : Ctx) :
    (s.setCtx c k v).out = s.out := rfl

@[simp] theorem State.modCtx_power (s : State) (c k : Nat) (f : Ctx → Ctx) :
    (s.modCtx c k f).power = s.power := rfl

@[simp] theorem State.modCtx_ftick (s : State) (c k : Nat) (f : Ctx → Ctx) :
    (s.modCtx c k f).ftick = s.ftick := rfl

@[simp] theorem State.modCtx_at (s : State) (c k : Nat) (f : Ctx → Ctx) :
    (s.modCtx c k f).at_ = s.at_ := rfl

@[simp] theorem State.modCtx_turns (s : State) (c k : Nat) (f : Ctx → Ctx) :
    (s.modCtx c k f).turns = s.turns := rfl

@[simp] theorem State.modCtx_draws (s : State) (c k : Nat) (f : Ctx → Ctx) :
    (s.modCtx c k f).draws = s.draws := rfl

@[simp] theorem State.modCtx_mem (s : State) (c k : Nat) (f : Ctx → Ctx) :
    (s.modCtx c k f).mem = s.mem := rfl

@[simp] theorem State.modCtx_memBad (s : State) (c k : Nat) (f : Ctx → Ctx) :
    (s.modCtx c k f).memBad = s.memBad := rfl

@[simp] theorem State.modCtx_unseen (s : State) (c k : Nat) (f : Ctx → Ctx) :
    (s.modCtx c k f).unseen = s.unseen := rfl

@[simp] theorem State.modCtx_missed (s : State) (c k : Nat) (f : Ctx → Ctx) :
    (s.modCtx c k f).missed = s.missed := rfl

@[simp] theorem State.modCtx_ws (s : State) (c k : Nat) (f : Ctx → Ctx) :
    (s.modCtx c k f).ws = s.ws := rfl

@[simp] theorem State.modCtx_wsBad (s : State) (c k : Nat) (f : Ctx → Ctx) :
    (s.modCtx c k f).wsBad = s.wsBad := rfl

@[simp] theorem State.modCtx_wsOpen (s : State) (c k : Nat) (f : Ctx → Ctx) :
    (s.modCtx c k f).wsOpen = s.wsOpen := rfl

@[simp] theorem State.modCtx_wsTook (s : State) (c k : Nat) (f : Ctx → Ctx) :
    (s.modCtx c k f).wsTook = s.wsTook := rfl

@[simp] theorem State.modCtx_hub (s : State) (c k : Nat) (f : Ctx → Ctx) :
    (s.modCtx c k f).hub = s.hub := rfl

@[simp] theorem State.modCtx_clusters (s : State) (c k : Nat) (f : Ctx → Ctx) :
    (s.modCtx c k f).clusters = s.clusters := rfl

@[simp] theorem State.modCtx_diePtr (s : State) (c k : Nat) (f : Ctx → Ctx) :
    (s.modCtx c k f).diePtr = s.diePtr := rfl

@[simp] theorem State.modCtx_lqTurn (s : State) (c k : Nat) (f : Ctx → Ctx) :
    (s.modCtx c k f).lqTurn = s.lqTurn := rfl

@[simp] theorem State.modCtx_lqs (s : State) (c k : Nat) (f : Ctx → Ctx) :
    (s.modCtx c k f).lqs = s.lqs := rfl

@[simp] theorem State.modCtx_sqs (s : State) (c k : Nat) (f : Ctx → Ctx) :
    (s.modCtx c k f).sqs = s.sqs := rfl

@[simp] theorem State.modCtx_tasksMade (s : State) (c k : Nat) (f : Ctx → Ctx) :
    (s.modCtx c k f).tasksMade = s.tasksMade := rfl

@[simp] theorem State.modCtx_links (s : State) (c k : Nat) (f : Ctx → Ctx) :
    (s.modCtx c k f).links = s.links := rfl

@[simp] theorem State.modCtx_groups (s : State) (c k : Nat) (f : Ctx → Ctx) :
    (s.modCtx c k f).groups = s.groups := rfl

@[simp] theorem State.modCtx_tags (s : State) (c k : Nat) (f : Ctx → Ctx) :
    (s.modCtx c k f).tags = s.tags := rfl

@[simp] theorem State.modCtx_conts (s : State) (c k : Nat) (f : Ctx → Ctx) :
    (s.modCtx c k f).conts = s.conts := rfl

@[simp] theorem State.modCtx_nextCont (s : State) (c k : Nat) (f : Ctx → Ctx) :
    (s.modCtx c k f).nextCont = s.nextCont := rfl

@[simp] theorem State.modCtx_msgs (s : State) (c k : Nat) (f : Ctx → Ctx) :
    (s.modCtx c k f).msgs = s.msgs := rfl

@[simp] theorem State.modCtx_nextMsg (s : State) (c k : Nat) (f : Ctx → Ctx) :
    (s.modCtx c k f).nextMsg = s.nextMsg := rfl

@[simp] theorem State.modCtx_chanLock (s : State) (c k : Nat) (f : Ctx → Ctx) :
    (s.modCtx c k f).chanLock = s.chanLock := rfl

@[simp] theorem State.modCtx_held (s : State) (c k : Nat) (f : Ctx → Ctx) :
    (s.modCtx c k f).held = s.held := rfl

@[simp] theorem State.modCtx_svc (s : State) (c k : Nat) (f : Ctx → Ctx) :
    (s.modCtx c k f).svc = s.svc := rfl

@[simp] theorem State.modCtx_dlines (s : State) (c k : Nat) (f : Ctx → Ctx) :
    (s.modCtx c k f).dlines = s.dlines := rfl

@[simp] theorem State.modCtx_wslReplays (s : State) (c k : Nat) (f : Ctx → Ctx) :
    (s.modCtx c k f).wslReplays = s.wslReplays := rfl

@[simp] theorem State.modCtx_eth (s : State) (c k : Nat) (f : Ctx → Ctx) :
    (s.modCtx c k f).eth = s.eth := rfl

@[simp] theorem State.modCtx_out (s : State) (c k : Nat) (f : Ctx → Ctx) :
    (s.modCtx c k f).out = s.out := rfl

@[simp] theorem State.modOwn_power (s : State) (c : Nat) (f : Own → Own) :
    (s.modOwn c f).power = s.power := rfl

@[simp] theorem State.modOwn_ftick (s : State) (c : Nat) (f : Own → Own) :
    (s.modOwn c f).ftick = s.ftick := rfl

@[simp] theorem State.modOwn_at (s : State) (c : Nat) (f : Own → Own) :
    (s.modOwn c f).at_ = s.at_ := rfl

@[simp] theorem State.modOwn_turns (s : State) (c : Nat) (f : Own → Own) :
    (s.modOwn c f).turns = s.turns := rfl

@[simp] theorem State.modOwn_draws (s : State) (c : Nat) (f : Own → Own) :
    (s.modOwn c f).draws = s.draws := rfl

@[simp] theorem State.modOwn_mem (s : State) (c : Nat) (f : Own → Own) :
    (s.modOwn c f).mem = s.mem := rfl

@[simp] theorem State.modOwn_memBad (s : State) (c : Nat) (f : Own → Own) :
    (s.modOwn c f).memBad = s.memBad := rfl

@[simp] theorem State.modOwn_unseen (s : State) (c : Nat) (f : Own → Own) :
    (s.modOwn c f).unseen = s.unseen := rfl

@[simp] theorem State.modOwn_missed (s : State) (c : Nat) (f : Own → Own) :
    (s.modOwn c f).missed = s.missed := rfl

@[simp] theorem State.modOwn_ws (s : State) (c : Nat) (f : Own → Own) :
    (s.modOwn c f).ws = s.ws := rfl

@[simp] theorem State.modOwn_wsBad (s : State) (c : Nat) (f : Own → Own) :
    (s.modOwn c f).wsBad = s.wsBad := rfl

@[simp] theorem State.modOwn_wsOpen (s : State) (c : Nat) (f : Own → Own) :
    (s.modOwn c f).wsOpen = s.wsOpen := rfl

@[simp] theorem State.modOwn_wsTook (s : State) (c : Nat) (f : Own → Own) :
    (s.modOwn c f).wsTook = s.wsTook := rfl

@[simp] theorem State.modOwn_hub (s : State) (c : Nat) (f : Own → Own) :
    (s.modOwn c f).hub = s.hub := rfl

@[simp] theorem State.modOwn_clusters (s : State) (c : Nat) (f : Own → Own) :
    (s.modOwn c f).clusters = s.clusters := rfl

@[simp] theorem State.modOwn_diePtr (s : State) (c : Nat) (f : Own → Own) :
    (s.modOwn c f).diePtr = s.diePtr := rfl

@[simp] theorem State.modOwn_lqTurn (s : State) (c : Nat) (f : Own → Own) :
    (s.modOwn c f).lqTurn = s.lqTurn := rfl

@[simp] theorem State.modOwn_lqs (s : State) (c : Nat) (f : Own → Own) :
    (s.modOwn c f).lqs = s.lqs := rfl

@[simp] theorem State.modOwn_sqs (s : State) (c : Nat) (f : Own → Own) :
    (s.modOwn c f).sqs = s.sqs := rfl

@[simp] theorem State.modOwn_tasksMade (s : State) (c : Nat) (f : Own → Own) :
    (s.modOwn c f).tasksMade = s.tasksMade := rfl

@[simp] theorem State.modOwn_links (s : State) (c : Nat) (f : Own → Own) :
    (s.modOwn c f).links = s.links := rfl

@[simp] theorem State.modOwn_groups (s : State) (c : Nat) (f : Own → Own) :
    (s.modOwn c f).groups = s.groups := rfl

@[simp] theorem State.modOwn_tags (s : State) (c : Nat) (f : Own → Own) :
    (s.modOwn c f).tags = s.tags := rfl

@[simp] theorem State.modOwn_conts (s : State) (c : Nat) (f : Own → Own) :
    (s.modOwn c f).conts = s.conts := rfl

@[simp] theorem State.modOwn_nextCont (s : State) (c : Nat) (f : Own → Own) :
    (s.modOwn c f).nextCont = s.nextCont := rfl

@[simp] theorem State.modOwn_msgs (s : State) (c : Nat) (f : Own → Own) :
    (s.modOwn c f).msgs = s.msgs := rfl

@[simp] theorem State.modOwn_nextMsg (s : State) (c : Nat) (f : Own → Own) :
    (s.modOwn c f).nextMsg = s.nextMsg := rfl

@[simp] theorem State.modOwn_chanLock (s : State) (c : Nat) (f : Own → Own) :
    (s.modOwn c f).chanLock = s.chanLock := rfl

@[simp] theorem State.modOwn_held (s : State) (c : Nat) (f : Own → Own) :
    (s.modOwn c f).held = s.held := rfl

@[simp] theorem State.modOwn_svc (s : State) (c : Nat) (f : Own → Own) :
    (s.modOwn c f).svc = s.svc := rfl

@[simp] theorem State.modOwn_dlines (s : State) (c : Nat) (f : Own → Own) :
    (s.modOwn c f).dlines = s.dlines := rfl

@[simp] theorem State.modOwn_wslReplays (s : State) (c : Nat) (f : Own → Own) :
    (s.modOwn c f).wslReplays = s.wslReplays := rfl

@[simp] theorem State.modOwn_eth (s : State) (c : Nat) (f : Own → Own) :
    (s.modOwn c f).eth = s.eth := rfl

@[simp] theorem State.modOwn_out (s : State) (c : Nat) (f : Own → Own) :
    (s.modOwn c f).out = s.out := rfl

@[simp] theorem State.draw_power (s : State) :
    (s.draw.2).power = s.power := rfl

@[simp] theorem State.draw_ftick (s : State) :
    (s.draw.2).ftick = s.ftick := rfl

@[simp] theorem State.draw_at (s : State) :
    (s.draw.2).at_ = s.at_ := rfl

@[simp] theorem State.draw_turns (s : State) :
    (s.draw.2).turns = s.turns := rfl

@[simp] theorem State.draw_mem (s : State) :
    (s.draw.2).mem = s.mem := rfl

@[simp] theorem State.draw_memBad (s : State) :
    (s.draw.2).memBad = s.memBad := rfl

@[simp] theorem State.draw_unseen (s : State) :
    (s.draw.2).unseen = s.unseen := rfl

@[simp] theorem State.draw_missed (s : State) :
    (s.draw.2).missed = s.missed := rfl

@[simp] theorem State.draw_ws (s : State) :
    (s.draw.2).ws = s.ws := rfl

@[simp] theorem State.draw_wsBad (s : State) :
    (s.draw.2).wsBad = s.wsBad := rfl

@[simp] theorem State.draw_wsOpen (s : State) :
    (s.draw.2).wsOpen = s.wsOpen := rfl

@[simp] theorem State.draw_wsTook (s : State) :
    (s.draw.2).wsTook = s.wsTook := rfl

@[simp] theorem State.draw_cores (s : State) :
    (s.draw.2).cores = s.cores := rfl

@[simp] theorem State.draw_hub (s : State) :
    (s.draw.2).hub = s.hub := rfl

@[simp] theorem State.draw_clusters (s : State) :
    (s.draw.2).clusters = s.clusters := rfl

@[simp] theorem State.draw_diePtr (s : State) :
    (s.draw.2).diePtr = s.diePtr := rfl

@[simp] theorem State.draw_lqTurn (s : State) :
    (s.draw.2).lqTurn = s.lqTurn := rfl

@[simp] theorem State.draw_lqs (s : State) :
    (s.draw.2).lqs = s.lqs := rfl

@[simp] theorem State.draw_sqs (s : State) :
    (s.draw.2).sqs = s.sqs := rfl

@[simp] theorem State.draw_tasksMade (s : State) :
    (s.draw.2).tasksMade = s.tasksMade := rfl

@[simp] theorem State.draw_links (s : State) :
    (s.draw.2).links = s.links := rfl

@[simp] theorem State.draw_groups (s : State) :
    (s.draw.2).groups = s.groups := rfl

@[simp] theorem State.draw_tags (s : State) :
    (s.draw.2).tags = s.tags := rfl

@[simp] theorem State.draw_conts (s : State) :
    (s.draw.2).conts = s.conts := rfl

@[simp] theorem State.draw_nextCont (s : State) :
    (s.draw.2).nextCont = s.nextCont := rfl

@[simp] theorem State.draw_msgs (s : State) :
    (s.draw.2).msgs = s.msgs := rfl

@[simp] theorem State.draw_nextMsg (s : State) :
    (s.draw.2).nextMsg = s.nextMsg := rfl

@[simp] theorem State.draw_chanLock (s : State) :
    (s.draw.2).chanLock = s.chanLock := rfl

@[simp] theorem State.draw_held (s : State) :
    (s.draw.2).held = s.held := rfl

@[simp] theorem State.draw_svc (s : State) :
    (s.draw.2).svc = s.svc := rfl

@[simp] theorem State.draw_dlines (s : State) :
    (s.draw.2).dlines = s.dlines := rfl

@[simp] theorem State.draw_wslReplays (s : State) :
    (s.draw.2).wslReplays = s.wslReplays := rfl

@[simp] theorem State.draw_eth (s : State) :
    (s.draw.2).eth = s.eth := rfl

@[simp] theorem State.draw_out (s : State) :
    (s.draw.2).out = s.out := rfl

@[simp] theorem State.emit_power (s : State) (o : Output) :
    (s.emit o).power = s.power := rfl

@[simp] theorem State.emit_ftick (s : State) (o : Output) :
    (s.emit o).ftick = s.ftick := rfl

@[simp] theorem State.emit_at (s : State) (o : Output) :
    (s.emit o).at_ = s.at_ := rfl

@[simp] theorem State.emit_turns (s : State) (o : Output) :
    (s.emit o).turns = s.turns := rfl

@[simp] theorem State.emit_draws (s : State) (o : Output) :
    (s.emit o).draws = s.draws := rfl

@[simp] theorem State.emit_mem (s : State) (o : Output) :
    (s.emit o).mem = s.mem := rfl

@[simp] theorem State.emit_memBad (s : State) (o : Output) :
    (s.emit o).memBad = s.memBad := rfl

@[simp] theorem State.emit_unseen (s : State) (o : Output) :
    (s.emit o).unseen = s.unseen := rfl

@[simp] theorem State.emit_missed (s : State) (o : Output) :
    (s.emit o).missed = s.missed := rfl

@[simp] theorem State.emit_ws (s : State) (o : Output) :
    (s.emit o).ws = s.ws := rfl

@[simp] theorem State.emit_wsBad (s : State) (o : Output) :
    (s.emit o).wsBad = s.wsBad := rfl

@[simp] theorem State.emit_wsOpen (s : State) (o : Output) :
    (s.emit o).wsOpen = s.wsOpen := rfl

@[simp] theorem State.emit_wsTook (s : State) (o : Output) :
    (s.emit o).wsTook = s.wsTook := rfl

@[simp] theorem State.emit_cores (s : State) (o : Output) :
    (s.emit o).cores = s.cores := rfl

@[simp] theorem State.emit_hub (s : State) (o : Output) :
    (s.emit o).hub = s.hub := rfl

@[simp] theorem State.emit_clusters (s : State) (o : Output) :
    (s.emit o).clusters = s.clusters := rfl

@[simp] theorem State.emit_diePtr (s : State) (o : Output) :
    (s.emit o).diePtr = s.diePtr := rfl

@[simp] theorem State.emit_lqTurn (s : State) (o : Output) :
    (s.emit o).lqTurn = s.lqTurn := rfl

@[simp] theorem State.emit_lqs (s : State) (o : Output) :
    (s.emit o).lqs = s.lqs := rfl

@[simp] theorem State.emit_sqs (s : State) (o : Output) :
    (s.emit o).sqs = s.sqs := rfl

@[simp] theorem State.emit_tasksMade (s : State) (o : Output) :
    (s.emit o).tasksMade = s.tasksMade := rfl

@[simp] theorem State.emit_links (s : State) (o : Output) :
    (s.emit o).links = s.links := rfl

@[simp] theorem State.emit_groups (s : State) (o : Output) :
    (s.emit o).groups = s.groups := rfl

@[simp] theorem State.emit_tags (s : State) (o : Output) :
    (s.emit o).tags = s.tags := rfl

@[simp] theorem State.emit_conts (s : State) (o : Output) :
    (s.emit o).conts = s.conts := rfl

@[simp] theorem State.emit_nextCont (s : State) (o : Output) :
    (s.emit o).nextCont = s.nextCont := rfl

@[simp] theorem State.emit_msgs (s : State) (o : Output) :
    (s.emit o).msgs = s.msgs := rfl

@[simp] theorem State.emit_nextMsg (s : State) (o : Output) :
    (s.emit o).nextMsg = s.nextMsg := rfl

@[simp] theorem State.emit_chanLock (s : State) (o : Output) :
    (s.emit o).chanLock = s.chanLock := rfl

@[simp] theorem State.emit_held (s : State) (o : Output) :
    (s.emit o).held = s.held := rfl

@[simp] theorem State.emit_svc (s : State) (o : Output) :
    (s.emit o).svc = s.svc := rfl

@[simp] theorem State.emit_dlines (s : State) (o : Output) :
    (s.emit o).dlines = s.dlines := rfl

@[simp] theorem State.emit_wslReplays (s : State) (o : Output) :
    (s.emit o).wslReplays = s.wslReplays := rfl

@[simp] theorem State.emit_eth (s : State) (o : Output) :
    (s.emit o).eth = s.eth := rfl

@[simp] theorem State.push_power (s : State) (ts : List Turn) :
    (s.push ts).power = s.power := rfl

@[simp] theorem State.push_ftick (s : State) (ts : List Turn) :
    (s.push ts).ftick = s.ftick := rfl

@[simp] theorem State.push_at (s : State) (ts : List Turn) :
    (s.push ts).at_ = s.at_ := rfl

@[simp] theorem State.push_draws (s : State) (ts : List Turn) :
    (s.push ts).draws = s.draws := rfl

@[simp] theorem State.push_mem (s : State) (ts : List Turn) :
    (s.push ts).mem = s.mem := rfl

@[simp] theorem State.push_memBad (s : State) (ts : List Turn) :
    (s.push ts).memBad = s.memBad := rfl

@[simp] theorem State.push_unseen (s : State) (ts : List Turn) :
    (s.push ts).unseen = s.unseen := rfl

@[simp] theorem State.push_missed (s : State) (ts : List Turn) :
    (s.push ts).missed = s.missed := rfl

@[simp] theorem State.push_ws (s : State) (ts : List Turn) :
    (s.push ts).ws = s.ws := rfl

@[simp] theorem State.push_wsBad (s : State) (ts : List Turn) :
    (s.push ts).wsBad = s.wsBad := rfl

@[simp] theorem State.push_wsOpen (s : State) (ts : List Turn) :
    (s.push ts).wsOpen = s.wsOpen := rfl

@[simp] theorem State.push_wsTook (s : State) (ts : List Turn) :
    (s.push ts).wsTook = s.wsTook := rfl

@[simp] theorem State.push_cores (s : State) (ts : List Turn) :
    (s.push ts).cores = s.cores := rfl

@[simp] theorem State.push_hub (s : State) (ts : List Turn) :
    (s.push ts).hub = s.hub := rfl

@[simp] theorem State.push_clusters (s : State) (ts : List Turn) :
    (s.push ts).clusters = s.clusters := rfl

@[simp] theorem State.push_diePtr (s : State) (ts : List Turn) :
    (s.push ts).diePtr = s.diePtr := rfl

@[simp] theorem State.push_lqTurn (s : State) (ts : List Turn) :
    (s.push ts).lqTurn = s.lqTurn := rfl

@[simp] theorem State.push_lqs (s : State) (ts : List Turn) :
    (s.push ts).lqs = s.lqs := rfl

@[simp] theorem State.push_sqs (s : State) (ts : List Turn) :
    (s.push ts).sqs = s.sqs := rfl

@[simp] theorem State.push_tasksMade (s : State) (ts : List Turn) :
    (s.push ts).tasksMade = s.tasksMade := rfl

@[simp] theorem State.push_links (s : State) (ts : List Turn) :
    (s.push ts).links = s.links := rfl

@[simp] theorem State.push_groups (s : State) (ts : List Turn) :
    (s.push ts).groups = s.groups := rfl

@[simp] theorem State.push_tags (s : State) (ts : List Turn) :
    (s.push ts).tags = s.tags := rfl

@[simp] theorem State.push_conts (s : State) (ts : List Turn) :
    (s.push ts).conts = s.conts := rfl

@[simp] theorem State.push_nextCont (s : State) (ts : List Turn) :
    (s.push ts).nextCont = s.nextCont := rfl

@[simp] theorem State.push_msgs (s : State) (ts : List Turn) :
    (s.push ts).msgs = s.msgs := rfl

@[simp] theorem State.push_nextMsg (s : State) (ts : List Turn) :
    (s.push ts).nextMsg = s.nextMsg := rfl

@[simp] theorem State.push_chanLock (s : State) (ts : List Turn) :
    (s.push ts).chanLock = s.chanLock := rfl

@[simp] theorem State.push_held (s : State) (ts : List Turn) :
    (s.push ts).held = s.held := rfl

@[simp] theorem State.push_svc (s : State) (ts : List Turn) :
    (s.push ts).svc = s.svc := rfl

@[simp] theorem State.push_dlines (s : State) (ts : List Turn) :
    (s.push ts).dlines = s.dlines := rfl

@[simp] theorem State.push_wslReplays (s : State) (ts : List Turn) :
    (s.push ts).wslReplays = s.wslReplays := rfl

@[simp] theorem State.push_eth (s : State) (ts : List Turn) :
    (s.push ts).eth = s.eth := rfl

@[simp] theorem State.push_out (s : State) (ts : List Turn) :
    (s.push ts).out = s.out := rfl

@[simp] theorem State.hubPut_power (s : State) (off : Nat) (v : Word) :
    (s.hubPut off v).power = s.power := rfl

@[simp] theorem State.hubPut_ftick (s : State) (off : Nat) (v : Word) :
    (s.hubPut off v).ftick = s.ftick := rfl

@[simp] theorem State.hubPut_at (s : State) (off : Nat) (v : Word) :
    (s.hubPut off v).at_ = s.at_ := rfl

@[simp] theorem State.hubPut_turns (s : State) (off : Nat) (v : Word) :
    (s.hubPut off v).turns = s.turns := rfl

@[simp] theorem State.hubPut_draws (s : State) (off : Nat) (v : Word) :
    (s.hubPut off v).draws = s.draws := rfl

@[simp] theorem State.hubPut_mem (s : State) (off : Nat) (v : Word) :
    (s.hubPut off v).mem = s.mem := rfl

@[simp] theorem State.hubPut_memBad (s : State) (off : Nat) (v : Word) :
    (s.hubPut off v).memBad = s.memBad := rfl

@[simp] theorem State.hubPut_unseen (s : State) (off : Nat) (v : Word) :
    (s.hubPut off v).unseen = s.unseen := rfl

@[simp] theorem State.hubPut_missed (s : State) (off : Nat) (v : Word) :
    (s.hubPut off v).missed = s.missed := rfl

@[simp] theorem State.hubPut_ws (s : State) (off : Nat) (v : Word) :
    (s.hubPut off v).ws = s.ws := rfl

@[simp] theorem State.hubPut_wsBad (s : State) (off : Nat) (v : Word) :
    (s.hubPut off v).wsBad = s.wsBad := rfl

@[simp] theorem State.hubPut_wsOpen (s : State) (off : Nat) (v : Word) :
    (s.hubPut off v).wsOpen = s.wsOpen := rfl

@[simp] theorem State.hubPut_wsTook (s : State) (off : Nat) (v : Word) :
    (s.hubPut off v).wsTook = s.wsTook := rfl

@[simp] theorem State.hubPut_cores (s : State) (off : Nat) (v : Word) :
    (s.hubPut off v).cores = s.cores := rfl

@[simp] theorem State.hubPut_clusters (s : State) (off : Nat) (v : Word) :
    (s.hubPut off v).clusters = s.clusters := rfl

@[simp] theorem State.hubPut_diePtr (s : State) (off : Nat) (v : Word) :
    (s.hubPut off v).diePtr = s.diePtr := rfl

@[simp] theorem State.hubPut_lqTurn (s : State) (off : Nat) (v : Word) :
    (s.hubPut off v).lqTurn = s.lqTurn := rfl

@[simp] theorem State.hubPut_lqs (s : State) (off : Nat) (v : Word) :
    (s.hubPut off v).lqs = s.lqs := rfl

@[simp] theorem State.hubPut_sqs (s : State) (off : Nat) (v : Word) :
    (s.hubPut off v).sqs = s.sqs := rfl

@[simp] theorem State.hubPut_tasksMade (s : State) (off : Nat) (v : Word) :
    (s.hubPut off v).tasksMade = s.tasksMade := rfl

@[simp] theorem State.hubPut_links (s : State) (off : Nat) (v : Word) :
    (s.hubPut off v).links = s.links := rfl

@[simp] theorem State.hubPut_groups (s : State) (off : Nat) (v : Word) :
    (s.hubPut off v).groups = s.groups := rfl

@[simp] theorem State.hubPut_tags (s : State) (off : Nat) (v : Word) :
    (s.hubPut off v).tags = s.tags := rfl

@[simp] theorem State.hubPut_conts (s : State) (off : Nat) (v : Word) :
    (s.hubPut off v).conts = s.conts := rfl

@[simp] theorem State.hubPut_nextCont (s : State) (off : Nat) (v : Word) :
    (s.hubPut off v).nextCont = s.nextCont := rfl

@[simp] theorem State.hubPut_msgs (s : State) (off : Nat) (v : Word) :
    (s.hubPut off v).msgs = s.msgs := rfl

@[simp] theorem State.hubPut_nextMsg (s : State) (off : Nat) (v : Word) :
    (s.hubPut off v).nextMsg = s.nextMsg := rfl

@[simp] theorem State.hubPut_chanLock (s : State) (off : Nat) (v : Word) :
    (s.hubPut off v).chanLock = s.chanLock := rfl

@[simp] theorem State.hubPut_held (s : State) (off : Nat) (v : Word) :
    (s.hubPut off v).held = s.held := rfl

@[simp] theorem State.hubPut_svc (s : State) (off : Nat) (v : Word) :
    (s.hubPut off v).svc = s.svc := rfl

@[simp] theorem State.hubPut_dlines (s : State) (off : Nat) (v : Word) :
    (s.hubPut off v).dlines = s.dlines := rfl

@[simp] theorem State.hubPut_wslReplays (s : State) (off : Nat) (v : Word) :
    (s.hubPut off v).wslReplays = s.wslReplays := rfl

@[simp] theorem State.hubPut_eth (s : State) (off : Nat) (v : Word) :
    (s.hubPut off v).eth = s.eth := rfl

@[simp] theorem State.hubPut_out (s : State) (off : Nat) (v : Word) :
    (s.hubPut off v).out = s.out := rfl

@[simp] theorem State.modCluster_power (s : State) (cl : Nat) (f : Cluster → Cluster) :
    (s.modCluster cl f).power = s.power := rfl

@[simp] theorem State.modCluster_ftick (s : State) (cl : Nat) (f : Cluster → Cluster) :
    (s.modCluster cl f).ftick = s.ftick := rfl

@[simp] theorem State.modCluster_at (s : State) (cl : Nat) (f : Cluster → Cluster) :
    (s.modCluster cl f).at_ = s.at_ := rfl

@[simp] theorem State.modCluster_turns (s : State) (cl : Nat) (f : Cluster → Cluster) :
    (s.modCluster cl f).turns = s.turns := rfl

@[simp] theorem State.modCluster_draws (s : State) (cl : Nat) (f : Cluster → Cluster) :
    (s.modCluster cl f).draws = s.draws := rfl

@[simp] theorem State.modCluster_mem (s : State) (cl : Nat) (f : Cluster → Cluster) :
    (s.modCluster cl f).mem = s.mem := rfl

@[simp] theorem State.modCluster_memBad (s : State) (cl : Nat) (f : Cluster → Cluster) :
    (s.modCluster cl f).memBad = s.memBad := rfl

@[simp] theorem State.modCluster_unseen (s : State) (cl : Nat) (f : Cluster → Cluster) :
    (s.modCluster cl f).unseen = s.unseen := rfl

@[simp] theorem State.modCluster_missed (s : State) (cl : Nat) (f : Cluster → Cluster) :
    (s.modCluster cl f).missed = s.missed := rfl

@[simp] theorem State.modCluster_ws (s : State) (cl : Nat) (f : Cluster → Cluster) :
    (s.modCluster cl f).ws = s.ws := rfl

@[simp] theorem State.modCluster_wsBad (s : State) (cl : Nat) (f : Cluster → Cluster) :
    (s.modCluster cl f).wsBad = s.wsBad := rfl

@[simp] theorem State.modCluster_wsOpen (s : State) (cl : Nat) (f : Cluster → Cluster) :
    (s.modCluster cl f).wsOpen = s.wsOpen := rfl

@[simp] theorem State.modCluster_wsTook (s : State) (cl : Nat) (f : Cluster → Cluster) :
    (s.modCluster cl f).wsTook = s.wsTook := rfl

@[simp] theorem State.modCluster_cores (s : State) (cl : Nat) (f : Cluster → Cluster) :
    (s.modCluster cl f).cores = s.cores := rfl

@[simp] theorem State.modCluster_hub (s : State) (cl : Nat) (f : Cluster → Cluster) :
    (s.modCluster cl f).hub = s.hub := rfl

@[simp] theorem State.modCluster_diePtr (s : State) (cl : Nat) (f : Cluster → Cluster) :
    (s.modCluster cl f).diePtr = s.diePtr := rfl

@[simp] theorem State.modCluster_lqTurn (s : State) (cl : Nat) (f : Cluster → Cluster) :
    (s.modCluster cl f).lqTurn = s.lqTurn := rfl

@[simp] theorem State.modCluster_lqs (s : State) (cl : Nat) (f : Cluster → Cluster) :
    (s.modCluster cl f).lqs = s.lqs := rfl

@[simp] theorem State.modCluster_sqs (s : State) (cl : Nat) (f : Cluster → Cluster) :
    (s.modCluster cl f).sqs = s.sqs := rfl

@[simp] theorem State.modCluster_tasksMade (s : State) (cl : Nat) (f : Cluster → Cluster) :
    (s.modCluster cl f).tasksMade = s.tasksMade := rfl

@[simp] theorem State.modCluster_links (s : State) (cl : Nat) (f : Cluster → Cluster) :
    (s.modCluster cl f).links = s.links := rfl

@[simp] theorem State.modCluster_groups (s : State) (cl : Nat) (f : Cluster → Cluster) :
    (s.modCluster cl f).groups = s.groups := rfl

@[simp] theorem State.modCluster_tags (s : State) (cl : Nat) (f : Cluster → Cluster) :
    (s.modCluster cl f).tags = s.tags := rfl

@[simp] theorem State.modCluster_conts (s : State) (cl : Nat) (f : Cluster → Cluster) :
    (s.modCluster cl f).conts = s.conts := rfl

@[simp] theorem State.modCluster_nextCont (s : State) (cl : Nat) (f : Cluster → Cluster) :
    (s.modCluster cl f).nextCont = s.nextCont := rfl

@[simp] theorem State.modCluster_msgs (s : State) (cl : Nat) (f : Cluster → Cluster) :
    (s.modCluster cl f).msgs = s.msgs := rfl

@[simp] theorem State.modCluster_nextMsg (s : State) (cl : Nat) (f : Cluster → Cluster) :
    (s.modCluster cl f).nextMsg = s.nextMsg := rfl

@[simp] theorem State.modCluster_chanLock (s : State) (cl : Nat) (f : Cluster → Cluster) :
    (s.modCluster cl f).chanLock = s.chanLock := rfl

@[simp] theorem State.modCluster_held (s : State) (cl : Nat) (f : Cluster → Cluster) :
    (s.modCluster cl f).held = s.held := rfl

@[simp] theorem State.modCluster_svc (s : State) (cl : Nat) (f : Cluster → Cluster) :
    (s.modCluster cl f).svc = s.svc := rfl

@[simp] theorem State.modCluster_dlines (s : State) (cl : Nat) (f : Cluster → Cluster) :
    (s.modCluster cl f).dlines = s.dlines := rfl

@[simp] theorem State.modCluster_wslReplays (s : State) (cl : Nat) (f : Cluster → Cluster) :
    (s.modCluster cl f).wslReplays = s.wslReplays := rfl

@[simp] theorem State.modCluster_eth (s : State) (cl : Nat) (f : Cluster → Cluster) :
    (s.modCluster cl f).eth = s.eth := rfl

@[simp] theorem State.modCluster_out (s : State) (cl : Nat) (f : Cluster → Cluster) :
    (s.modCluster cl f).out = s.out := rfl

@[simp] theorem State.modLink_power (s : State) (l : Nat) (f : Link → Link) :
    (s.modLink l f).power = s.power := rfl

@[simp] theorem State.modLink_ftick (s : State) (l : Nat) (f : Link → Link) :
    (s.modLink l f).ftick = s.ftick := rfl

@[simp] theorem State.modLink_at (s : State) (l : Nat) (f : Link → Link) :
    (s.modLink l f).at_ = s.at_ := rfl

@[simp] theorem State.modLink_turns (s : State) (l : Nat) (f : Link → Link) :
    (s.modLink l f).turns = s.turns := rfl

@[simp] theorem State.modLink_draws (s : State) (l : Nat) (f : Link → Link) :
    (s.modLink l f).draws = s.draws := rfl

@[simp] theorem State.modLink_mem (s : State) (l : Nat) (f : Link → Link) :
    (s.modLink l f).mem = s.mem := rfl

@[simp] theorem State.modLink_memBad (s : State) (l : Nat) (f : Link → Link) :
    (s.modLink l f).memBad = s.memBad := rfl

@[simp] theorem State.modLink_unseen (s : State) (l : Nat) (f : Link → Link) :
    (s.modLink l f).unseen = s.unseen := rfl

@[simp] theorem State.modLink_missed (s : State) (l : Nat) (f : Link → Link) :
    (s.modLink l f).missed = s.missed := rfl

@[simp] theorem State.modLink_ws (s : State) (l : Nat) (f : Link → Link) :
    (s.modLink l f).ws = s.ws := rfl

@[simp] theorem State.modLink_wsBad (s : State) (l : Nat) (f : Link → Link) :
    (s.modLink l f).wsBad = s.wsBad := rfl

@[simp] theorem State.modLink_wsOpen (s : State) (l : Nat) (f : Link → Link) :
    (s.modLink l f).wsOpen = s.wsOpen := rfl

@[simp] theorem State.modLink_wsTook (s : State) (l : Nat) (f : Link → Link) :
    (s.modLink l f).wsTook = s.wsTook := rfl

@[simp] theorem State.modLink_cores (s : State) (l : Nat) (f : Link → Link) :
    (s.modLink l f).cores = s.cores := rfl

@[simp] theorem State.modLink_hub (s : State) (l : Nat) (f : Link → Link) :
    (s.modLink l f).hub = s.hub := rfl

@[simp] theorem State.modLink_clusters (s : State) (l : Nat) (f : Link → Link) :
    (s.modLink l f).clusters = s.clusters := rfl

@[simp] theorem State.modLink_diePtr (s : State) (l : Nat) (f : Link → Link) :
    (s.modLink l f).diePtr = s.diePtr := rfl

@[simp] theorem State.modLink_lqTurn (s : State) (l : Nat) (f : Link → Link) :
    (s.modLink l f).lqTurn = s.lqTurn := rfl

@[simp] theorem State.modLink_lqs (s : State) (l : Nat) (f : Link → Link) :
    (s.modLink l f).lqs = s.lqs := rfl

@[simp] theorem State.modLink_sqs (s : State) (l : Nat) (f : Link → Link) :
    (s.modLink l f).sqs = s.sqs := rfl

@[simp] theorem State.modLink_tasksMade (s : State) (l : Nat) (f : Link → Link) :
    (s.modLink l f).tasksMade = s.tasksMade := rfl

@[simp] theorem State.modLink_groups (s : State) (l : Nat) (f : Link → Link) :
    (s.modLink l f).groups = s.groups := rfl

@[simp] theorem State.modLink_tags (s : State) (l : Nat) (f : Link → Link) :
    (s.modLink l f).tags = s.tags := rfl

@[simp] theorem State.modLink_conts (s : State) (l : Nat) (f : Link → Link) :
    (s.modLink l f).conts = s.conts := rfl

@[simp] theorem State.modLink_nextCont (s : State) (l : Nat) (f : Link → Link) :
    (s.modLink l f).nextCont = s.nextCont := rfl

@[simp] theorem State.modLink_msgs (s : State) (l : Nat) (f : Link → Link) :
    (s.modLink l f).msgs = s.msgs := rfl

@[simp] theorem State.modLink_nextMsg (s : State) (l : Nat) (f : Link → Link) :
    (s.modLink l f).nextMsg = s.nextMsg := rfl

@[simp] theorem State.modLink_chanLock (s : State) (l : Nat) (f : Link → Link) :
    (s.modLink l f).chanLock = s.chanLock := rfl

@[simp] theorem State.modLink_held (s : State) (l : Nat) (f : Link → Link) :
    (s.modLink l f).held = s.held := rfl

@[simp] theorem State.modLink_svc (s : State) (l : Nat) (f : Link → Link) :
    (s.modLink l f).svc = s.svc := rfl

@[simp] theorem State.modLink_dlines (s : State) (l : Nat) (f : Link → Link) :
    (s.modLink l f).dlines = s.dlines := rfl

@[simp] theorem State.modLink_wslReplays (s : State) (l : Nat) (f : Link → Link) :
    (s.modLink l f).wslReplays = s.wslReplays := rfl

@[simp] theorem State.modLink_eth (s : State) (l : Nat) (f : Link → Link) :
    (s.modLink l f).eth = s.eth := rfl

@[simp] theorem State.modLink_out (s : State) (l : Nat) (f : Link → Link) :
    (s.modLink l f).out = s.out := rfl

@[simp] theorem State.modTag_power (s : State) (t : Nat) (f : TagSt → TagSt) :
    (s.modTag t f).power = s.power := rfl

@[simp] theorem State.modTag_ftick (s : State) (t : Nat) (f : TagSt → TagSt) :
    (s.modTag t f).ftick = s.ftick := rfl

@[simp] theorem State.modTag_at (s : State) (t : Nat) (f : TagSt → TagSt) :
    (s.modTag t f).at_ = s.at_ := rfl

@[simp] theorem State.modTag_turns (s : State) (t : Nat) (f : TagSt → TagSt) :
    (s.modTag t f).turns = s.turns := rfl

@[simp] theorem State.modTag_draws (s : State) (t : Nat) (f : TagSt → TagSt) :
    (s.modTag t f).draws = s.draws := rfl

@[simp] theorem State.modTag_mem (s : State) (t : Nat) (f : TagSt → TagSt) :
    (s.modTag t f).mem = s.mem := rfl

@[simp] theorem State.modTag_memBad (s : State) (t : Nat) (f : TagSt → TagSt) :
    (s.modTag t f).memBad = s.memBad := rfl

@[simp] theorem State.modTag_unseen (s : State) (t : Nat) (f : TagSt → TagSt) :
    (s.modTag t f).unseen = s.unseen := rfl

@[simp] theorem State.modTag_missed (s : State) (t : Nat) (f : TagSt → TagSt) :
    (s.modTag t f).missed = s.missed := rfl

@[simp] theorem State.modTag_ws (s : State) (t : Nat) (f : TagSt → TagSt) :
    (s.modTag t f).ws = s.ws := rfl

@[simp] theorem State.modTag_wsBad (s : State) (t : Nat) (f : TagSt → TagSt) :
    (s.modTag t f).wsBad = s.wsBad := rfl

@[simp] theorem State.modTag_wsOpen (s : State) (t : Nat) (f : TagSt → TagSt) :
    (s.modTag t f).wsOpen = s.wsOpen := rfl

@[simp] theorem State.modTag_wsTook (s : State) (t : Nat) (f : TagSt → TagSt) :
    (s.modTag t f).wsTook = s.wsTook := rfl

@[simp] theorem State.modTag_cores (s : State) (t : Nat) (f : TagSt → TagSt) :
    (s.modTag t f).cores = s.cores := rfl

@[simp] theorem State.modTag_hub (s : State) (t : Nat) (f : TagSt → TagSt) :
    (s.modTag t f).hub = s.hub := rfl

@[simp] theorem State.modTag_clusters (s : State) (t : Nat) (f : TagSt → TagSt) :
    (s.modTag t f).clusters = s.clusters := rfl

@[simp] theorem State.modTag_diePtr (s : State) (t : Nat) (f : TagSt → TagSt) :
    (s.modTag t f).diePtr = s.diePtr := rfl

@[simp] theorem State.modTag_lqTurn (s : State) (t : Nat) (f : TagSt → TagSt) :
    (s.modTag t f).lqTurn = s.lqTurn := rfl

@[simp] theorem State.modTag_lqs (s : State) (t : Nat) (f : TagSt → TagSt) :
    (s.modTag t f).lqs = s.lqs := rfl

@[simp] theorem State.modTag_sqs (s : State) (t : Nat) (f : TagSt → TagSt) :
    (s.modTag t f).sqs = s.sqs := rfl

@[simp] theorem State.modTag_tasksMade (s : State) (t : Nat) (f : TagSt → TagSt) :
    (s.modTag t f).tasksMade = s.tasksMade := rfl

@[simp] theorem State.modTag_links (s : State) (t : Nat) (f : TagSt → TagSt) :
    (s.modTag t f).links = s.links := rfl

@[simp] theorem State.modTag_groups (s : State) (t : Nat) (f : TagSt → TagSt) :
    (s.modTag t f).groups = s.groups := rfl

@[simp] theorem State.modTag_conts (s : State) (t : Nat) (f : TagSt → TagSt) :
    (s.modTag t f).conts = s.conts := rfl

@[simp] theorem State.modTag_nextCont (s : State) (t : Nat) (f : TagSt → TagSt) :
    (s.modTag t f).nextCont = s.nextCont := rfl

@[simp] theorem State.modTag_msgs (s : State) (t : Nat) (f : TagSt → TagSt) :
    (s.modTag t f).msgs = s.msgs := rfl

@[simp] theorem State.modTag_nextMsg (s : State) (t : Nat) (f : TagSt → TagSt) :
    (s.modTag t f).nextMsg = s.nextMsg := rfl

@[simp] theorem State.modTag_chanLock (s : State) (t : Nat) (f : TagSt → TagSt) :
    (s.modTag t f).chanLock = s.chanLock := rfl

@[simp] theorem State.modTag_held (s : State) (t : Nat) (f : TagSt → TagSt) :
    (s.modTag t f).held = s.held := rfl

@[simp] theorem State.modTag_svc (s : State) (t : Nat) (f : TagSt → TagSt) :
    (s.modTag t f).svc = s.svc := rfl

@[simp] theorem State.modTag_dlines (s : State) (t : Nat) (f : TagSt → TagSt) :
    (s.modTag t f).dlines = s.dlines := rfl

@[simp] theorem State.modTag_wslReplays (s : State) (t : Nat) (f : TagSt → TagSt) :
    (s.modTag t f).wslReplays = s.wslReplays := rfl

@[simp] theorem State.modTag_eth (s : State) (t : Nat) (f : TagSt → TagSt) :
    (s.modTag t f).eth = s.eth := rfl

@[simp] theorem State.modTag_out (s : State) (t : Nat) (f : TagSt → TagSt) :
    (s.modTag t f).out = s.out := rfl

@[simp] theorem State.atNone_power (s : State) :
    (s.atNone).power = s.power := rfl

@[simp] theorem State.atNone_ftick (s : State) :
    (s.atNone).ftick = s.ftick := rfl

@[simp] theorem State.atNone_turns (s : State) :
    (s.atNone).turns = s.turns := rfl

@[simp] theorem State.atNone_draws (s : State) :
    (s.atNone).draws = s.draws := rfl

@[simp] theorem State.atNone_mem (s : State) :
    (s.atNone).mem = s.mem := rfl

@[simp] theorem State.atNone_memBad (s : State) :
    (s.atNone).memBad = s.memBad := rfl

@[simp] theorem State.atNone_unseen (s : State) :
    (s.atNone).unseen = s.unseen := rfl

@[simp] theorem State.atNone_missed (s : State) :
    (s.atNone).missed = s.missed := rfl

@[simp] theorem State.atNone_ws (s : State) :
    (s.atNone).ws = s.ws := rfl

@[simp] theorem State.atNone_wsBad (s : State) :
    (s.atNone).wsBad = s.wsBad := rfl

@[simp] theorem State.atNone_wsOpen (s : State) :
    (s.atNone).wsOpen = s.wsOpen := rfl

@[simp] theorem State.atNone_wsTook (s : State) :
    (s.atNone).wsTook = s.wsTook := rfl

@[simp] theorem State.atNone_cores (s : State) :
    (s.atNone).cores = s.cores := rfl

@[simp] theorem State.atNone_hub (s : State) :
    (s.atNone).hub = s.hub := rfl

@[simp] theorem State.atNone_clusters (s : State) :
    (s.atNone).clusters = s.clusters := rfl

@[simp] theorem State.atNone_diePtr (s : State) :
    (s.atNone).diePtr = s.diePtr := rfl

@[simp] theorem State.atNone_lqTurn (s : State) :
    (s.atNone).lqTurn = s.lqTurn := rfl

@[simp] theorem State.atNone_lqs (s : State) :
    (s.atNone).lqs = s.lqs := rfl

@[simp] theorem State.atNone_sqs (s : State) :
    (s.atNone).sqs = s.sqs := rfl

@[simp] theorem State.atNone_tasksMade (s : State) :
    (s.atNone).tasksMade = s.tasksMade := rfl

@[simp] theorem State.atNone_links (s : State) :
    (s.atNone).links = s.links := rfl

@[simp] theorem State.atNone_groups (s : State) :
    (s.atNone).groups = s.groups := rfl

@[simp] theorem State.atNone_tags (s : State) :
    (s.atNone).tags = s.tags := rfl

@[simp] theorem State.atNone_conts (s : State) :
    (s.atNone).conts = s.conts := rfl

@[simp] theorem State.atNone_nextCont (s : State) :
    (s.atNone).nextCont = s.nextCont := rfl

@[simp] theorem State.atNone_msgs (s : State) :
    (s.atNone).msgs = s.msgs := rfl

@[simp] theorem State.atNone_nextMsg (s : State) :
    (s.atNone).nextMsg = s.nextMsg := rfl

@[simp] theorem State.atNone_chanLock (s : State) :
    (s.atNone).chanLock = s.chanLock := rfl

@[simp] theorem State.atNone_held (s : State) :
    (s.atNone).held = s.held := rfl

@[simp] theorem State.atNone_svc (s : State) :
    (s.atNone).svc = s.svc := rfl

@[simp] theorem State.atNone_dlines (s : State) :
    (s.atNone).dlines = s.dlines := rfl

@[simp] theorem State.atNone_wslReplays (s : State) :
    (s.atNone).wslReplays = s.wslReplays := rfl

@[simp] theorem State.atNone_eth (s : State) :
    (s.atNone).eth = s.eth := rfl

@[simp] theorem State.atNone_out (s : State) :
    (s.atNone).out = s.out := rfl

@[simp] theorem State.atEngine_power (s : State) (c : Nat) (e : Engine) :
    (s.atEngine c e).power = s.power := rfl

@[simp] theorem State.atEngine_ftick (s : State) (c : Nat) (e : Engine) :
    (s.atEngine c e).ftick = s.ftick := rfl

@[simp] theorem State.atEngine_turns (s : State) (c : Nat) (e : Engine) :
    (s.atEngine c e).turns = s.turns := rfl

@[simp] theorem State.atEngine_draws (s : State) (c : Nat) (e : Engine) :
    (s.atEngine c e).draws = s.draws := rfl

@[simp] theorem State.atEngine_mem (s : State) (c : Nat) (e : Engine) :
    (s.atEngine c e).mem = s.mem := rfl

@[simp] theorem State.atEngine_memBad (s : State) (c : Nat) (e : Engine) :
    (s.atEngine c e).memBad = s.memBad := rfl

@[simp] theorem State.atEngine_unseen (s : State) (c : Nat) (e : Engine) :
    (s.atEngine c e).unseen = s.unseen := rfl

@[simp] theorem State.atEngine_missed (s : State) (c : Nat) (e : Engine) :
    (s.atEngine c e).missed = s.missed := rfl

@[simp] theorem State.atEngine_ws (s : State) (c : Nat) (e : Engine) :
    (s.atEngine c e).ws = s.ws := rfl

@[simp] theorem State.atEngine_wsBad (s : State) (c : Nat) (e : Engine) :
    (s.atEngine c e).wsBad = s.wsBad := rfl

@[simp] theorem State.atEngine_wsOpen (s : State) (c : Nat) (e : Engine) :
    (s.atEngine c e).wsOpen = s.wsOpen := rfl

@[simp] theorem State.atEngine_wsTook (s : State) (c : Nat) (e : Engine) :
    (s.atEngine c e).wsTook = s.wsTook := rfl

@[simp] theorem State.atEngine_cores (s : State) (c : Nat) (e : Engine) :
    (s.atEngine c e).cores = s.cores := rfl

@[simp] theorem State.atEngine_hub (s : State) (c : Nat) (e : Engine) :
    (s.atEngine c e).hub = s.hub := rfl

@[simp] theorem State.atEngine_clusters (s : State) (c : Nat) (e : Engine) :
    (s.atEngine c e).clusters = s.clusters := rfl

@[simp] theorem State.atEngine_diePtr (s : State) (c : Nat) (e : Engine) :
    (s.atEngine c e).diePtr = s.diePtr := rfl

@[simp] theorem State.atEngine_lqTurn (s : State) (c : Nat) (e : Engine) :
    (s.atEngine c e).lqTurn = s.lqTurn := rfl

@[simp] theorem State.atEngine_lqs (s : State) (c : Nat) (e : Engine) :
    (s.atEngine c e).lqs = s.lqs := rfl

@[simp] theorem State.atEngine_sqs (s : State) (c : Nat) (e : Engine) :
    (s.atEngine c e).sqs = s.sqs := rfl

@[simp] theorem State.atEngine_tasksMade (s : State) (c : Nat) (e : Engine) :
    (s.atEngine c e).tasksMade = s.tasksMade := rfl

@[simp] theorem State.atEngine_links (s : State) (c : Nat) (e : Engine) :
    (s.atEngine c e).links = s.links := rfl

@[simp] theorem State.atEngine_groups (s : State) (c : Nat) (e : Engine) :
    (s.atEngine c e).groups = s.groups := rfl

@[simp] theorem State.atEngine_tags (s : State) (c : Nat) (e : Engine) :
    (s.atEngine c e).tags = s.tags := rfl

@[simp] theorem State.atEngine_conts (s : State) (c : Nat) (e : Engine) :
    (s.atEngine c e).conts = s.conts := rfl

@[simp] theorem State.atEngine_nextCont (s : State) (c : Nat) (e : Engine) :
    (s.atEngine c e).nextCont = s.nextCont := rfl

@[simp] theorem State.atEngine_msgs (s : State) (c : Nat) (e : Engine) :
    (s.atEngine c e).msgs = s.msgs := rfl

@[simp] theorem State.atEngine_nextMsg (s : State) (c : Nat) (e : Engine) :
    (s.atEngine c e).nextMsg = s.nextMsg := rfl

@[simp] theorem State.atEngine_chanLock (s : State) (c : Nat) (e : Engine) :
    (s.atEngine c e).chanLock = s.chanLock := rfl

@[simp] theorem State.atEngine_held (s : State) (c : Nat) (e : Engine) :
    (s.atEngine c e).held = s.held := rfl

@[simp] theorem State.atEngine_svc (s : State) (c : Nat) (e : Engine) :
    (s.atEngine c e).svc = s.svc := rfl

@[simp] theorem State.atEngine_dlines (s : State) (c : Nat) (e : Engine) :
    (s.atEngine c e).dlines = s.dlines := rfl

@[simp] theorem State.atEngine_wslReplays (s : State) (c : Nat) (e : Engine) :
    (s.atEngine c e).wslReplays = s.wslReplays := rfl

@[simp] theorem State.atEngine_eth (s : State) (c : Nat) (e : Engine) :
    (s.atEngine c e).eth = s.eth := rfl

@[simp] theorem State.atEngine_out (s : State) (c : Nat) (e : Engine) :
    (s.atEngine c e).out = s.out := rfl

@[simp] theorem State.seqTake_power (s : State) (c k : Nat) (w : BitVec 32) :
    (s.seqTake c k w).power = s.power := rfl

@[simp] theorem State.seqTake_ftick (s : State) (c k : Nat) (w : BitVec 32) :
    (s.seqTake c k w).ftick = s.ftick := rfl

@[simp] theorem State.seqTake_turns (s : State) (c k : Nat) (w : BitVec 32) :
    (s.seqTake c k w).turns = s.turns := rfl

@[simp] theorem State.seqTake_draws (s : State) (c k : Nat) (w : BitVec 32) :
    (s.seqTake c k w).draws = s.draws := rfl

@[simp] theorem State.seqTake_mem (s : State) (c k : Nat) (w : BitVec 32) :
    (s.seqTake c k w).mem = s.mem := rfl

@[simp] theorem State.seqTake_memBad (s : State) (c k : Nat) (w : BitVec 32) :
    (s.seqTake c k w).memBad = s.memBad := rfl

@[simp] theorem State.seqTake_unseen (s : State) (c k : Nat) (w : BitVec 32) :
    (s.seqTake c k w).unseen = s.unseen := rfl

@[simp] theorem State.seqTake_missed (s : State) (c k : Nat) (w : BitVec 32) :
    (s.seqTake c k w).missed = s.missed := rfl

@[simp] theorem State.seqTake_ws (s : State) (c k : Nat) (w : BitVec 32) :
    (s.seqTake c k w).ws = s.ws := rfl

@[simp] theorem State.seqTake_wsBad (s : State) (c k : Nat) (w : BitVec 32) :
    (s.seqTake c k w).wsBad = s.wsBad := rfl

@[simp] theorem State.seqTake_wsOpen (s : State) (c k : Nat) (w : BitVec 32) :
    (s.seqTake c k w).wsOpen = s.wsOpen := rfl

@[simp] theorem State.seqTake_wsTook (s : State) (c k : Nat) (w : BitVec 32) :
    (s.seqTake c k w).wsTook = s.wsTook := rfl

@[simp] theorem State.seqTake_hub (s : State) (c k : Nat) (w : BitVec 32) :
    (s.seqTake c k w).hub = s.hub := rfl

@[simp] theorem State.seqTake_clusters (s : State) (c k : Nat) (w : BitVec 32) :
    (s.seqTake c k w).clusters = s.clusters := rfl

@[simp] theorem State.seqTake_diePtr (s : State) (c k : Nat) (w : BitVec 32) :
    (s.seqTake c k w).diePtr = s.diePtr := rfl

@[simp] theorem State.seqTake_lqTurn (s : State) (c k : Nat) (w : BitVec 32) :
    (s.seqTake c k w).lqTurn = s.lqTurn := rfl

@[simp] theorem State.seqTake_lqs (s : State) (c k : Nat) (w : BitVec 32) :
    (s.seqTake c k w).lqs = s.lqs := rfl

@[simp] theorem State.seqTake_sqs (s : State) (c k : Nat) (w : BitVec 32) :
    (s.seqTake c k w).sqs = s.sqs := rfl

@[simp] theorem State.seqTake_tasksMade (s : State) (c k : Nat) (w : BitVec 32) :
    (s.seqTake c k w).tasksMade = s.tasksMade := rfl

@[simp] theorem State.seqTake_links (s : State) (c k : Nat) (w : BitVec 32) :
    (s.seqTake c k w).links = s.links := rfl

@[simp] theorem State.seqTake_groups (s : State) (c k : Nat) (w : BitVec 32) :
    (s.seqTake c k w).groups = s.groups := rfl

@[simp] theorem State.seqTake_tags (s : State) (c k : Nat) (w : BitVec 32) :
    (s.seqTake c k w).tags = s.tags := rfl

@[simp] theorem State.seqTake_conts (s : State) (c k : Nat) (w : BitVec 32) :
    (s.seqTake c k w).conts = s.conts := rfl

@[simp] theorem State.seqTake_nextCont (s : State) (c k : Nat) (w : BitVec 32) :
    (s.seqTake c k w).nextCont = s.nextCont := rfl

@[simp] theorem State.seqTake_msgs (s : State) (c k : Nat) (w : BitVec 32) :
    (s.seqTake c k w).msgs = s.msgs := rfl

@[simp] theorem State.seqTake_nextMsg (s : State) (c k : Nat) (w : BitVec 32) :
    (s.seqTake c k w).nextMsg = s.nextMsg := rfl

@[simp] theorem State.seqTake_chanLock (s : State) (c k : Nat) (w : BitVec 32) :
    (s.seqTake c k w).chanLock = s.chanLock := rfl

@[simp] theorem State.seqTake_held (s : State) (c k : Nat) (w : BitVec 32) :
    (s.seqTake c k w).held = s.held := rfl

@[simp] theorem State.seqTake_svc (s : State) (c k : Nat) (w : BitVec 32) :
    (s.seqTake c k w).svc = s.svc := rfl

@[simp] theorem State.seqTake_dlines (s : State) (c k : Nat) (w : BitVec 32) :
    (s.seqTake c k w).dlines = s.dlines := rfl

@[simp] theorem State.seqTake_wslReplays (s : State) (c k : Nat) (w : BitVec 32) :
    (s.seqTake c k w).wslReplays = s.wslReplays := rfl

@[simp] theorem State.seqTake_eth (s : State) (c k : Nat) (w : BitVec 32) :
    (s.seqTake c k w).eth = s.eth := rfl

@[simp] theorem State.seqTake_out (s : State) (c k : Nat) (w : BitVec 32) :
    (s.seqTake c k w).out = s.out := rfl

@[simp] theorem State.seqRetry_power (s : State) (c k : Nat) :
    (s.seqRetry c k).power = s.power := rfl

@[simp] theorem State.seqRetry_ftick (s : State) (c k : Nat) :
    (s.seqRetry c k).ftick = s.ftick := rfl

@[simp] theorem State.seqRetry_turns (s : State) (c k : Nat) :
    (s.seqRetry c k).turns = s.turns := rfl

@[simp] theorem State.seqRetry_draws (s : State) (c k : Nat) :
    (s.seqRetry c k).draws = s.draws := rfl

@[simp] theorem State.seqRetry_mem (s : State) (c k : Nat) :
    (s.seqRetry c k).mem = s.mem := rfl

@[simp] theorem State.seqRetry_memBad (s : State) (c k : Nat) :
    (s.seqRetry c k).memBad = s.memBad := rfl

@[simp] theorem State.seqRetry_unseen (s : State) (c k : Nat) :
    (s.seqRetry c k).unseen = s.unseen := rfl

@[simp] theorem State.seqRetry_missed (s : State) (c k : Nat) :
    (s.seqRetry c k).missed = s.missed := rfl

@[simp] theorem State.seqRetry_ws (s : State) (c k : Nat) :
    (s.seqRetry c k).ws = s.ws := rfl

@[simp] theorem State.seqRetry_wsBad (s : State) (c k : Nat) :
    (s.seqRetry c k).wsBad = s.wsBad := rfl

@[simp] theorem State.seqRetry_wsOpen (s : State) (c k : Nat) :
    (s.seqRetry c k).wsOpen = s.wsOpen := rfl

@[simp] theorem State.seqRetry_wsTook (s : State) (c k : Nat) :
    (s.seqRetry c k).wsTook = s.wsTook := rfl

@[simp] theorem State.seqRetry_hub (s : State) (c k : Nat) :
    (s.seqRetry c k).hub = s.hub := rfl

@[simp] theorem State.seqRetry_clusters (s : State) (c k : Nat) :
    (s.seqRetry c k).clusters = s.clusters := rfl

@[simp] theorem State.seqRetry_diePtr (s : State) (c k : Nat) :
    (s.seqRetry c k).diePtr = s.diePtr := rfl

@[simp] theorem State.seqRetry_lqTurn (s : State) (c k : Nat) :
    (s.seqRetry c k).lqTurn = s.lqTurn := rfl

@[simp] theorem State.seqRetry_lqs (s : State) (c k : Nat) :
    (s.seqRetry c k).lqs = s.lqs := rfl

@[simp] theorem State.seqRetry_sqs (s : State) (c k : Nat) :
    (s.seqRetry c k).sqs = s.sqs := rfl

@[simp] theorem State.seqRetry_tasksMade (s : State) (c k : Nat) :
    (s.seqRetry c k).tasksMade = s.tasksMade := rfl

@[simp] theorem State.seqRetry_links (s : State) (c k : Nat) :
    (s.seqRetry c k).links = s.links := rfl

@[simp] theorem State.seqRetry_groups (s : State) (c k : Nat) :
    (s.seqRetry c k).groups = s.groups := rfl

@[simp] theorem State.seqRetry_tags (s : State) (c k : Nat) :
    (s.seqRetry c k).tags = s.tags := rfl

@[simp] theorem State.seqRetry_conts (s : State) (c k : Nat) :
    (s.seqRetry c k).conts = s.conts := rfl

@[simp] theorem State.seqRetry_nextCont (s : State) (c k : Nat) :
    (s.seqRetry c k).nextCont = s.nextCont := rfl

@[simp] theorem State.seqRetry_msgs (s : State) (c k : Nat) :
    (s.seqRetry c k).msgs = s.msgs := rfl

@[simp] theorem State.seqRetry_nextMsg (s : State) (c k : Nat) :
    (s.seqRetry c k).nextMsg = s.nextMsg := rfl

@[simp] theorem State.seqRetry_chanLock (s : State) (c k : Nat) :
    (s.seqRetry c k).chanLock = s.chanLock := rfl

@[simp] theorem State.seqRetry_held (s : State) (c k : Nat) :
    (s.seqRetry c k).held = s.held := rfl

@[simp] theorem State.seqRetry_svc (s : State) (c k : Nat) :
    (s.seqRetry c k).svc = s.svc := rfl

@[simp] theorem State.seqRetry_dlines (s : State) (c k : Nat) :
    (s.seqRetry c k).dlines = s.dlines := rfl

@[simp] theorem State.seqRetry_wslReplays (s : State) (c k : Nat) :
    (s.seqRetry c k).wslReplays = s.wslReplays := rfl

@[simp] theorem State.seqRetry_eth (s : State) (c k : Nat) :
    (s.seqRetry c k).eth = s.eth := rfl

@[simp] theorem State.seqRetry_out (s : State) (c k : Nat) :
    (s.seqRetry c k).out = s.out := rfl

@[simp] theorem State.wake_power (s : State) (scratch : Bool) (core a n : Nat) :
    (s.wake scratch core a n).power = s.power := by
  unfold State.wake; split <;> rfl

@[simp] theorem State.wake_ftick (s : State) (scratch : Bool) (core a n : Nat) :
    (s.wake scratch core a n).ftick = s.ftick := by
  unfold State.wake; split <;> rfl

@[simp] theorem State.wake_at (s : State) (scratch : Bool) (core a n : Nat) :
    (s.wake scratch core a n).at_ = s.at_ := by
  unfold State.wake; split <;> rfl

@[simp] theorem State.wake_turns (s : State) (scratch : Bool) (core a n : Nat) :
    (s.wake scratch core a n).turns = s.turns := by
  unfold State.wake; split <;> rfl

@[simp] theorem State.wake_draws (s : State) (scratch : Bool) (core a n : Nat) :
    (s.wake scratch core a n).draws = s.draws := by
  unfold State.wake; split <;> rfl

@[simp] theorem State.wake_mem (s : State) (scratch : Bool) (core a n : Nat) :
    (s.wake scratch core a n).mem = s.mem := by
  unfold State.wake; split <;> rfl

@[simp] theorem State.wake_memBad (s : State) (scratch : Bool) (core a n : Nat) :
    (s.wake scratch core a n).memBad = s.memBad := by
  unfold State.wake; split <;> rfl

@[simp] theorem State.wake_unseen (s : State) (scratch : Bool) (core a n : Nat) :
    (s.wake scratch core a n).unseen = s.unseen := by
  unfold State.wake; split <;> rfl

@[simp] theorem State.wake_missed (s : State) (scratch : Bool) (core a n : Nat) :
    (s.wake scratch core a n).missed = s.missed := by
  unfold State.wake; split <;> rfl

@[simp] theorem State.wake_ws (s : State) (scratch : Bool) (core a n : Nat) :
    (s.wake scratch core a n).ws = s.ws := by
  unfold State.wake; split <;> rfl

@[simp] theorem State.wake_wsBad (s : State) (scratch : Bool) (core a n : Nat) :
    (s.wake scratch core a n).wsBad = s.wsBad := by
  unfold State.wake; split <;> rfl

@[simp] theorem State.wake_wsOpen (s : State) (scratch : Bool) (core a n : Nat) :
    (s.wake scratch core a n).wsOpen = s.wsOpen := by
  unfold State.wake; split <;> rfl

@[simp] theorem State.wake_wsTook (s : State) (scratch : Bool) (core a n : Nat) :
    (s.wake scratch core a n).wsTook = s.wsTook := by
  unfold State.wake; split <;> rfl

@[simp] theorem State.wake_cores (s : State) (scratch : Bool) (core a n : Nat) :
    (s.wake scratch core a n).cores = s.cores := by
  unfold State.wake; split <;> rfl

@[simp] theorem State.wake_hub (s : State) (scratch : Bool) (core a n : Nat) :
    (s.wake scratch core a n).hub = s.hub := by
  unfold State.wake; split <;> rfl

@[simp] theorem State.wake_clusters (s : State) (scratch : Bool) (core a n : Nat) :
    (s.wake scratch core a n).clusters = s.clusters := by
  unfold State.wake; split <;> rfl

@[simp] theorem State.wake_diePtr (s : State) (scratch : Bool) (core a n : Nat) :
    (s.wake scratch core a n).diePtr = s.diePtr := by
  unfold State.wake; split <;> rfl

@[simp] theorem State.wake_lqTurn (s : State) (scratch : Bool) (core a n : Nat) :
    (s.wake scratch core a n).lqTurn = s.lqTurn := by
  unfold State.wake; split <;> rfl

@[simp] theorem State.wake_lqs (s : State) (scratch : Bool) (core a n : Nat) :
    (s.wake scratch core a n).lqs = s.lqs := by
  unfold State.wake; split <;> rfl

@[simp] theorem State.wake_sqs (s : State) (scratch : Bool) (core a n : Nat) :
    (s.wake scratch core a n).sqs = s.sqs := by
  unfold State.wake; split <;> rfl

@[simp] theorem State.wake_tasksMade (s : State) (scratch : Bool) (core a n : Nat) :
    (s.wake scratch core a n).tasksMade = s.tasksMade := by
  unfold State.wake; split <;> rfl

@[simp] theorem State.wake_links (s : State) (scratch : Bool) (core a n : Nat) :
    (s.wake scratch core a n).links = s.links := by
  unfold State.wake; split <;> rfl

@[simp] theorem State.wake_groups (s : State) (scratch : Bool) (core a n : Nat) :
    (s.wake scratch core a n).groups = s.groups := by
  unfold State.wake; split <;> rfl

@[simp] theorem State.wake_tags (s : State) (scratch : Bool) (core a n : Nat) :
    (s.wake scratch core a n).tags = s.tags := by
  unfold State.wake; split <;> rfl

@[simp] theorem State.wake_nextCont (s : State) (scratch : Bool) (core a n : Nat) :
    (s.wake scratch core a n).nextCont = s.nextCont := by
  unfold State.wake; split <;> rfl

@[simp] theorem State.wake_msgs (s : State) (scratch : Bool) (core a n : Nat) :
    (s.wake scratch core a n).msgs = s.msgs := by
  unfold State.wake; split <;> rfl

@[simp] theorem State.wake_nextMsg (s : State) (scratch : Bool) (core a n : Nat) :
    (s.wake scratch core a n).nextMsg = s.nextMsg := by
  unfold State.wake; split <;> rfl

@[simp] theorem State.wake_chanLock (s : State) (scratch : Bool) (core a n : Nat) :
    (s.wake scratch core a n).chanLock = s.chanLock := by
  unfold State.wake; split <;> rfl

@[simp] theorem State.wake_held (s : State) (scratch : Bool) (core a n : Nat) :
    (s.wake scratch core a n).held = s.held := by
  unfold State.wake; split <;> rfl

@[simp] theorem State.wake_svc (s : State) (scratch : Bool) (core a n : Nat) :
    (s.wake scratch core a n).svc = s.svc := by
  unfold State.wake; split <;> rfl

@[simp] theorem State.wake_dlines (s : State) (scratch : Bool) (core a n : Nat) :
    (s.wake scratch core a n).dlines = s.dlines := by
  unfold State.wake; split <;> rfl

@[simp] theorem State.wake_wslReplays (s : State) (scratch : Bool) (core a n : Nat) :
    (s.wake scratch core a n).wslReplays = s.wslReplays := by
  unfold State.wake; split <;> rfl

@[simp] theorem State.wake_eth (s : State) (scratch : Bool) (core a n : Nat) :
    (s.wake scratch core a n).eth = s.eth := by
  unfold State.wake; split <;> rfl

@[simp] theorem State.wake_out (s : State) (scratch : Bool) (core a n : Nat) :
    (s.wake scratch core a n).out = s.out := by
  unfold State.wake; split <;> rfl

/-! ## Updates of a core -/

@[simp] theorem CoreSt.setCtx_p (k : CoreSt) (i : Nat) (v : Ctx) :
    (k.setCtx i v).p = k.p := rfl

@[simp] theorem CoreSt.setCtx_owner (k : CoreSt) (i : Nat) (v : Ctx) :
    (k.setCtx i v).owner = k.owner := rfl

@[simp] theorem CoreSt.setCtx_own (k : CoreSt) (i : Nat) (v : Ctx) :
    (k.setCtx i v).own = k.own := rfl

@[simp] theorem CoreSt.setCtx_rr (k : CoreSt) (i : Nat) (v : Ctx) :
    (k.setCtx i v).rr = k.rr := rfl

@[simp] theorem CoreSt.setCtx_waitNo (k : CoreSt) (i : Nat) (v : Ctx) :
    (k.setCtx i v).waitNo = k.waitNo := rfl

@[simp] theorem CoreSt.setCtx_stall (k : CoreSt) (i : Nat) (v : Ctx) :
    (k.setCtx i v).stall = k.stall := rfl

@[simp] theorem CoreSt.setCtx_owed (k : CoreSt) (i : Nat) (v : Ctx) :
    (k.setCtx i v).owed = k.owed := rfl

@[simp] theorem CoreSt.setCtx_segLaps (k : CoreSt) (i : Nat) (v : Ctx) :
    (k.setCtx i v).segLaps = k.segLaps := rfl

@[simp] theorem CoreSt.setCtx_holdFault (k : CoreSt) (i : Nat) (v : Ctx) :
    (k.setCtx i v).holdFault = k.holdFault := rfl

@[simp] theorem CoreSt.setCtx_stop (k : CoreSt) (i : Nat) (v : Ctx) :
    (k.setCtx i v).stop = k.stop := rfl

@[simp] theorem CoreSt.setCtx_repairDue (k : CoreSt) (i : Nat) (v : Ctx) :
    (k.setCtx i v).repairDue = k.repairDue := rfl

@[simp] theorem CoreSt.setCtx_repair (k : CoreSt) (i : Nat) (v : Ctx) :
    (k.setCtx i v).repair = k.repair := rfl

@[simp] theorem CoreSt.setCtx_release (k : CoreSt) (i : Nat) (v : Ctx) :
    (k.setCtx i v).release = k.release := rfl

@[simp] theorem CoreSt.setCtx_sp (k : CoreSt) (i : Nat) (v : Ctx) :
    (k.setCtx i v).sp = k.sp := rfl

@[simp] theorem CoreSt.setCtx_spBad (k : CoreSt) (i : Nat) (v : Ctx) :
    (k.setCtx i v).spBad = k.spBad := rfl

@[simp] theorem CoreSt.setCtx_pend (k : CoreSt) (i : Nat) (v : Ctx) :
    (k.setCtx i v).pend = k.pend := rfl

@[simp] theorem CoreSt.setCtx_pendMode (k : CoreSt) (i : Nat) (v : Ctx) :
    (k.setCtx i v).pendMode = k.pendMode := rfl

@[simp] theorem CoreSt.setCtx_noslot (k : CoreSt) (i : Nat) (v : Ctx) :
    (k.setCtx i v).noslot = k.noslot := rfl

@[simp] theorem CoreSt.setCtx_uce (k : CoreSt) (i : Nat) (v : Ctx) :
    (k.setCtx i v).uce = k.uce := rfl

@[simp] theorem CoreSt.setCtx_bstall (k : CoreSt) (i : Nat) (v : Ctx) :
    (k.setCtx i v).bstall = k.bstall := rfl

@[simp] theorem CoreSt.setCtx_chwp (k : CoreSt) (i : Nat) (v : Ctx) :
    (k.setCtx i v).chwp = k.chwp := rfl

@[simp] theorem CoreSt.setCtx_bursts (k : CoreSt) (i : Nat) (v : Ctx) :
    (k.setCtx i v).bursts = k.bursts := rfl

@[simp] theorem CoreSt.setCtx_beats (k : CoreSt) (i : Nat) (v : Ctx) :
    (k.setCtx i v).beats = k.beats := rfl

@[simp] theorem CoreSt.setCtx_jobs (k : CoreSt) (i : Nat) (v : Ctx) :
    (k.setCtx i v).jobs = k.jobs := rfl

@[simp] theorem CoreSt.setCtx_stages (k : CoreSt) (i : Nat) (v : Ctx) :
    (k.setCtx i v).stages = k.stages := rfl

@[simp] theorem CoreSt.setCtx_nextJob (k : CoreSt) (i : Nat) (v : Ctx) :
    (k.setCtx i v).nextJob = k.nextJob := rfl

@[simp] theorem CoreSt.setCtx_forkOrder (k : CoreSt) (i : Nat) (v : Ctx) :
    (k.setCtx i v).forkOrder = k.forkOrder := rfl

@[simp] theorem CoreSt.setCtx_colLast (k : CoreSt) (i : Nat) (v : Ctx) :
    (k.setCtx i v).colLast = k.colLast := rfl

@[simp] theorem CoreSt.setCtx_colCount (k : CoreSt) (i : Nat) (v : Ctx) :
    (k.setCtx i v).colCount = k.colCount := rfl

@[simp] theorem CoreSt.setCtx_ctrap (k : CoreSt) (i : Nat) (v : Ctx) :
    (k.setCtx i v).ctrap = k.ctrap := rfl

@[simp] theorem CoreSt.setCtx_rsSpill (k : CoreSt) (i : Nat) (v : Ctx) :
    (k.setCtx i v).rsSpill = k.rsSpill := rfl

@[simp] theorem CoreSt.setCtx_rsRefill (k : CoreSt) (i : Nat) (v : Ctx) :
    (k.setCtx i v).rsRefill = k.rsRefill := rfl

@[simp] theorem CoreSt.setCtx_rsSlap (k : CoreSt) (i : Nat) (v : Ctx) :
    (k.setCtx i v).rsSlap = k.rsSlap := rfl

@[simp] theorem CoreSt.setCtx_mxDrop (k : CoreSt) (i : Nat) (v : Ctx) :
    (k.setCtx i v).mxDrop = k.mxDrop := rfl

@[simp] theorem CoreSt.setCtx_mxReplay (k : CoreSt) (i : Nat) (v : Ctx) :
    (k.setCtx i v).mxReplay = k.mxReplay := rfl

@[simp] theorem CoreSt.setCtx_void (k : CoreSt) (i : Nat) (v : Ctx) :
    (k.setCtx i v).void = k.void := rfl

@[simp] theorem CoreSt.setCtx_segOk (k : CoreSt) (i : Nat) (v : Ctx) :
    (k.setCtx i v).segOk = k.segOk := rfl

@[simp] theorem CoreSt.setCtx_segTrap (k : CoreSt) (i : Nat) (v : Ctx) :
    (k.setCtx i v).segTrap = k.segTrap := rfl

@[simp] theorem CoreSt.setCtx_lapCount (k : CoreSt) (i : Nat) (v : Ctx) :
    (k.setCtx i v).lapCount = k.lapCount := rfl

@[simp] theorem CoreSt.setCtx_tt (k : CoreSt) (i : Nat) (v : Ctx) :
    (k.setCtx i v).tt = k.tt := rfl

@[simp] theorem CoreSt.setCtx_dcache (k : CoreSt) (i : Nat) (v : Ctx) :
    (k.setCtx i v).dcache = k.dcache := rfl

@[simp] theorem CoreSt.setCtx_dstale (k : CoreSt) (i : Nat) (v : Ctx) :
    (k.setCtx i v).dstale = k.dstale := rfl

@[simp] theorem CoreSt.setCtx_icache (k : CoreSt) (i : Nat) (v : Ctx) :
    (k.setCtx i v).icache = k.icache := rfl

@[simp] theorem CoreSt.setCtx_posted (k : CoreSt) (i : Nat) (v : Ctx) :
    (k.setCtx i v).posted = k.posted := rfl

@[simp] theorem CoreSt.setCtx_faults (k : CoreSt) (i : Nat) (v : Ctx) :
    (k.setCtx i v).faults = k.faults := rfl

@[simp] theorem CoreSt.setCtx_kept (k : CoreSt) (i : Nat) (v : Ctx) :
    (k.setCtx i v).kept = k.kept := rfl

@[simp] theorem CoreSt.setCtx_taskQ (k : CoreSt) (i : Nat) (v : Ctx) :
    (k.setCtx i v).taskQ = k.taskQ := rfl

@[simp] theorem CoreSt.setCtx_qhEn (k : CoreSt) (i : Nat) (v : Ctx) :
    (k.setCtx i v).qhEn = k.qhEn := rfl

@[simp] theorem CoreSt.setCtx_qhFrz (k : CoreSt) (i : Nat) (v : Ctx) :
    (k.setCtx i v).qhFrz = k.qhFrz := rfl

@[simp] theorem CoreSt.setCtx_qhIdx (k : CoreSt) (i : Nat) (v : Ctx) :
    (k.setCtx i v).qhIdx = k.qhIdx := rfl

@[simp] theorem CoreSt.setCtx_qh (k : CoreSt) (i : Nat) (v : Ctx) :
    (k.setCtx i v).qh = k.qh := rfl

@[simp] theorem CoreSt.setCtx_trEn (k : CoreSt) (i : Nat) (v : Ctx) :
    (k.setCtx i v).trEn = k.trEn := rfl

@[simp] theorem CoreSt.setCtx_trAct (k : CoreSt) (i : Nat) (v : Ctx) :
    (k.setCtx i v).trAct = k.trAct := rfl

@[simp] theorem CoreSt.setCtx_trWrap (k : CoreSt) (i : Nat) (v : Ctx) :
    (k.setCtx i v).trWrap = k.trWrap := rfl

@[simp] theorem CoreSt.setCtx_trace (k : CoreSt) (i : Nat) (v : Ctx) :
    (k.setCtx i v).trace = k.trace := rfl

@[simp] theorem CoreSt.setCtx_trStart (k : CoreSt) (i : Nat) (v : Ctx) :
    (k.setCtx i v).trStart = k.trStart := rfl

@[simp] theorem CoreSt.setCtx_trStop (k : CoreSt) (i : Nat) (v : Ctx) :
    (k.setCtx i v).trStop = k.trStop := rfl

@[simp] theorem CoreSt.setCtx_trRd (k : CoreSt) (i : Nat) (v : Ctx) :
    (k.setCtx i v).trRd = k.trRd := rfl

@[simp] theorem CoreSt.setCtx_cyc (k : CoreSt) (i : Nat) (v : Ctx) :
    (k.setCtx i v).cyc = k.cyc := rfl

@[simp] theorem CoreSt.setCtx_dbg (k : CoreSt) (i : Nat) (v : Ctx) :
    (k.setCtx i v).dbg = k.dbg := rfl

@[simp] theorem CoreSt.setCtx_move (k : CoreSt) (i : Nat) (v : Ctx) :
    (k.setCtx i v).move = k.move := rfl

@[simp] theorem CoreSt.setCtx_swap (k : CoreSt) (i : Nat) (v : Ctx) :
    (k.setCtx i v).swap = k.swap := rfl

@[simp] theorem CoreSt.setCtx_inService (k : CoreSt) (i : Nat) (v : Ctx) :
    (k.setCtx i v).inService = k.inService := rfl

@[simp] theorem CoreSt.modOwn_p (k : CoreSt) (f : Own → Own) :
    (k.modOwn f).p = k.p := rfl

@[simp] theorem CoreSt.modOwn_owner (k : CoreSt) (f : Own → Own) :
    (k.modOwn f).owner = k.owner := rfl

@[simp] theorem CoreSt.modOwn_ctxs (k : CoreSt) (f : Own → Own) :
    (k.modOwn f).ctxs = k.ctxs := rfl

@[simp] theorem CoreSt.modOwn_rr (k : CoreSt) (f : Own → Own) :
    (k.modOwn f).rr = k.rr := rfl

@[simp] theorem CoreSt.modOwn_waitNo (k : CoreSt) (f : Own → Own) :
    (k.modOwn f).waitNo = k.waitNo := rfl

@[simp] theorem CoreSt.modOwn_stall (k : CoreSt) (f : Own → Own) :
    (k.modOwn f).stall = k.stall := rfl

@[simp] theorem CoreSt.modOwn_owed (k : CoreSt) (f : Own → Own) :
    (k.modOwn f).owed = k.owed := rfl

@[simp] theorem CoreSt.modOwn_segLaps (k : CoreSt) (f : Own → Own) :
    (k.modOwn f).segLaps = k.segLaps := rfl

@[simp] theorem CoreSt.modOwn_holdFault (k : CoreSt) (f : Own → Own) :
    (k.modOwn f).holdFault = k.holdFault := rfl

@[simp] theorem CoreSt.modOwn_stop (k : CoreSt) (f : Own → Own) :
    (k.modOwn f).stop = k.stop := rfl

@[simp] theorem CoreSt.modOwn_repairDue (k : CoreSt) (f : Own → Own) :
    (k.modOwn f).repairDue = k.repairDue := rfl

@[simp] theorem CoreSt.modOwn_repair (k : CoreSt) (f : Own → Own) :
    (k.modOwn f).repair = k.repair := rfl

@[simp] theorem CoreSt.modOwn_release (k : CoreSt) (f : Own → Own) :
    (k.modOwn f).release = k.release := rfl

@[simp] theorem CoreSt.modOwn_sp (k : CoreSt) (f : Own → Own) :
    (k.modOwn f).sp = k.sp := rfl

@[simp] theorem CoreSt.modOwn_spBad (k : CoreSt) (f : Own → Own) :
    (k.modOwn f).spBad = k.spBad := rfl

@[simp] theorem CoreSt.modOwn_pend (k : CoreSt) (f : Own → Own) :
    (k.modOwn f).pend = k.pend := rfl

@[simp] theorem CoreSt.modOwn_pendMode (k : CoreSt) (f : Own → Own) :
    (k.modOwn f).pendMode = k.pendMode := rfl

@[simp] theorem CoreSt.modOwn_noslot (k : CoreSt) (f : Own → Own) :
    (k.modOwn f).noslot = k.noslot := rfl

@[simp] theorem CoreSt.modOwn_uce (k : CoreSt) (f : Own → Own) :
    (k.modOwn f).uce = k.uce := rfl

@[simp] theorem CoreSt.modOwn_bstall (k : CoreSt) (f : Own → Own) :
    (k.modOwn f).bstall = k.bstall := rfl

@[simp] theorem CoreSt.modOwn_chwp (k : CoreSt) (f : Own → Own) :
    (k.modOwn f).chwp = k.chwp := rfl

@[simp] theorem CoreSt.modOwn_bursts (k : CoreSt) (f : Own → Own) :
    (k.modOwn f).bursts = k.bursts := rfl

@[simp] theorem CoreSt.modOwn_beats (k : CoreSt) (f : Own → Own) :
    (k.modOwn f).beats = k.beats := rfl

@[simp] theorem CoreSt.modOwn_jobs (k : CoreSt) (f : Own → Own) :
    (k.modOwn f).jobs = k.jobs := rfl

@[simp] theorem CoreSt.modOwn_stages (k : CoreSt) (f : Own → Own) :
    (k.modOwn f).stages = k.stages := rfl

@[simp] theorem CoreSt.modOwn_nextJob (k : CoreSt) (f : Own → Own) :
    (k.modOwn f).nextJob = k.nextJob := rfl

@[simp] theorem CoreSt.modOwn_forkOrder (k : CoreSt) (f : Own → Own) :
    (k.modOwn f).forkOrder = k.forkOrder := rfl

@[simp] theorem CoreSt.modOwn_colLast (k : CoreSt) (f : Own → Own) :
    (k.modOwn f).colLast = k.colLast := rfl

@[simp] theorem CoreSt.modOwn_colCount (k : CoreSt) (f : Own → Own) :
    (k.modOwn f).colCount = k.colCount := rfl

@[simp] theorem CoreSt.modOwn_ctrap (k : CoreSt) (f : Own → Own) :
    (k.modOwn f).ctrap = k.ctrap := rfl

@[simp] theorem CoreSt.modOwn_rsSpill (k : CoreSt) (f : Own → Own) :
    (k.modOwn f).rsSpill = k.rsSpill := rfl

@[simp] theorem CoreSt.modOwn_rsRefill (k : CoreSt) (f : Own → Own) :
    (k.modOwn f).rsRefill = k.rsRefill := rfl

@[simp] theorem CoreSt.modOwn_rsSlap (k : CoreSt) (f : Own → Own) :
    (k.modOwn f).rsSlap = k.rsSlap := rfl

@[simp] theorem CoreSt.modOwn_mxDrop (k : CoreSt) (f : Own → Own) :
    (k.modOwn f).mxDrop = k.mxDrop := rfl

@[simp] theorem CoreSt.modOwn_mxReplay (k : CoreSt) (f : Own → Own) :
    (k.modOwn f).mxReplay = k.mxReplay := rfl

@[simp] theorem CoreSt.modOwn_void (k : CoreSt) (f : Own → Own) :
    (k.modOwn f).void = k.void := rfl

@[simp] theorem CoreSt.modOwn_segOk (k : CoreSt) (f : Own → Own) :
    (k.modOwn f).segOk = k.segOk := rfl

@[simp] theorem CoreSt.modOwn_segTrap (k : CoreSt) (f : Own → Own) :
    (k.modOwn f).segTrap = k.segTrap := rfl

@[simp] theorem CoreSt.modOwn_lapCount (k : CoreSt) (f : Own → Own) :
    (k.modOwn f).lapCount = k.lapCount := rfl

@[simp] theorem CoreSt.modOwn_tt (k : CoreSt) (f : Own → Own) :
    (k.modOwn f).tt = k.tt := rfl

@[simp] theorem CoreSt.modOwn_dcache (k : CoreSt) (f : Own → Own) :
    (k.modOwn f).dcache = k.dcache := rfl

@[simp] theorem CoreSt.modOwn_dstale (k : CoreSt) (f : Own → Own) :
    (k.modOwn f).dstale = k.dstale := rfl

@[simp] theorem CoreSt.modOwn_icache (k : CoreSt) (f : Own → Own) :
    (k.modOwn f).icache = k.icache := rfl

@[simp] theorem CoreSt.modOwn_posted (k : CoreSt) (f : Own → Own) :
    (k.modOwn f).posted = k.posted := rfl

@[simp] theorem CoreSt.modOwn_faults (k : CoreSt) (f : Own → Own) :
    (k.modOwn f).faults = k.faults := rfl

@[simp] theorem CoreSt.modOwn_kept (k : CoreSt) (f : Own → Own) :
    (k.modOwn f).kept = k.kept := rfl

@[simp] theorem CoreSt.modOwn_taskQ (k : CoreSt) (f : Own → Own) :
    (k.modOwn f).taskQ = k.taskQ := rfl

@[simp] theorem CoreSt.modOwn_qhEn (k : CoreSt) (f : Own → Own) :
    (k.modOwn f).qhEn = k.qhEn := rfl

@[simp] theorem CoreSt.modOwn_qhFrz (k : CoreSt) (f : Own → Own) :
    (k.modOwn f).qhFrz = k.qhFrz := rfl

@[simp] theorem CoreSt.modOwn_qhIdx (k : CoreSt) (f : Own → Own) :
    (k.modOwn f).qhIdx = k.qhIdx := rfl

@[simp] theorem CoreSt.modOwn_qh (k : CoreSt) (f : Own → Own) :
    (k.modOwn f).qh = k.qh := rfl

@[simp] theorem CoreSt.modOwn_trEn (k : CoreSt) (f : Own → Own) :
    (k.modOwn f).trEn = k.trEn := rfl

@[simp] theorem CoreSt.modOwn_trAct (k : CoreSt) (f : Own → Own) :
    (k.modOwn f).trAct = k.trAct := rfl

@[simp] theorem CoreSt.modOwn_trWrap (k : CoreSt) (f : Own → Own) :
    (k.modOwn f).trWrap = k.trWrap := rfl

@[simp] theorem CoreSt.modOwn_trace (k : CoreSt) (f : Own → Own) :
    (k.modOwn f).trace = k.trace := rfl

@[simp] theorem CoreSt.modOwn_trStart (k : CoreSt) (f : Own → Own) :
    (k.modOwn f).trStart = k.trStart := rfl

@[simp] theorem CoreSt.modOwn_trStop (k : CoreSt) (f : Own → Own) :
    (k.modOwn f).trStop = k.trStop := rfl

@[simp] theorem CoreSt.modOwn_trRd (k : CoreSt) (f : Own → Own) :
    (k.modOwn f).trRd = k.trRd := rfl

@[simp] theorem CoreSt.modOwn_cyc (k : CoreSt) (f : Own → Own) :
    (k.modOwn f).cyc = k.cyc := rfl

@[simp] theorem CoreSt.modOwn_dbg (k : CoreSt) (f : Own → Own) :
    (k.modOwn f).dbg = k.dbg := rfl

@[simp] theorem CoreSt.modOwn_move (k : CoreSt) (f : Own → Own) :
    (k.modOwn f).move = k.move := rfl

@[simp] theorem CoreSt.modOwn_swap (k : CoreSt) (f : Own → Own) :
    (k.modOwn f).swap = k.swap := rfl

@[simp] theorem CoreSt.modOwn_inService (k : CoreSt) (f : Own → Own) :
    (k.modOwn f).inService = k.inService := rfl

/-! ## Updates of a context -/

@[simp] theorem Ctx.setReg_live (x : Ctx) (r : BitVec 5) (v : Word) :
    (x.setReg r v).live = x.live := by
  unfold Ctx.setReg; split <;> rfl

@[simp] theorem Ctx.setReg_pc (x : Ctx) (r : BitVec 5) (v : Word) :
    (x.setReg r v).pc = x.pc := by
  unfold Ctx.setReg; split <;> rfl

@[simp] theorem Ctx.setReg_numMode (x : Ctx) (r : BitVec 5) (v : Word) :
    (x.setReg r v).numMode = x.numMode := by
  unfold Ctx.setReg; split <;> rfl

@[simp] theorem Ctx.setReg_numSt (x : Ctx) (r : BitVec 5) (v : Word) :
    (x.setReg r v).numSt = x.numSt := by
  unfold Ctx.setReg; split <;> rfl

@[simp] theorem Ctx.setReg_task (x : Ctx) (r : BitVec 5) (v : Word) :
    (x.setReg r v).task = x.task := by
  unfold Ctx.setReg; split <;> rfl

@[simp] theorem Ctx.setReg_prio (x : Ctx) (r : BitVec 5) (v : Word) :
    (x.setReg r v).prio = x.prio := by
  unfold Ctx.setReg; split <;> rfl

@[simp] theorem Ctx.setReg_kernel (x : Ctx) (r : BitVec 5) (v : Word) :
    (x.setReg r v).kernel = x.kernel := by
  unfold Ctx.setReg; split <;> rfl

@[simp] theorem Ctx.setReg_gen (x : Ctx) (r : BitVec 5) (v : Word) :
    (x.setReg r v).gen = x.gen := by
  unfold Ctx.setReg; split <;> rfl

@[simp] theorem Ctx.setReg_wmask (x : Ctx) (r : BitVec 5) (v : Word) :
    (x.setReg r v).wmask = x.wmask := by
  unfold Ctx.setReg; split <;> rfl

@[simp] theorem Ctx.setReg_pins (x : Ctx) (r : BitVec 5) (v : Word) :
    (x.setReg r v).pins = x.pins := by
  unfold Ctx.setReg; split <;> rfl

@[simp] theorem Ctx.setReg_lost (x : Ctx) (r : BitVec 5) (v : Word) :
    (x.setReg r v).lost = x.lost := by
  unfold Ctx.setReg; split <;> rfl

@[simp] theorem Ctx.setReg_segLast (x : Ctx) (r : BitVec 5) (v : Word) :
    (x.setReg r v).segLast = x.segLast := by
  unfold Ctx.setReg; split <;> rfl

@[simp] theorem Ctx.setReg_rqLast (x : Ctx) (r : BitVec 5) (v : Word) :
    (x.setReg r v).rqLast = x.rqLast := by
  unfold Ctx.setReg; split <;> rfl

@[simp] theorem Ctx.setReg_exLate (x : Ctx) (r : BitVec 5) (v : Word) :
    (x.setReg r v).exLate = x.exLate := by
  unfold Ctx.setReg; split <;> rfl

@[simp] theorem Ctx.setReg_exClass (x : Ctx) (r : BitVec 5) (v : Word) :
    (x.setReg r v).exClass = x.exClass := by
  unfold Ctx.setReg; split <;> rfl

@[simp] theorem Ctx.setReg_exEvt (x : Ctx) (r : BitVec 5) (v : Word) :
    (x.setReg r v).exEvt = x.exEvt := by
  unfold Ctx.setReg; split <;> rfl

@[simp] theorem Ctx.setReg_boost (x : Ctx) (r : BitVec 5) (v : Word) :
    (x.setReg r v).boost = x.boost := by
  unfold Ctx.setReg; split <;> rfl

@[simp] theorem Ctx.setReg_saveb (x : Ctx) (r : BitVec 5) (v : Word) :
    (x.setReg r v).saveb = x.saveb := by
  unfold Ctx.setReg; split <;> rfl

@[simp] theorem Ctx.setReg_prept (x : Ctx) (r : BitVec 5) (v : Word) :
    (x.setReg r v).prept = x.prept := by
  unfold Ctx.setReg; split <;> rfl

@[simp] theorem Ctx.setReg_forks (x : Ctx) (r : BitVec 5) (v : Word) :
    (x.setReg r v).forks = x.forks := by
  unfold Ctx.setReg; split <;> rfl

@[simp] theorem Ctx.setReg_wait (x : Ctx) (r : BitVec 5) (v : Word) :
    (x.setReg r v).wait = x.wait := by
  unfold Ctx.setReg; split <;> rfl

@[simp] theorem Ctx.setReg_cur (x : Ctx) (r : BitVec 5) (v : Word) :
    (x.setReg r v).cur = x.cur := by
  unfold Ctx.setReg; split <;> rfl

@[simp] theorem Ctx.setReg_want (x : Ctx) (r : BitVec 5) (v : Word) :
    (x.setReg r v).want = x.want := by
  unfold Ctx.setReg; split <;> rfl

@[simp] theorem Ctx.setReg_trapped (x : Ctx) (r : BitVec 5) (v : Word) :
    (x.setReg r v).trapped = x.trapped := by
  unfold Ctx.setReg; split <;> rfl

@[simp] theorem Ctx.setReg_saved (x : Ctx) (r : BitVec 5) (v : Word) :
    (x.setReg r v).saved = x.saved := by
  unfold Ctx.setReg; split <;> rfl

@[simp] theorem Ctx.setReg_aband (x : Ctx) (r : BitVec 5) (v : Word) :
    (x.setReg r v).aband = x.aband := by
  unfold Ctx.setReg; split <;> rfl

@[simp] theorem Ctx.setReg_stores (x : Ctx) (r : BitVec 5) (v : Word) :
    (x.setReg r v).stores = x.stores := by
  unfold Ctx.setReg; split <;> rfl

@[simp] theorem Ctx.setReg_groups (x : Ctx) (r : BitVec 5) (v : Word) :
    (x.setReg r v).groups = x.groups := by
  unfold Ctx.setReg; split <;> rfl

@[simp] theorem Ctx.setReg_orders (x : Ctx) (r : BitVec 5) (v : Word) :
    (x.setReg r v).orders = x.orders := by
  unfold Ctx.setReg; split <;> rfl

@[simp] theorem Ctx.setReg_side (x : Ctx) (r : BitVec 5) (v : Word) :
    (x.setReg r v).side = x.side := by
  unfold Ctx.setReg; split <;> rfl

@[simp] theorem Ctx.next_live (x : Ctx) :
    (x.next).live = x.live := rfl

@[simp] theorem Ctx.next_x (x : Ctx) :
    (x.next).x = x.x := rfl

@[simp] theorem Ctx.next_numMode (x : Ctx) :
    (x.next).numMode = x.numMode := rfl

@[simp] theorem Ctx.next_numSt (x : Ctx) :
    (x.next).numSt = x.numSt := rfl

@[simp] theorem Ctx.next_task (x : Ctx) :
    (x.next).task = x.task := rfl

@[simp] theorem Ctx.next_prio (x : Ctx) :
    (x.next).prio = x.prio := rfl

@[simp] theorem Ctx.next_kernel (x : Ctx) :
    (x.next).kernel = x.kernel := rfl

@[simp] theorem Ctx.next_gen (x : Ctx) :
    (x.next).gen = x.gen := rfl

@[simp] theorem Ctx.next_wmask (x : Ctx) :
    (x.next).wmask = x.wmask := rfl

@[simp] theorem Ctx.next_pins (x : Ctx) :
    (x.next).pins = x.pins := rfl

@[simp] theorem Ctx.next_lost (x : Ctx) :
    (x.next).lost = x.lost := rfl

@[simp] theorem Ctx.next_segLast (x : Ctx) :
    (x.next).segLast = x.segLast := rfl

@[simp] theorem Ctx.next_rqLast (x : Ctx) :
    (x.next).rqLast = x.rqLast := rfl

@[simp] theorem Ctx.next_exLate (x : Ctx) :
    (x.next).exLate = x.exLate := rfl

@[simp] theorem Ctx.next_exClass (x : Ctx) :
    (x.next).exClass = x.exClass := rfl

@[simp] theorem Ctx.next_exEvt (x : Ctx) :
    (x.next).exEvt = x.exEvt := rfl

@[simp] theorem Ctx.next_boost (x : Ctx) :
    (x.next).boost = x.boost := rfl

@[simp] theorem Ctx.next_saveb (x : Ctx) :
    (x.next).saveb = x.saveb := rfl

@[simp] theorem Ctx.next_prept (x : Ctx) :
    (x.next).prept = x.prept := rfl

@[simp] theorem Ctx.next_forks (x : Ctx) :
    (x.next).forks = x.forks := rfl

@[simp] theorem Ctx.next_cur (x : Ctx) :
    (x.next).cur = x.cur := rfl

@[simp] theorem Ctx.next_want (x : Ctx) :
    (x.next).want = x.want := rfl

@[simp] theorem Ctx.next_trapped (x : Ctx) :
    (x.next).trapped = x.trapped := rfl

@[simp] theorem Ctx.next_saved (x : Ctx) :
    (x.next).saved = x.saved := rfl

@[simp] theorem Ctx.next_aband (x : Ctx) :
    (x.next).aband = x.aband := rfl

@[simp] theorem Ctx.next_stores (x : Ctx) :
    (x.next).stores = x.stores := rfl

@[simp] theorem Ctx.next_groups (x : Ctx) :
    (x.next).groups = x.groups := rfl

@[simp] theorem Ctx.next_orders (x : Ctx) :
    (x.next).orders = x.orders := rfl

@[simp] theorem Ctx.next_side (x : Ctx) :
    (x.next).side = x.side := rfl

/-! ## Updates of the owner state -/

@[simp] theorem Own.setSlot_g (o : Own) (i : Nat) (v : Slot) :
    (o.setSlot i v).g = o.g := rfl

@[simp] theorem Own.setSlot_es (o : Own) (i : Nat) (v : Slot) :
    (o.setSlot i v).es = o.es := rfl

@[simp] theorem Own.setSlot_off (o : Own) (i : Nat) (v : Slot) :
    (o.setSlot i v).off = o.off := rfl

@[simp] theorem Own.setSlot_sigma (o : Own) (i : Nat) (v : Slot) :
    (o.setSlot i v).sigma = o.sigma := rfl

@[simp] theorem Own.setSlot_slap (o : Own) (i : Nat) (v : Slot) :
    (o.setSlot i v).slap = o.slap := rfl

@[simp] theorem Own.setSlot_tiles (o : Own) (i : Nat) (v : Slot) :
    (o.setSlot i v).tiles = o.tiles := rfl

@[simp] theorem Own.setSlot_accs (o : Own) (i : Nat) (v : Slot) :
    (o.setSlot i v).accs = o.accs := rfl

@[simp] theorem Own.setSlot_stack (o : Own) (i : Nat) (v : Slot) :
    (o.setSlot i v).stack = o.stack := rfl

@[simp] theorem Own.setSlot_tokens (o : Own) (i : Nat) (v : Slot) :
    (o.setSlot i v).tokens = o.tokens := rfl

@[simp] theorem Own.setSlot_rq (o : Own) (i : Nat) (v : Slot) :
    (o.setSlot i v).rq = o.rq := rfl

@[simp] theorem Own.setSlot_rqOvf (o : Own) (i : Nat) (v : Slot) :
    (o.setSlot i v).rqOvf = o.rqOvf := rfl

@[simp] theorem Own.setSlot_q (o : Own) (i : Nat) (v : Slot) :
    (o.setSlot i v).q = o.q := rfl

@[simp] theorem Own.setSlot_live (o : Own) (i : Nat) (v : Slot) :
    (o.setSlot i v).live = o.live := rfl

@[simp] theorem Own.setSlot_flights (o : Own) (i : Nat) (v : Slot) :
    (o.setSlot i v).flights = o.flights := rfl

@[simp] theorem Own.setSlot_xfers (o : Own) (i : Nat) (v : Slot) :
    (o.setSlot i v).xfers = o.xfers := rfl

@[simp] theorem Own.setSlot_mx (o : Own) (i : Nat) (v : Slot) :
    (o.setSlot i v).mx = o.mx := rfl

@[simp] theorem Own.setSlot_mxUsed (o : Own) (i : Nat) (v : Slot) :
    (o.setSlot i v).mxUsed = o.mxUsed := rfl

@[simp] theorem Own.setSlot_mxAtPoint (o : Own) (i : Nat) (v : Slot) :
    (o.setSlot i v).mxAtPoint = o.mxAtPoint := rfl

@[simp] theorem Own.setSlot_win (o : Own) (i : Nat) (v : Slot) :
    (o.setSlot i v).win = o.win := rfl

@[simp] theorem Own.setSlot_seg (o : Own) (i : Nat) (v : Slot) :
    (o.setSlot i v).seg = o.seg := rfl

@[simp] theorem Own.setSlot_gates (o : Own) (i : Nat) (v : Slot) :
    (o.setSlot i v).gates = o.gates := rfl

@[simp] theorem Own.setTile_ring (o : Own) (i : Nat) (v : Tile) :
    (o.setTile i v).ring = o.ring := rfl

@[simp] theorem Own.setTile_g (o : Own) (i : Nat) (v : Tile) :
    (o.setTile i v).g = o.g := rfl

@[simp] theorem Own.setTile_es (o : Own) (i : Nat) (v : Tile) :
    (o.setTile i v).es = o.es := rfl

@[simp] theorem Own.setTile_off (o : Own) (i : Nat) (v : Tile) :
    (o.setTile i v).off = o.off := rfl

@[simp] theorem Own.setTile_sigma (o : Own) (i : Nat) (v : Tile) :
    (o.setTile i v).sigma = o.sigma := rfl

@[simp] theorem Own.setTile_slap (o : Own) (i : Nat) (v : Tile) :
    (o.setTile i v).slap = o.slap := rfl

@[simp] theorem Own.setTile_accs (o : Own) (i : Nat) (v : Tile) :
    (o.setTile i v).accs = o.accs := rfl

@[simp] theorem Own.setTile_stack (o : Own) (i : Nat) (v : Tile) :
    (o.setTile i v).stack = o.stack := rfl

@[simp] theorem Own.setTile_tokens (o : Own) (i : Nat) (v : Tile) :
    (o.setTile i v).tokens = o.tokens := rfl

@[simp] theorem Own.setTile_rq (o : Own) (i : Nat) (v : Tile) :
    (o.setTile i v).rq = o.rq := rfl

@[simp] theorem Own.setTile_rqOvf (o : Own) (i : Nat) (v : Tile) :
    (o.setTile i v).rqOvf = o.rqOvf := rfl

@[simp] theorem Own.setTile_q (o : Own) (i : Nat) (v : Tile) :
    (o.setTile i v).q = o.q := rfl

@[simp] theorem Own.setTile_live (o : Own) (i : Nat) (v : Tile) :
    (o.setTile i v).live = o.live := rfl

@[simp] theorem Own.setTile_flights (o : Own) (i : Nat) (v : Tile) :
    (o.setTile i v).flights = o.flights := rfl

@[simp] theorem Own.setTile_xfers (o : Own) (i : Nat) (v : Tile) :
    (o.setTile i v).xfers = o.xfers := rfl

@[simp] theorem Own.setTile_mx (o : Own) (i : Nat) (v : Tile) :
    (o.setTile i v).mx = o.mx := rfl

@[simp] theorem Own.setTile_mxUsed (o : Own) (i : Nat) (v : Tile) :
    (o.setTile i v).mxUsed = o.mxUsed := rfl

@[simp] theorem Own.setTile_mxAtPoint (o : Own) (i : Nat) (v : Tile) :
    (o.setTile i v).mxAtPoint = o.mxAtPoint := rfl

@[simp] theorem Own.setTile_win (o : Own) (i : Nat) (v : Tile) :
    (o.setTile i v).win = o.win := rfl

@[simp] theorem Own.setTile_seg (o : Own) (i : Nat) (v : Tile) :
    (o.setTile i v).seg = o.seg := rfl

@[simp] theorem Own.setTile_gates (o : Own) (i : Nat) (v : Tile) :
    (o.setTile i v).gates = o.gates := rfl

@[simp] theorem Own.setAcc_ring (o : Own) (i : Nat) (v : Acc) :
    (o.setAcc i v).ring = o.ring := rfl

@[simp] theorem Own.setAcc_g (o : Own) (i : Nat) (v : Acc) :
    (o.setAcc i v).g = o.g := rfl

@[simp] theorem Own.setAcc_es (o : Own) (i : Nat) (v : Acc) :
    (o.setAcc i v).es = o.es := rfl

@[simp] theorem Own.setAcc_off (o : Own) (i : Nat) (v : Acc) :
    (o.setAcc i v).off = o.off := rfl

@[simp] theorem Own.setAcc_sigma (o : Own) (i : Nat) (v : Acc) :
    (o.setAcc i v).sigma = o.sigma := rfl

@[simp] theorem Own.setAcc_slap (o : Own) (i : Nat) (v : Acc) :
    (o.setAcc i v).slap = o.slap := rfl

@[simp] theorem Own.setAcc_tiles (o : Own) (i : Nat) (v : Acc) :
    (o.setAcc i v).tiles = o.tiles := rfl

@[simp] theorem Own.setAcc_stack (o : Own) (i : Nat) (v : Acc) :
    (o.setAcc i v).stack = o.stack := rfl

@[simp] theorem Own.setAcc_tokens (o : Own) (i : Nat) (v : Acc) :
    (o.setAcc i v).tokens = o.tokens := rfl

@[simp] theorem Own.setAcc_rq (o : Own) (i : Nat) (v : Acc) :
    (o.setAcc i v).rq = o.rq := rfl

@[simp] theorem Own.setAcc_rqOvf (o : Own) (i : Nat) (v : Acc) :
    (o.setAcc i v).rqOvf = o.rqOvf := rfl

@[simp] theorem Own.setAcc_q (o : Own) (i : Nat) (v : Acc) :
    (o.setAcc i v).q = o.q := rfl

@[simp] theorem Own.setAcc_live (o : Own) (i : Nat) (v : Acc) :
    (o.setAcc i v).live = o.live := rfl

@[simp] theorem Own.setAcc_flights (o : Own) (i : Nat) (v : Acc) :
    (o.setAcc i v).flights = o.flights := rfl

@[simp] theorem Own.setAcc_xfers (o : Own) (i : Nat) (v : Acc) :
    (o.setAcc i v).xfers = o.xfers := rfl

@[simp] theorem Own.setAcc_mx (o : Own) (i : Nat) (v : Acc) :
    (o.setAcc i v).mx = o.mx := rfl

@[simp] theorem Own.setAcc_mxUsed (o : Own) (i : Nat) (v : Acc) :
    (o.setAcc i v).mxUsed = o.mxUsed := rfl

@[simp] theorem Own.setAcc_mxAtPoint (o : Own) (i : Nat) (v : Acc) :
    (o.setAcc i v).mxAtPoint = o.mxAtPoint := rfl

@[simp] theorem Own.setAcc_win (o : Own) (i : Nat) (v : Acc) :
    (o.setAcc i v).win = o.win := rfl

@[simp] theorem Own.setAcc_seg (o : Own) (i : Nat) (v : Acc) :
    (o.setAcc i v).seg = o.seg := rfl

@[simp] theorem Own.setAcc_gates (o : Own) (i : Nat) (v : Acc) :
    (o.setAcc i v).gates = o.gates := rfl

@[simp] theorem Own.setQueue_ring (o : Own) (e : Nat) (v : EngQ) :
    (o.setQueue e v).ring = o.ring := rfl

@[simp] theorem Own.setQueue_g (o : Own) (e : Nat) (v : EngQ) :
    (o.setQueue e v).g = o.g := rfl

@[simp] theorem Own.setQueue_es (o : Own) (e : Nat) (v : EngQ) :
    (o.setQueue e v).es = o.es := rfl

@[simp] theorem Own.setQueue_off (o : Own) (e : Nat) (v : EngQ) :
    (o.setQueue e v).off = o.off := rfl

@[simp] theorem Own.setQueue_sigma (o : Own) (e : Nat) (v : EngQ) :
    (o.setQueue e v).sigma = o.sigma := rfl

@[simp] theorem Own.setQueue_slap (o : Own) (e : Nat) (v : EngQ) :
    (o.setQueue e v).slap = o.slap := rfl

@[simp] theorem Own.setQueue_tiles (o : Own) (e : Nat) (v : EngQ) :
    (o.setQueue e v).tiles = o.tiles := rfl

@[simp] theorem Own.setQueue_accs (o : Own) (e : Nat) (v : EngQ) :
    (o.setQueue e v).accs = o.accs := rfl

@[simp] theorem Own.setQueue_stack (o : Own) (e : Nat) (v : EngQ) :
    (o.setQueue e v).stack = o.stack := rfl

@[simp] theorem Own.setQueue_tokens (o : Own) (e : Nat) (v : EngQ) :
    (o.setQueue e v).tokens = o.tokens := rfl

@[simp] theorem Own.setQueue_rq (o : Own) (e : Nat) (v : EngQ) :
    (o.setQueue e v).rq = o.rq := rfl

@[simp] theorem Own.setQueue_rqOvf (o : Own) (e : Nat) (v : EngQ) :
    (o.setQueue e v).rqOvf = o.rqOvf := rfl

@[simp] theorem Own.setQueue_live (o : Own) (e : Nat) (v : EngQ) :
    (o.setQueue e v).live = o.live := rfl

@[simp] theorem Own.setQueue_flights (o : Own) (e : Nat) (v : EngQ) :
    (o.setQueue e v).flights = o.flights := rfl

@[simp] theorem Own.setQueue_xfers (o : Own) (e : Nat) (v : EngQ) :
    (o.setQueue e v).xfers = o.xfers := rfl

@[simp] theorem Own.setQueue_mx (o : Own) (e : Nat) (v : EngQ) :
    (o.setQueue e v).mx = o.mx := rfl

@[simp] theorem Own.setQueue_mxUsed (o : Own) (e : Nat) (v : EngQ) :
    (o.setQueue e v).mxUsed = o.mxUsed := rfl

@[simp] theorem Own.setQueue_mxAtPoint (o : Own) (e : Nat) (v : EngQ) :
    (o.setQueue e v).mxAtPoint = o.mxAtPoint := rfl

@[simp] theorem Own.setQueue_win (o : Own) (e : Nat) (v : EngQ) :
    (o.setQueue e v).win = o.win := rfl

@[simp] theorem Own.setQueue_seg (o : Own) (e : Nat) (v : EngQ) :
    (o.setQueue e v).seg = o.seg := rfl

@[simp] theorem Own.setQueue_gates (o : Own) (e : Nat) (v : EngQ) :
    (o.setQueue e v).gates = o.gates := rfl

@[simp] theorem Own.setToken_ring (o : Own) (i v : Nat) :
    (o.setToken i v).ring = o.ring := rfl

@[simp] theorem Own.setToken_g (o : Own) (i v : Nat) :
    (o.setToken i v).g = o.g := rfl

@[simp] theorem Own.setToken_es (o : Own) (i v : Nat) :
    (o.setToken i v).es = o.es := rfl

@[simp] theorem Own.setToken_off (o : Own) (i v : Nat) :
    (o.setToken i v).off = o.off := rfl

@[simp] theorem Own.setToken_sigma (o : Own) (i v : Nat) :
    (o.setToken i v).sigma = o.sigma := rfl

@[simp] theorem Own.setToken_slap (o : Own) (i v : Nat) :
    (o.setToken i v).slap = o.slap := rfl

@[simp] theorem Own.setToken_tiles (o : Own) (i v : Nat) :
    (o.setToken i v).tiles = o.tiles := rfl

@[simp] theorem Own.setToken_accs (o : Own) (i v : Nat) :
    (o.setToken i v).accs = o.accs := rfl

@[simp] theorem Own.setToken_stack (o : Own) (i v : Nat) :
    (o.setToken i v).stack = o.stack := rfl

@[simp] theorem Own.setToken_rq (o : Own) (i v : Nat) :
    (o.setToken i v).rq = o.rq := rfl

@[simp] theorem Own.setToken_rqOvf (o : Own) (i v : Nat) :
    (o.setToken i v).rqOvf = o.rqOvf := rfl

@[simp] theorem Own.setToken_q (o : Own) (i v : Nat) :
    (o.setToken i v).q = o.q := rfl

@[simp] theorem Own.setToken_live (o : Own) (i v : Nat) :
    (o.setToken i v).live = o.live := rfl

@[simp] theorem Own.setToken_flights (o : Own) (i v : Nat) :
    (o.setToken i v).flights = o.flights := rfl

@[simp] theorem Own.setToken_xfers (o : Own) (i v : Nat) :
    (o.setToken i v).xfers = o.xfers := rfl

@[simp] theorem Own.setToken_mx (o : Own) (i v : Nat) :
    (o.setToken i v).mx = o.mx := rfl

@[simp] theorem Own.setToken_mxUsed (o : Own) (i v : Nat) :
    (o.setToken i v).mxUsed = o.mxUsed := rfl

@[simp] theorem Own.setToken_mxAtPoint (o : Own) (i v : Nat) :
    (o.setToken i v).mxAtPoint = o.mxAtPoint := rfl

@[simp] theorem Own.setToken_win (o : Own) (i v : Nat) :
    (o.setToken i v).win = o.win := rfl

@[simp] theorem Own.setToken_seg (o : Own) (i v : Nat) :
    (o.setToken i v).seg = o.seg := rfl

@[simp] theorem Own.setToken_gates (o : Own) (i v : Nat) :
    (o.setToken i v).gates = o.gates := rfl

@[simp] theorem Own.setGuard_ring (o : Own) (g : Nat) (v : BitVec 64) :
    (o.setGuard g v).ring = o.ring := by
  unfold Own.setGuard; split <;> rfl

@[simp] theorem Own.setGuard_es (o : Own) (g : Nat) (v : BitVec 64) :
    (o.setGuard g v).es = o.es := by
  unfold Own.setGuard; split <;> rfl

@[simp] theorem Own.setGuard_off (o : Own) (g : Nat) (v : BitVec 64) :
    (o.setGuard g v).off = o.off := by
  unfold Own.setGuard; split <;> rfl

@[simp] theorem Own.setGuard_sigma (o : Own) (g : Nat) (v : BitVec 64) :
    (o.setGuard g v).sigma = o.sigma := by
  unfold Own.setGuard; split <;> rfl

@[simp] theorem Own.setGuard_slap (o : Own) (g : Nat) (v : BitVec 64) :
    (o.setGuard g v).slap = o.slap := by
  unfold Own.setGuard; split <;> rfl

@[simp] theorem Own.setGuard_tiles (o : Own) (g : Nat) (v : BitVec 64) :
    (o.setGuard g v).tiles = o.tiles := by
  unfold Own.setGuard; split <;> rfl

@[simp] theorem Own.setGuard_accs (o : Own) (g : Nat) (v : BitVec 64) :
    (o.setGuard g v).accs = o.accs := by
  unfold Own.setGuard; split <;> rfl

@[simp] theorem Own.setGuard_stack (o : Own) (g : Nat) (v : BitVec 64) :
    (o.setGuard g v).stack = o.stack := by
  unfold Own.setGuard; split <;> rfl

@[simp] theorem Own.setGuard_tokens (o : Own) (g : Nat) (v : BitVec 64) :
    (o.setGuard g v).tokens = o.tokens := by
  unfold Own.setGuard; split <;> rfl

@[simp] theorem Own.setGuard_rq (o : Own) (g : Nat) (v : BitVec 64) :
    (o.setGuard g v).rq = o.rq := by
  unfold Own.setGuard; split <;> rfl

@[simp] theorem Own.setGuard_rqOvf (o : Own) (g : Nat) (v : BitVec 64) :
    (o.setGuard g v).rqOvf = o.rqOvf := by
  unfold Own.setGuard; split <;> rfl

@[simp] theorem Own.setGuard_q (o : Own) (g : Nat) (v : BitVec 64) :
    (o.setGuard g v).q = o.q := by
  unfold Own.setGuard; split <;> rfl

@[simp] theorem Own.setGuard_live (o : Own) (g : Nat) (v : BitVec 64) :
    (o.setGuard g v).live = o.live := by
  unfold Own.setGuard; split <;> rfl

@[simp] theorem Own.setGuard_flights (o : Own) (g : Nat) (v : BitVec 64) :
    (o.setGuard g v).flights = o.flights := by
  unfold Own.setGuard; split <;> rfl

@[simp] theorem Own.setGuard_xfers (o : Own) (g : Nat) (v : BitVec 64) :
    (o.setGuard g v).xfers = o.xfers := by
  unfold Own.setGuard; split <;> rfl

@[simp] theorem Own.setGuard_mx (o : Own) (g : Nat) (v : BitVec 64) :
    (o.setGuard g v).mx = o.mx := by
  unfold Own.setGuard; split <;> rfl

@[simp] theorem Own.setGuard_mxUsed (o : Own) (g : Nat) (v : BitVec 64) :
    (o.setGuard g v).mxUsed = o.mxUsed := by
  unfold Own.setGuard; split <;> rfl

@[simp] theorem Own.setGuard_mxAtPoint (o : Own) (g : Nat) (v : BitVec 64) :
    (o.setGuard g v).mxAtPoint = o.mxAtPoint := by
  unfold Own.setGuard; split <;> rfl

@[simp] theorem Own.setGuard_win (o : Own) (g : Nat) (v : BitVec 64) :
    (o.setGuard g v).win = o.win := by
  unfold Own.setGuard; split <;> rfl

@[simp] theorem Own.setGuard_seg (o : Own) (g : Nat) (v : BitVec 64) :
    (o.setGuard g v).seg = o.seg := by
  unfold Own.setGuard; split <;> rfl

@[simp] theorem Own.setGuard_gates (o : Own) (g : Nat) (v : BitVec 64) :
    (o.setGuard g v).gates = o.gates := by
  unfold Own.setGuard; split <;> rfl

end Sys2Proof.Machine
end

