-- ==== Sys2Proof/Laws/Memory.lean ====
section
/-! SUPPORT. Laws of device memory: every write keeps the canonical form, changes only the bytes it names, and
leaves the rest of the module. -/
namespace Sys2Proof.Machine

@[simp] theorem memWf_nil : memWf [] = true := rfl

theorem memWf_putRange {m : Tbl Byte} (h : memWf m = true) (a : Nat) (bs : List Byte) :
    memWf (tblPutRange m a bs) = true := tblWf_putRange h a bs

theorem memWf_putRuns : ∀ (rs : List (Nat × List Byte)) {m : Tbl Byte}, memWf m = true →
    memWf (rs.foldl (fun m r => tblPutRange m r.1 r.2) m) = true
  | [], _, h => h
  | r :: rs, _, h => memWf_putRuns rs (memWf_putRange h r.1 r.2)

/-- Writing bytes keeps a memory canonical. -/
theorem memWf_putAll {m : Tbl Byte} (h : memWf m = true) (ws : List (Nat × Byte)) : memWf (memPutAll m ws) = true :=
  memWf_putRuns _ h

/-- Every address of a run is one of the list. -/
theorem mem_runsOf {α : Type} : ∀ {ws : List (Nat × α)} {r : Nat × List α}, r ∈ runsOf ws →
    ∀ a, r.1 ≤ a → a < r.1 + r.2.length → a ∈ ws.map (·.1)
  | [], r, h, _, _, _ => by simp [runsOf] at h
  | (b, v) :: ws, r, h, a, h1, h2 => by
    simp only [runsOf] at h
    split at h
    · rename_i c vs rs hr
      split at h
      · rename_i hc
        rcases List.mem_cons.mp h with rfl | h
        · simp only [List.length_cons] at h1 h2
          by_cases ha : a = b
          · simp [ha]
          · have := mem_runsOf (r := (c, vs)) (hr ▸ List.mem_cons_self) a (by simp only; omega) (by simp only; omega)
            simp [this, List.mem_cons, List.map_cons]
        · have := mem_runsOf (hr ▸ List.mem_cons_of_mem _ h) a h1 h2
          simp [this, List.map_cons]
      · rcases List.mem_cons.mp h with rfl | h
        · simp only [List.length_cons, List.length_nil] at h1 h2
          simp [show a = b by omega]
        · have := mem_runsOf (hr ▸ h) a h1 h2
          simp [this, List.map_cons]
    · simp only [List.mem_singleton] at h
      subst h
      simp only [List.length_cons, List.length_nil] at h1 h2
      simp [show a = b by omega]

theorem tblFind_putRuns : ∀ (rs : List (Nat × List Byte)) {m : Tbl Byte} (a : Nat), memWf m = true →
    (∀ r ∈ rs, ¬(r.1 ≤ a ∧ a < r.1 + r.2.length)) →
    tblFind (rs.foldl (fun m r => tblPutRange m r.1 r.2) m) a = tblFind m a
  | [], _, _, _, _ => rfl
  | r :: rs, m, a, hm, h => by
    rw [List.foldl_cons, tblFind_putRuns rs a (memWf_putRange hm r.1 r.2) fun q hq => h q (by simp [hq]),
      tblFind_putRange hm, if_neg (h r (by simp))]

/-- A byte that a write does not name reads as before. -/
theorem tblFind_putAll_other {m : Tbl Byte} (hm : memWf m = true) {ws : List (Nat × Byte)} {a : Nat}
    (h : a ∉ ws.map (·.1)) : tblFind (memPutAll m ws) a = tblFind m a :=
  tblFind_putRuns _ a hm fun r hr hin => h (mem_runsOf hr a hin.1 hin.2)

theorem mem_foldWake (is : List Nat) (s : State) :
    (is.foldl (fun s i => s.wake false 0 i 1) s).mem = s.mem := by
  induction is generalizing s with
  | nil => rfl
  | cons i is ih => rw [List.foldl_cons, ih, State.wake_mem]

theorem State.memWrite_mem (s : State) (ws : List (Nat × Byte)) :
    (s.memWrite ws).mem = if ws = [] then s.mem else memPutAll s.mem ws := by
  unfold State.memWrite
  split
  · rfl
  · rename_i a v r
    simp only [reduceCtorEq, if_false]
    split
    · rfl
    · rw [mem_foldWake, State.wake_mem]

theorem State.memOk_memWrite {s : State} (h : s.memOk) (ws : List (Nat × Byte)) : (s.memWrite ws).memOk := by
  unfold State.memOk
  rw [State.memWrite_mem]
  split
  · exact h
  · exact memWf_putAll h ws

/-- A byte of device memory that a write does not name is as before. -/
theorem State.memWrite_other {s : State} (h : s.memOk) {ws : List (Nat × Byte)} {a : Nat} (ha : a ∉ ws.map (·.1)) :
    tblFind (s.memWrite ws).mem a = tblFind s.mem a := by
  rw [State.memWrite_mem]
  split
  · rfl
  · exact tblFind_putAll_other h ha

theorem State.memOk_memWriteFrom {s : State} (h : s.memOk) (die : Nat) (ws : List (Nat × Byte)) :
    (s.memWriteFrom die ws).memOk := State.memOk_memWrite (s := s.hide _) h _

theorem State.memOk_outWrite {s : State} (h : s.memOk) (site : Nat) (ws : List (Nat × Byte)) :
    (s.outWrite site ws).memOk := by
  unfold State.outWrite
  exact State.memOk_memWrite h _

theorem State.memOk_dvaWrite {s : State} (h : s.memOk) (c dva : Nat) (bs : List Byte) : (s.dvaWrite c dva bs).memOk :=
  State.memOk_memWriteFrom h _ _

theorem State.memOk_walkPut {s : State} (h : s.memOk) (site p dva : Nat) (v : Word) :
    (s.walkPut site p dva v).memOk := by
  unfold State.walkPut
  split
  · exact State.memOk_outWrite h _ _
  · exact h

end Sys2Proof.Machine
end

