-- ==== Sys2Proof/Laws/Bytes.lean ====
section
/-! SUPPORT. Reading and writing runs of bytes: what a run reads as, byte by byte, and what it reads as after a write. -/
namespace Sys2Proof.Machine

/-! ## Consecutive numbers -/

@[simp] theorem upFrom_length (a n : Nat) : (upFrom a n).length = n := by
  induction n generalizing a <;> simp_all [upFrom]

theorem upFrom_get (a n i : Nat) : (upFrom a n)[i]? = if i < n then some (a + i) else none := by
  induction n generalizing a i with
  | zero => simp [upFrom]
  | succ n ih =>
    cases i with
    | zero => simp [upFrom]
    | succ i =>
      simp only [upFrom, List.getElem?_cons_succ, ih, Nat.add_lt_add_iff_right]
      rw [show a + 1 + i = a + (i + 1) by omega]

theorem mem_upFrom (a n i : Nat) : i ∈ upFrom a n ↔ a ≤ i ∧ i < a + n := by
  induction n generalizing a with
  | zero => simp only [upFrom, List.not_mem_nil, false_iff]; omega
  | succ n ih => simp only [upFrom, List.mem_cons, ih]; omega

theorem upFrom_append (a m n : Nat) : upFrom a (m + n) = upFrom a m ++ upFrom (a + m) n := by
  induction m generalizing a with
  | zero => simp [upFrom]
  | succ m ih => rw [Nat.succ_add]; simp only [upFrom, List.cons_append, ih, Nat.add_assoc, Nat.add_comm 1]

theorem nodup_upFrom (a n : Nat) : (upFrom a n).Nodup := by
  induction n generalizing a with
  | zero => simp [upFrom]
  | succ n ih => simp only [upFrom, List.nodup_cons, mem_upFrom, ih, and_true]; omega

/-! ## Runs of a table -/

@[simp] theorem tblRun_length {α : Type} (t : Tbl α) (lo n : Nat) : (tblRun t lo n).length = n := by
  induction n generalizing t lo with
  | zero => simp [tblRun]
  | succ n ih => rcases t with _ | ⟨⟨k, v⟩, r⟩ <;> simp only [tblRun] <;> (try split) <;> simp [ih]

@[simp] theorem tblSpan_length {α : Type} (t : Tbl α) (lo n : Nat) : (tblSpan t lo n).length = n := tblRun_length _ _ _

@[simp] theorem tblRange_length {α : Type} (d : α) (t : Tbl α) (lo n : Nat) : (tblRange d t lo n).length = n := by
  simp [tblRange]

theorem tblRun_eq {α : Type} (n : Nat) : ∀ {t : Tbl α} {lo : Nat}, tblRising lo t = true →
    tblRun t lo n = (upFrom lo n).map (tblFind t) := by
  induction n with
  | zero => intros; simp [tblRun, upFrom]
  | succ n ih =>
    intro t lo h
    rcases t with _ | ⟨⟨k, v⟩, r⟩
    · simp only [tblRun, upFrom, List.map_cons, tblFind_nil, ih (t := ([] : Tbl α)) (lo := lo + 1) rfl]
    · simp only [tblRising, Bool.and_eq_true, decide_eq_true_eq] at h
      simp only [tblRun, upFrom, List.map_cons]
      split
      · next e =>
        subst e
        rw [ih h.2]
        congr 1
        · rw [tblFind_cons, if_pos rfl]
        · refine List.map_congr_left fun i hi => ?_
          rw [mem_upFrom] at hi
          rw [tblFind_cons, if_neg (by omega)]
      · next e =>
        rw [ih (t := (k, v) :: r) (lo := lo + 1) (by simp only [tblRising, Bool.and_eq_true, decide_eq_true_eq]; exact ⟨by omega, h.2⟩)]
        congr 1
        rw [tblFind_cons, if_neg (by omega), tblFind_below h.2 (by omega)]

theorem tblRising_dropFrom {α : Type} (lo : Nat) : ∀ {t : Tbl α} {b : Nat}, tblRising b t = true →
    tblRising lo (t.dropWhile fun e => decide (e.1 < lo)) = true
  | [], _, _ => rfl
  | (k, v) :: r, b, h => by
    simp only [tblRising, Bool.and_eq_true, decide_eq_true_eq] at h
    by_cases hk : k < lo
    · rw [List.dropWhile_cons, if_pos (by simpa using hk)]; exact tblRising_dropFrom lo h.2
    · rw [List.dropWhile_cons, if_neg (by simpa using hk)]
      simp only [tblRising, Bool.and_eq_true, decide_eq_true_eq]
      exact ⟨by omega, h.2⟩

/-- A run of a table in canonical form, key by key. -/
theorem tblSpan_eq {α : Type} {t : Tbl α} (h : tblWf t = true) (lo n : Nat) :
    tblSpan t lo n = (upFrom lo n).map (tblFind t) := by
  rw [tblSpan, tblRun_eq n (tblRising_dropFrom lo h)]
  refine List.map_congr_left fun i hi => ?_
  rw [mem_upFrom] at hi
  rw [tblFind_dropWhile lo h, if_neg (by omega)]

theorem tblRange_eq {α : Type} {t : Tbl α} (d : α) (h : tblWf t = true) (lo n : Nat) :
    tblRange d t lo n = (upFrom lo n).map (tblGet d t) := by
  rw [tblRange, tblSpan_eq h, List.map_map]; rfl

/-! ## Numbers and their bytes -/

@[simp] theorem bytesLe_length (n v : Nat) : (bytesLe n v).length = n := by
  induction n generalizing v <;> simp_all [bytesLe]

theorem bytesLe_get (n v i : Nat) : (bytesLe n v)[i]? = if i < n then some (BitVec.ofNat 8 (v >>> (8 * i))) else none := by
  induction n generalizing v i with
  | zero => simp [bytesLe]
  | succ n ih =>
    cases i with
    | zero => simp [bytesLe]
    | succ i =>
      simp only [bytesLe, List.getElem?_cons_succ, ih, Nat.add_lt_add_iff_right, ← Nat.shiftRight_add]
      rw [show 8 + 8 * i = 8 * (i + 1) by omega]

theorem ofBytesLe_bytesLe (n v : Nat) : ofBytesLe (bytesLe n v) = v % 2 ^ (8 * n) := by
  induction n generalizing v with
  | zero => simp [bytesLe, ofBytesLe, Nat.mod_one]
  | succ n ih =>
    simp only [bytesLe, ofBytesLe, ih, BitVec.toNat_ofNat, Nat.shiftLeft_eq, Nat.shiftRight_eq_div_pow]
    rw [show 8 * (n + 1) = 8 + 8 * n by omega, Nat.pow_add, Nat.mod_mul]
    ring

theorem ofBytesLe_lt (bs : List Byte) : ofBytesLe bs < 2 ^ (8 * bs.length) := by
  induction bs with
  | nil => simp [ofBytesLe]
  | cons b r ih =>
    simp only [ofBytesLe, Nat.shiftLeft_eq, List.length_cons]
    have := b.isLt
    rw [show 8 * (r.length + 1) = 8 * r.length + 8 by omega, Nat.pow_add]
    omega

theorem bytesLe_ofBytesLe (bs : List Byte) : bytesLe bs.length (ofBytesLe bs) = bs := by
  induction bs with
  | nil => rfl
  | cons b r ih =>
    have hb := b.isLt
    simp only [List.length_cons, bytesLe, ofBytesLe, Nat.shiftLeft_eq, Nat.shiftRight_eq_div_pow]
    rw [show (b.toNat + ofBytesLe r * 2 ^ 8) / 2 ^ 8 = ofBytesLe r by omega, ih]
    congr 1
    apply BitVec.eq_of_toNat_eq
    rw [BitVec.toNat_ofNat]; omega

/-! ## Scratchpad -/

@[simp] theorem CoreSt.spBytes_length (k : CoreSt) (a n : Nat) : (k.spBytes a n).length = n := by
  simp only [CoreSt.spBytes, List.length_append, List.length_map, upFrom_length, tblRange_length]; omega

/-- A run of a scratchpad in canonical form, byte by byte. -/
theorem CoreSt.spBytes_eq {k : CoreSt} (h : tblWfD (0 : Byte) k.sp = true) (a n : Nat) :
    k.spBytes a n = (upFrom a n).map k.spByte := by
  have hw := (tblWfD_iff.1 h).1
  simp only [CoreSt.spBytes]
  rw [tblRange_eq 0 hw]
  conv_rhs => rw [show n = min n (0x7FFC0 - a) + (n - min n (0x7FFC0 - a)) by omega, upFrom_append, List.map_append]
  congr 1
  refine List.map_congr_left fun i hi => ?_
  rw [mem_upFrom] at hi
  rw [CoreSt.spByte, if_neg (by omega)]

theorem CoreSt.spBytes_get {k : CoreSt} (h : tblWfD (0 : Byte) k.sp = true) (a n i : Nat) (hi : i < n) :
    (k.spBytes a n)[i]? = some (k.spByte (a + i)) := by
  rw [CoreSt.spBytes_eq h, List.getElem?_map, upFrom_get, if_pos hi]; rfl

@[simp] theorem CoreSt.spRead_length (k : CoreSt) (a n : Nat) : (k.spRead a n).length = n := by
  simp [CoreSt.spRead]

theorem CoreSt.spRead_bytes (k : CoreSt) (a n : Nat) : (k.spRead a n).map (·.1) = k.spBytes a n := by
  simp only [CoreSt.spRead, List.map_map]
  have : ((fun x : Byte × Bool => x.1) ∘ fun e : Byte × Nat => (e.1, k.spBad.contains (e.2 / 8))) = Prod.fst := rfl
  rw [this, List.map_fst_zip]
  rw [CoreSt.spBytes_length, upFrom_length]

theorem CoreSt.spRead_clean (k : CoreSt) (a n : Nat) (h : k.spBad = []) : (k.spRead a n).any (·.2) = false := by
  simp [CoreSt.spRead, h]

/-- A byte of scratchpad after a write below the pointer words. -/
theorem CoreSt.spByte_spPutAll {k : CoreSt} (h : tblWfD (0 : Byte) k.sp = true) (a : Nat) (bs : List Byte) (i : Nat) :
    (k.spPutAll a bs).spByte i =
      if a ≤ i ∧ i < a + bs.length ∧ i < 0x7FFC0 then bs.getD (i - a) 0 else k.spByte i := by
  have hw := (tblWfD_iff.1 h).1
  unfold CoreSt.spByte CoreSt.spPutAll CoreSt.chw
  by_cases hi : 0x7FFC0 ≤ i
  · rw [if_pos hi, if_pos hi, if_neg (by omega)]
  · rw [if_neg hi, if_neg hi, tblGet_setRange hw, List.length_take]
    by_cases hr : a ≤ i ∧ i < a + bs.length
    · rw [if_pos (by omega), if_pos (by omega), List.getElem?_take, if_pos (by omega), List.getD_eq_getElem?_getD]
    · rw [if_neg (by omega), if_neg (by omega)]

theorem State.wake_core (s : State) (b : Bool) (c a n d : Nat) : (s.wake b c a n).core d = s.core d := by
  unfold State.core; rw [State.wake_cores]

/-- What a write of scratchpad changes of its core, and that it changes no other. -/
theorem State.spWrite_core (s : State) (c a : Nat) (bs : List Byte) (d : Nat) :
    (s.spWrite c a bs).core d = if d = c ∧ bs ≠ [] then (s.core c).spWriteRaw a bs else s.core d := by
  unfold State.spWrite
  cases bs with
  | nil => simp
  | cons b r =>
    simp only [List.isEmpty_cons, Bool.false_eq_true, if_false]
    rw [State.wake_core]
    by_cases h : d = c
    · subst h; simp
    · rw [State.core_modCore_other _ _ h]; simp [h]

theorem CoreSt.spWriteRaw_spByte (k : CoreSt) (a : Nat) (bs : List Byte) (i : Nat) :
    (k.spWriteRaw a bs).spByte i = (k.spPutAll a bs).spByte i := by
  unfold CoreSt.spWriteRaw
  simp only
  split
  · rfl
  · rfl

/-- Every byte of every scratchpad after a write of one. -/
theorem State.spWrite_spByte {s : State} {c : Nat} (h : s.spOk c) (a : Nat) (bs : List Byte) (d i : Nat) :
    ((s.spWrite c a bs).core d).spByte i =
      if d = c ∧ a ≤ i ∧ i < a + bs.length ∧ i < 0x7FFC0 then bs.getD (i - a) 0 else (s.core d).spByte i := by
  rw [State.spWrite_core]
  by_cases hd : d = c
  · subst hd
    by_cases hb : bs = []
    · subst hb
      rw [if_neg (by simp), if_neg (by simp; omega)]
    · rw [if_pos ⟨rfl, hb⟩, CoreSt.spWriteRaw_spByte, CoreSt.spByte_spPutAll h]
      simp
  · rw [if_neg (by simp [hd]), if_neg (by simp [hd])]

/-! ## Device memory -/

theorem runsOf_flat (as : List Nat) :
    ((runsOf (as.map fun a => (a, ()))).flatMap fun r => upFrom r.1 r.2.length) = as := by
  induction as with
  | nil => rfl
  | cons a r ih =>
    simp only [List.map_cons, runsOf]
    split
    · next b vs rs hr =>
      rw [hr] at ih
      split
      · next hb =>
        rw [← ih, hb]; simp [upFrom]
      · rw [← ih]; simp [upFrom]
    · next hr => rw [hr] at ih; rw [← ih]; simp [upFrom]

theorem State.memRun_eq {s : State} (h : s.memOk) (a n : Nat) : s.memRun a n = (upFrom a n).map s.memByte := by
  unfold State.memRun
  rw [tblSpan_eq h]
  induction n generalizing a with
  | zero => rfl
  | succ n ih => simp only [upFrom, List.map_cons, List.zip_cons_cons, ih]; rfl

/-- A read of device memory gives each byte it names. -/
theorem State.memRead_eq {s : State} (h : s.memOk) (as : List Nat) : s.memRead as = (as.map s.memByte, s.draw.2) := by
  unfold State.memRead
  congr 1
  conv_rhs => rw [← runsOf_flat as]
  generalize runsOf (as.map fun a => (a, ())) = rs
  induction rs with
  | nil => rfl
  | cons r rs ih => rw [List.flatMap_cons, List.flatMap_cons, List.map_append, ih, State.memRun_eq h]

theorem State.memReadFrom_eq {s : State} (h : s.memOk) (hl : s.links = []) (die : Nat) (as : List Nat) :
    s.memReadFrom die as = (as.map s.memByte, s.draw.2) := by
  unfold State.memReadFrom
  rw [if_pos, State.memRead_eq h]
  simp [State.diesMeet, hl]

/-- Bytes that have been written and hold no error read as they are. -/
theorem State.memByte_written {s : State} {as : List Nat} {bs : List Byte} (hb : s.memBad = [])
    (h : as.map (fun a => tblFind s.mem a) = bs.map some) : as.map s.memByte = bs.map fun b => (b, false) := by
  induction as generalizing bs with
  | nil => cases bs <;> simp_all
  | cons a r ih =>
    cases bs with
    | nil => simp at h
    | cons b bs =>
      simp only [List.map_cons, List.cons.injEq] at h ⊢
      exact ⟨by simp [State.memByte, State.memCell, h.1, hb], ih h.2⟩

theorem tblFind_putRuns_ext (rs : List (Nat × List Byte)) : ∀ {m n : Tbl Byte}, memWf m = true → memWf n = true →
    (∀ a, tblFind m a = tblFind n a) →
    ∀ a, tblFind (rs.foldl (fun m r => tblPutRange m r.1 r.2) m) a =
      tblFind (rs.foldl (fun m r => tblPutRange m r.1 r.2) n) a := by
  induction rs with
  | nil => intro m n _ _ h; exact h
  | cons r rs ih =>
    intro m n hm hn h
    refine ih (memWf_putRange hm _ _) (memWf_putRange hn _ _) fun a => ?_
    rw [tblFind_putRange hm, tblFind_putRange hn, h]

/-- Bytes written one behind another are as bytes written one by one. -/
theorem tblFind_putAll_cons {m : Tbl Byte} (hm : memWf m = true) (w : Nat × Byte) (ws : List (Nat × Byte)) (x : Nat) :
    tblFind (memPutAll m (w :: ws)) x = tblFind (memPutAll (tblPutRange m w.1 [w.2]) ws) x := by
  unfold memPutAll
  simp only [show w :: ws = (w.1, w.2) :: ws from rfl, runsOf]
  split
  · next b vs rs hr =>
    rw [hr]
    split
    · next hb =>
      rw [List.foldl_cons, List.foldl_cons]
      refine tblFind_putRuns_ext rs (memWf_putRange hm _ _) (memWf_putRange (memWf_putRange hm _ _) _ _) (fun a => ?_) x
      rw [tblFind_putRange hm, tblFind_putRange (memWf_putRange hm _ _), tblFind_putRange hm]
      simp only [List.length_cons, List.length_nil]
      by_cases h1 : b ≤ a ∧ a < b + vs.length
      · rw [if_pos (by omega), if_pos h1, show a - w.1 = a - b + 1 by omega, List.getElem?_cons_succ]
      · rw [if_neg h1]
        by_cases h2 : a = w.1
        · subst h2; rw [if_pos (by omega), if_pos (by omega)]; simp
        · rw [if_neg (by omega), if_neg (by omega)]
    · rfl
  · next hr => rw [hr]; rfl

/-- A byte of device memory after a write that names no byte twice. -/
theorem tblFind_putAll {m : Tbl Byte} (hm : memWf m = true) {ws : List (Nat × Byte)} (hn : (ws.map (·.1)).Nodup)
    {w : Nat × Byte} (hw : w ∈ ws) : tblFind (memPutAll m ws) w.1 = some w.2 := by
  induction ws generalizing m with
  | nil => cases hw
  | cons v ws ih =>
    rw [tblFind_putAll_cons hm]
    simp only [List.map_cons, List.nodup_cons] at hn
    rcases List.mem_cons.1 hw with rfl | hw
    · rw [tblFind_putAll_other (memWf_putRange hm _ _) hn.1, tblFind_putRange hm]; simp
    · exact ih (memWf_putRange hm _ _) hn.2 hw

theorem State.memWrite_find {s : State} (h : s.memOk) {ws : List (Nat × Byte)} (hn : (ws.map (·.1)).Nodup)
    {w : Nat × Byte} (hw : w ∈ ws) : tblFind (s.memWrite ws).mem w.1 = some w.2 := by
  rw [State.memWrite_mem, if_neg (by rintro rfl; cases hw)]
  exact tblFind_putAll h hn hw

theorem State.wake_only (s : State) (b : Bool) (c a n : Nat) : ∃ cs, s.wake b c a n = { s with conts := cs } := by
  unfold State.wake
  split
  · exact ⟨_, rfl⟩
  · exact ⟨_, rfl⟩

theorem State.foldWake_only (is : List Nat) (s : State) :
    ∃ cs, is.foldl (fun s i => s.wake false 0 i 1) s = { s with conts := cs } := by
  induction is generalizing s with
  | nil => exact ⟨_, rfl⟩
  | cons i is ih =>
    obtain ⟨c, hc⟩ := s.wake_only false 0 i 1
    obtain ⟨d, hd⟩ := ih (s.wake false 0 i 1)
    exact ⟨d, by rw [List.foldl_cons, hd, hc]⟩

/-- A write of device memory changes it, its error marks, the writes of bank atomics that accesses may miss and the
continuations that it wakes, and nothing else. -/
theorem State.memWrite_only (s : State) (ws : List (Nat × Byte)) :
    ∃ m b ms cs, s.memWrite ws = { s with mem := m, memBad := b, missed := ms, conts := cs } := by
  unfold State.memWrite
  split
  · exact ⟨_, _, _, _, rfl⟩
  · rename_i a v r
    dsimp only
    generalize (if s.memBad.isEmpty = true then [] else _) = b
    generalize (if s.missed.isEmpty = true then [] else _) = ms
    split
    · exact ⟨_, _, _, _, rfl⟩
    · obtain ⟨c, hc⟩ := State.wake_only { s with mem := memPutAll s.mem ((a, v) :: r), memBad := b, missed := ms } false 0 a 1
      rw [hc]
      obtain ⟨d, hd⟩ := State.foldWake_only (((a, v) :: r).map fun w => w.1)
        { s with mem := memPutAll s.mem ((a, v) :: r), memBad := b, missed := ms, conts := c }
      rw [hd]
      exact ⟨_, _, _, _, rfl⟩

@[simp] theorem State.memWrite_core (s : State) (ws : List (Nat × Byte)) (c : Nat) :
    (s.memWrite ws).core c = s.core c := by
  obtain ⟨m, b, ms, cs, h⟩ := s.memWrite_only ws; rw [h]; rfl

@[simp] theorem State.memWrite_ctx (s : State) (ws : List (Nat × Byte)) (c k : Nat) :
    (s.memWrite ws).ctx c k = s.ctx c k := by unfold State.ctx; rw [State.memWrite_core]

/-- What a write of scratchpad changes besides. -/
theorem State.spWrite_only (s : State) (c a : Nat) (bs : List Byte) :
    ∃ cs ks, s.spWrite c a bs = { s with cores := cs, conts := ks } := by
  unfold State.spWrite
  split
  · exact ⟨_, _, rfl⟩
  · obtain ⟨d, hd⟩ := State.wake_only (s.modCore c fun k => k.spWriteRaw a bs) true c a bs.length
    rw [hd]; exact ⟨_, _, rfl⟩

@[simp] theorem State.spWrite_ctx (s : State) (c a : Nat) (bs : List Byte) (d k : Nat) :
    (s.spWrite c a bs).ctx d k = s.ctx d k := by
  unfold State.ctx
  rw [State.spWrite_core]
  split
  · next h =>
    rw [h.1]; unfold CoreSt.spWriteRaw CoreSt.spPutAll; dsimp only; split <;> rfl
  · rfl

theorem State.memWriteFrom_eq {s : State} (hl : s.links = []) (die : Nat) (ws : List (Nat × Byte)) :
    s.memWriteFrom die ws = (s.hide ws).memWrite ws := by
  have h : (ws.filter fun w => s.diesMeet die (homeDie w.1)) = ws :=
    List.filter_eq_self.2 fun w _ => by simp [State.diesMeet, hl]
  unfold State.memWriteFrom
  rw [h]

end Sys2Proof.Machine
end

