-- ==== Sys2Proof/Laws/Decode.lean ====
section
/-! SUPPORT. Laws of the decoder and the encoder: the fields of a word that was put together from them. -/
namespace Sys2Proof

/-- Put together from its upper and lower part, a bit field is what it was. -/
@[simp] theorem append_parts (m n : Nat) (v : BitVec (m + n)) :
    (v.extractLsb' n m ++ v.extractLsb' 0 n : BitVec (m + n)) = v := by
  ext i hi
  simp only [BitVec.getElem_append, BitVec.getElem_extractLsb']
  split
  · simp [BitVec.getLsbD_eq_getElem hi]
  · rw [show n + (i - n) = i by omega, BitVec.getLsbD_eq_getElem hi]

@[simp] theorem extract_upper {m n : Nat} (a : BitVec m) (b : BitVec n) : (a ++ b).extractLsb' n m = a := by
  ext i hi
  simp [BitVec.getLsbD_append, BitVec.getLsbD_eq_getElem hi]

@[simp] theorem extract_lower {m n : Nat} (a : BitVec m) (b : BitVec n) : (a ++ b).extractLsb' 0 n = b := by
  ext i hi
  simp [BitVec.getLsbD_append, hi]

/-- Bits above the lower part are bits of the upper part. -/
theorem extract_above {m n : Nat} (a : BitVec m) (b : BitVec n) (lo len : Nat) :
    (a ++ b).extractLsb' (n + lo) len = a.extractLsb' lo len := by
  ext i hi
  simp only [BitVec.getElem_extractLsb', BitVec.getLsbD_append]
  rw [if_neg (by omega), show n + lo + i - n = lo + i by omega]

/-- Bits of the lower part. -/
theorem extract_within {m n : Nat} (a : BitVec m) (b : BitVec n) (lo len : Nat) (h : lo + len ≤ n) :
    (a ++ b).extractLsb' lo len = b.extractLsb' lo len := by
  ext i hi
  simp only [BitVec.getElem_extractLsb', BitVec.getLsbD_append]
  rw [if_pos (by omega)]

/-- The sequencer's decoder sees the fields of a word of format XR. -/
theorem decodeSeq_xr (f7 : BitVec 7) (b s : BitVec 5) (f3 : BitVec 3) (d : BitVec 5) (op : BitVec 7) :
    decodeSeq? (xr f7 b s f3 d op) = decodeFields f7 b s f3 d op := by
  unfold decodeSeq? xr
  congr 1 <;> (ext i hi; simp [BitVec.getLsbD_append, BitVec.getElem_append]; try grind)

/-- A word of format XI is one of format XR with its immediate cut in two. -/
theorem xi_eq_xr (i : BitVec 12) (s : BitVec 5) (f3 : BitVec 3) (d : BitVec 5) (op : BitVec 7) :
    xi i s f3 d op = xr (i.extractLsb' 5 7) (i.extractLsb' 0 5) s f3 d op := by
  unfold xi xr; rw [append_parts 7 5 i]

theorem decodeSeq_xi (i : BitVec 12) (s : BitVec 5) (f3 : BitVec 3) (d : BitVec 5) (op : BitVec 7) :
    decodeSeq? (xi i s f3 d op) = decodeFields (i.extractLsb' 5 7) (i.extractLsb' 0 5) s f3 d op := by
  rw [xi_eq_xr, decodeSeq_xr]

/-- A word of the upper-immediate forms, as one of format XR. -/
theorem decodeSeq_upper (u : BitVec 20) (d : BitVec 5) (op : BitVec 7) :
    decodeSeq? (u ++ d ++ op) =
      decodeFields (u.extractLsb' 13 7) (u.extractLsb' 8 5) (u.extractLsb' 3 5) (u.extractLsb' 0 3) d op := by
  unfold decodeSeq?
  congr 1 <;> (ext i hi; simp [BitVec.getLsbD_append, BitVec.getElem_append]; try grind)

@[simp] theorem upper_parts (u : BitVec 20) :
    (u.extractLsb' 13 7 ++ u.extractLsb' 8 5 ++ u.extractLsb' 3 5 ++ u.extractLsb' 0 3 : BitVec 20) = u := by
  ext i hi
  simp only [BitVec.getElem_append, BitVec.getElem_extractLsb']
  grind

/-! ## Engine words -/

/-- An engine's decoder sees the opcode, the frame and the payload of a word. -/
theorem decodeWord_frame (e : Engine) (op : BitVec 8) (f : Frame) (p : BitVec 28) :
    decodeWord? e (encodeFrame op f p) = decodeFrame e op f p := by
  have h1 : (encodeFrame op f p).extractLsb' 40 8 = op := by
    ext i hi; simp [encodeFrame]; grind
  have h2 : (encodeFrame op f p).extractLsb' 0 28 = p := by
    ext i hi; simp [encodeFrame]; grind
  have h3 : frameOf (encodeFrame op f p) = f := by
    obtain ⟨pl, pr, hl, hr, k, rep⟩ := f
    simp only [frameOf, encodeFrame, Frame.mk.injEq]
    refine ⟨?_, ?_, ?_, ?_, ?_, ?_⟩
    · simp only [BitVec.getLsbD_append]; simp
    · simp only [BitVec.getLsbD_append]; simp
    · simp only [BitVec.getLsbD_append]; simp
    · simp only [BitVec.getLsbD_append]; simp
    · ext i hi; simp; grind
    · ext i hi; simp; grind
  simp only [decodeWord?, h1, h2, h3]

@[simp] theorem vxFieldsOf_bits (p : VxFields) : vxFieldsOf p.bits = p := by
  obtain ⟨g, n, d, a, b, c, f, sa, st⟩ := p
  simp only [vxFieldsOf, VxFields.bits, VxFields.mk.injEq]
  refine ⟨?_, ?_, ?_, ?_, ?_, ?_, ?_, ?_, ?_⟩ <;>
    first
    | (ext i hi; simp; grind)
    | (simp only [BitVec.getLsbD_append]; simp)

@[simp] theorem lsFieldsOf_bits (p : LsFields) : lsFieldsOf p.bits = p := by
  obtain ⟨g, n, sl, es, f, sa, off⟩ := p
  simp only [lsFieldsOf, LsFields.bits, LsFields.mk.injEq]
  refine ⟨?_, ?_, ?_, ?_, ?_, ?_, ?_⟩ <;>
    first
    | (ext i hi; simp; grind)
    | (simp only [BitVec.getLsbD_append]; simp)

@[simp] theorem mxFieldsOf_bits (p : MxFields) : mxFieldsOf p.bits = p ∧ p.bits.getLsbD 13 = false := by
  obtain ⟨a, b, t, acc, md, imm⟩ := p
  simp only [mxFieldsOf, MxFields.bits, MxFields.mk.injEq]
  refine ⟨⟨?_, ?_, ?_, ?_, ?_, ?_⟩, ?_⟩ <;>
    first
    | (ext i hi; simp; grind)
    | (simp only [BitVec.getLsbD_append]; simp)

@[simp] theorem cpFieldsOf_bits (p : CpFields) : cpFieldsOf p.bits = p ∧ p.bits.extractLsb' 13 8 = 0 := by
  obtain ⟨ch, es, sa, card⟩ := p
  simp only [cpFieldsOf, CpFields.bits, CpFields.mk.injEq]
  refine ⟨⟨?_, ?_, ?_, ?_⟩, ?_⟩ <;>
    first
    | (ext i hi; simp; grind)
    | (simp only [BitVec.getLsbD_append]; simp)

theorem VxOp.decode_encode (o : VxOp) (f : Frame) (p : VxFields) (h : o.fieldsOk p = true) :
    decodeWord .vx (o.encode f p) = o.toInstr f p := by
  have hc : ¬ o.code.extractLsb' 4 4 = 0xF ∧ VxOp.ofCode o.code = some o := by cases o <;> decide
  have hd : decodeFrame .vx o.code f p.bits = .ok (o.toInstr f p) := by
    rw [decodeFrame, if_neg hc.1]
    simp only [decodeOp, hc.2]
    simp [keep, h]
  simp only [decodeWord, VxOp.encode, decodeWord_frame, hd]

theorem LdOp.decode_encode (o : LdOp) (f : Frame) (p : LsFields) (h : o.fieldsOk p = true) :
    decodeWord .ld (o.encode f p) = o.toInstr f p := by
  have hc : ¬ o.code.extractLsb' 4 4 = 0xF ∧ LdOp.ofCode o.code = some o := by cases o <;> decide
  have hd : decodeFrame .ld o.code f p.bits = .ok (o.toInstr f p) := by
    rw [decodeFrame, if_neg hc.1]
    simp only [decodeOp, hc.2]
    simp [keep, h]
  simp only [decodeWord, LdOp.encode, decodeWord_frame, hd]

theorem StOp.decode_encode (o : StOp) (f : Frame) (p : LsFields) (h : o.fieldsOk p = true) :
    decodeWord .st (o.encode f p) = o.toInstr f p := by
  have hc : ¬ o.code.extractLsb' 4 4 = 0xF ∧ StOp.ofCode o.code = some o := by cases o <;> decide
  have hd : decodeFrame .st o.code f p.bits = .ok (o.toInstr f p) := by
    rw [decodeFrame, if_neg hc.1]
    simp only [decodeOp, hc.2]
    simp [keep, h]
  simp only [decodeWord, StOp.encode, decodeWord_frame, hd]

theorem MxOp.decode_encode (o : MxOp) (f : Frame) (p : MxFields) (h : o.fieldsOk p = true) :
    decodeWord .mx (o.encode f p) = o.toInstr f p := by
  have hc : ¬ o.code.extractLsb' 4 4 = 0xF ∧ MxOp.ofCode o.code = some o := by cases o <;> decide
  have hd : decodeFrame .mx o.code f p.bits = .ok (o.toInstr f p) := by
    rw [decodeFrame, if_neg hc.1]
    simp only [decodeOp, hc.2, (mxFieldsOf_bits p).1, (mxFieldsOf_bits p).2]
    simp [keep, h]
  simp only [decodeWord, MxOp.encode, decodeWord_frame, hd]

theorem CpOp.decode_encode (o : CpOp) (f : Frame) (p : CpFields) :
    decodeWord .cp (o.encode f p) = o.toInstr f p := by
  have hc : ¬ o.code.extractLsb' 4 4 = 0xF ∧ CpOp.ofCode o.code = some o := by cases o <;> decide
  have hd : decodeFrame .cp o.code f p.bits = .ok (o.toInstr f p) := by
    rw [decodeFrame, if_neg hc.1]
    simp only [decodeOp, hc.2]
    simp [keep]
  simp only [decodeWord, CpOp.encode, decodeWord_frame, hd]

end Sys2Proof
end

