-- ==== Sys2Proof/Laws/Exec.lean ====
section
/-! SUPPORT. What running an instruction for an agent can do: it answers a next state exactly when the agent is of the
instruction's kind, and then it is the state of the instruction's operation. -/
namespace Sys2Proof.Machine
open Sys2Proof

theorem asSeq_of {f : Nat → Nat → State → State} {s : State} {c k : Nat} (h : s.at_ = .seq c k) :
    asSeq f s = .next (f c k s) := by simp [asSeq, h]

theorem asVx_of {o : VxOp} {f : Frame} {p : VxFields} {s : State} {c : Nat} (h : s.at_ = .engine c .vx) :
    asVx o f p s = .next (s.issueVx c o f p) := by simp [asVx, h]

theorem asLd_of {o : LdOp} {f : Frame} {p : LsFields} {s : State} {c : Nat} (h : s.at_ = .engine c .ld) :
    asLd o f p s = .next (s.issueLd c o f p) := by simp [asLd, h]

theorem asSt_of {o : StOp} {f : Frame} {p : LsFields} {s : State} {c : Nat} (h : s.at_ = .engine c .st) :
    asSt o f p s = .next (s.issueSt c o f p) := by simp [asSt, h]

theorem asMx_of {o : MxOp} {f : Frame} {p : MxFields} {s : State} {c : Nat} (h : s.at_ = .engine c .mx) :
    asMx o f p s = .next (s.issueMx c o f p) := by simp [asMx, h]

theorem asCp_of {o : CpOp} {f : Frame} {p : CpFields} {s : State} {c : Nat} (h : s.at_ = .engine c .cp) :
    asCp o f p s = .next (s.issueCp c o p) := by simp [asCp, h]

/-- An instruction run for an agent that answers a next state ran for a context of its core. -/
theorem asSeq_next {f : Nat → Nat → State → State} {s t : State} (h : asSeq f s = .next t) :
    ∃ c k, s.at_ = .seq c k ∧ t = f c k s := by
  unfold asSeq at h
  split at h
  · rename_i c k hc; exact ⟨c, k, hc, by cases h; rfl⟩
  · cases h

theorem asVx_next {o : VxOp} {f : Frame} {p : VxFields} {s t : State} (h : asVx o f p s = .next t) :
    ∃ c, s.at_ = .engine c .vx ∧ t = s.issueVx c o f p := by
  unfold asVx at h
  split at h
  · rename_i c hc; exact ⟨c, hc, by cases h; rfl⟩
  · cases h

theorem asLd_next {o : LdOp} {f : Frame} {p : LsFields} {s t : State} (h : asLd o f p s = .next t) :
    ∃ c, s.at_ = .engine c .ld ∧ t = s.issueLd c o f p := by
  unfold asLd at h
  split at h
  · rename_i c hc; exact ⟨c, hc, by cases h; rfl⟩
  · cases h

theorem asSt_next {o : StOp} {f : Frame} {p : LsFields} {s t : State} (h : asSt o f p s = .next t) :
    ∃ c, s.at_ = .engine c .st ∧ t = s.issueSt c o f p := by
  unfold asSt at h
  split at h
  · rename_i c hc; exact ⟨c, hc, by cases h; rfl⟩
  · cases h

theorem asMx_next {o : MxOp} {f : Frame} {p : MxFields} {s t : State} (h : asMx o f p s = .next t) :
    ∃ c, s.at_ = .engine c .mx ∧ t = s.issueMx c o f p := by
  unfold asMx at h
  split at h
  · rename_i c hc; exact ⟨c, hc, by cases h; rfl⟩
  · cases h

theorem asCp_next {o : CpOp} {f : Frame} {p : CpFields} {s t : State} (h : asCp o f p s = .next t) :
    ∃ c, s.at_ = .engine c .cp ∧ t = s.issueCp c o p := by
  unfold asCp at h
  split at h
  · rename_i c hc; exact ⟨c, hc, by cases h; rfl⟩
  · cases h

/-- Every VX word runs through the one operation of VX issues. -/
theorem exec_vx (o : VxOp) (f : Frame) (p : VxFields) (s : State) : exec (o.toInstr f p) s = asVx o f p s := by
  cases o <;> rfl

theorem exec_ld (o : LdOp) (f : Frame) (p : LsFields) (s : State) : exec (o.toInstr f p) s = asLd o f p s := by
  cases o <;> rfl

theorem exec_st (o : StOp) (f : Frame) (p : LsFields) (s : State) : exec (o.toInstr f p) s = asSt o f p s := by
  cases o <;> rfl

theorem exec_mx (o : MxOp) (f : Frame) (p : MxFields) (s : State) : exec (o.toInstr f p) s = asMx o f p s := by
  cases o <;> rfl

theorem exec_cp (o : CpOp) (f : Frame) (p : CpFields) (s : State) : exec (o.toInstr f p) s = asCp o f p s := by
  cases o <;> rfl

end Sys2Proof.Machine
end

