-- ==== Sys2Proof/Laws/Frames.lean ====
section
/-! SUPPORT. What the operations that end an instruction leave as it was, in the relations of Safety.lean: each
operation once, for the provers to cite. -/
namespace Sys2Proof.Machine
open Sys2Proof

theorem Ctx.setReg_eq (x : Ctx) (r : BitVec 5) (v : Word) : x.setReg r v = { x with x := (x.setReg r v).x } := by
  unfold Ctx.setReg; split <;> rfl

theorem OnlyCores.refl (s : State) : OnlyCores s s := rfl

theorem OnlyCore.refl (c : Nat) (s : State) : OnlyCore c s s := ⟨rfl, fun _ _ => rfl⟩

theorem SameBytes.refl (s : State) : SameBytes s s := ⟨fun _ => rfl, fun _ => rfl, fun _ _ => rfl⟩

theorem OnlyCores.trans {s t u : State} (h : OnlyCores s t) (g : OnlyCores t u) : OnlyCores s u := by
  unfold OnlyCores at *; rw [g, h]

theorem OnlyCore.trans {c : Nat} {s t u : State} (h : OnlyCore c s t) (g : OnlyCore c t u) : OnlyCore c s u :=
  ⟨h.1.trans g.1, fun d hd => (g.2 d hd).trans (h.2 d hd)⟩

theorem SameBytes.trans {s t u : State} (h : SameBytes s t) (g : SameBytes t u) : SameBytes s u :=
  ⟨fun a => (g.1 a).trans (h.1 a), fun a => (g.2.1 a).trans (h.2.1 a), fun c a => (g.2.2 c a).trans (h.2.2 c a)⟩

theorem onlyCore_setCore (c : Nat) (s : State) (v : CoreSt) : OnlyCore c s (s.setCore c v) :=
  ⟨rfl, fun _ h => s.core_setCore_other v h⟩

theorem onlyCore_modCore (c : Nat) (s : State) (f : CoreSt → CoreSt) : OnlyCore c s (s.modCore c f) :=
  onlyCore_setCore c s _

theorem onlyCore_modOwn (c : Nat) (s : State) (f : Own → Own) : OnlyCore c s (s.modOwn c f) := onlyCore_setCore c s _

theorem onlyCore_modCtx (c k : Nat) (s : State) (f : Ctx → Ctx) : OnlyCore c s (s.modCtx c k f) := onlyCore_setCore c s _

/-- A byte of a scratchpad depends on its bytes and its pointers alone. -/
theorem CoreSt.spByte_congr {k j : CoreSt} (h : k.sp = j.sp) (g : k.chwp = j.chwp) (a : Nat) : k.spByte a = j.spByte a := by
  simp only [CoreSt.spByte, CoreSt.chw, h, g]

theorem CoreSt.spBytes_congr {k j : CoreSt} (h : k.sp = j.sp) (g : k.chwp = j.chwp) (a n : Nat) :
    k.spBytes a n = j.spBytes a n := by
  have : k.spByte = j.spByte := funext (CoreSt.spByte_congr h g)
  simp only [CoreSt.spBytes, h, this]

/-- No byte differs where the memories and the bytes and pointers of each scratchpad are the same. -/
theorem sameBytes_of {s t : State} (hm : t.mem = s.mem) (hw : t.ws = s.ws)
    (h : ∀ c, (t.core c).sp = (s.core c).sp ∧ (t.core c).chwp = (s.core c).chwp) : SameBytes s t :=
  ⟨fun a => by rw [hm], fun a => by rw [hw], fun c a => CoreSt.spByte_congr (h c).1 (h c).2 a⟩

theorem sameBytes_setCore (c : Nat) (s : State) (v : CoreSt) (h : v.sp = (s.core c).sp) (g : v.chwp = (s.core c).chwp) :
    SameBytes s (s.setCore c v) := by
  refine sameBytes_of rfl rfl fun d => ?_
  rw [State.core_setCore]; split
  · next e => subst e; exact ⟨h, g⟩
  · exact ⟨rfl, rfl⟩

theorem sameBytes_modOwn (c : Nat) (s : State) (f : Own → Own) : SameBytes s (s.modOwn c f) :=
  sameBytes_setCore c s _ rfl rfl

theorem sameBytes_modCtx (c k : Nat) (s : State) (f : Ctx → Ctx) : SameBytes s (s.modCtx c k f) :=
  sameBytes_setCore c s _ rfl rfl

/-- A change of one context is a change of that context only. -/
theorem onlyCtx_modCtx (c k : Nat) (s : State) (f : Ctx → Ctx) : OnlyCtx c k s (s.modCtx c k f) := by
  refine ⟨onlyCore_modCtx c k s f, ?_, fun j hj => State.ctx_modCtx_other s f (.inr hj)⟩
  rw [State.core_modCtx_self]; rfl

/-- Going on with a result written to rd changes the program counter and rd only. -/
theorem onlyPcRegOf_done (c k : Nat) (rd : BitVec 5) (s : State) (v : Word) (h : (s.ctx c k).wait = .none) :
    OnlyPcRegOf c k rd s (s.seqDone c k rd v) := by
  unfold OnlyPcRegOf State.seqDone
  rw [State.ctx_modCtx_self]
  refine ⟨?_, fun r hr => ?_⟩
  · rw [Ctx.setReg_eq, Ctx.next]; simp only [h]
  · rw [Ctx.reg_next, Ctx.reg_setReg, if_neg hr]; split
    · next e => rw [e]; rfl
    · rfl

theorem onlyPcReg_done (c k : Nat) (rd : BitVec 5) (s : State) (v : Word) (h : (s.ctx c k).wait = .none) :
    OnlyPcReg c k rd s (s.seqDone c k rd v) := ⟨onlyCtx_modCtx c k s _, onlyPcRegOf_done c k rd s v h⟩

theorem onlyPcReg_next (c k : Nat) (s : State) (h : (s.ctx c k).wait = .none) : OnlyPcReg c k 0 s (s.seqNext c k) :=
  onlyPcReg_done c k 0 s 0 h

@[simp] theorem pc_seqDone (c k : Nat) (rd : BitVec 5) (s : State) (v : Word) :
    ((s.seqDone c k rd v).ctx c k).pc = (s.ctx c k).pc + 4 := by
  unfold State.seqDone; rw [State.ctx_modCtx_self, Ctx.next_pc, Ctx.setReg_pc]

@[simp] theorem pc_seqNext (c k : Nat) (s : State) : ((s.seqNext c k).ctx c k).pc = (s.ctx c k).pc + 4 := by
  unfold State.seqNext; rw [State.ctx_modCtx_self, Ctx.next_pc]

theorem reg_seqDone (c k : Nat) (rd r : BitVec 5) (s : State) (v : Word) :
    ((s.seqDone c k rd v).ctx c k).reg r = if r = 0 then 0 else if r = rd then v else (s.ctx c k).reg r := by
  unfold State.seqDone; rw [State.ctx_modCtx_self, Ctx.reg_next, Ctx.reg_setReg]

@[simp] theorem reg_seqDone_self (c k : Nat) (rd : BitVec 5) (s : State) (v : Word) :
    ((s.seqDone c k rd v).ctx c k).reg rd = if rd = 0 then 0 else v := by rw [reg_seqDone]; simp

@[simp] theorem wait_seqDone (c k : Nat) (rd : BitVec 5) (s : State) (v : Word) :
    ((s.seqDone c k rd v).ctx c k).wait = .none := by
  unfold State.seqDone; rw [State.ctx_modCtx_self, Ctx.next_wait]

theorem sameBytes_seqDone (c k : Nat) (rd : BitVec 5) (s : State) (v : Word) : SameBytes s (s.seqDone c k rd v) :=
  sameBytes_modCtx c k s _

theorem OnlyCtx.trans {c k : Nat} {s t u : State} (h : OnlyCtx c k s t) (g : OnlyCtx c k t u) : OnlyCtx c k s u := by
  refine ⟨h.1.trans g.1, ?_, fun j hj => (g.2.2 j hj).trans (h.2.2 j hj)⟩
  rw [g.2.1, h.2.1]

/-- A result written after a step that leaves the context as it was. -/
theorem onlyPcRegOf_after {c k : Nat} {rd : BitVec 5} {s u : State} {v : Word} (h : (s.ctx c k).wait = .none)
    (e : u.ctx c k = s.ctx c k) : OnlyPcRegOf c k rd s (u.seqDone c k rd v) := by
  have := onlyPcRegOf_done c k rd u v (by rw [e]; exact h)
  unfold OnlyPcRegOf at *
  rwa [e] at this

theorem onlyPcRegOf_goesOn {c k : Nat} {s u : State} (h : (s.ctx c k).wait = .none)
    (e : u.ctx c k = s.ctx c k) : OnlyPcRegOf c k 0 s (u.seqNext c k) := onlyPcRegOf_after (v := 0) h e

/-- A change of a core that leaves its contexts leaves each of them. -/
theorem ctx_modCore {s : State} {c k : Nat} (f : CoreSt → CoreSt) (h : ∀ q, (f q).ctxs = q.ctxs) :
    (s.modCore c f).ctx c k = s.ctx c k := by
  unfold State.ctx CoreSt.ctx; rw [State.core_modCore_self, h]

theorem core_seqDone (u : State) (c k : Nat) (rd : BitVec 5) (v : Word) :
    (u.seqDone c k rd v).core c = (u.core c).setCtx k ((u.ctx c k).setReg rd v).next := by
  unfold State.seqDone; rw [State.core_modCtx_self]

@[simp] theorem own_seqDone (u : State) (c k : Nat) (rd : BitVec 5) (v : Word) (d : Nat) :
    (u.seqDone c k rd v).own d = u.own d := by unfold State.seqDone; rw [State.own_modCtx]

@[simp] theorem own_seqNext (u : State) (c k d : Nat) : (u.seqNext c k).own d = u.own d := by
  unfold State.seqNext; rw [State.own_modCtx]

@[simp] theorem own_seqWait (u : State) (c k : Nat) (w : Wait) (d : Nat) : (u.seqWait c k w).own d = u.own d := by
  unfold State.seqWait; rw [State.own_modCtx]

/-- A context that has gone on with a result. -/
theorem ctx_seqDone (u : State) (c k : Nat) (rd : BitVec 5) (v : Word) :
    (u.seqDone c k rd v).ctx c k =
      { u.ctx c k with x := ((u.ctx c k).setReg rd v).x, pc := (u.ctx c k).pc + 4, wait := .none } := by
  unfold State.seqDone Ctx.next; rw [State.ctx_modCtx_self, Ctx.setReg_eq]

theorem ctx_seqNext (u : State) (c k : Nat) :
    (u.seqNext c k).ctx c k = { u.ctx c k with pc := (u.ctx c k).pc + 4, wait := .none } := by
  unfold State.seqNext Ctx.next; rw [State.ctx_modCtx_self]

theorem ctx_seqWait (u : State) (c k : Nat) (w : Wait) : (u.seqWait c k w).ctx c k = { u.ctx c k with wait := w } := by
  unfold State.seqWait; rw [State.ctx_modCtx_self]

/-- An instruction of the owner's runs at once for the owner (12_sequencer.md R262). -/
theorem asOwner_of {s : State} {c k : Nat} (h : (s.core c).owner = some k) (f : State → State) :
    s.asOwner c k f = f s := by
  simp [State.asOwner, State.acquire, h]

/-- A trap is taken at the instruction of a context that waits inside none (12_sequencer.md R261, 19_faults.md R335). -/
theorem trapTaken_seqTrap (c k : Nat) (s : State) (cause : BitVec 8) (status : BitVec 32) (addr : Word) (rd : BitVec 5)
    (hw : (s.ctx c k).wait = .none) (ht : (s.ctx c k).trapped = none) :
    TrapTaken c k cause status addr s (s.seqTrap c k cause status addr rd) := by
  let r : Record := { s.blankRecord c k with
    cause := cause, status := status, addr := addr, rd := rd, heads := (s.own c).heads }
  have hu : s.unwait c k = s.setCtx c k (s.ctx c k) := by
    unfold State.unwait
    simp only [hw]
    rw [← hw]
  have hr : ∃ u : State, u = (s.setCtx c k (s.ctx c k)).modCtx c k (fun y => { y with trapped := some { r := r, seq := none } }) ∧
      s.seqTrap c k cause status addr rd = { u with held := s.held ++ [r] } := by
    refine ⟨_, rfl, ?_⟩
    unfold State.seqTrap State.postRecord
    have hc : (s.blankRecord c k).core = c := rfl
    have hk : (s.blankRecord c k).ctx = k := rfl
    simp only [hc, hk, ht, hu]
    rfl
  obtain ⟨u, hu', e⟩ := hr
  have h1 : u.ctx c k = { s.ctx c k with trapped := some { r := r, seq := none } } := by
    rw [hu', State.ctx_modCtx_self, State.ctx_setCtx_self]
  have h2 : ∀ d, d ≠ c → u.core d = s.core d := fun d hd => by
    rw [hu', State.core_modCtx_other _ _ _ hd]; exact State.core_modCore_other _ _ hd
  have h3 : u.core c = { s.core c with ctxs := (u.core c).ctxs } := by
    rw [hu', State.core_modCtx_self, State.setCtx, State.core_modCore_self]; rfl
  have h4 : ∀ j, j ≠ k → u.ctx c j = s.ctx c j := fun j hj => by
    rw [hu', State.ctx_modCtx_other _ _ (.inr hj), State.ctx_setCtx_other _ _ (.inr hj)]
  have h5 : u = { s with cores := u.cores } := by rw [hu']; rfl
  rw [e]
  refine ⟨r, rfl, rfl, rfl, rfl, rfl, rfl, rfl, rfl, rfl, h1, ?_, h2, h3, h4⟩
  rw [h5]

end Sys2Proof.Machine
end

