-- ==== Sys2Proof/Laws/MemFrame.lean ====
section
/-! SUPPORT. What each operation of the machine does to device memory: most leave it as it is (`_mem`); the few that
write it keep its canonical form (`_memWf`). -/
namespace Sys2Proof.Machine

@[simp] theorem foldl_mem {α : Type} (f : State → α → State) (h : ∀ s x, (f s x).mem = s.mem) (l : List α)
    (s : State) : (l.foldl f s).mem = s.mem := by
  induction l generalizing s with
  | nil => rfl
  | cons x l ih => rw [List.foldl_cons, ih, h]

@[simp] theorem foldl_memWf {α : Type} (f : State → α → State)
    (h : ∀ s x, memWf s.mem = true → memWf (f s x).mem = true) (l : List α) (s : State)
    (hs : memWf s.mem = true) : memWf (l.foldl f s).mem = true := by
  induction l generalizing s with
  | nil => exact hs
  | cons x l ih => rw [List.foldl_cons]; exact ih _ (h _ _ hs)

@[simp] theorem State.flag_mem (s : State) (c k : Nat) (f : Flg) : (s.flag c k f).mem = s.mem := by
  unfold State.flag
  split <;> simp

@[simp] theorem State.hubCount_mem (s : State) (off lo n k : Nat) : (s.hubCount off lo n k).mem = s.mem := by
  simp [State.hubCount]

@[simp] theorem State.hubField_mem (s : State) (off lo n v : Nat) : (s.hubField off lo n v).mem = s.mem := by
  simp [State.hubField]

@[simp] theorem State.spWrite_mem (s : State) (c a : Nat) (bs : List Byte) : (s.spWrite c a bs).mem = s.mem := by
  unfold State.spWrite
  split <;> simp

@[simp] theorem State.chwAdd_mem (s : State) (c ch n : Nat) : (s.chwAdd c ch n).mem = s.mem := by
  unfold State.chwAdd
  split <;> simp

@[simp] theorem State.hide_mem (s : State) (ws : List (Nat × Byte)) :
    (s.hide ws).mem = s.mem := by
  simp [State.hide]

@[simp] theorem State.reveal_mem (s : State) (p : Nat → Bool) :
    (s.reveal p).mem = s.mem := by
  simp [State.reveal]

@[simp] theorem State.memRead_mem (s : State) (as : List Nat) : (s.memRead as).2.mem = s.mem := by
  simp [State.memRead]

@[simp] theorem State.memWrite_memWf (s : State) (ws : List (Nat × Byte)) (h : memWf s.mem = true) :
    memWf (s.memWrite ws).mem = true := State.memOk_memWrite h ws

@[simp] theorem State.memWriteOut_memWf (s : State) (ws : List (Nat × Byte)) (h : memWf s.mem = true) :
    memWf (s.memWriteOut ws).mem = true := by
  unfold State.memWriteOut
  (repeat' split) <;> simp_all

@[simp] theorem State.memReadFrom_mem (s : State) (die : Nat) (as : List Nat) :
    (s.memReadFrom die as).2.mem = s.mem := by
  unfold State.memReadFrom
  split <;> simp

@[simp] theorem State.memWriteFrom_memWf (s : State) (die : Nat) (ws : List (Nat × Byte)) (h : memWf s.mem = true) :
    memWf (s.memWriteFrom die ws).mem = true := by
  unfold State.memWriteFrom
  (repeat' split) <;> simp_all

@[simp] theorem State.dvaRead_mem (s : State) (c dva n : Nat) : (s.dvaRead c dva n).2.mem = s.mem := by
  simp [State.dvaRead]

@[simp] theorem State.missOrSettle_mem (s : State) (c : Nat) (r : Reader) (as : List Nat) (bs : List (Byte × Bool)) :
    (s.missOrSettle c r as bs).2.mem = s.mem := by
  unfold State.missOrSettle
  dsimp only
  split <;> simp

@[simp] theorem State.look_mem (s : State) (c : Nat) (r : Reader) (as : List Nat) : (s.look c r as).2.mem = s.mem := by
  unfold State.look
  dsimp only
  split <;> simp

@[simp] theorem State.dvaLook_mem (s : State) (c : Nat) (r : Reader) (dva n : Nat) :
    (s.dvaLook c r dva n).2.mem = s.mem := by
  simp [State.dvaLook]

@[simp] theorem State.settleMissed_mem (s : State) (c k n : Nat) :
    (s.settleMissed c k n).mem = s.mem := by
  unfold State.settleMissed
  (repeat' split) <;> simp

@[simp] theorem State.fenceMissed_mem (s : State) (c : Nat) : (s.fenceMissed c).mem = s.mem := by
  unfold State.fenceMissed
  dsimp only
  (repeat' split) <;> simp

@[simp] theorem State.maybeMiss_mem (s : State) (c : Nat) (j : Job) (n : Option Nat) (olds : List (Nat × Option Byte)) :
    (s.maybeMiss c j n olds).mem = s.mem := by
  unfold State.maybeMiss
  (repeat' split) <;> simp

@[simp] theorem State.dvaWrite_memWf (s : State) (c dva : Nat) (bs : List Byte) (h : memWf s.mem = true) :
    memWf (s.dvaWrite c dva bs).mem = true := by
  unfold State.dvaWrite
  (repeat' split) <;> simp_all

@[simp] theorem State.outRead_mem (s : State) (site : Nat) (as : List Nat) :
    (s.outRead site as).2.mem = s.mem := by
  simp [State.outRead]

@[simp] theorem State.outWrite_memWf (s : State) (site : Nat) (ws : List (Nat × Byte)) (h : memWf s.mem = true) :
    memWf (s.outWrite site ws).mem = true := by
  unfold State.outWrite
  (repeat' split) <;> simp_all

@[simp] theorem State.walkPut_memWf (s : State) (site p dva : Nat) (v : Word) (h : memWf s.mem = true) :
    memWf (s.walkPut site p dva v).mem = true := by
  unfold State.walkPut
  (repeat' split) <;> simp_all

@[simp] theorem State.unwait_mem (s : State) (c k : Nat) : (s.unwait c k).mem = s.mem := by
  unfold State.unwait
  dsimp only
  split <;> simp

@[simp] theorem State.postRecord_mem (s : State) (r : Record) : (s.postRecord r).mem = s.mem := by
  unfold State.postRecord
  dsimp only
  split <;> simp

@[simp] theorem State.postPlain_mem (s : State) (r : Record) : (s.postPlain r).mem = s.mem := by
  simp [State.postPlain]

@[simp] theorem State.seqTrap_mem (s : State) (c k : Nat) (cause : BitVec 8) (status : BitVec 32) (addr : Word) (rd :
    BitVec 5) :
    (s.seqTrap c k cause status addr rd).mem = s.mem := by
  unfold State.seqTrap; simp

@[simp] theorem State.illegal_mem (s : State) (c k : Nat) (w : BitVec 32) : (s.illegal c k w).mem = s.mem := by
  unfold State.illegal
  simp

@[simp] theorem State.misaligned_mem (s : State) (c k : Nat) (addr : Word) :
    (s.misaligned c k addr).mem = s.mem := by
  unfold State.misaligned
  simp

@[simp] theorem State.engFault_mem (s : State) (c : Nat) (lw : LiveWord) (cause : BitVec 8) (status : BitVec 32) (addr : Word) :
    (s.engFault c lw cause status addr).mem = s.mem := by
  unfold State.engFault
  split <;> simp

@[simp] theorem State.freeCtx_mem (s : State) (c k : Nat) : (s.freeCtx c k).mem = s.mem := by
  simp [State.freeCtx]

@[simp] theorem State.barrierCheck_mem (s : State) (t : Nat) : (s.barrierCheck t).mem = s.mem := by
  unfold State.barrierCheck
  dsimp only
  (repeat' split) <;> simp

@[simp] theorem State.barrierChecks_mem (s : State) : (s.barrierChecks).mem = s.mem := by
  simp [State.barrierChecks]

@[simp] theorem State.groupDrop_mem (s : State) (p : Nat) (n : BitVec 16) (task : BitVec 32) :
    (s.groupDrop p n task).mem = s.mem := by
  simp [State.groupDrop]

@[simp] theorem State.leaveAll_mem (s : State) (c k : Nat) : (s.leaveAll c k).mem = s.mem := by
  unfold State.leaveAll
  simp only [State.barrierChecks_mem]
  rw [foldl_mem _ fun s x => by simp, foldl_mem _ fun s x => by simp]

@[simp] theorem State.spillOne_mem (s : State) (c i : Nat) (e : RemEnt) : (s.spillOne c i e).mem = s.mem := by
  simp [State.spillOne]

@[simp] theorem State.spillAll_mem (s : State) (c : Nat) (es : List (Nat × RemEnt)) (f : Option Nat) :
    (s.spillAll c es f).1.mem = s.mem := by
  induction es generalizing s f with
  | nil => rfl
  | cons e r ih =>
    obtain ⟨i, e⟩ := e
    rw [State.spillAll]
    (repeat' split) <;> simp [ih]

@[simp] theorem State.flushStack_mem (s : State) (c : Nat) :
    (s.flushStack c).1.mem = s.mem := by
  simp [State.flushStack]

@[simp] theorem State.spillOrphans_mem (s : State) (c : Nat) :
    (s.spillOrphans c).mem = s.mem := by
  unfold State.spillOrphans
  (repeat' split) <;> simp

@[simp] theorem State.markRegion_mem (s : State) (c : Nat) (gens : List (BitVec 8)) (y0 : Nat) :
    (s.markRegion c gens y0).mem = s.mem := by
  induction y0 with
  | zero => rfl
  | succ i ih =>
    rw [State.markRegion]
    (repeat' split) <;> simp [ih]

@[simp] theorem State.abandon_mem (s : State) (c k : Nat) : (s.abandon c k).mem = s.mem := by
  unfold State.abandon
  dsimp only
  (repeat' split) <;> simp

@[simp] theorem State.retire_mem (s : State) (c k : Nat) : (s.retire c k).mem = s.mem := by
  unfold State.retire
  dsimp only
  (repeat' split) <;> simp

@[simp] theorem State.endTask_mem (s : State) (c k : Nat) : (s.endTask c k).mem = s.mem := by
  simp [State.endTask]

@[simp] theorem State.fatalAs_mem (s : State) (c k : Nat) (r : Record) (sub addr : Nat) :
    (s.fatalAs c k r sub addr).mem = s.mem := by
  unfold State.fatalAs
  split <;> simp

@[simp] theorem State.fatal_mem (s : State) (c k : Nat) (sub addr : Nat) : (s.fatal c k sub addr).mem = s.mem := by
  simp [State.fatal]

@[simp] theorem State.fatalWord_mem (s : State) (c : Nat) (lw : LiveWord) (f : Nat × Nat) :
    (s.fatalWord c lw f).mem = s.mem := by
  simp [State.fatalWord]

@[simp] theorem State.fatalLive_mem (s : State) (c id : Nat) (f : Nat × Nat) :
    (s.fatalLive c id f).mem = s.mem := by
  unfold State.fatalLive
  split <;> simp

@[simp] theorem State.fatalCheck_mem (s : State) (c k : Nat) (f : Nat × Nat) :
    (s.fatalCheck c k f).mem = s.mem := by
  simp [State.fatalCheck]

@[simp] theorem State.fillCode_mem (s : State) (c line : Nat) :
    (s.fillCode c line).mem = s.mem := by
  simp [State.fillCode]

@[simp] theorem State.codeRead_mem (s : State) (c dva n : Nat) : (s.codeRead c dva n).2.mem = s.mem := by
  unfold State.codeRead
  dsimp only
  (repeat' split) <;> simp

@[simp] theorem State.codeFetch_mem (s : State) (c dva n : Nat) : (s.codeFetch c dva n).2.mem = s.mem := by
  unfold State.codeFetch
  split <;> simp

@[simp] theorem State.fetchWord_mem (s : State) (c e : Nat) : (s.fetchWord c e).mem = s.mem := by
  unfold State.fetchWord
  dsimp only
  split
  · rfl
  split
  · rfl
  split
  · simp
  split
  all_goals
    rename_i h
    have hm := congrArg (fun p => p.2.mem) h
    simp only [State.codeFetch_mem] at hm
    simpa using hm.symm

@[simp] theorem State.prep_mem (s : State) (c : Nat) : (s.prep c).mem = s.mem := by
  simp [State.prep]

theorem State.beginIssue_mem {s : State} {c : Nat} {e : Engine} {i : Issue} {t : State} (h : s.beginIssue c e = some (i, t)) :
    t.mem = s.mem := by
  unfold State.beginIssue at h
  dsimp only at h
  split at h
  · cases h
  · split at h
    · split at h
      · cases h
      · cases h; rfl
    · cases h

@[simp] theorem State.wordFault_mem (s : State) (c id : Nat) (cause : BitVec 8) (status : BitVec 32) (addr : Word) :
    (s.wordFault c id cause status addr).mem = s.mem := by
  unfold State.wordFault
  split <;> simp

@[simp] theorem State.finishWord_mem (s : State) (c id : Nat) : (s.finishWord c id).mem = s.mem := by
  unfold State.finishWord
  dsimp only
  (repeat' split) <;> simp

@[simp] theorem State.issueNop_mem (s : State) (c : Nat) (e : Engine) : (s.issueNop c e).mem = s.mem := by
  unfold State.issueNop
  split
  · rename_i h; exact State.beginIssue_mem h
  · rfl

@[simp] theorem State.illegalWordTrap_mem (s : State) (c : Nat) (e : Engine) (w : EWord) (sub : BitVec 2) :
    (s.illegalWordTrap c e w sub).mem = s.mem := by
  unfold State.illegalWordTrap
  (repeat' split) <;> simp

@[simp] theorem State.newId_mem (s : State) (c : Nat) : (s.newId c).2.mem = s.mem := by
  simp [State.newId]

@[simp] theorem State.issueVx_mem (s : State) (c : Nat) (o : VxOp) (f : Frame) (p : VxFields) :
    (s.issueVx c o f p).mem = s.mem := by
  unfold State.issueVx
  dsimp only
  cases hr : ((s.own c).queue 3).run with
  | none => simp only [if_true]
  | some r =>
    simp only
    split
    · rfl
    · split
      · rfl
      · rename_i h
        rw [← State.beginIssue_mem h]
        split
        · simp
        · split <;> simp

@[simp] theorem State.tagFail_mem (s : State) (c : Nat) (f : Flight) (sub : Nat) :
    (s.tagFail c f sub).mem = s.mem := by
  unfold State.tagFail
  split <;> simp

@[simp] theorem State.readRole_mem (s : State) (c id : Nat) (r : SlotRead) (fmt : Option Fmt) :
    (s.readRole c id r fmt).mem = s.mem := by
  unfold State.readRole
  dsimp only
  (repeat' split) <;> simp

@[simp] theorem State.vxReads_mem (s : State) (c id : Nat) : (s.vxReads c id).mem = s.mem := by
  unfold State.vxReads
  dsimp only
  split
  · rfl
  · split
    · rfl
    · have hf : ∀ (l : List SlotRead) (f : State → SlotRead → State), (∀ s r, (f s r).mem = s.mem) →
          (l.foldl f s).mem = s.mem := fun l f h => foldl_mem f h l s
      split
      · rw [State.modOwn_mem, hf]; intro s r; split <;> simp
      · rw [hf]; intro s r; split <;> simp

@[simp] theorem State.slotWrite_mem (s : State) (c : Nat) (fl : Flight) (eye slot : Nat) (data mask : BitVec 1024) (tag : Fmt) :
    (s.slotWrite c fl eye slot data mask tag).mem = s.mem := by
  unfold State.slotWrite
  dsimp only
  split <;> simp

@[simp] theorem State.rqPush_mem (s : State) (c : Nat) (fl : Flight) (v : Word) (tag : Fmt) :
    (s.rqPush c fl v tag).mem = s.mem := by
  unfold State.rqPush
  dsimp only
  split <;> simp

@[simp] theorem State.vxDeliver_mem (s : State) (c : Nat) (o : VxOp) (q : VxFields) (fl : Flight) :
    (s.vxDeliver c o q fl).mem = s.mem := by
  unfold State.vxDeliver
  dsimp only
  have hf : ∀ (l : List (Nat × Nat × Nat)) (s : State),
      (l.foldl (fun s g => s.modCore c fun k => k.vxGuard g.1 g.2.1 g.2.2) s).mem = s.mem := fun l s =>
    foldl_mem _ (fun s g => by simp) l s
  split
  · simp
  · split
    · rfl
    · split
      · simp
      · split <;> split <;> simp [hf]

@[simp] theorem State.vxResults_mem (s : State) (c id : Nat) : (s.vxResults c id).mem = s.mem := by
  unfold State.vxResults
  dsimp only
  (repeat' split) <;> simp

@[simp] theorem State.lsAlign_mem (s : State) (c : Nat) (i : Issue) (a : Nat) : (s.lsAlign c i a).mem = s.mem := by
  simp [State.lsAlign]

@[simp] theorem State.lsRing_mem (s : State) (c : Nat) (i : Issue) (fl : Flight) (align : Nat) (any dva wr : Bool)
    (span : Nat) : (s.lsRing c i fl align any dva wr span).mem = s.mem := by
  unfold State.lsRing
  (repeat' split) <;> simp

@[simp] theorem State.lsXfer_mem (s : State) (c : Nat) (i : Issue) (x : Xfer) (bad dva wr : Bool) (wsa : Bool) :
    (s.lsXfer c i x bad dva wr wsa).mem = s.mem := by
  unfold State.lsXfer
  (repeat' split) <;> simp

@[simp] theorem State.issueLdRing_mem (s : State) (c : Nat) (o : LdOp) (ins : Instr) (p : LsFields) (i : Issue) :
    (s.issueLdRing c o ins p i).mem = s.mem := by
  unfold State.issueLdRing
  cases o <;> simp only [] <;> (try split) <;> simp

@[simp] theorem State.stepOf_mem (s : State) (c : Nat) (i : Issue) (n : Nat) :
    (s.stepOf c i n).2.mem = s.mem := by
  unfold State.stepOf
  (repeat' split) <;> simp

@[simp] theorem State.issueLdTile_mem (s : State) (c : Nat) (o : LdOp) (ins : Instr) (p : LsFields) (i : Issue) :
    (s.issueLdTile c o ins p i).mem = s.mem := by
  unfold State.issueLdTile
  dsimp only
  (repeat' split) <;> simp

@[simp] theorem State.issueLd_mem (s : State) (c : Nat) (o : LdOp) (f : Frame) (p : LsFields) :
    (s.issueLd c o f p).mem = s.mem := by
  unfold State.issueLd
  split
  · rfl
  · rename_i h
    rw [← State.beginIssue_mem h]
    split <;> simp

@[simp] theorem State.issueStRing_mem (s : State) (c : Nat) (o : StOp) (ins : Instr) (p : LsFields) (i : Issue) :
    (s.issueStRing c o ins p i).mem = s.mem := by
  unfold State.issueStRing
  cases o <;> simp only [] <;> (try split) <;> simp

@[simp] theorem State.issueStTile_mem (s : State) (c : Nat) (o : StOp) (ins : Instr) (p : LsFields) (i : Issue) :
    (s.issueStTile c o ins p i).mem = s.mem := by
  unfold State.issueStTile
  dsimp only
  (repeat' split) <;> simp

@[simp] theorem State.issueSt_mem (s : State) (c : Nat) (o : StOp) (f : Frame) (p : LsFields) :
    (s.issueSt c o f p).mem = s.mem := by
  unfold State.issueSt
  split
  · rfl
  · rename_i h
    rw [← State.beginIssue_mem h]
    split <;> simp

@[simp] theorem State.lsReads_mem (s : State) (c id : Nat) : (s.lsReads c id).mem = s.mem := by
  unfold State.lsReads
  split <;> simp

@[simp] theorem State.pendingRead_mem (s : State) (c live a n issue : Nat) :
    (s.pendingRead c live a n issue).mem = s.mem := by
  unfold State.pendingRead
  split <;> simp

@[simp] theorem State.spAtomic_mem (s : State) (c op a x new : Nat) : (s.spAtomic c op a x new).2.mem = s.mem := by
  unfold State.spAtomic
  dsimp only
  split <;> simp

@[simp] theorem State.amAccess_mem (s : State) (c : Nat) (fl : Flight) (op : Nat) :
    (s.amAccess c fl op).mem = s.mem := by
  unfold State.amAccess
  dsimp only
  (repeat' split) <;> simp

@[simp] theorem State.vgAccess_mem (s : State) (c : Nat) (fl : Flight) (f : Fmt) :
    (s.vgAccess c fl f).mem = s.mem := by
  simp [State.vgAccess]

@[simp] theorem State.ldAccess_mem (s : State) (c id : Nat) : (s.ldAccess c id).mem = s.mem := by
  unfold State.ldAccess
  (repeat' split) <;> simp

@[simp] theorem State.spWriteSome_mem (s : State) (c : Nat) (y0 : Nat) (y1 : List (Option Byte)) (y2 : List Byte) :
    (s.spWriteSome c y0 y1 y2).mem = s.mem := by
  induction y1 generalizing s y0 y2 with
  | nil => rw [State.spWriteSome, State.spWrite_mem]
  | cons b r ih => cases b <;> rw [State.spWriteSome, ih] <;> simp

@[simp] theorem State.stVoids_mem (s : State) (c : Nat) (fl : Flight) (o : SlotOut) :
    (s.stVoids c fl o).mem = s.mem := by
  simp [State.stVoids]

@[simp] theorem State.vsAccess_mem (s : State) (c : Nat) (fl : Flight) (f : Fmt) :
    (s.vsAccess c fl f).mem = s.mem := by
  unfold State.vsAccess
  dsimp only
  rw [State.modCore_mem, State.modOwn_mem, foldl_mem]
  · split <;> simp
  · intro s l; (repeat' split) <;> simp

@[simp] theorem State.stWrite_mem (s : State) (c : Nat) (fl : Flight) (o : StOp) (p : LsFields) :
    (s.stWrite c fl o p).mem = s.mem := by
  unfold State.stWrite
  split <;> simp

@[simp] theorem State.stEnd_mem (s : State) (c id : Nat) : (s.stEnd c id).mem = s.mem := by
  unfold State.stEnd
  dsimp only
  (repeat' split) <;> simp

@[simp] theorem State.stAccess_mem (s : State) (c id : Nat) : (s.stAccess c id).mem = s.mem := by
  unfold State.stAccess
  (repeat' split) <;> simp

@[simp] theorem State.ldWrite_mem (s : State) (c id : Nat) : (s.ldWrite c id).mem = s.mem := by
  unfold State.ldWrite
  dsimp only
  (repeat' split) <;> simp

@[simp] theorem State.dvaArrive_mem (s : State) (c id : Nat) : (s.dvaArrive c id).mem = s.mem := by
  unfold State.dvaArrive
  dsimp only
  (repeat' split) <;> simp

@[simp] theorem State.engPut_memWf (s : State) (c : Nat) (ws : List (Nat × Byte)) (h : memWf s.mem = true) :
    memWf (s.engPut c ws).mem = true := by
  unfold State.engPut
  (repeat' split) <;> simp_all

@[simp] theorem State.dvaVisible_memWf (s : State) (c id : Nat) (h : memWf s.mem = true) :
    memWf (s.dvaVisible c id).mem = true := by
  unfold State.dvaVisible
  dsimp only
  (repeat' split) <;> simp_all

@[simp] theorem State.beatVoids_mem (s : State) (c ctx voids : Nat) (fl : Flg) :
    (s.beatVoids c ctx voids fl).mem = s.mem := by
  simp [State.beatVoids]

@[simp] theorem State.beatDone_mem (s : State) (c id : Nat) (buf : List (Byte × Bool)) (cut : Option Nat) :
    (s.beatDone c id buf cut).mem = s.mem := by
  simp [State.beatDone]

@[simp] theorem State.tileLoad_mem (s : State) (c : Nat) (x : Xfer) (lo : Nat) (bs : List (Byte × Bool)) :
    (s.tileLoad c x lo bs).mem = s.mem := by
  simp [State.tileLoad]

@[simp] theorem State.tileHalf_mem (s : State) (c : Nat) (x : Xfer) (bs : List (Byte × Bool)) :
    (s.tileHalf c x bs).mem = s.mem := by
  unfold State.tileHalf
  dsimp only
  (repeat' split) <;> simp

@[simp] theorem State.beatMove_mem (s : State) (c : Nat) (x : Xfer) : (s.beatMove c x).mem = s.mem := by
  unfold State.beatMove
  dsimp only
  (repeat' split) <;> simp

@[simp] theorem State.wsTake_mem (s : State) (c b : Nat) : (s.wsTake c b).2.mem = s.mem := by
  unfold State.wsTake
  dsimp only
  split <;> simp

@[simp] theorem State.beat_mem (s : State) (c : Nat) (e : Engine) : (s.beat c e).mem = s.mem := by
  unfold State.beat
  dsimp only
  (repeat' split) <;> try simp
  all_goals
    rename_i b _ _ _ _ h
    have hm := State.wsTake_mem s c b
    rw [h] at hm
    simpa using hm

@[simp] theorem State.xferEnd_mem (s : State) (c : Nat) (e : Engine) : (s.xferEnd c e).mem = s.mem := by
  unfold State.xferEnd
  exact foldl_mem _ (fun s x => by simp) _ _

@[simp] theorem State.mxDropped_mem (s : State) (c ctx n : Nat) : (s.mxDropped c ctx n).mem = s.mem := by
  unfold State.mxDropped
  split <;> simp

@[simp] theorem State.mxApply_mem (s : State) (c ctx : Nat) (o : MxOp) (p : MxFields) (mode : BitVec 4) (shA shB shT : Nat × Nat) :
    (s.mxApply c ctx o p mode shA shB shT).mem = s.mem := by
  unfold State.mxApply
  (repeat' split) <;> simp

@[simp] theorem State.issueMx_mem (s : State) (c : Nat) (o : MxOp) (f : Frame) (p : MxFields) :
    (s.issueMx c o f p).mem = s.mem := by
  unfold State.issueMx
  split
  · rfl
  · rename_i h
    rw [← State.beginIssue_mem h]
    dsimp only
    rw [State.modCore_mem]
    split <;> split <;> simp

@[simp] theorem State.mxRedo_mem (s : State) (c ctx : Nat) (x : MxOp × MxFields × BitVec 4) :
    (s.mxRedo c ctx x).mem = s.mem := by
  unfold State.mxRedo
  dsimp only
  (repeat' split) <;> simp

@[simp] theorem State.mxReplayStart_mem (s : State) (c : Nat) : (s.mxReplayStart c).mem = s.mem := by
  unfold State.mxReplayStart
  dsimp only
  (repeat' split) <;> simp

@[simp] theorem State.mxEnd_mem (s : State) (c : Nat) : (s.mxEnd c).mem = s.mem := by
  unfold State.mxEnd
  dsimp only
  (repeat' split) <;> simp

@[simp] theorem State.chanTake_mem (s : State) (me : Nat) (j : Job) (d : Nat) :
    (s.chanTake me j d).mem = s.mem := by
  unfold State.chanTake
  dsimp only
  split <;> simp

@[simp] theorem State.chanRelease_mem (s : State) (me : Nat) (j : Job) (d : Nat) :
    (s.chanRelease me j d).mem = s.mem := by
  simp [State.chanRelease]

@[simp] theorem State.modJob_mem (s : State) (c id : Nat) (f : Job → Job) : (s.modJob c id f).mem = s.mem := by
  simp [State.modJob]

@[simp] theorem State.jobFlag_mem (s : State) (c : Nat) (j : Job) (f : Flg) : (s.jobFlag c j f).mem = s.mem := by
  unfold State.jobFlag
  split <;> simp

@[simp] theorem State.jobPoison_mem (s : State) (c : Nat) (j : Job) : (s.jobPoison c j).mem = s.mem := by
  simp [State.jobPoison]

@[simp] theorem State.jobFault_mem (s : State) (c : Nat) (j : Job) (cause : BitVec 8) (status : BitVec 32) (addr : Nat) :
    (s.jobFault c j cause status addr).mem = s.mem := by
  unfold State.jobFault
  dsimp only
  split <;> simp

@[simp] theorem State.jobPending_mem (s : State) (c : Nat) (j : Job) (a n : Nat) :
    (s.jobPending c j a n).mem = s.mem := by
  unfold State.jobPending
  split <;> simp

@[simp] theorem State.mark_mem (s : State) (d : Nat) (ms : List (Nat × Nat)) : (s.mark d ms).mem = s.mem := by
  simp [State.mark]

@[simp] theorem State.jobBytes_mem (s : State) (c : Nat) (j : Job) (a n : Nat) :
    (s.jobBytes c j a n).2.mem = s.mem := by
  unfold State.jobBytes
  dsimp only
  split <;> simp

theorem State.jobInput_mem {s : State} {c a n got : Nat} {j : Job} {r : List Byte × State}
    (h : s.jobInput c j a n got = some r) : r.2.mem = s.mem := by
  unfold State.jobInput at h
  dsimp only at h
  split at h
  · cases h
  · cases h; simp

@[simp] theorem State.writeC7_mem (s : State) (c : Nat) (j : Job) (status : Nat) :
    (s.writeC7 c j status).mem = s.mem := by
  simp [State.writeC7]

@[simp] theorem State.endJob_mem (s : State) (c : Nat) (j : Job) (status : Nat) (word : Bool) :
    (s.endJob c j status word).mem = s.mem := by
  unfold State.endJob
  split <;> simp

@[simp] theorem State.cpFinish_mem (s : State) (c : Nat) : (s.cpFinish c).mem = s.mem := by
  unfold State.cpFinish
  dsimp only
  (repeat' split) <;> simp

@[simp] theorem State.jobStart_mem (s : State) (c : Nat) (j : Job) : (s.jobStart c j).mem = s.mem := by
  unfold State.jobStart
  (repeat' split) <;> simp

@[simp] theorem State.jobFail_mem (s : State) (c : Nat) (j : Job) (r : Nat × Nat) :
    (s.jobFail c j r).mem = s.mem := by
  unfold State.jobFail
  split <;> simp

@[simp] theorem State.jobRanges_mem (s : State) (c : Nat) (j : Job) : (s.jobRanges c j).mem = s.mem := by
  unfold State.jobRanges
  dsimp only
  (repeat' split) <;> simp

@[simp] theorem State.jobCheck_mem (s : State) (c : Nat) (j : Job) : (s.jobCheck c j).mem = s.mem := by
  unfold State.jobCheck
  dsimp only
  split
  · split <;> simp
  · split
    · split
      · rfl
      · split
        · rfl
        · rename_i h; simpa using State.jobInput_mem h
    · split <;> simp

@[simp] theorem State.jobSource_mem (s : State) (c : Nat) (j : Job) (bs : List (Byte × Bool)) (scratch : Bool) :
    (s.jobSource c j bs scratch).2.mem = s.mem := by
  unfold State.jobSource
  (repeat' split) <;> simp

@[simp] theorem State.smallSource_mem (s : State) (c : Nat) (j : Job) : (s.smallSource c j).mem = s.mem := by
  unfold State.smallSource
  dsimp only
  split <;> simp

@[simp] theorem State.jobInputs_mem (s : State) (c : Nat) (j : Job) : (s.jobInputs c j).mem = s.mem := by
  unfold State.jobInputs
  split
  · split
    · rfl
    · split
      · rfl
      · rename_i h; simpa using State.jobInput_mem h
  · split <;> simp

@[simp] theorem State.jobLaunch_mem (s : State) (c : Nat) (j : Job) : (s.jobLaunch c j).mem = s.mem := by
  unfold State.jobLaunch
  dsimp only
  (repeat' split) <;> simp

@[simp] theorem State.advanceJob_mem (s : State) (c id : Nat) (y0 : Nat) : (s.advanceJob c id y0).mem = s.mem := by
  induction y0 generalizing s with
  | zero => rfl
  | succ n ih =>
    rw [State.advanceJob]
    split
    · rfl
    · split <;> simp [ih]

@[simp] theorem State.issueCp_mem (s : State) (c : Nat) (o : CpOp) (p : CpFields) :
    (s.issueCp c o p).mem = s.mem := by
  unfold State.issueCp
  split
  · rfl
  · rename_i h
    rw [← State.beginIssue_mem h]
    dsimp only
    (repeat' split) <;> simp

@[simp] theorem State.jobYield_mem (s : State) (c id : Nat) (bs : List Byte) :
    (s.jobYield c id bs).mem = s.mem := by
  simp [State.jobYield]

theorem State.jobFetch_mem {s : State} {c i : Nat} {j : Job} {r : List (Byte × Bool) × State}
    (h : s.jobFetch c j i = some r) : r.2.mem = s.mem := by
  unfold State.jobFetch at h
  dsimp only at h
  (repeat' split at h) <;> cases h <;> simp

@[simp] theorem State.jobRead_mem (s : State) (c : Nat) (j : Job) : (s.jobRead c j).mem = s.mem := by
  unfold State.jobRead
  dsimp only
  split
  · rfl
  · split
    · simp
    · split
      · rfl
      · split
        · simp
        · split
          · rename_i h; simpa using State.jobFetch_mem h
          · rfl

@[simp] theorem State.jobReadAhead_mem (s : State) (c : Nat) (j : Job) (x : Nat) : (s.jobReadAhead c j x).mem = s.mem := by
  unfold State.jobReadAhead
  dsimp only
  split
  · rfl
  · split
    · rfl
    · split
      · rename_i h; simpa using State.jobFetch_mem h
      · rfl

@[simp] theorem State.jobPiece_mem (s : State) (c : Nat) (j : Job) (p : Nat) : (s.jobPiece c j p).mem = s.mem := by
  unfold State.jobPiece
  split <;> simp

@[simp] theorem State.unitLost_mem (s : State) (c dva : Nat) (lost : Bool) :
    (s.unitLost c dva lost).mem = s.mem := by
  unfold State.unitLost
  (repeat' split) <;> simp

@[simp] theorem State.jobRecord_mem (s : State) (c : Nat) (j : Job) : (s.jobRecord c j).mem = s.mem := by
  unfold State.jobRecord
  dsimp only
  (repeat' split) <;> simp

@[simp] theorem State.jobAhead_mem (s : State) (c : Nat) (j : Job) (d : Nat) : (s.jobAhead c j d).mem = s.mem := by
  unfold State.jobAhead
  split <;> simp

@[simp] theorem State.landed_mem (s : State) (c : Nat) (j : Job) (d sent n : Nat) :
    (s.landed c j d sent n).mem = s.mem := by
  unfold State.landed
  dsimp only
  (repeat' split) <;> simp

@[simp] theorem State.bankAdd_mem (s : State) (d a : Nat) (v : List Byte) : (s.bankAdd d a v).2.mem = s.mem := by
  unfold State.bankAdd
  dsimp only
  split <;> simp

@[simp] theorem State.counted_mem (s : State) (src job d c ch n : Nat) :
    (s.counted src job d c ch n).mem = s.mem := by
  unfold State.counted
  dsimp only
  (repeat' split) <;> simp

@[simp] theorem State.burstPut_mem (s : State) (src job d ch a : Nat) (bs : List Byte) :
    (s.burstPut src job d ch a bs).mem = s.mem := by
  simp [State.burstPut]

@[simp] theorem State.beatPut_mem (s : State) (d : Nat) (b : Beat) :
    (s.beatPut d b).mem = s.mem := by
  simp [State.beatPut]

@[simp] theorem State.beatsDue_mem (s : State) (d : Nat) :
    (s.beatsDue d).mem = s.mem := by
  unfold State.beatsDue
  dsimp only
  (repeat' split) <;> simp

@[simp] theorem State.addPut_mem (s : State) (src job d ch a : Nat) (bs : List Byte) :
    (s.addPut src job d ch a bs).mem = s.mem := by
  unfold State.addPut
  dsimp only
  (repeat' split) <;> simp

@[simp] theorem State.bankPut_mem (s : State) (src job d ch a : Nat) (bs : List Byte) (add : Bool) :
    (s.bankPut src job d ch a bs add).mem = s.mem := by
  unfold State.bankPut
  split <;> simp

@[simp] theorem State.wsPut_mem (s : State) (die a : Nat) (bs : List Byte) :
    (s.wsPut die a bs).mem = s.mem := by
  simp [State.wsPut]

@[simp] theorem State.jobDeliver_memWf (s : State) (c : Nat) (j : Job) (d : Nat) (h : memWf s.mem = true) :
    memWf (s.jobDeliver c j d).mem = true := by
  unfold State.jobDeliver
  dsimp only
  (repeat' split) <;> simp [h]

@[simp] theorem State.wslDone_mem (s : State) (m : Msg) :
    (s.wslDone m).mem = s.mem := by
  unfold State.wslDone
  (repeat' split) <;> simp

@[simp] theorem State.msgLost_mem (s : State) (m : Msg) :
    (s.msgLost m).mem = s.mem := by
  unfold State.msgLost
  (repeat' split) <;> simp

@[simp] theorem State.msgArrive_mem (s : State) (id : Nat) : (s.msgArrive id).mem = s.mem := by
  unfold State.msgArrive
  split
  · rfl
  · dsimp only
    (repeat' split) <;> simp

@[simp] theorem State.ramoStep_mem (s : State) (c : Nat) (j : Job) : (s.ramoStep c j).mem = s.mem := by
  unfold State.ramoStep
  dsimp only
  (repeat' split) <;> simp

@[simp] theorem State.memAtomic_memWf (s : State) (c : Nat) (as : List Nat) (op x new : Nat) (h : memWf s.mem = true) :
    memWf (s.memAtomic c as op x new).2.mem = true := by
  unfold State.memAtomic
  dsimp only
  (repeat' split) <;> simp_all

@[simp] theorem State.batomStep_memWf (s : State) (c : Nat) (j : Job) (h : memWf s.mem = true) :
    memWf (s.batomStep c j).mem = true := by
  unfold State.batomStep
  dsimp only
  (repeat' split) <;> simp_all

@[simp] theorem State.jobOut_memWf (s : State) (c : Nat) (j : Job) (d : Nat) (h : memWf s.mem = true) :
    memWf (s.jobOut c j d).mem = true := by
  unfold State.jobOut
  dsimp only
  (repeat' split) <;> simp_all

@[simp] theorem State.jobStep_memWf (s : State) (c id : Nat) (bank : Bool) (h : memWf s.mem = true) :
    memWf (s.jobStep c id bank).mem = true := by
  unfold State.jobStep
  dsimp only
  (repeat' split) <;> simp_all

@[simp] theorem State.jobComplete_mem (s : State) (c id : Nat) (bank : Bool) :
    (s.jobComplete c id bank).mem = s.mem := by
  unfold State.jobComplete
  dsimp only
  (repeat' split) <;> simp

@[simp] theorem State.takeFaults_mem (s : State) (c : Nat) : (s.takeFaults c).mem = s.mem := by
  unfold State.takeFaults
  dsimp only
  split <;> simp

@[simp] theorem State.tokenDeadlock_mem (s : State) (c : Nat) : (s.tokenDeadlock c).mem = s.mem := by
  unfold State.tokenDeadlock
  dsimp only
  (repeat' split) <;> simp

@[simp] theorem State.releaseHold_mem (s : State) (c : Nat) : (s.releaseHold c).mem = s.mem := by
  unfold State.releaseHold
  dsimp only
  split <;> simp

@[simp] theorem State.countLap_mem (s : State) (c : Nat) (st : Stall) : (s.countLap c st).mem = s.mem := by
  unfold State.countLap
  dsimp only
  split <;> simp

@[simp] theorem State.stopEnds_mem (s : State) (c : Nat) : (s.stopEnds c).mem = s.mem := by
  unfold State.stopEnds
  split <;> simp

@[simp] theorem State.repairHold_mem (s : State) (c : Nat) :
    (s.repairHold c).mem = s.mem := by
  unfold State.repairHold
  dsimp only
  (repeat' split) <;> simp

@[simp] theorem State.lapEnd_mem (s : State) (c : Nat) : (s.lapEnd c).mem = s.mem := by
  unfold State.lapEnd
  (repeat' split) <;> simp

@[simp] theorem State.takeStop_mem (s : State) (c : Nat) : (s.takeStop c).mem = s.mem := by
  unfold State.takeStop
  dsimp only
  split <;> simp

@[simp] theorem State.beginStall_mem (s : State) (c : Nat) (cs : List Cause) : (s.beginStall c cs).mem = s.mem := by
  simp [State.beginStall]

@[simp] theorem State.pulseFree_mem (s : State) (c : Nat) :
    (s.pulseFree c).mem = s.mem := by
  unfold State.pulseFree
  dsimp only
  (repeat' split) <;> simp

@[simp] theorem State.pulseStalled_mem (s : State) (c : Nat) (st : Stall) :
    (s.pulseStalled c st).mem = s.mem := by
  unfold State.pulseStalled
  dsimp only
  (repeat' split) <;> simp

@[simp] theorem State.pulse_mem (s : State) (c : Nat) : (s.pulse c).mem = s.mem := by
  unfold State.pulse
  dsimp only
  (repeat' split) <;> simp

@[simp] theorem State.settle_mem (s : State) (c : Nat) : (s.settle c).mem = s.mem := by
  simp [State.settle]

@[simp] theorem State.finish_mem (s : State) (c : Nat) : (s.finish c).mem = s.mem := by
  simp [State.finish]

@[simp] theorem State.traceCycle_mem (s : State) (c : Nat) : (s.traceCycle c).mem = s.mem := by
  unfold State.traceCycle
  dsimp only
  split <;> simp

@[simp] theorem State.debugServe_mem (s : State) (c : Nat) (r : DebugReq) : (s.debugServe c r).mem = s.mem := by
  unfold State.debugServe
  (repeat' split) <;> simp

@[simp] theorem State.debugServes_mem (s : State) (c : Nat) (xs : List DebugReq) : (s.debugServes c xs).mem = s.mem := by
  induction xs generalizing s with
  | nil => rfl
  | cons r rs ih => rw [State.debugServes]; split <;> simp [ih]

@[simp] theorem State.debugCycle_mem (s : State) (c : Nat) : (s.debugCycle c).mem = s.mem := by
  unfold State.debugCycle
  dsimp only
  split <;> simp

@[simp] theorem State.cycleEnd_mem (s : State) (c : Nat) : (s.cycleEnd c).mem = s.mem := by
  unfold State.cycleEnd
  dsimp only
  (repeat' split) <;> simp

@[simp] theorem State.unhalt_mem (s : State) (c : Nat) : (s.unhalt c).mem = s.mem := by
  unfold State.unhalt
  exact foldl_mem _ (fun s k => by split <;> simp) _ _

@[simp] theorem State.imageWrite_memWf (s : State) (c base : Nat) (y0 : List (Nat × List Byte × List Nat)) (h : memWf s.mem = true) :
    memWf (s.imageWrite c base y0).mem = true := by
  induction y0 generalizing s with
  | nil => exact h
  | cons e r ih => obtain ⟨off, bs, bad⟩ := e; rw [State.imageWrite]; exact ih _ (by simpa using State.dvaWrite_memWf s _ _ _ h)

@[simp] theorem State.saveOwner_memWf (s : State) (c : Nat) (mask : BitVec 10) (h : memWf s.mem = true) :
    memWf (s.saveOwner c mask).mem = true := by
  unfold State.saveOwner
  dsimp only
  (repeat' split) <;> simp_all

@[simp] theorem State.repinEach_mem (s : State) (c k : Nat) (xs : List Pin) : (s.repinEach c k xs).mem = s.mem := by
  induction xs generalizing s with
  | nil => rfl
  | cons e r ih =>
    rw [State.repinEach]
    cases e.die <;> simp only [Bool.false_eq_true, if_true, if_false] <;> split <;> simp [ih]

@[simp] theorem State.repin_mem (s : State) (c k : Nat) : (s.repin c k).mem = s.mem := by
  simp [State.repin]

@[simp] theorem State.restoreOwner_mem (s : State) (c k : Nat) : (s.restoreOwner c k).mem = s.mem := by
  unfold State.restoreOwner
  dsimp only
  (repeat' split) <;> simp

@[simp] theorem State.seat_mem (s : State) (c k : Nat) : (s.seat c k).mem = s.mem := by
  unfold State.seat
  dsimp only
  (repeat' split) <;> simp

@[simp] theorem State.takeOwnership_mem (s : State) (c k : Nat) : (s.takeOwnership c k).mem = s.mem := by
  unfold State.takeOwnership
  dsimp only
  generalize ((s.draw.2.core c).swap.map (·.left)).getD 0 + _ = n
  split <;> simp

@[simp] theorem State.giveOwnership_mem (s : State) (c : Nat) : (s.giveOwnership c).mem = s.mem := by
  unfold State.giveOwnership
  (repeat' split) <;> simp

@[simp] theorem State.swapEnd_mem (s : State) (c : Nat) : (s.swapEnd c).mem = s.mem := by
  unfold State.swapEnd
  dsimp only
  (repeat' split) <;> simp

@[simp] theorem State.passOwnership_memWf (s : State) (c : Nat) (h : memWf s.mem = true) :
    memWf (s.passOwnership c).mem = true := by
  unfold State.passOwnership
  dsimp only
  (repeat' split) <;> simp_all

@[simp] theorem State.switchContext_memWf (s : State) (c : Nat) (h : memWf s.mem = true) :
    memWf (s.switchContext c).mem = true := by
  unfold State.switchContext
  (repeat' split) <;> simp_all

@[simp] theorem State.acquire_mem (s : State) (c k : Nat) : (s.acquire c k).2.mem = s.mem := by
  unfold State.acquire
  dsimp only
  (repeat' split) <;> simp

@[simp] theorem State.seqNext_mem (s : State) (c k : Nat) : (s.seqNext c k).mem = s.mem := by
  simp [State.seqNext]

@[simp] theorem State.seqDone_mem (s : State) (c k : Nat) (rd : BitVec 5) (v : Word) :
    (s.seqDone c k rd v).mem = s.mem := by
  simp [State.seqDone]

@[simp] theorem State.seqWait_mem (s : State) (c k : Nat) (w : Wait) : (s.seqWait c k w).mem = s.mem := by
  simp [State.seqWait]

@[simp] theorem State.windowRead_mem (s : State) (c k a n : Nat) : (s.windowRead c k a n).2.mem = s.mem := by
  unfold State.windowRead
  dsimp only
  (repeat' split) <;> simp

@[simp] theorem State.fillLine_mem (s : State) (c line : Nat) (cls : BitVec 3) :
    (s.fillLine c line cls).mem = s.mem := by
  unfold State.fillLine
  dsimp only
  split <;> simp

@[simp] theorem State.cachedRead_mem (s : State) (c : Nat) (as : List Nat) (cls : BitVec 3) :
    (s.cachedRead c as cls).2.mem = s.mem := by
  unfold State.cachedRead
  dsimp only
  (repeat' split) <;> simp

@[simp] theorem State.seqRead_mem (s : State) (c k a n : Nat) : (s.seqRead c k a n).2.mem = s.mem := by
  unfold State.seqRead
  dsimp only
  (repeat' split) <;> simp

@[simp] theorem State.poisoned_mem (s : State) (c k a : Nat) (rd : BitVec 5) (v : Word) :
    (s.poisoned c k a rd v).mem = s.mem := by
  unfold State.poisoned
  simp

@[simp] theorem State.seqLoad_mem (s : State) (c k : Nat) (w : LoadWidth) (rd rs1 : BitVec 5) (imm : BitVec 12) :
    (s.seqLoad c k w rd rs1 imm).mem = s.mem := by
  unfold State.seqLoad
  dsimp only
  have hr := State.seqRead_mem s c k ((s.ctx c k).reg rs1 + imm.signExtend 64).toNat (LoadWidth.bytes w)
  split <;> (rename_i h; rw [h] at hr)
  · split <;> simpa using hr
  · simpa using hr
  · simpa using hr

@[simp] theorem State.buffer_mem (s : State) (c k : Nat) (scratch : Bool) (a cls : Nat) (bs : List Byte) :
    (s.buffer c k scratch a cls bs).mem = s.mem := by
  simp [State.buffer]

@[simp] theorem State.seqStore_mem (s : State) (c k : Nat) (w : StoreWidth) (rs1 rs2 : BitVec 5) (imm : BitVec 12) :
    (s.seqStore c k w rs1 rs2 imm).mem = s.mem := by
  unfold State.seqStore
  dsimp only
  (repeat' split) <;> simp

@[simp] theorem State.storeHome_memWf (s : State) (c : Nat) (a : Nat) (bs : List Byte) (h : memWf s.mem = true) :
    memWf (s.storeHome c a bs).mem = true := by
  unfold State.storeHome
  (repeat' split) <;> simp_all

@[simp] theorem State.performStore_memWf (s : State) (c k i : Nat) (h : memWf s.mem = true) :
    memWf (s.performStore c k i).mem = true := by
  unfold State.performStore
  dsimp only
  (repeat' split) <;> simp_all

@[simp] theorem State.seqFetch_mem (s : State) (c k : Nat) : (s.seqFetch c k).2.mem = s.mem := by
  unfold State.seqFetch
  dsimp only
  (repeat' split) <;> simp

@[simp] theorem State.jump_mem (s : State) (c k : Nat) (rd : BitVec 5) (target : Word) :
    (s.jump c k rd target).mem = s.mem := by
  unfold State.jump
  split <;> simp

@[simp] theorem State.seqBranch_mem (s : State) (c k : Nat) (j : JumpForm) : (s.seqBranch c k j).mem = s.mem := by
  unfold State.seqBranch
  dsimp only
  (repeat' split) <;> simp

@[simp] theorem State.storesVisible_mem (s : State) (c k : Nat) (scope : Nat) :
    (s.storesVisible c k scope).2.mem = s.mem := by
  unfold State.storesVisible
  dsimp only
  split
  · rfl
  split
  · rfl
  split <;> simp [State.draw]

@[simp] theorem State.fenceStep_mem (s : State) (c k : Nat) (scope : Nat) :
    (s.fenceStep c k scope).2.mem = s.mem := by
  unfold State.fenceStep
  split <;> (rename_i h; have h1 := congrArg (fun p => (Prod.snd p).mem) h; simp only [State.storesVisible_mem] at h1)
  · exact h1.symm
  · dsimp only
    split <;> simp [h1]

@[simp] theorem State.seqFence_mem (s : State) (c k : Nat) (scope : Nat) : (s.seqFence c k scope).mem = s.mem := by
  unfold State.seqFence
  split <;> (rename_i h; have h1 := congrArg (fun p => (Prod.snd p).mem) h; simp only [State.fenceStep_mem] at h1)
  · simp [h1]
  · exact h1.symm

@[simp] theorem State.seqFenceI_mem (s : State) (c k : Nat) : (s.seqFenceI c k).mem = s.mem := by
  unfold State.seqFenceI
  split
  · rfl
  · rw [State.seqNext_mem, foldl_mem]; intro s e; simp

theorem State.asOwner_mem (s : State) (c k : Nat) (f : State → State) (h : ∀ s, (f s).mem = s.mem) :
    (s.asOwner c k f).mem = s.mem := by
  unfold State.asOwner
  split
  · rename_i hq; have h1 := congrArg (fun p => (Prod.snd p).mem) hq; simp only [State.acquire_mem] at h1; rw [h, ← h1]
  · rename_i hq; have h1 := congrArg (fun p => (Prod.snd p).mem) hq; simpa using h1.symm

@[simp] theorem State.illegalInstr_mem (s : State) (c k : Nat) (i : Instr) :
    (s.illegalInstr c k i).mem = s.mem := by
  simp [State.illegalInstr]

@[simp] theorem State.seqWords_mem (s : State) (c k : Nat) (y0 : Nat) (y1 : Nat) :
    (s.seqWords c k y0 y1).2.mem = s.mem := by
  induction y1 generalizing s y0 with
  | zero => rfl
  | succ n ih =>
    rw [State.seqWords]
    dsimp only
    have h1 : (if inWindow y0 = true ∧ y0 % 8 = 0 then
        if (!(s.core c).banksFree (y0 % 2 ^ 19) 8) = true then (Access.retry, s)
        else if ((s.core c).pendingAt (y0 % 2 ^ 19) 8).isSome = true then
          (Access.ended, s.seqTrap c k 0x23 0 (BitVec.ofNat 64 y0))
        else
          (Access.bytes (forwardAll ((s.core c).ctx k).stores true (upFrom (y0 % 2 ^ 19) 8)
            (((s.core c).spRead (y0 % 2 ^ 19) 8).map (·.1))) (((s.core c).spRead (y0 % 2 ^ 19) 8).any (·.2)), s)
      else s.seqRead c k y0 8 : Access × State).2.mem = s.mem := by
      split
      · split
        · rfl
        · split <;> simp
      · simp
    revert h1
    generalize (if inWindow y0 = true ∧ y0 % 8 = 0 then _ else _ : Access × State) = p
    intro h1
    obtain ⟨r, t⟩ := p
    simp only at h1
    match r with
    | .pending _ => simp [h1]
    | .bytes bs false =>
      have h2 := ih t (y0 + 8)
      simp only
      split <;> (rename_i hs; rw [hs] at h2; exact h2.trans h1)
    | .bytes _ true => simp [h1]
    | .retry => exact h1
    | .ended => exact h1

@[simp] theorem State.enqueue_mem (s : State) (c k : Nat) (m : BitVec 5) (recs : List (Word × Word)) (rd : BitVec 5) :
    (s.enqueue c k m recs rd).mem = s.mem := by
  simp [State.enqueue]

@[simp] theorem State.tryFork_mem (s : State) (c k : Nat) : (s.tryFork c k).mem = s.mem := by
  unfold State.tryFork
  split
  · refine State.asOwner_mem _ _ _ _ fun s => ?_
    (repeat' split) <;> simp
  · rfl

@[simp] theorem State.seqFork_mem (s : State) (c k : Nat) (m r d : BitVec 5) :
    (s.seqFork c k m r d).mem = s.mem := by
  unfold State.seqFork
  refine State.asOwner_mem _ _ _ _ fun s => ?_
  dsimp only
  split
  · simp
  · split
    · rename_i hq; have h1 := congrArg (fun p => (Prod.snd p).mem) hq; simpa using h1.symm
    · rename_i hq; have h1 := congrArg (fun p => (Prod.snd p).mem) hq; simp only [State.seqWords_mem] at h1
      (repeat' split) <;> simp [h1]

@[simp] theorem State.tryRendv_mem (s : State) (c k : Nat) : (s.tryRendv c k).mem = s.mem := by
  unfold State.tryRendv
  split
  · refine State.asOwner_mem _ _ _ _ fun s => ?_
    (repeat' split) <;> simp
  · rfl

@[simp] theorem State.seqRendv_mem (s : State) (c k : Nat) (m r : BitVec 5) : (s.seqRendv c k m r).mem = s.mem := by
  unfold State.seqRendv
  exact State.asOwner_mem _ _ _ _ fun s => by simp

@[simp] theorem State.drained_mem (s : State) (c k : Nat) : (s.drained c k).2.mem = s.mem := by
  unfold State.drained
  dsimp only
  (repeat' split) <;> simp

@[simp] theorem State.placeItems_mem (s : State) (c : Nat) (es : List Nat) (i : QItem) :
    (s.placeItems c es i).mem = s.mem := by
  simp [State.placeItems]

@[simp] theorem State.freshId_mem (s : State) (c : Nat) : (s.freshId c).2.mem = s.mem := by
  simp [State.freshId]

@[simp] theorem State.seqGenf_mem (s : State) (c k : Nat) (d : BitVec 5) : (s.seqGenf c k d).mem = s.mem := by
  unfold State.seqGenf
  refine State.asOwner_mem _ _ _ _ fun s => ?_
  dsimp only
  (repeat' split) <;> simp

@[simp] theorem State.seqEset_mem (s : State) (c k : Nat) (e : BitVec 3) (v : State → Word) :
    (s.seqEset c k e v).mem = s.mem := by
  unfold State.seqEset
  exact State.asOwner_mem _ _ _ _ fun s => by simp

@[simp] theorem State.seqTshape_mem (s : State) (c k : Nat) (r : BitVec 5) (t : BitVec 3) :
    (s.seqTshape c k r t).mem = s.mem := by
  unfold State.seqTshape
  refine State.asOwner_mem _ _ _ _ fun s => ?_
  dsimp only
  (repeat' split) <;> simp

@[simp] theorem State.seqQalign_mem (s : State) (c k : Nat) : (s.seqQalign c k).mem = s.mem := by
  unfold State.seqQalign
  refine State.asOwner_mem _ _ _ _ fun s => ?_
  split
  · rfl
  · simp

@[simp] theorem State.seqBfence_mem (s : State) (c k : Nat) (scope : BitVec 3) :
    (s.seqBfence c k scope).mem = s.mem := by
  unfold State.seqBfence
  refine State.asOwner_mem _ _ _ _ fun s => ?_
  dsimp only
  (repeat' split) <;> simp

@[simp] theorem State.seqPrept_mem (s : State) (c k : Nat) (m : BitVec 10) : (s.seqPrept c k m).mem = s.mem := by
  unfold State.seqPrept
  exact State.asOwner_mem _ _ _ _ fun s => by simp

@[simp] theorem State.tryRqpop_mem (s : State) (c k : Nat) : (s.tryRqpop c k).mem = s.mem := by
  unfold State.tryRqpop
  split
  · refine State.asOwner_mem _ _ _ _ fun s => ?_
    (repeat' split) <;> simp
  · rfl

@[simp] theorem State.seqRqpop_mem (s : State) (c k : Nat) (nowait : Bool) (d : BitVec 5) :
    (s.seqRqpop c k nowait d).mem = s.mem := by
  unfold State.seqRqpop
  refine State.asOwner_mem _ _ _ _ fun s => ?_
  (repeat' split) <;> simp

@[simp] theorem State.closeSeg_mem (s : State) (c k : Nat) (m : BitVec 32 × BitVec 32) :
    (s.closeSeg c k m).mem = s.mem := by
  simp [State.closeSeg]

@[simp] theorem State.segTrapAt_mem (s : State) (c k : Nat) (m : BitVec 32 × BitVec 32) (rd : BitVec 5) :
    (s.segTrapAt c k m rd).mem = s.mem := by
  unfold State.segTrapAt
  simp

@[simp] theorem State.trySege_mem (s : State) (c k : Nat) : (s.trySege c k).mem = s.mem := by
  unfold State.trySege
  split
  · refine State.asOwner_mem _ _ _ _ fun s => ?_
    dsimp only
    (repeat' split) <;> simp
  · rfl

@[simp] theorem State.seqSegb_mem (s : State) (c k : Nat) (r : BitVec 5) : (s.seqSegb c k r).mem = s.mem := by
  unfold State.seqSegb
  refine State.asOwner_mem _ _ _ _ fun s => ?_
  dsimp only
  (repeat' split) <;> simp

@[simp] theorem State.seqSege_mem (s : State) (c k : Nat) (r d : BitVec 5) : (s.seqSege c k r d).mem = s.mem := by
  unfold State.seqSege
  refine State.asOwner_mem _ _ _ _ fun s => ?_
  dsimp only
  split
  · simp
  · rw [State.trySege_mem, State.seqWait_mem]; split <;> simp

@[simp] theorem State.homeOf_mem (s : State) (c k a n : Nat) (wr : Bool) : (s.homeOf c k a n wr).2.mem = s.mem := by
  unfold State.homeOf
  dsimp only
  (repeat' split) <;> simp

@[simp] theorem State.homeRead_mem (s : State) (c : Nat) (scratch : Bool) (a n : Nat) :
    (s.homeRead c scratch a n).2.mem = s.mem := by
  unfold State.homeRead
  dsimp only
  split <;> simp

@[simp] theorem State.arm_mem (s : State) (c k : Nat) (wide scratch : Bool) (a : Nat) (expect : Word) (rd : BitVec 5) :
    (s.arm c k wide scratch a expect rd).mem = s.mem := by
  simp [State.arm]

@[simp] theorem State.tryWaitc_mem (s : State) (c k : Nat) : (s.tryWaitc c k).mem = s.mem := by
  unfold State.tryWaitc
  split
  · split
    · rename_i hd; have h1 := congrArg (fun p => (Prod.snd p).mem) hd; simpa using h1.symm
    · rename_i hd; have h1 := congrArg (fun p => (Prod.snd p).mem) hd; simp only [State.drained_mem] at h1
      split
      · simp [h1]
      · dsimp only
        split
        · rename_i hh; have h2 := congrArg (fun p => (Prod.snd p).mem) hh; simp only [State.homeOf_mem] at h2
          rw [← h2, h1]
        · rename_i hh; have h2 := congrArg (fun p => (Prod.snd p).mem) hh; simp only [State.homeOf_mem] at h2
          (repeat' split) <;> simp [← h2, h1]
  · rfl

@[simp] theorem State.seqWaitc_mem (s : State) (c k : Nat) (wide : Bool) (b r d : BitVec 5) :
    (s.seqWaitc c k wide b r d).mem = s.mem := by
  unfold State.seqWaitc
  dsimp only
  split <;> (rename_i h; have h1 := congrArg (fun p => (Prod.snd p).mem) h; simp only [State.homeOf_mem] at h1)
  · exact h1.symm
  · simp [h1]

@[simp] theorem State.signal_mem (s : State) (c : Nat) (scratch : Bool) (a n : Nat) :
    (s.signal c scratch a n).2.mem = s.mem := by
  simp [State.signal]

@[simp] theorem State.seqSignl_memWf (s : State) (c k : Nat) (wide : Bool) (b r d : BitVec 5) (h : memWf s.mem = true) :
    memWf (s.seqSignl c k wide b r d).mem = true := by
  unfold State.seqSignl
  dsimp only
  generalize (if wide = true then 8 else 4) = n
  have hh := State.homeOf_mem s c k ((s.ctx c k).reg r).toNat n true
  split <;> (rename_i hs; rw [hs] at hh; simp only at hh)
  · rw [hh]; exact h
  · split <;> (rename_i hv; have h1 := congrArg (fun p => (Prod.snd p).mem) hv; simp only [State.storesVisible_mem] at h1)
    · rw [← h1, hh]; exact h
    · split
      · rw [← h1, hh]; exact h
      · rw [State.seqDone_mem]
        split
        · simp [← h1, hh, h]
        · exact State.storeHome_memWf _ _ _ _ (by simpa [← h1, hh] using h)

@[simp] theorem State.seqJoin_mem (s : State) (c k : Nat) (r d : BitVec 5) : (s.seqJoin c k r d).mem = s.mem := by
  unfold State.seqJoin
  dsimp only
  (repeat' split) <;> simp

@[simp] theorem State.seqLeave_mem (s : State) (c k : Nat) (r d : BitVec 5) : (s.seqLeave c k r d).mem = s.mem := by
  unfold State.seqLeave
  dsimp only
  (repeat' split) <;> simp

@[simp] theorem State.seqSstep_mem (s : State) (c k : Nat) (t : Nat) (r d : BitVec 5) :
    (s.seqSstep c k t r d).mem = s.mem := by
  unfold State.seqSstep
  dsimp only
  split
  · simp
  · split
    · simp
    · split
      · rename_i hd; have h1 := congrArg (fun p => (Prod.snd p).mem) hd; simpa using h1.symm
      · rename_i hd; have h1 := congrArg (fun p => (Prod.snd p).mem) hd; simp only [State.drained_mem] at h1
        split
        · rename_i hh; have h2 := congrArg (fun p => (Prod.snd p).mem) hh; simp only [State.fenceStep_mem] at h2
          rw [← h2, h1]
        · rename_i hh; have h2 := congrArg (fun p => (Prod.snd p).mem) hh; simp only [State.fenceStep_mem] at h2
          (repeat' split) <;> simp [← h2, h1]

@[simp] theorem State.tryExwait_mem (s : State) (c k : Nat) : (s.tryExwait c k).mem = s.mem := by
  unfold State.tryExwait
  dsimp only
  (repeat' split) <;> simp

@[simp] theorem State.seqExwait_mem (s : State) (c k : Nat) (t : Nat) (d : BitVec 5) :
    (s.seqExwait c k t d).mem = s.mem := by
  unfold State.seqExwait
  split <;> simp

@[simp] theorem State.planWords_mem (s : State) (c k : Nat) (y0 : Nat) (y1 : Nat) :
    (s.planWords c k y0 y1).2.mem = s.mem := by
  induction y1 generalizing s y0 with
  | zero => rfl
  | succ n ih =>
    rw [State.planWords]
    dsimp only
    split
    · rfl
    · generalize hp : (if inWindow y0 = true then _ else _ : Except PlanStop (List Byte) × State) = p
      have h1 : p.2.mem = s.mem := by rw [← hp]; (repeat' split) <;> simp
      clear hp
      obtain ⟨r, t⟩ := p
      simp only at h1
      match r with
      | .ok bs =>
        have h2 := ih t (y0 + 8)
        simp only
        split <;> (rename_i hs; rw [hs] at h2; exact h2.trans h1)
      | .error e => exact h1

@[simp] theorem State.readPlans_mem (s : State) (c k : Nat) (cores : List Nat) (cls : List (Nat × Nat)) (y0 : Nat) (y1 : Nat) (y2 : Nat) :
    (s.readPlans c k cores cls y0 y1 y2).2.mem = s.mem := by
  induction y2 generalizing s y0 y1 with
  | zero => rfl
  | succ n ih =>
    rw [State.readPlans]
    split
    · rename_i hp; have h1 := congrArg (fun p => (Prod.snd p).mem) hp; simpa using h1.symm
    · rename_i hp; have h1 := congrArg (fun p => (Prod.snd p).mem) hp; simp only [State.planWords_mem] at h1
      split
      · exact h1.symm
      · split
        · rename_i hs; have := congrArg (fun p => (Prod.snd p).mem) hs; simp only [ih] at this; rw [← this, h1]
        · rename_i hs; have := congrArg (fun p => (Prod.snd p).mem) hs; simp only [ih] at this; rw [← this, h1]

@[simp] theorem State.readSet_mem (s : State) (c k a : Nat) (cores : List Nat) :
    (s.readSet c k a cores).2.mem = s.mem := by
  unfold State.readSet
  split
  · rename_i hp; have h1 := congrArg (fun p => (Prod.snd p).mem) hp; simpa using h1.symm
  · rename_i hp; have h1 := congrArg (fun p => (Prod.snd p).mem) hp; simp only [State.planWords_mem] at h1
    split
    · exact h1.symm
    · split
      · rename_i hs; have h2 := congrArg (fun p => (Prod.snd p).mem) hs; simp only [State.readPlans_mem] at h2
        rw [← h2, h1]
      · rename_i hs; have h2 := congrArg (fun p => (Prod.snd p).mem) hs; simp only [State.readPlans_mem] at h2
        rw [← h2, h1]

@[simp] theorem State.seqExplan_mem (s : State) (c k : Nat) (t : Nat) (b r d : BitVec 5) :
    (s.seqExplan c k t b r d).mem = s.mem := by
  unfold State.seqExplan
  dsimp only
  (repeat' split) <;> first
    | simp; done
    | rename_i h; have h1 := congrArg (fun p => (Prod.snd p).mem) h; simp only [State.readSet_mem] at h1; simp [h1]

@[simp] theorem State.tryTtload_mem (s : State) (c k : Nat) : (s.tryTtload c k).mem = s.mem := by
  unfold State.tryTtload
  (repeat' split) <;> simp

@[simp] theorem State.seqTtload_mem (s : State) (c k : Nat) (b r d : BitVec 5) :
    (s.seqTtload c k b r d).mem = s.mem := by
  unfold State.seqTtload
  dsimp only
  split <;> simp

@[simp] theorem State.tryProbe_mem (s : State) (c k : Nat) : (s.tryProbe c k).mem = s.mem := by
  unfold State.tryProbe
  split
  · split
    · rfl
    · split
      · simp
      · dsimp only
        split
        · simp
        · split <;> simp
  · rfl

@[simp] theorem State.seqProbe_mem (s : State) (c k : Nat) (b r d : BitVec 5) :
    (s.seqProbe c k b r d).mem = s.mem := by
  unfold State.seqProbe
  dsimp only
  split <;> simp

@[simp] theorem State.fetchLine_mem (s : State) (c : Nat) (lvl : Bool) (line : Nat) :
    (s.fetchLine c lvl line).mem = s.mem := by
  unfold State.fetchLine
  dsimp only
  (repeat' split) <;> simp

@[simp] theorem State.pinLines_mem (s : State) (c k : Nat) (lvl : Bool) (y0 : Nat) (y1 : Nat) :
    (s.pinLines c k lvl y0 y1).2.mem = s.mem := by
  induction y1 generalizing s y0 with
  | zero => rfl
  | succ n ih =>
    rw [State.pinLines]
    dsimp only
    split
    · simp
    · split
      · rfl
      · rw [ih]; simp

@[simp] theorem State.seqPin_mem (s : State) (c k : Nat) (lvl : Bool) (b r d : BitVec 5) :
    (s.seqPin c k lvl b r d).mem = s.mem := by
  unfold State.seqPin
  dsimp only
  split <;> (rename_i h; have h1 := congrArg (fun p => (Prod.snd p).mem) h; simp only [State.pinLines_mem] at h1)
  · exact h1.symm
  · simp [h1]

@[simp] theorem State.seqUnpin_mem (s : State) (c k : Nat) (lvl : Bool) (b r d : BitVec 5) :
    (s.seqUnpin c k lvl b r d).mem = s.mem := by
  simp [State.seqUnpin]

@[simp] theorem State.fetchLines_mem (s : State) (c : Nat) (lvl : Bool) (y0 : Nat) (y1 : Nat) :
    (s.fetchLines c lvl y0 y1).mem = s.mem := by
  induction y1 generalizing s y0 with
  | zero => rfl
  | succ n ih => rw [State.fetchLines, ih]; split <;> simp

@[simp] theorem State.seqIpref_mem (s : State) (c k : Nat) (lvl : Bool) (b r : BitVec 5) :
    (s.seqIpref c k lvl b r).mem = s.mem := by
  simp [State.seqIpref]

@[simp] theorem State.softEvict_mem (s : State) (c : Nat) (lvl : Bool) (line : Nat) :
    (s.softEvict c lvl line).mem = s.mem := by
  unfold State.softEvict
  (repeat' split) <;> simp

@[simp] theorem State.amoAct_memWf (s : State) (c k op a x scope : Nat) (rd : BitVec 5) (h : memWf s.mem = true) :
    memWf (s.amoAct c k op a x scope rd).mem = true := by
  unfold State.amoAct
  simp only []
  (repeat' split) <;> simp_all

@[simp] theorem State.seqAmo_memWf (s : State) (c k : Nat) (o : BitVec 4) (scope : BitVec 3) (b r d : BitVec 5) (h : memWf s.mem = true) :
    memWf (s.seqAmo c k o scope b r d).mem = true := by
  unfold State.seqAmo
  dsimp only
  split
  · rename_i hh; have h2 := congrArg (fun p => (Prod.snd p).mem) hh; simp only [State.homeOf_mem] at h2
    rw [← h2]; exact h
  · rename_i hh; have h2 := congrArg (fun p => (Prod.snd p).mem) hh; simp only [State.homeOf_mem] at h2
    split
    · simp [← h2, h]
    · split
      · split
        · rw [← h2]; exact h
        · exact State.amoAct_memWf _ _ _ _ _ _ _ _ (by rw [← h2]; exact h)
      · split
        · rename_i hf; have h3 := congrArg (fun p => (Prod.snd p).mem) hf; simp only [State.fenceStep_mem] at h3
          rw [← h3, ← h2]; exact h
        · rename_i hf; have h3 := congrArg (fun p => (Prod.snd p).mem) hf; simp only [State.fenceStep_mem] at h3
          exact State.amoAct_memWf _ _ _ _ _ _ _ _ (by rw [← h3, ← h2]; exact h)

@[simp] theorem State.tryEnd_mem (s : State) (c k : Nat) : (s.tryEnd c k).mem = s.mem := by
  unfold State.tryEnd
  split
  · split <;> (rename_i h; have h1 := congrArg (fun p => (Prod.snd p).mem) h; simp only [State.drained_mem] at h1)
    · simp [h1]
    · exact h1.symm
  · rfl

@[simp] theorem State.seqTrapr_mem (s : State) (c k : Nat) (code : BitVec 12) :
    (s.seqTrapr c k code).mem = s.mem := by
  unfold State.seqTrapr
  (repeat' split) <;> simp

@[simp] theorem State.seqHalt_mem (s : State) (c k : Nat) (code : BitVec 12) :
    (s.seqHalt c k code).mem = s.mem := by
  unfold State.seqHalt
  split <;> simp

@[simp] theorem State.csrPut_mem (s : State) (c k n : Nat) (v : Word) : (s.csrPut c k n v).mem = s.mem := by
  unfold State.csrPut
  split <;> simp

theorem State.csrAccess_mem (s : State) (c k : Nat) (op : CsrOp) (imm : Bool) (n : Nat) (rs rd : BitVec 5)
    (put : State → Word → Bool × State) (h : ∀ s w, (put s w).2.mem = s.mem) :
    (s.csrAccess c k op imm n rs rd put).mem = s.mem := by
  unfold State.csrAccess
  dsimp only
  have act : ∀ t : State, (match csrNew op rs (t.csrRead c k n) (if imm = true then BitVec.setWidth 64 rs else (t.ctx c k).reg rs) with
      | none => t.seqDone c k rd (t.csrRead c k n)
      | some w => match put t w with
        | (true, s) => s.seqDone c k rd (t.csrRead c k n)
        | (false, s) => s).mem = t.mem := by
    intro t
    split
    · simp
    · rename_i w _
      have h1 := h t w
      split <;> (rename_i hq; rw [hq] at h1; simpa using h1)
  split
  · exact State.asOwner_mem _ _ _ _ act
  · exact act s

@[simp] theorem State.rstkPut_mem (s : State) (c k : Nat) (i : Instr) (v : Word) :
    (s.rstkPut c k i v).2.mem = s.mem := by
  unfold State.rstkPut
  dsimp only
  split
  · rfl
  · split
    · simp
    · split
      · rename_i hh; have h2 := congrArg (fun p => (Prod.fst p).mem) hh; simp only [State.spillAll_mem] at h2
        simp [← h2]
      · rename_i hh; have h2 := congrArg (fun p => (Prod.fst p).mem) hh; simp only [State.spillAll_mem] at h2
        simp [← h2]

@[simp] theorem State.rsmarkPut_mem (s : State) (c : Nat) (v : Word) : (s.rsmarkPut c v).2.mem = s.mem := by
  unfold State.rsmarkPut
  split <;> simp

@[simp] theorem State.grdPut_mem (s : State) (c g : Nat) (v : Word) : (s.grdPut c g v).mem = s.mem := by
  simp [State.grdPut]

@[simp] theorem State.walkPuts_memWf (s : State) (p : Nat) (y0 : Nat) (y1 : List Word) (h : memWf s.mem = true) :
    memWf (s.walkPuts p y0 y1).mem = true := by
  induction y1 generalizing s y0 with
  | nil => exact h
  | cons w ws ih => rw [State.walkPuts]; exact ih _ _ (s.walkPut_memWf _ _ _ _ h)

@[simp] theorem State.post_memWf (s : State) (p : Nat) (h : memWf s.mem = true) : memWf (s.post p).mem = true := by
  unfold State.post
  dsimp only
  (repeat' split) <;> simp_all

@[simp] theorem State.setx_mem (s : State) (p c k : Nat) (on : Bool) : (s.setx p c k on).mem = s.mem := by
  unfold State.setx
  split <;> simp

@[simp] theorem State.nextKept_mem (s : State) (c k : Nat) : (s.nextKept c k).mem = s.mem := by
  unfold State.nextKept
  split <;> simp

@[simp] theorem State.resume_mem (s : State) (c k : Nat) (r : Record) (skip : Bool) :
    (s.resume c k r skip).mem = s.mem := by
  unfold State.resume
  dsimp only
  (repeat' split) <;> simp

@[simp] theorem State.abandonAt_mem (s : State) (c k : Nat) (r : Record) : (s.abandonAt c k r).mem = s.mem := by
  simp [State.abandonAt]

theorem State.tact_mem (s : State) (p : Nat) (on : Bool) (c k : Nat) (seq : BitVec 32) (act : State → Record → State)
    (h : ∀ s r, (act s r).mem = s.mem) : (s.tact p on c k seq act).mem = s.mem := by
  unfold State.tact
  split <;> simp [h]

@[simp] theorem State.fqcfgPut_mem (s : State) (p : Nat) (v : Word) : (s.fqcfgPut p v).mem = s.mem := by
  unfold State.fqcfgPut
  dsimp only
  split <;> simp

@[simp] theorem State.modLq_mem (s : State) (d q : Nat) (f : LqPos → LqPos) : (s.modLq d q f).mem = s.mem := by
  simp [State.modLq]

@[simp] theorem State.lqAdvance_mem (s : State) (d q : Nat) : (s.lqAdvance d q).mem = s.mem := by
  simp [State.lqAdvance]

@[simp] theorem State.lqBad_mem (s : State) (d q addr : Nat) : (s.lqBad d q addr).mem = s.mem := by
  simp [State.lqBad]

@[simp] theorem State.lqTake_mem (s : State) (d q : Nat) (p7 : Word) : (s.lqTake d q p7).mem = s.mem := by
  unfold State.lqTake
  dsimp only
  (repeat' split) <;> simp

theorem State.lqRead_mem (s : State) (d q : Nat) (again : State → State) (h : ∀ s, (again s).mem = s.mem) :
    (s.lqRead d q again).mem = s.mem := by
  unfold State.lqRead
  dsimp only
  (repeat' split) <;> simp [h]

@[simp] theorem State.launchTurn_mem (s : State) (d q : Nat) : (s.launchTurn d q).mem = s.mem := by
  unfold State.launchTurn
  split
  · rfl
  · exact State.lqRead_mem _ _ _ _ fun s => by simp

@[simp] theorem State.launchReread_mem (s : State) (d q : Nat) : (s.launchReread d q).mem = s.mem := by
  unfold State.launchReread
  dsimp only
  split
  · rfl
  · split
    · rfl
    · exact State.lqRead_mem _ _ _ _ fun s => by split <;> simp

@[simp] theorem State.placeTask_mem (s : State) (d q : Nat) : (s.placeTask d q).mem = s.mem := by
  unfold State.placeTask
  dsimp only
  (repeat' split) <;> simp

@[simp] theorem State.contEnqueue_mem (s : State) (id : Nat) : (s.contEnqueue id).mem = s.mem := by
  unfold State.contEnqueue
  (repeat' split) <;> simp

@[simp] theorem State.dispatch_mem (s : State) (c : Nat) : (s.dispatch c).mem = s.mem := by
  unfold State.dispatch
  dsimp only
  (repeat' split) <;> simp

@[simp] theorem State.lqcfgPut_mem (s : State) (d q : Nat) (v : Word) : (s.lqcfgPut d q v).mem = s.mem := by
  unfold State.lqcfgPut
  dsimp only
  split <;> simp

@[simp] theorem State.lqkickPut_mem (s : State) (who : HubAgent) (d q : Nat) (tail : BitVec 32) :
    (s.lqkickPut who d q tail).mem = s.mem := by
  unfold State.lqkickPut
  dsimp only
  (repeat' split) <;> simp

@[simp] theorem State.lqstatPut_mem (s : State) (who : HubAgent) (d q : Nat) (v : Word) :
    (s.lqstatPut who d q v).mem = s.mem := by
  unfold State.lqstatPut
  (repeat' split) <;> simp

@[simp] theorem State.barrierReset_mem (s : State) (t : Nat) : (s.barrierReset t).mem = s.mem := by
  unfold State.barrierReset
  dsimp only
  rw [State.modTag_mem, foldl_mem]; intro s e; split <;> simp

@[simp] theorem State.rtbindPut_mem (s : State) (who : HubAgent) (t : Nat) (v : Word) :
    (s.rtbindPut who t v).mem = s.mem := by
  unfold State.rtbindPut
  dsimp only
  (repeat' split) <;> simp

@[simp] theorem State.modMembers_mem (s : State) (p : Nat) (n : BitVec 16) (f : Nat → Ctx → Ctx) :
    (s.modMembers p n f).mem = s.mem := by
  unfold State.modMembers
  exact foldl_mem _ (fun s e => by simp) _ _

@[simp] theorem State.classEvents_mem (old s : State) : (State.classEvents old s).mem = s.mem := by
  unfold State.classEvents
  refine foldl_mem _ (fun s t => ?_) _ _
  split
  · split <;> simp
  · rfl

@[simp] theorem State.startPlan_mem (s : State) (t p : Nat) (n : BitVec 16) (t0 : Nat) :
    (s.startPlan t p n t0).mem = s.mem := by
  unfold State.startPlan
  split <;> simp

@[simp] theorem State.freshLoads_mem (s : State) (c : Nat) :
    (s.freshLoads c).mem = s.mem := by
  simp [State.freshLoads]

@[simp] theorem State.barrierEnd_mem (s : State) (t : Nat) : (s.barrierEnd t).mem = s.mem := by
  unfold State.barrierEnd
  dsimp only
  split
  · split
    · rfl
    · rw [State.startPlan_mem, State.modTag_mem, foldl_mem]; intro s e; split <;> simp
  · rfl

@[simp] theorem State.exSend_mem (s : State) (t i : Nat) (r : ExRec) (n : Nat) :
    (s.exSend t i r n).mem = s.mem := by
  unfold State.exSend
  dsimp only
  split <;> simp

@[simp] theorem State.exLand_mem (s : State) (t i : Nat) (r : ExRec) (n : Nat) :
    (s.exLand t i r n).mem = s.mem := by
  unfold State.exLand
  dsimp only
  split <;> simp

@[simp] theorem State.exStep_mem (s : State) (t i : Nat) : (s.exStep t i).mem = s.mem := by
  unfold State.exStep
  dsimp only
  (repeat' split) <;> simp

@[simp] theorem State.exDeadline_mem (s : State) (t i : Nat) : (s.exDeadline t i).mem = s.mem := by
  unfold State.exDeadline
  dsimp only
  (repeat' split) <;> simp

@[simp] theorem State.exEnd_mem (s : State) (t : Nat) : (s.exEnd t).mem = s.mem := by
  unfold State.exEnd
  dsimp only
  split
  · rfl
  · split
    · rw [foldl_mem]
      · simp
      · intro s e
        exact foldl_mem _ (fun s k => by (repeat' split) <;> simp) _ _
    · rfl

@[simp] theorem State.serviceIrq_mem (s : State) (p : Nat) : (s.serviceIrq p).mem = s.mem := by
  unfold State.serviceIrq
  split <;> simp

@[simp] theorem State.svcEvent_mem (s : State) (p bit_ : Nat) : (s.svcEvent p bit_).mem = s.mem := by
  unfold State.svcEvent
  split <;> simp

@[simp] theorem State.endAway_mem (s : State) (c : Nat) (task : BitVec 32) (groups : List (BitVec 16)) (pc : Word) :
    (s.endAway c task groups pc).mem = s.mem := by
  simp [State.endAway]

@[simp] theorem State.endConts_mem (s : State) (c : Nat) : (s.endConts c).mem = s.mem := by
  simp [State.endConts]

@[simp] theorem State.endCore_mem (s : State) (c : Nat) : (s.endCore c).mem = s.mem := by
  simp [State.endCore]

@[simp] theorem State.freshCore_mem (s : State) (c : Nat) (tasks : List QTask) :
    (s.freshCore c tasks).mem = s.mem := by
  simp [State.freshCore]

@[simp] theorem State.endQueued_mem (s : State) (c : Nat) :
    (s.endQueued c).mem = s.mem := by
  simp [State.endQueued]

theorem State.endCores_mem (s : State) (l : List Nat) :
    (l.foldl (fun s c => (s.endCore c).endQueued c) s).mem = s.mem :=
  foldl_mem _ (fun s c => by rw [State.endQueued_mem, State.endCore_mem]) l s

theorem State.freshCores_mem (s : State) (l : List Nat) : (l.foldl (fun s c => s.freshCore c []) s).mem = s.mem :=
  foldl_mem _ (fun s c => State.freshCore_mem s c []) l s

theorem State.clusterOut_mem_in (s : State) (cl : Nat) (h : (s.cluster cl).inService = true) :
    (s.clusterOut cl).mem = s.mem := by
  rw [State.clusterOut, h]
  dsimp only [Bool.not_true]
  rw [if_neg (by decide), State.svcEvent_mem, State.hubField_mem, State.modCluster_mem, State.freshCores_mem,
    State.endCores_mem]

@[simp] theorem State.clusterOut_mem (s : State) (cl : Nat) : (s.clusterOut cl).mem = s.mem := by
  cases h : (s.cluster cl).inService
  · rw [State.clusterOut, h]; rfl
  · exact State.clusterOut_mem_in s cl h

@[simp] theorem State.noteCore_mem (s : State) (cl phys : Nat) : (s.noteCore cl phys).mem = s.mem := by
  unfold State.noteCore
  split <;> simp

@[simp] theorem State.holdCluster_mem (s : State) (cl : Nat) : (s.holdCluster cl).mem = s.mem := by
  unfold State.holdCluster
  dsimp only
  rw [foldl_mem _ fun s x => by simp]
  simp

@[simp] theorem State.spareIn_mem (s : State) (c : Nat) : (s.spareIn c).mem = s.mem := by
  unfold State.spareIn
  dsimp only
  rw [State.modCluster_mem, State.holdCluster_mem, State.freshCore_mem, State.endCore_mem]

@[simp] theorem State.retireCore_mem (s : State) (c : Nat) : (s.retireCore c).mem = s.mem := by
  unfold State.retireCore
  dsimp only
  (repeat' split) <;> simp

@[simp] theorem State.replaceUnit_mem (s : State) (sd u : Nat) :
    (s.replaceUnit sd u).mem = s.mem := by
  unfold State.replaceUnit
  dsimp only
  (repeat' split) <;> simp

@[simp] theorem State.retireUnit_mem (s : State) (sd u : Nat) : (s.retireUnit sd u).mem = s.mem := by
  unfold State.retireUnit
  dsimp only
  (repeat' split) <;> simp

@[simp] theorem State.repairRow_mem (s : State) (sd row : Nat) : (s.repairRow sd row).mem = s.mem := by
  simp [State.repairRow]

@[simp] theorem State.dropIsolated_mem (s : State) : (s.dropIsolated).mem = s.mem := by
  unfold State.dropIsolated
  refine foldl_mem _ (fun s d => ?_) _ _
  split
  · exact foldl_mem _ (fun s d => by simp) _ _
  · rfl

@[simp] theorem State.reclassFrom_mem (old s : State) (l : Nat) :
    (State.reclassFrom old s l).mem = s.mem := by
  unfold State.reclassFrom
  dsimp only
  (repeat' split) <;> simp

@[simp] theorem State.reclass_mem (s : State) (l : Nat) : (s.reclass l).mem = s.mem := by
  simp [State.reclass]

@[simp] theorem State.measureLink_mem (s : State) (l : Nat) :
    (s.measureLink l).mem = s.mem := by
  unfold State.measureLink
  dsimp only
  (repeat' split) <;> simp

@[simp] theorem State.startTrain_mem (s : State) (l rate : Nat) : (s.startTrain l rate).mem = s.mem := by
  simp [State.startTrain]

@[simp] theorem State.noteLane_mem (s : State) (l dir m lane : Nat) : (s.noteLane l dir m lane).mem = s.mem := by
  unfold State.noteLane
  split <;> simp

@[simp] theorem State.retireLane_mem (s : State) (l dir m lane : Nat) :
    (s.retireLane l dir m lane).mem = s.mem := by
  unfold State.retireLane
  dsimp only
  (repeat' split) <;> simp

@[simp] theorem State.trainEnd_mem (s : State) (l : Nat) : (s.trainEnd l).mem = s.mem := by
  unfold State.trainEnd
  dsimp only
  (repeat' split) <;> simp

@[simp] theorem State.crcError_mem (s : State) (l dir m lane : Nat) : (s.crcError l dir m lane).mem = s.mem := by
  unfold State.crcError
  dsimp only
  (repeat' split) <;> simp

@[simp] theorem State.wslCrcError_mem (s : State) (d p : Nat) (unrepaired : Bool) :
    (s.wslCrcError d p unrepaired).mem = s.mem := by
  unfold State.wslCrcError
  dsimp only
  (repeat' split) <;> simp

@[simp] theorem State.windowEnd_mem (s : State) (l : Nat) : (s.windowEnd l).mem = s.mem := by
  unfold State.windowEnd
  dsimp only
  (repeat' split) <;> simp

@[simp] theorem State.lkctlPut_mem (s : State) (l : Nat) (v : Word) : (s.lkctlPut l v).mem = s.mem := by
  unfold State.lkctlPut
  dsimp only
  split <;> simp

@[simp] theorem State.modSq_mem (s : State) (d q : Nat) (f : LqPos → LqPos) : (s.modSq d q f).mem = s.mem := by
  simp [State.modSq]

@[simp] theorem State.sqAdvance_mem (s : State) (d q : Nat) : (s.sqAdvance d q).mem = s.mem := by
  simp [State.sqAdvance]

@[simp] theorem State.sqBad_mem (s : State) (d q addr : Nat) : (s.sqBad d q addr).mem = s.mem := by
  simp [State.sqBad]

@[simp] theorem State.sqFinish_memWf (s : State) (d q : Nat) (status : Nat) (old : Option Word) (h : memWf s.mem = true) :
    memWf (s.sqFinish d q status old).mem = true := by
  unfold State.sqFinish
  (repeat' split) <;> simp_all

@[simp] theorem State.sqTake_memWf (s : State) (d q : Nat) (w7 : Word) (h : memWf s.mem = true) :
    memWf (s.sqTake d q w7).mem = true := by
  unfold State.sqTake
  dsimp only
  (repeat' split) <;> simp_all

theorem State.sqRead_memWf (s : State) (d q : Nat) (again : State → State)
    (ha : ∀ s, memWf s.mem = true → memWf (again s).mem = true) (h : memWf s.mem = true) :
    memWf (s.sqRead d q again).mem = true := by
  unfold State.sqRead
  dsimp only
  split
  · exact h
  split
  · simp [h]
  · split
    · exact State.sqTake_memWf _ _ _ _ (by simpa using h)
    · exact ha _ (by simpa using h)

@[simp] theorem State.sqResend_memWf (s : State) (d q : Nat) (h : memWf s.mem = true) :
    memWf (s.sqResend d q).mem = true := by
  unfold State.sqResend
  split
  · exact h
  · exact State.sqFinish_memWf _ _ _ _ _ h

@[simp] theorem State.portsChanged_memWf (s : State) (h : memWf s.mem = true) :
    memWf s.portsChanged.mem = true := by
  unfold State.portsChanged
  exact foldl_memWf _ (fun s d hs => foldl_memWf _ (fun s q hq => s.sqResend_memWf d q hq) _ _ hs) _ _ h

@[simp] theorem State.sqTurn_memWf (s : State) (d q : Nat) (h : memWf s.mem = true) :
    memWf (s.sqTurn d q).mem = true := by
  unfold State.sqTurn
  split
  · exact State.sqResend_memWf _ _ _ h
  split
  · exact h
  · exact State.sqRead_memWf _ _ _ _ (fun s hs => by simpa using hs) h

@[simp] theorem State.sqReread_memWf (s : State) (d q : Nat) (h : memWf s.mem = true) :
    memWf (s.sqReread d q).mem = true := by
  unfold State.sqReread
  dsimp only
  split
  · exact h
  · split
    · exact h
    · exact State.sqRead_memWf _ _ _ _ (fun s hs => by split <;> simpa using hs) h

@[simp] theorem State.sqAck_memWf (s : State) (d q : Nat) (refused : Bool) (old : Word) (h : memWf s.mem = true) :
    memWf (s.sqAck d q refused old).mem = true := by
  unfold State.sqAck
  (repeat' split) <;> simp_all

@[simp] theorem State.portDown_memWf (s : State) (d p : Nat) (h : memWf s.mem = true) :
    memWf (s.portDown d p).mem = true := by
  unfold State.portDown
  split
  · exact h
  · exact State.portsChanged_memWf _ (by simpa using h)

@[simp] theorem State.wsqcfgPut_mem (s : State) (d q : Nat) (v : Word) : (s.wsqcfgPut d q v).mem = s.mem := by
  unfold State.wsqcfgPut
  dsimp only
  split <;> simp

@[simp] theorem State.wsqkickPut_mem (s : State) (who : HubAgent) (d q : Nat) (tail : BitVec 32) :
    (s.wsqkickPut who d q tail).mem = s.mem := by
  unfold State.wsqkickPut
  split <;> simp

@[simp] theorem State.wsqstatPut_mem (s : State) (who : HubAgent) (d q : Nat) (v : Word) :
    (s.wsqstatPut who d q v).mem = s.mem := by
  unfold State.wsqstatPut
  split <;> simp

@[simp] theorem State.wslRefuse_mem (s : State) : (s.wslRefuse).mem = s.mem := by
  simp [State.wslRefuse]

@[simp] theorem State.wslMem_memWf (s : State) (o : WslOp) (h : memWf s.mem = true) :
    memWf (s.wslMem o).mem = true := by
  unfold State.wslMem
  dsimp only
  (repeat' split) <;> simp_all

@[simp] theorem State.wslSend_mem (s : State) (o : WslOp) : (s.wslSend o).mem = s.mem := by
  unfold State.wslSend
  dsimp only
  (repeat' split) <;> simp

@[simp] theorem State.wslScratch_mem (s : State) (o : WslOp) : (s.wslScratch o).mem = s.mem := by
  unfold State.wslScratch
  dsimp only
  generalize (if o.atomic = true then _ else _ : Nat) = n
  (repeat' split) <;> simp

@[simp] theorem State.afterReset_mem (s : State) (ram : Tbl Word) : (s.afterReset ram).mem = [] := rfl

@[simp] theorem State.powerOn_mem (s : State) : s.powerOn.mem = [] := rfl

@[simp] theorem State.warm_mem (s : State) : s.warm.mem = [] := rfl

@[simp] theorem State.testCluster_mem (s : State) (cl : Nat) : (s.testCluster cl).mem = s.mem := by
  unfold State.testCluster
  (repeat' split) <;> simp

@[simp] theorem State.testLink_mem (s : State) (l : Nat) : (s.testLink l).mem = s.mem := by
  unfold State.testLink
  dsimp only
  split <;> simp

@[simp] theorem State.bootStop_mem (s : State) :
    (s.bootStop).mem = s.mem := by
  simp [State.bootStop]

@[simp] theorem State.wslBoot_mem (s : State) : (s.wslBoot).mem = s.mem := by
  unfold State.wslBoot
  dsimp only
  rw [foldl_mem]
  · simp
  · intro s d; exact foldl_mem _ (fun s p => by simp) _ _

@[simp] theorem State.measureAll_mem (s : State) :
    (s.measureAll).mem = s.mem := by
  simp [State.measureAll]

@[simp] theorem State.selfTest_mem (s : State) (res : SelfTest) : (s.selfTest res).mem = s.mem := by
  unfold State.selfTest
  (repeat' split) <;> simp

@[simp] theorem State.bootUp_mem (s : State) (firmware hypervisor : Bool) (images : BitVec 8) :
    (s.bootUp firmware hypervisor images).mem = s.mem := by
  unfold State.bootUp
  dsimp only
  (repeat' split) <;> simp

@[simp] theorem State.report_mem (s : State) (nonce : BitVec 256) : (s.report nonce).mem = s.mem := by
  simp [State.report]

@[simp] theorem State.addLife_mem (s : State) (key n : Nat) : (s.addLife key n).mem = s.mem := by
  unfold State.addLife
  split <;> simp

@[simp] theorem State.sampleOne_mem (s : State) (e : Nat × Nat) : (s.sampleOne e).mem = s.mem := by
  simp [State.sampleOne]

@[simp] theorem State.sampleLife_mem (s : State) : (s.sampleLife).mem = s.mem := by
  simp [State.sampleLife]

@[simp] theorem State.writeBack_mem (s : State) : (s.writeBack).mem = s.mem := by
  simp [State.writeBack]

@[simp] theorem State.sampleHeat_mem (s : State) (cl r : Nat) : (s.sampleHeat cl r).mem = s.mem := by
  unfold State.sampleHeat
  dsimp only
  split
  · rfl
  · have h : ∀ (l : List Nat) (s : State), (l.foldl (fun s x => s.emit (.thermalAlert cl x)) s).mem = s.mem :=
      fun l s => foldl_mem _ (fun s x => by simp) l s
    split
    · rw [foldl_mem _ fun s x => by simp]
      simp [h]
    · simp [h]

@[simp] theorem State.powerOff_mem (s : State) : s.powerOff.mem = [] := rfl

@[simp] theorem State.criticalDown_memWf (s : State) (h : memWf s.mem = true) :
    memWf (s.criticalDown).mem = true := by
  unfold State.criticalDown
  split
  · split
    · exact rfl
    · exact h
  · exact h

@[simp] theorem State.age_mem (s : State) (cl drift : Nat) : (s.age cl drift).mem = s.mem := by
  unfold State.age
  dsimp only
  (repeat' split) <;> simp

@[simp] theorem State.strike_mem (s : State) (loc : SoftLoc) : (s.strike loc).mem = s.mem := by
  unfold State.strike
  split <;> simp

@[simp] theorem State.wipeFields_mem (s : State) (off : Nat) (v : Word) (fs : List (Nat × Nat)) :
    (s.wipeFields off v fs).mem = s.mem := by
  unfold State.wipeFields
  exact foldl_mem _ (fun s f => by split <;> simp) _ _

@[simp] theorem State.tactPut_mem (s : State) (p : Nat) (v : Word) : (s.tactPut p v).mem = s.mem := by
  unfold State.tactPut
  dsimp only
  split <;> exact State.tact_mem _ _ _ _ _ _ _ fun s r => by simp

@[simp] theorem State.dbgctlPut_mem (s : State) (c : Nat) (v : Word) : (s.dbgctlPut c v).mem = s.mem := by
  unfold State.dbgctlPut
  split <;> simp

@[simp] theorem State.regWrite_memWf (s : State) (who : HubAgent) (r : HubReg) (v : Word) (h : memWf s.mem = true) :
    memWf (s.regWrite who r v).mem = true := by
  unfold State.regWrite
  dsimp only
  (repeat' split) <;> simp [h]

@[simp] theorem State.hubWrite_memWf (s : State) (who : HubAgent) (off : Nat) (v : Word) (h : memWf s.mem = true) :
    memWf (s.hubWrite who off v).mem = true := by
  unfold State.hubWrite
  (repeat' split) <;> simp [h]

@[simp] theorem State.hubWriteOf_memWf (s : State) (who : HubAgent) (off width : Nat) (v : Word) (h : memWf s.mem = true) :
    memWf (s.hubWriteOf who off width v).mem = true := by
  unfold State.hubWriteOf
  (repeat' split) <;> simp [h]

@[simp] theorem State.hostPut_memWf (s : State) (w : HostWrite) (h : memWf s.mem = true) :
    memWf (s.hostPut w).mem = true := by
  unfold State.hostPut
  (repeat' split) <;> simp_all

@[simp] theorem State.hostGet_mem (s : State) (r : HostRead) : (s.hostGet r).mem = s.mem := by
  unfold State.hostGet
  dsimp only
  (repeat' split) <;> simp

@[simp] theorem State.movePort_mem (s : State) (c : Nat) (m : SpillMove) :
    (s.movePort c m).mem = s.mem := by
  unfold State.movePort
  dsimp only
  (repeat' split) <;> simp

@[simp] theorem State.moveAccess_mem (s : State) (c : Nat) (m : SpillMove) (info : Bool) :
    (s.moveAccess c m info).mem = s.mem := by
  unfold State.moveAccess
  dsimp only
  (repeat' split) <;> simp

@[simp] theorem State.moveStep_mem (s : State) (c : Nat) (m : SpillMove) :
    (s.moveStep c m).mem = s.mem := by
  unfold State.moveStep
  dsimp only
  (repeat' split) <;> simp

@[simp] theorem State.spillStep_mem (s : State) (c : Nat) : (s.spillStep c).mem = s.mem := by
  unfold State.spillStep
  dsimp only
  (repeat' split) <;> simp

@[simp] theorem State.refillStep_mem (s : State) (c : Nat) : (s.refillStep c).mem = s.mem := by
  unfold State.refillStep
  dsimp only
  (repeat' split) <;> simp

@[simp] theorem State.setWindow_mem (s : State) (d b : Nat) : (s.setWindow d b).mem = s.mem := by
  unfold State.setWindow
  split <;> simp

@[simp] theorem State.grantDie_mem (s : State) (d : Nat) : (s.grantDie d).mem = s.mem := by
  unfold State.grantDie
  dsimp only
  have h : ((upFrom (8 * d) 8).foldl (fun a cl =>
    (if (s.cluster cl).unmet (s.claim cl).1 then a.addLife (lifeKey 6 0 cl) 1 else a).modCluster cl fun u =>
      u.grant (s.claim cl).1 ((s.boostGrants d).1.contains cl)) s).mem = s.mem :=
    foldl_mem _ (fun a cl => by split <;> simp) _ _
  split <;> exact h

@[simp] theorem State.boundary_mem (s : State) : (s.boundary).mem = s.mem := by
  unfold State.boundary
  split
  · rfl
  · dsimp only
    rw [foldl_mem _ fun s x => by simp, foldl_mem _ fun s x => by simp, foldl_mem _ fun s x => by simp]

@[simp] theorem State.clusterNote_mem (s : State) (cl : Nat) : (s.clusterNote cl).mem = s.mem := State.modCluster_mem _ _ _

@[simp] theorem State.clusterPulse_mem (s : State) (cl : Nat) : (s.clusterPulse cl).2.mem = s.mem := by
  unfold State.clusterPulse
  dsimp only
  split
  · exact State.modCluster_mem _ _ _
  · rfl

@[simp] theorem State.clusterTick_mem (s : State) (cl : Nat) : (s.clusterTick cl).2.mem = s.mem :=
  (State.clusterPulse_mem _ _).trans (State.clusterNote_mem _ _)

@[simp] theorem State.clusterTicks_mem (s : State) : (s.clusterTicks).2.mem = s.mem := by
  unfold State.clusterTicks
  generalize upFrom 0 32 = l
  have h : ∀ a : List Nat × State, (l.foldl (fun a cl => let r := a.2.clusterTick cl; (a.1 ++ r.1, r.2)) a).2.mem = a.2.mem := by
    induction l with
    | nil => intro a; rfl
    | cons c l ih => intro a; rw [List.foldl_cons, ih]; simp
  exact h _

@[simp] theorem State.countTick_mem (s : State) : s.countTick.mem = s.mem := rfl
@[simp] theorem State.drawn_mem (s : State) (n : Nat) : (s.drawn n).mem = s.mem := rfl

@[simp] theorem State.tick_mem (s : State) : (s.tick).mem = s.mem := by
  unfold State.tick
  exact (State.push_mem _ _).trans ((State.drawn_mem _ _).trans ((State.clusterTicks_mem _).trans (State.countTick_mem s)))

@[simp] theorem State.nextMove_mem (s : State) : (s.nextMove).2.mem = s.mem := by
  unfold State.nextMove
  split <;> simp

@[simp] theorem State.seqEnd_mem (s : State) (c k : Nat) (pc : Word) (i : Instr) :
    (s.seqEnd c k pc i).mem = s.mem := by
  unfold State.seqEnd
  dsimp only
  (repeat' split) <;> simp

end Sys2Proof.Machine
end

