-- ==== Sys2Proof/Laws/PerInstr.lean ====
section
/-! SUPPORT. Statements made of every instruction, with one lemma per constructor: family RoundTrip, the decoder
reads back what the encoder writes. -/
namespace Sys2Proof.Laws.RoundTrip
open Sys2Proof

-- Proofs one after another: each waiting proof would keep a thread and its stack.
set_option Elab.async false

/-- Decoding the word of a well-formed instruction gives it back, by the sequencer's decoder or by its engine's;
words that trap (03_words.md R63) are not re-encoded. -/
def Statement (i : Instr) : Prop :=
  i.wf = true →
    (∀ w, encodeSeq i = some w → decodeSeq w = i) ∧
      ∀ e e' w, encodeWord e i = some (e', w) → (∀ v sub, i ≠ .illegalWord v sub) → decodeWord e' w = i

theorem ofSeq {i : Instr} (h : i.wf = true → ∀ w, encodeSeq i = some w → decodeSeq? w = some i)
    (hw : ∀ e, encodeWord e i = none) : Statement i := fun hi =>
  ⟨fun w hs => by rw [decodeSeq, h hi w hs]; rfl, fun e e' w he => by rw [hw e] at he; cases he⟩

theorem ofWord {i : Instr} (hs : encodeSeq i = none)
    (h : i.wf = true → ∀ e e' w, encodeWord e i = some (e', w) → (∀ v sub, i ≠ .illegalWord v sub) →
      decodeWord e' w = i) : Statement i := fun hi =>
  ⟨fun w he => (by rw [hs] at he; cases he), h hi⟩

theorem ofVx {i : Instr} {o : VxOp} {f : Frame} {p : VxFields} (hv : i.vx? = some (o, f, p))
    (hi : o.toInstr f p = i) (hw : i.wf = engineFieldsOk i) (hs : encodeSeq i = none)
    (he : ∀ e, encodeWord e i = some (.vx, o.encode f p)) : Statement i :=
  ofWord hs fun h e e' w h' _ => by
    rw [hw, engineFieldsOk, hv] at h; rw [he] at h'; cases h'
    exact (VxOp.decode_encode o f p (by simp_all)).trans hi

theorem ofLd {i : Instr} {o : LdOp} {f : Frame} {p : LsFields} (hv : i.ld? = some (o, f, p))
    (hi : o.toInstr f p = i) (hw : i.wf = engineFieldsOk i) (hs : encodeSeq i = none)
    (he : ∀ e, encodeWord e i = some (.ld, o.encode f p)) : Statement i :=
  ofWord hs fun h e e' w h' _ => by
    rw [hw, engineFieldsOk, hv] at h; rw [he] at h'; cases h'
    exact (LdOp.decode_encode o f p (by simp_all)).trans hi

theorem ofSt {i : Instr} {o : StOp} {f : Frame} {p : LsFields} (hv : i.st? = some (o, f, p))
    (hi : o.toInstr f p = i) (hw : i.wf = engineFieldsOk i) (hs : encodeSeq i = none)
    (he : ∀ e, encodeWord e i = some (.st, o.encode f p)) : Statement i :=
  ofWord hs fun h e e' w h' _ => by
    rw [hw, engineFieldsOk, hv] at h; rw [he] at h'; cases h'
    exact (StOp.decode_encode o f p (by simp_all)).trans hi

theorem ofMx {i : Instr} {o : MxOp} {f : Frame} {p : MxFields} (hv : i.mx? = some (o, f, p))
    (hi : o.toInstr f p = i) (hw : i.wf = engineFieldsOk i) (hs : encodeSeq i = none)
    (he : ∀ e, encodeWord e i = some (.mx, o.encode f p)) : Statement i :=
  ofWord hs fun h e e' w h' _ => by
    rw [hw, engineFieldsOk, hv] at h; rw [he] at h'; cases h'
    exact (MxOp.decode_encode o f p (by simp_all)).trans hi

theorem ofCp {i : Instr} {o : CpOp} {f : Frame} {p : CpFields} (hi : o.toInstr f p = i) (hs : encodeSeq i = none)
    (he : ∀ e, encodeWord e i = some (.cp, o.encode f p)) : Statement i :=
  ofWord hs fun _ e e' w h' _ => by
    rw [he] at h'; cases h'; exact (CpOp.decode_encode o f p).trans hi

theorem ofEvent {i : Instr} (hs : encodeSeq i = none) (hw : ∀ e, encodeWord e i = none) : Statement i := fun _ =>
  ⟨fun w he => (by rw [hs] at he; cases he), fun e e' w he => by rw [hw e] at he; cases he⟩

/-- A bit as a field, read back. -/
theorem ofBool_bit : ∀ b : Bool, (BitVec.ofBool b).getLsbD 0 = b := by decide

@[simp] theorem imm_parts (i : BitVec 12) : (i.extractLsb' 5 7 ++ i.extractLsb' 0 5 : BitVec 12) = i :=
  append_parts 7 5 i

@[simp] theorem parts_2_5 : ∀ m : BitVec 5, (0#2 ++ m).extractLsb' 5 2 = 0 ∧ (0#2 ++ m).extractLsb' 0 5 = m := by
  decide

@[simp] theorem parts_7_5 : ∀ m : BitVec 5, (0#7 ++ m).extractLsb' 5 7 = 0 ∧ (0#7 ++ m).extractLsb' 0 5 = m := by
  decide

@[simp] theorem parts_2_3 : ∀ e : BitVec 3, (0#2 ++ e).extractLsb' 3 2 = 0 ∧ (0#2 ++ e).extractLsb' 0 3 = e := by
  decide

@[simp] theorem parts_4_3 : ∀ e : BitVec 3, (0#4 ++ e).extractLsb' 3 4 = 0 ∧ (0#4 ++ e).extractLsb' 0 3 = e := by
  decide

@[simp] theorem parts_9_3 : ∀ t : BitVec 3, (0#9 ++ t).extractLsb' 5 7 = 0 ∧ (0#9 ++ t).extractLsb' 3 2 = 0 ∧
    (0#9 ++ t).extractLsb' 0 3 = t := by decide

@[simp] theorem parts_11_1 : ∀ n : Bool, (0#11 ++ BitVec.ofBool n).extractLsb' 5 7 = 0 ∧
    (0#11 ++ BitVec.ofBool n).extractLsb' 1 4 = 0 ∧ (0#11 ++ BitVec.ofBool n)[0] = n := by decide

@[simp] theorem parts_6_1 : ∀ l : Bool, (0#6 ++ BitVec.ofBool l).extractLsb' 1 6 = 0 ∧
    (0#6 ++ BitVec.ofBool l)[0] = l := by decide

theorem branch_parts (i : BitVec 12) :
    branchImm (i.extractLsb' 11 1 ++ i.extractLsb' 4 6) (i.extractLsb' 0 4 ++ i.extractLsb' 10 1) = i := by
  unfold branchImm; ext j hj; simp only [BitVec.getElem_append, BitVec.getElem_extractLsb', BitVec.getLsbD_append,
    BitVec.getLsbD_extractLsb']; grind

theorem jal_parts (i : BitVec 20) :
    jalImm (i.extractLsb' 19 1 ++ i.extractLsb' 0 10 ++ i.extractLsb' 10 1 ++ i.extractLsb' 11 8) = i := by
  unfold jalImm; ext j hj; simp only [BitVec.getElem_append, BitVec.getElem_extractLsb', BitVec.getLsbD_append,
    BitVec.getLsbD_extractLsb']; grind


theorem powerOnReset : Statement (.powerOnReset) := ofEvent rfl fun _ => rfl

theorem warmReset : Statement (.warmReset) := ofEvent rfl fun _ => rfl

theorem selfTest (res : SelfTest) : Statement (.selfTest res) := ofEvent rfl fun _ => rfl

theorem boot (firmware hypervisor : Bool) (images : BitVec 8) : Statement (.boot firmware hypervisor images) := ofEvent rfl fun _ => rfl

theorem attestationReport (nonce : BitVec 256) : Statement (.attestationReport nonce) := ofEvent rfl fun _ => rfl

theorem hubRegWrite (who : HubAgent) (off : Nat) (a : HubAccess) : Statement (.hubRegWrite who off a) := ofEvent rfl fun _ => rfl

theorem csrWrite (op : CsrOp) (imm : Bool) (csr : BitVec 12) (rs rd : BitVec 5) : Statement (.csrWrite op imm csr rs rd) := ofSeq (fun hw w h => by
  cases h
  simp only [Instr.wf, csrPlain, Bool.and_eq_true, bne_iff_ne, ne_eq, Bool.not_eq_true', Bool.and_eq_false_iff,
    decide_eq_false_iff_not] at hw
  obtain ⟨⟨⟨⟨⟨⟨⟨hk, h1⟩, h2⟩, h3⟩, h4⟩, h5⟩, h6⟩, h7⟩ := hw
  have hc : csrInstr op imm csr rs rd = some (.csrWrite op imm csr rs rd) := by
    simp only [csrInstr, hk]
    rw [if_neg (by decide), if_neg h1, if_neg h2, if_neg fun x => h3.elim (absurd x.1) (absurd x.2), if_neg h4, if_neg h5, if_neg h6, if_neg h7]
  rw [encodeCsr, decodeSeq_xi]
  cases op <;> cases imm <;> simp [csrF3, decodeFields, decodeSystem, hc]) fun _ => rfl

theorem rstkWrite (op : CsrOp) (imm : Bool) (rs rd : BitVec 5) : Statement (.rstkWrite op imm rs rd) := ofSeq (fun _ w h => by
  cases h; rw [encodeCsr, decodeSeq_xi]
  cases op <;> cases imm <;> rfl) fun _ => rfl

theorem rsmarkWrite (op : CsrOp) (imm : Bool) (rs rd : BitVec 5) : Statement (.rsmarkWrite op imm rs rd) := ofSeq (fun _ w h => by
  cases h; rw [encodeCsr, decodeSeq_xi]
  cases op <;> cases imm <;> rfl) fun _ => rfl

theorem grdWrite (op : CsrOp) (imm : Bool) (g : BitVec 3) (rs rd : BitVec 5) : Statement (.grdWrite op imm g rs rd) := ofSeq (fun _ w h => by
  cases h; rw [encodeCsr, decodeSeq_xi]
  have hg : ∀ g : BitVec 3, csrKnown (0x108#9 ++ g).toNat = true ∧ 0x840 ≤ (0x108#9 ++ g).toNat ∧
      (0x108#9 ++ g).toNat ≤ 0x847 ∧ (0x108#9 ++ g).extractLsb' 0 3 = g := by decide
  have hc : ∀ op imm, csrInstr op imm (0x108#9 ++ g) rs rd = some (.grdWrite op imm g rs rd) := by
    intro op imm
    obtain ⟨hk, h1, h2, h3⟩ := hg g
    rw [csrInstr, hk, h3]
    rw [if_neg (by decide), if_neg (by omega), if_neg (by omega), if_pos ⟨h1, h2⟩]
  cases op <;> cases imm <;> simp only [csrF3, decodeFields, decodeSystem, imm_parts] <;> exact hc _ _) fun _ => rfl

theorem savebWrite (op : CsrOp) (imm : Bool) (rs rd : BitVec 5) : Statement (.savebWrite op imm rs rd) := ofSeq (fun _ w h => by
  cases h; rw [encodeCsr, decodeSeq_xi]
  cases op <;> cases imm <;> rfl) fun _ => rfl

theorem boostWrite (op : CsrOp) (imm : Bool) (rs rd : BitVec 5) : Statement (.boostWrite op imm rs rd) := ofSeq (fun _ w h => by
  cases h; rw [encodeCsr, decodeSeq_xi]
  cases op <;> cases imm <;> rfl) fun _ => rfl

theorem qhselClr (op : CsrOp) (imm : Bool) (rs rd : BitVec 5) : Statement (.qhselClr op imm rs rd) := ofSeq (fun _ w h => by
  cases h; rw [encodeCsr, decodeSeq_xi]
  cases op <;> cases imm <;> rfl) fun _ => rfl

theorem trctlWrite (op : CsrOp) (imm : Bool) (rs rd : BitVec 5) : Statement (.trctlWrite op imm rs rd) := ofSeq (fun _ w h => by
  cases h; rw [encodeCsr, decodeSeq_xi]
  cases op <;> cases imm <;> rfl) fun _ => rfl

theorem lqcfgWrite (d q : Nat) (v : Word) : Statement (.lqcfgWrite d q v) := ofEvent rfl fun _ => rfl

theorem lqkickWrite (who : HubAgent) (d q : Nat) (tail : BitVec 32) : Statement (.lqkickWrite who d q tail) := ofEvent rfl fun _ => rfl

theorem lqstatBphaltRelease (who : HubAgent) (d q : Nat) : Statement (.lqstatBphaltRelease who d q) := ofEvent rfl fun _ => rfl

theorem fqcfgWrite (p : Nat) (v : Word) : Statement (.fqcfgWrite p v) := ofEvent rfl fun _ => rfl

theorem rtbindWrite (who : HubAgent) (t : Nat) (v : Word) : Statement (.rtbindWrite who t v) := ofEvent rfl fun _ => rfl

theorem tactResume (p : Nat) (setx : Bool) (c k : Nat) (seq : BitVec 32) : Statement (.tactResume p setx c k seq) := ofEvent rfl fun _ => rfl

theorem tactSkip (p : Nat) (setx : Bool) (c k : Nat) (seq : BitVec 32) : Statement (.tactSkip p setx c k seq) := ofEvent rfl fun _ => rfl

theorem tactAbandon (p : Nat) (setx : Bool) (c k : Nat) (seq : BitVec 32) : Statement (.tactAbandon p setx c k seq) := ofEvent rfl fun _ => rfl

theorem tactEnd (p : Nat) (setx : Bool) (c k : Nat) (seq : BitVec 32) : Statement (.tactEnd p setx c k seq) := ofEvent rfl fun _ => rfl

theorem lkctlRateWrite (l : Nat) (v : Word) : Statement (.lkctlRateWrite l v) := ofEvent rfl fun _ => rfl

theorem lkctlRetrain (l : Nat) : Statement (.lkctlRetrain l) := ofEvent rfl fun _ => rfl

theorem lkretRetire (l dir m lane : Nat) : Statement (.lkretRetire l dir m lane) := ofEvent rfl fun _ => rfl

theorem dbgctlStop (c : Nat) : Statement (.dbgctlStop c) := ofEvent rfl fun _ => rfl

theorem dbgctlRelease (c : Nat) : Statement (.dbgctlRelease c) := ofEvent rfl fun _ => rfl

theorem debugStopTake (c : Nat) : Statement (.debugStopTake c) := ofEvent rfl fun _ => rfl

theorem debugSlotRead (c slot : Nat) : Statement (.debugSlotRead c slot) := ofEvent rfl fun _ => rfl

theorem debugWrite (c : Nat) (target : DebugTarget) : Statement (.debugWrite c target) := ofEvent rfl fun _ => rfl

theorem wsqcfgWrite (d q : Nat) (v : Word) : Statement (.wsqcfgWrite d q v) := ofEvent rfl fun _ => rfl

theorem wsqkickWrite (who : HubAgent) (d q : Nat) (tail : BitVec 32) : Statement (.wsqkickWrite who d q tail) := ofEvent rfl fun _ => rfl

theorem scalarAlu (a : AluForm) : Statement (.scalarAlu a) := ofSeq (fun hw w h => by
  cases h
  cases a with
  | rr op d s b => rw [encodeAlu, decodeSeq_xr]; cases op <;> rfl
  | imm op d s i =>
    rw [encodeAlu, decodeSeq_xi]
    cases op <;> simp [ImmOp.fields, decodeFields, decodeOpImm, decodeOpImmW]
  | shift op d s sh =>
    have e1 : ∀ k : BitVec 6, ((k ++ sh).extractLsb' 5 7).extractLsb' 1 6 = k := by
      intro k; ext j hj; simp [BitVec.getLsbD_append]; grind
    have e2 : ∀ k : BitVec 6, (((k ++ sh).extractLsb' 5 7).extractLsb' 0 1 ++ (k ++ sh).extractLsb' 0 5 : BitVec 6) = sh := by
      intro k; ext j hj; simp [BitVec.getElem_append, BitVec.getLsbD_append]; grind
    have e3 : ∀ k : BitVec 6, k = 0 ∨ k = 0x10 → ∀ sh : BitVec 6, sh < 32 →
        (k ++ sh).extractLsb' 5 7 = k ++ 0#1 ∧ 0#1 ++ (k ++ sh).extractLsb' 0 5 = sh := by decide
    rw [encodeAlu, decodeSeq_xi]
    cases op <;> simp only [Instr.wf, AluForm.wf, ShOp.amountOk, decide_eq_true_eq] at hw
    · simp [ShOp.fields, decodeFields, decodeOpImm, e1, e2]
    · simp [ShOp.fields, decodeFields, decodeOpImm, e1, e2]
    · simp [ShOp.fields, decodeFields, decodeOpImm, e1, e2]
    · have := e3 0 (.inl rfl) sh hw; simp_all [ShOp.fields, decodeFields, decodeOpImmW]
    · have := e3 0 (.inl rfl) sh hw; simp_all [ShOp.fields, decodeFields, decodeOpImmW]
    · have := e3 0x10 (.inr rfl) sh hw; simp_all [ShOp.fields, decodeFields, decodeOpImmW]
  | lui d i => rw [encodeAlu, decodeSeq_upper]; simp [decodeFields]
  | auipc d i => rw [encodeAlu, decodeSeq_upper]; simp [decodeFields]) fun _ => rfl

theorem scalarLoad (w : LoadWidth) (rd rs1 : BitVec 5) (imm : BitVec 12) : Statement (.scalarLoad w rd rs1 imm) := ofSeq (fun _ x h => by
  cases h; rw [decodeSeq_xi]; cases w <;> simp [LoadWidth.f3, decodeFields]) fun _ => rfl

theorem scalarStore (w : StoreWidth) (rs1 rs2 : BitVec 5) (imm : BitVec 12) : Statement (.scalarStore w rs1 rs2 imm) := ofSeq (fun _ x h => by
  cases h; rw [decodeSeq_xr]; cases w <;> simp [StoreWidth.f3, decodeFields]) fun _ => rfl

theorem scalarBranchJump (j : JumpForm) : Statement (.scalarBranchJump j) := ofSeq (fun _ w h => by
  cases h
  cases j with
  | branch op s b i =>
    rw [encodeJump, decodeSeq_xr]
    cases op <;> simp [BranchOp.f3, decodeFields, branch_parts]
  | jal d i => rw [encodeJump, decodeSeq_upper]; simp [decodeFields, jal_parts]
  | jalr d s i => rw [encodeJump, decodeSeq_xi]; simp [decodeFields]) fun _ => rfl

theorem fence (imm : BitVec 12) (rs1 rd : BitVec 5) : Statement (.fence imm rs1 rd) := ofSeq (fun hw w h => by
  cases h
  simp only [decodeSeq_xr, decodeSeq_xi]
  simp [decodeFields, decodeSystem, decodeCustom0, decodeCustom1, decodeCustom2, decodeCustom3]) fun _ => rfl

theorem ecall : Statement (.ecall) := ofSeq (fun hw w h => by
  cases h
  simp only [decodeSeq_xr, decodeSeq_xi]
  simp [decodeFields, decodeSystem, decodeCustom0, decodeCustom1, decodeCustom2, decodeCustom3]) fun _ => rfl

theorem ebreak : Statement (.ebreak) := ofSeq (fun hw w h => by
  cases h
  simp only [decodeSeq_xr, decodeSeq_xi]
  simp [decodeFields, decodeSystem, decodeCustom0, decodeCustom1, decodeCustom2, decodeCustom3]) fun _ => rfl

theorem fenceI (imm : BitVec 12) (rs1 rd : BitVec 5) : Statement (.fenceI imm rs1 rd) := ofSeq (fun hw w h => by
  cases h
  simp only [decodeSeq_xr, decodeSeq_xi]
  simp [decodeFields, decodeSystem, decodeCustom0, decodeCustom1, decodeCustom2, decodeCustom3]) fun _ => rfl

theorem illegalInstruction (w : BitVec 32) : Statement (.illegalInstruction w) := fun hw =>
  ⟨fun x h => by
    cases h
    simp only [Instr.wf, Option.isNone_iff_eq_none] at hw
    simp [decodeSeq, hw], fun e e' x he => by cases he⟩

theorem fork (m s d : BitVec 5) : Statement (.fork m s d) := ofSeq (fun hw w h => by
  cases h
  simp only [decodeSeq_xr, decodeSeq_xi]
  simp [decodeFields, decodeSystem, decodeCustom0, decodeCustom1, decodeCustom2, decodeCustom3]) fun _ => rfl

theorem forkEnqueue (c k : Nat) : Statement (.forkEnqueue c k) := ofEvent rfl fun _ => rfl

theorem rendv (m s : BitVec 5) : Statement (.rendv m s) := ofSeq (fun hw w h => by
  cases h
  simp only [decodeSeq_xr, decodeSeq_xi]
  simp [decodeFields, decodeSystem, decodeCustom0, decodeCustom1, decodeCustom2, decodeCustom3]) fun _ => rfl

theorem rendvReturn (c k : Nat) : Statement (.rendvReturn c k) := ofEvent rfl fun _ => rfl

theorem genf (d : BitVec 5) : Statement (.genf d) := ofSeq (fun hw w h => by
  cases h
  simp only [decodeSeq_xr, decodeSeq_xi]
  simp [decodeFields, decodeSystem, decodeCustom0, decodeCustom1, decodeCustom2, decodeCustom3]) fun _ => rfl

theorem eset (s : BitVec 5) (e : BitVec 3) : Statement (.eset s e) := ofSeq (fun hw w h => by
  cases h
  simp only [decodeSeq_xr, decodeSeq_xi]
  simp [decodeFields, decodeSystem, decodeCustom0, decodeCustom1, decodeCustom2, decodeCustom3]) fun _ => rfl

theorem eseti (i : BitVec 12) (e : BitVec 3) : Statement (.eseti i e) := ofSeq (fun hw w h => by
  cases h
  simp only [decodeSeq_xr, decodeSeq_xi]
  simp [decodeFields, decodeSystem, decodeCustom0, decodeCustom1, decodeCustom2, decodeCustom3]) fun _ => rfl

theorem tshape (s : BitVec 5) (t : BitVec 3) : Statement (.tshape s t) := ofSeq (fun hw w h => by
  cases h
  simp only [decodeSeq_xr, decodeSeq_xi]
  simp [decodeFields, decodeSystem, decodeCustom0, decodeCustom1, decodeCustom2, decodeCustom3]) fun _ => rfl

theorem qalign : Statement (.qalign) := ofSeq (fun hw w h => by
  cases h
  simp only [decodeSeq_xr, decodeSeq_xi]
  simp [decodeFields, decodeSystem, decodeCustom0, decodeCustom1, decodeCustom2, decodeCustom3]) fun _ => rfl

theorem ttload (b s d : BitVec 5) : Statement (.ttload b s d) := ofSeq (fun hw w h => by
  cases h
  simp only [decodeSeq_xr, decodeSeq_xi]
  simp [decodeFields, decodeSystem, decodeCustom0, decodeCustom1, decodeCustom2, decodeCustom3]) fun _ => rfl

theorem ttloadReplace (c k : Nat) : Statement (.ttloadReplace c k) := ofEvent rfl fun _ => rfl

theorem waitcW (b s d : BitVec 5) : Statement (.waitcW b s d) := ofSeq (fun hw w h => by
  cases h
  simp only [decodeSeq_xr, decodeSeq_xi]
  simp [decodeFields, decodeSystem, decodeCustom0, decodeCustom1, decodeCustom2, decodeCustom3]) fun _ => rfl

theorem waitcD (b s d : BitVec 5) : Statement (.waitcD b s d) := ofSeq (fun hw w h => by
  cases h
  simp only [decodeSeq_xr, decodeSeq_xi]
  simp [decodeFields, decodeSystem, decodeCustom0, decodeCustom1, decodeCustom2, decodeCustom3]) fun _ => rfl

theorem waitcArm (c k : Nat) : Statement (.waitcArm c k) := ofEvent rfl fun _ => rfl

theorem signlW (b s d : BitVec 5) : Statement (.signlW b s d) := ofSeq (fun hw w h => by
  cases h
  simp only [decodeSeq_xr, decodeSeq_xi]
  simp [decodeFields, decodeSystem, decodeCustom0, decodeCustom1, decodeCustom2, decodeCustom3]) fun _ => rfl

theorem signlD (b s d : BitVec 5) : Statement (.signlD b s d) := ofSeq (fun hw w h => by
  cases h
  simp only [decodeSeq_xr, decodeSeq_xi]
  simp [decodeFields, decodeSystem, decodeCustom0, decodeCustom1, decodeCustom2, decodeCustom3]) fun _ => rfl

theorem continuationEnqueue (id : Nat) : Statement (.continuationEnqueue id) := ofEvent rfl fun _ => rfl

theorem join (s d : BitVec 5) : Statement (.join s d) := ofSeq (fun hw w h => by
  cases h
  simp only [decodeSeq_xr, decodeSeq_xi]
  simp [decodeFields, decodeSystem, decodeCustom0, decodeCustom1, decodeCustom2, decodeCustom3]) fun _ => rfl

theorem leave (s d : BitVec 5) : Statement (.leave s d) := ofSeq (fun hw w h => by
  cases h
  simp only [decodeSeq_xr, decodeSeq_xi]
  simp [decodeFields, decodeSystem, decodeCustom0, decodeCustom1, decodeCustom2, decodeCustom3]) fun _ => rfl

theorem sstep (t : BitVec 3) (s d : BitVec 5) : Statement (.sstep t s d) := ofSeq (fun hw w h => by
  cases h
  simp only [decodeSeq_xr, decodeSeq_xi]
  simp [decodeFields, decodeSystem, decodeCustom0, decodeCustom1, decodeCustom2, decodeCustom3]) fun _ => rfl

theorem barrierComplete (t : Nat) : Statement (.barrierComplete t) := ofEvent rfl fun _ => rfl

theorem exwait (t : BitVec 3) (d : BitVec 5) : Statement (.exwait t d) := ofSeq (fun hw w h => by
  cases h
  simp only [decodeSeq_xr, decodeSeq_xi]
  simp [decodeFields, decodeSystem, decodeCustom0, decodeCustom1, decodeCustom2, decodeCustom3]) fun _ => rfl

theorem exwaitReturn (c k : Nat) : Statement (.exwaitReturn c k) := ofEvent rfl fun _ => rfl

theorem explan (t : BitVec 3) (b s d : BitVec 5) : Statement (.explan t b s d) := ofSeq (fun hw w h => by
  cases h
  simp only [decodeSeq_xr, decodeSeq_xi]
  simp [decodeFields, decodeSystem, decodeCustom0, decodeCustom1, decodeCustom2, decodeCustom3]) fun _ => rfl

theorem rqpop (n : Bool) (d : BitVec 5) : Statement (.rqpop n d) := ofSeq (fun hw w h => by
  cases h
  simp only [decodeSeq_xr, decodeSeq_xi]
  simp [decodeFields, decodeSystem, decodeCustom0, decodeCustom1, decodeCustom2, decodeCustom3]) fun _ => rfl

theorem rqpopReturn (c k : Nat) : Statement (.rqpopReturn c k) := ofEvent rfl fun _ => rfl

theorem pin (l : Bool) (b s d : BitVec 5) : Statement (.pin l b s d) := ofSeq (fun hw w h => by
  cases h
  simp only [decodeSeq_xr, decodeSeq_xi]
  simp [decodeFields, decodeSystem, decodeCustom0, decodeCustom1, decodeCustom2, decodeCustom3]) fun _ => rfl

theorem unpin (l : Bool) (b s d : BitVec 5) : Statement (.unpin l b s d) := ofSeq (fun hw w h => by
  cases h
  simp only [decodeSeq_xr, decodeSeq_xi]
  simp [decodeFields, decodeSystem, decodeCustom0, decodeCustom1, decodeCustom2, decodeCustom3]) fun _ => rfl

theorem ipref (l : Bool) (b s : BitVec 5) : Statement (.ipref l b s) := ofSeq (fun hw w h => by
  cases h
  simp only [decodeSeq_xr, decodeSeq_xi]
  simp [decodeFields, decodeSystem, decodeCustom0, decodeCustom1, decodeCustom2, decodeCustom3]) fun _ => rfl

theorem probe (b s d : BitVec 5) : Statement (.probe b s d) := ofSeq (fun hw w h => by
  cases h
  simp only [decodeSeq_xr, decodeSeq_xi]
  simp [decodeFields, decodeSystem, decodeCustom0, decodeCustom1, decodeCustom2, decodeCustom3]) fun _ => rfl

theorem bfence (c : BitVec 3) : Statement (.bfence c) := ofSeq (fun hw w h => by
  cases h; rw [decodeSeq_xi]; revert c; decide) fun _ => rfl

theorem fenceS (c : BitVec 3) : Statement (.fenceS c) := ofSeq (fun hw w h => by
  cases h; rw [decodeSeq_xi]; revert c; decide) fun _ => rfl

theorem amoS (o : BitVec 4) (c : BitVec 3) (b s d : BitVec 5) : Statement (.amoS o c b s d) := ofSeq (fun hw w h => by
  cases h; rw [decodeSeq_xr]
  have hk : ∀ (o : BitVec 4) (c : BitVec 3), (o ++ c).extractLsb' 3 4 = o ∧ (o ++ c).extractLsb' 0 3 = c := by decide
  simp only [Instr.wf, Bool.and_eq_true, decide_eq_true_eq] at hw
  simp only [decodeFields, decodeCustom2, (hk o c).1, (hk o c).2]
  exact if_pos hw) fun _ => rfl

theorem segb (s : BitVec 5) : Statement (.segb s) := ofSeq (fun hw w h => by
  cases h
  simp only [decodeSeq_xr, decodeSeq_xi]
  simp [decodeFields, decodeSystem, decodeCustom0, decodeCustom1, decodeCustom2, decodeCustom3]) fun _ => rfl

theorem sege (s d : BitVec 5) : Statement (.sege s d) := ofSeq (fun hw w h => by
  cases h
  simp only [decodeSeq_xr, decodeSeq_xi]
  simp [decodeFields, decodeSystem, decodeCustom0, decodeCustom1, decodeCustom2, decodeCustom3]) fun _ => rfl

theorem segeMeasure (c k : Nat) : Statement (.segeMeasure c k) := ofEvent rfl fun _ => rfl

theorem prept (m : BitVec 10) : Statement (.prept m) := ofSeq (fun hw w h => by
  cases h; rw [decodeSeq_xi]
  have h1 : ((0#2 ++ m).extractLsb' 5 7).extractLsb' 5 2 = 0 := by ext j hj; simp [BitVec.getLsbD_append]; grind
  have h2 : (((0#2 ++ m).extractLsb' 5 7).extractLsb' 0 5 ++ (0#2 ++ m).extractLsb' 0 5 : BitVec 10) = m := by
    ext j hj; simp [BitVec.getElem_append, BitVec.getLsbD_append]; grind
  simp only [decodeFields, decodeCustom3, h2]
  exact if_pos ⟨h1, trivial, trivial⟩) fun _ => rfl

theorem traprEnd : Statement (.traprEnd) := ofSeq (fun hw w h => by
  cases h
  simp only [decodeSeq_xr, decodeSeq_xi]
  simp [decodeFields, decodeSystem, decodeCustom0, decodeCustom1, decodeCustom2, decodeCustom3]) fun _ => rfl

theorem trapr (code : BitVec 12) : Statement (.trapr code) := ofSeq (fun hw w h => by
  cases h; rw [decodeSeq_xi]
  simp only [Instr.wf, bne_iff_ne, ne_eq] at hw
  simp only [decodeFields, decodeCustom3, imm_parts]
  exact (if_pos ⟨trivial, trivial⟩).trans (if_neg fun x => hw (by rw [← imm_parts code, x.1, x.2]; rfl))) fun _ => rfl

theorem taskEnd (c k : Nat) : Statement (.taskEnd c k) := ofEvent rfl fun _ => rfl

theorem haltD (code : BitVec 12) : Statement (.haltD code) := ofSeq (fun hw w h => by
  cases h
  simp only [decodeSeq_xr, decodeSeq_xi]
  simp [decodeFields, decodeSystem, decodeCustom0, decodeCustom1, decodeCustom2, decodeCustom3]) fun _ => rfl

theorem illegalWord (w : EWord) (sub : BitVec 2) : Statement (.illegalWord w sub) := ofWord rfl fun _ e e' w h hn => absurd rfl (hn _ _)

theorem engineNop (f : Frame) : Statement (.engineNop f) := ofWord rfl fun _ e e' w h _ => by
  cases h; simp [decodeWord, decodeWord_frame, decodeFrame, keep]

theorem engineIgnoredWord (lo : BitVec 4) (f : Frame) (p : BitVec 28) : Statement (.engineIgnoredWord lo f p) := ofWord rfl fun hw e e' w h _ => by
  cases h
  simp only [Instr.wf, Bool.and_eq_true, bne_iff_ne, ne_eq] at hw
  have h1 : (0xF#4 ++ lo : BitVec 8).extractLsb' 4 4 = 0xF := extract_upper _ _
  have h2 : (0xF#4 ++ lo : BitVec 8).extractLsb' 0 4 = lo := extract_lower _ _
  have h3 : ¬(0xF#4 ++ lo : BitVec 8) = 0xF0 := fun x => hw.1 (by rw [← h2, x]; decide)
  have h4 : ¬(0xF#4 ++ lo : BitVec 8) = 0xFF := fun x => hw.2 (by rw [← h2, x]; decide)
  rw [decodeWord, decodeWord_frame, decodeFrame, if_pos h1, if_neg h3, if_neg h4, h2]

theorem wordFinish (c id : Nat) : Statement (.wordFinish c id) := ofEvent rfl fun _ => rfl

theorem lapStallEnd (c : Nat) : Statement (.lapStallEnd c) := ofEvent rfl fun _ => rfl

theorem tokenDeadlockFault (c : Nat) : Statement (.tokenDeadlockFault c) := ofEvent rfl fun _ => rfl

theorem engineFaultTaken (c : Nat) : Statement (.engineFaultTaken c) := ofEvent rfl fun _ => rfl

theorem holdRelease (c : Nat) : Statement (.holdRelease c) := ofEvent rfl fun _ => rfl

theorem faultRecordPost (p : Nat) : Statement (.faultRecordPost p) := ofEvent rfl fun _ => rfl

theorem vxSourceRead (c id : Nat) : Statement (.vxSourceRead c id) := ofEvent rfl fun _ => rfl

theorem vxResultWrite (c id : Nat) : Statement (.vxResultWrite c id) := ofEvent rfl fun _ => rfl

theorem ldSlotWrite (c id : Nat) : Statement (.ldSlotWrite c id) := ofEvent rfl fun _ => rfl

theorem stSlotRead (c id : Nat) : Statement (.stSlotRead c id) := ofEvent rfl fun _ => rfl

theorem stWriteAccess (c id : Nat) : Statement (.stWriteAccess c id) := ofEvent rfl fun _ => rfl

theorem transferComplete (c : Nat) (e : Engine) : Statement (.transferComplete c e) := ofEvent rfl fun _ => rfl

theorem dvaReadArrival (c id : Nat) : Statement (.dvaReadArrival c id) := ofEvent rfl fun _ => rfl

theorem dvaStoreVisible (c id : Nat) : Statement (.dvaStoreVisible c id) := ofEvent rfl fun _ => rfl

theorem vxAdd (f : Frame) (p : VxFields) : Statement (.vxAdd f p) := ofVx rfl rfl rfl rfl fun _ => rfl

theorem vxSub (f : Frame) (p : VxFields) : Statement (.vxSub f p) := ofVx rfl rfl rfl rfl fun _ => rfl

theorem vxMul (f : Frame) (p : VxFields) : Statement (.vxMul f p) := ofVx rfl rfl rfl rfl fun _ => rfl

theorem vxFma (f : Frame) (p : VxFields) : Statement (.vxFma f p) := ofVx rfl rfl rfl rfl fun _ => rfl

theorem vxFms (f : Frame) (p : VxFields) : Statement (.vxFms f p) := ofVx rfl rfl rfl rfl fun _ => rfl

theorem vxFnma (f : Frame) (p : VxFields) : Statement (.vxFnma f p) := ofVx rfl rfl rfl rfl fun _ => rfl

theorem vxMin (f : Frame) (p : VxFields) : Statement (.vxMin f p) := ofVx rfl rfl rfl rfl fun _ => rfl

theorem vxMax (f : Frame) (p : VxFields) : Statement (.vxMax f p) := ofVx rfl rfl rfl rfl fun _ => rfl

theorem vxAbs (f : Frame) (p : VxFields) : Statement (.vxAbs f p) := ofVx rfl rfl rfl rfl fun _ => rfl

theorem vxNeg (f : Frame) (p : VxFields) : Statement (.vxNeg f p) := ofVx rfl rfl rfl rfl fun _ => rfl

theorem vxClamp (f : Frame) (p : VxFields) : Statement (.vxClamp f p) := ofVx rfl rfl rfl rfl fun _ => rfl

theorem vxRcp (f : Frame) (p : VxFields) : Statement (.vxRcp f p) := ofVx rfl rfl rfl rfl fun _ => rfl

theorem vxRsq (f : Frame) (p : VxFields) : Statement (.vxRsq f p) := ofVx rfl rfl rfl rfl fun _ => rfl

theorem vxExp2 (f : Frame) (p : VxFields) : Statement (.vxExp2 f p) := ofVx rfl rfl rfl rfl fun _ => rfl

theorem vxLog2 (f : Frame) (p : VxFields) : Statement (.vxLog2 f p) := ofVx rfl rfl rfl rfl fun _ => rfl

theorem vxAnd (f : Frame) (p : VxFields) : Statement (.vxAnd f p) := ofVx rfl rfl rfl rfl fun _ => rfl

theorem vxOr (f : Frame) (p : VxFields) : Statement (.vxOr f p) := ofVx rfl rfl rfl rfl fun _ => rfl

theorem vxXor (f : Frame) (p : VxFields) : Statement (.vxXor f p) := ofVx rfl rfl rfl rfl fun _ => rfl

theorem vxNot (f : Frame) (p : VxFields) : Statement (.vxNot f p) := ofVx rfl rfl rfl rfl fun _ => rfl

theorem vxShl (f : Frame) (p : VxFields) : Statement (.vxShl f p) := ofVx rfl rfl rfl rfl fun _ => rfl

theorem vxShr (f : Frame) (p : VxFields) : Statement (.vxShr f p) := ofVx rfl rfl rfl rfl fun _ => rfl

theorem vxSra (f : Frame) (p : VxFields) : Statement (.vxSra f p) := ofVx rfl rfl rfl rfl fun _ => rfl

theorem vxAdds (f : Frame) (p : VxFields) : Statement (.vxAdds f p) := ofVx rfl rfl rfl rfl fun _ => rfl

theorem vxMuls (f : Frame) (p : VxFields) : Statement (.vxMuls f p) := ofVx rfl rfl rfl rfl fun _ => rfl

theorem vxFmas (f : Frame) (p : VxFields) : Statement (.vxFmas f p) := ofVx rfl rfl rfl rfl fun _ => rfl

theorem vxMulh (f : Frame) (p : VxFields) : Statement (.vxMulh f p) := ofVx rfl rfl rfl rfl fun _ => rfl

theorem vxMins (f : Frame) (p : VxFields) : Statement (.vxMins f p) := ofVx rfl rfl rfl rfl fun _ => rfl

theorem vxMaxs (f : Frame) (p : VxFields) : Statement (.vxMaxs f p) := ofVx rfl rfl rfl rfl fun _ => rfl

theorem vxCeq (f : Frame) (p : VxFields) : Statement (.vxCeq f p) := ofVx rfl rfl rfl rfl fun _ => rfl

theorem vxCne (f : Frame) (p : VxFields) : Statement (.vxCne f p) := ofVx rfl rfl rfl rfl fun _ => rfl

theorem vxClt (f : Frame) (p : VxFields) : Statement (.vxClt f p) := ofVx rfl rfl rfl rfl fun _ => rfl

theorem vxCle (f : Frame) (p : VxFields) : Statement (.vxCle f p) := ofVx rfl rfl rfl rfl fun _ => rfl

theorem vxCgt (f : Frame) (p : VxFields) : Statement (.vxCgt f p) := ofVx rfl rfl rfl rfl fun _ => rfl

theorem vxCge (f : Frame) (p : VxFields) : Statement (.vxCge f p) := ofVx rfl rfl rfl rfl fun _ => rfl

theorem vxCun (f : Frame) (p : VxFields) : Statement (.vxCun f p) := ofVx rfl rfl rfl rfl fun _ => rfl

theorem vxCcl (f : Frame) (p : VxFields) : Statement (.vxCcl f p) := ofVx rfl rfl rfl rfl fun _ => rfl

theorem vxSel (f : Frame) (p : VxFields) : Statement (.vxSel f p) := ofVx rfl rfl rfl rfl fun _ => rfl

theorem vxGand (f : Frame) (p : VxFields) : Statement (.vxGand f p) := ofVx rfl rfl rfl rfl fun _ => rfl

theorem vxGor (f : Frame) (p : VxFields) : Statement (.vxGor f p) := ofVx rfl rfl rfl rfl fun _ => rfl

theorem vxGxor (f : Frame) (p : VxFields) : Statement (.vxGxor f p) := ofVx rfl rfl rfl rfl fun _ => rfl

theorem vxGandn (f : Frame) (p : VxFields) : Statement (.vxGandn f p) := ofVx rfl rfl rfl rfl fun _ => rfl

theorem vxGmov (f : Frame) (p : VxFields) : Statement (.vxGmov f p) := ofVx rfl rfl rfl rfl fun _ => rfl

theorem vxGtov (f : Frame) (p : VxFields) : Statement (.vxGtov f p) := ofVx rfl rfl rfl rfl fun _ => rfl

theorem vxVtog (f : Frame) (p : VxFields) : Statement (.vxVtog f p) := ofVx rfl rfl rfl rfl fun _ => rfl

theorem vxCvt (f : Frame) (p : VxFields) : Statement (.vxCvt f p) := ofVx rfl rfl rfl rfl fun _ => rfl

theorem vxCvtb (f : Frame) (p : VxFields) : Statement (.vxCvtb f p) := ofVx rfl rfl rfl rfl fun _ => rfl

theorem vxTag (f : Frame) (p : VxFields) : Statement (.vxTag f p) := ofVx rfl rfl rfl rfl fun _ => rfl

theorem vxReda (f : Frame) (p : VxFields) : Statement (.vxReda f p) := ofVx rfl rfl rfl rfl fun _ => rfl

theorem vxRedx (f : Frame) (p : VxFields) : Statement (.vxRedx f p) := ofVx rfl rfl rfl rfl fun _ => rfl

theorem vxRedn (f : Frame) (p : VxFields) : Statement (.vxRedn f p) := ofVx rfl rfl rfl rfl fun _ => rfl

theorem vxRedd (f : Frame) (p : VxFields) : Statement (.vxRedd f p) := ofVx rfl rfl rfl rfl fun _ => rfl

theorem vxMov (f : Frame) (p : VxFields) : Statement (.vxMov f p) := ofVx rfl rfl rfl rfl fun _ => rfl

theorem vxSwz (f : Frame) (p : VxFields) : Statement (.vxSwz f p) := ofVx rfl rfl rfl rfl fun _ => rfl

theorem vxLrot (f : Frame) (p : VxFields) : Statement (.vxLrot f p) := ofVx rfl rfl rfl rfl fun _ => rfl

theorem vxBcst (f : Frame) (p : VxFields) : Statement (.vxBcst f p) := ofVx rfl rfl rfl rfl fun _ => rfl

theorem vxZip (f : Frame) (p : VxFields) : Statement (.vxZip f p) := ofVx rfl rfl rfl rfl fun _ => rfl

theorem vxUzp (f : Frame) (p : VxFields) : Statement (.vxUzp f p) := ofVx rfl rfl rfl rfl fun _ => rfl

theorem vxSlide (f : Frame) (p : VxFields) : Statement (.vxSlide f p) := ofVx rfl rfl rfl rfl fun _ => rfl

theorem vxSplat (f : Frame) (p : VxFields) : Statement (.vxSplat f p) := ofVx rfl rfl rfl rfl fun _ => rfl

theorem vxAcrd (f : Frame) (p : VxFields) : Statement (.vxAcrd f p) := ofVx rfl rfl rfl rfl fun _ => rfl

theorem vxSret (f : Frame) (p : VxFields) : Statement (.vxSret f p) := ofVx rfl rfl rfl rfl fun _ => rfl

theorem vxSretc (f : Frame) (p : VxFields) : Statement (.vxSretc f p) := ofVx rfl rfl rfl rfl fun _ => rfl

theorem vxRmulq (f : Frame) (p : VxFields) : Statement (.vxRmulq f p) := ofVx rfl rfl rfl rfl fun _ => rfl

theorem vxUmulq (f : Frame) (p : VxFields) : Statement (.vxUmulq f p) := ofVx rfl rfl rfl rfl fun _ => rfl

theorem vxRsra (f : Frame) (p : VxFields) : Statement (.vxRsra f p) := ofVx rfl rfl rfl rfl fun _ => rfl

theorem vxUsra (f : Frame) (p : VxFields) : Statement (.vxUsra f p) := ofVx rfl rfl rfl rfl fun _ => rfl

theorem vxRnrw (f : Frame) (p : VxFields) : Statement (.vxRnrw f p) := ofVx rfl rfl rfl rfl fun _ => rfl

theorem vxUnrw (f : Frame) (p : VxFields) : Statement (.vxUnrw f p) := ofVx rfl rfl rfl rfl fun _ => rfl

theorem vxRleak (f : Frame) (p : VxFields) : Statement (.vxRleak f p) := ofVx rfl rfl rfl rfl fun _ => rfl

theorem vxUleak (f : Frame) (p : VxFields) : Statement (.vxUleak f p) := ofVx rfl rfl rfl rfl fun _ => rfl

theorem vxRaddq (f : Frame) (p : VxFields) : Statement (.vxRaddq f p) := ofVx rfl rfl rfl rfl fun _ => rfl

theorem vxUsubq (f : Frame) (p : VxFields) : Statement (.vxUsubq f p) := ofVx rfl rfl rfl rfl fun _ => rfl

theorem vxRmix (f : Frame) (p : VxFields) : Statement (.vxRmix f p) := ofVx rfl rfl rfl rfl fun _ => rfl

theorem vxUmix (f : Frame) (p : VxFields) : Statement (.vxUmix f p) := ofVx rfl rfl rfl rfl fun _ => rfl

theorem vxRmark (f : Frame) (p : VxFields) : Statement (.vxRmark f p) := ofVx rfl rfl rfl rfl fun _ => rfl

theorem vxRchk (f : Frame) (p : VxFields) : Statement (.vxRchk f p) := ofVx rfl rfl rfl rfl fun _ => rfl

theorem vxRdrop (f : Frame) (p : VxFields) : Statement (.vxRdrop f p) := ofVx rfl rfl rfl rfl fun _ => rfl

theorem remainderSpill (c : Nat) : Statement (.remainderSpill c) := ofEvent rfl fun _ => rfl

theorem remainderRefill (c : Nat) : Statement (.remainderRefill c) := ofEvent rfl fun _ => rfl

theorem ldV (f : Frame) (p : LsFields) : Statement (.ldV f p) := ofLd rfl rfl rfl rfl fun _ => rfl

theorem ldVb (f : Frame) (p : LsFields) : Statement (.ldVb f p) := ofLd rfl rfl rfl rfl fun _ => rfl

theorem ldVg (f : Frame) (p : LsFields) : Statement (.ldVg f p) := ofLd rfl rfl rfl rfl fun _ => rfl

theorem ldLn (f : Frame) (p : LsFields) : Statement (.ldLn f p) := ofLd rfl rfl rfl rfl fun _ => rfl

theorem ldGd (f : Frame) (p : LsFields) : Statement (.ldGd f p) := ofLd rfl rfl rfl rfl fun _ => rfl

theorem ldVd (f : Frame) (p : LsFields) : Statement (.ldVd f p) := ofLd rfl rfl rfl rfl fun _ => rfl

theorem ldT (f : Frame) (p : LsFields) : Statement (.ldT f p) := ofLd rfl rfl rfl rfl fun _ => rfl

theorem ldTw (f : Frame) (p : LsFields) : Statement (.ldTw f p) := ofLd rfl rfl rfl rfl fun _ => rfl

theorem ldTd (f : Frame) (p : LsFields) : Statement (.ldTd f p) := ofLd rfl rfl rfl rfl fun _ => rfl

theorem ldSc (f : Frame) (p : LsFields) : Statement (.ldSc f p) := ofLd rfl rfl rfl rfl fun _ => rfl

theorem ldTr (f : Frame) (p : LsFields) : Statement (.ldTr f p) := ofLd rfl rfl rfl rfl fun _ => rfl

theorem ldAm (f : Frame) (p : LsFields) : Statement (.ldAm f p) := ofLd rfl rfl rfl rfl fun _ => rfl

theorem stV (f : Frame) (p : LsFields) : Statement (.stV f p) := ofSt rfl rfl rfl rfl fun _ => rfl

theorem stVs (f : Frame) (p : LsFields) : Statement (.stVs f p) := ofSt rfl rfl rfl rfl fun _ => rfl

theorem stLn (f : Frame) (p : LsFields) : Statement (.stLn f p) := ofSt rfl rfl rfl rfl fun _ => rfl

theorem stGd (f : Frame) (p : LsFields) : Statement (.stGd f p) := ofSt rfl rfl rfl rfl fun _ => rfl

theorem stVd (f : Frame) (p : LsFields) : Statement (.stVd f p) := ofSt rfl rfl rfl rfl fun _ => rfl

theorem stVe (f : Frame) (p : LsFields) : Statement (.stVe f p) := ofSt rfl rfl rfl rfl fun _ => rfl

theorem stT (f : Frame) (p : LsFields) : Statement (.stT f p) := ofSt rfl rfl rfl rfl fun _ => rfl

theorem stRc (f : Frame) (p : LsFields) : Statement (.stRc f p) := ofSt rfl rfl rfl rfl fun _ => rfl

theorem stRd (f : Frame) (p : LsFields) : Statement (.stRd f p) := ofSt rfl rfl rfl rfl fun _ => rfl

theorem stAm (f : Frame) (p : LsFields) : Statement (.stAm f p) := ofSt rfl rfl rfl rfl fun _ => rfl

theorem mxMzero (f : Frame) (p : MxFields) : Statement (.mxMzero f p) := ofMx rfl rfl rfl rfl fun _ => rfl

theorem mxMma (f : Frame) (p : MxFields) : Statement (.mxMma f p) := ofMx rfl rfl rfl rfl fun _ => rfl

theorem mxMmac (f : Frame) (p : MxFields) : Statement (.mxMmac f p) := ofMx rfl rfl rfl rfl fun _ => rfl

theorem mxMmat (f : Frame) (p : MxFields) : Statement (.mxMmat f p) := ofMx rfl rfl rfl rfl fun _ => rfl

theorem mxMman (f : Frame) (p : MxFields) : Statement (.mxMman f p) := ofMx rfl rfl rfl rfl fun _ => rfl

theorem mxMscl (f : Frame) (p : MxFields) : Statement (.mxMscl f p) := ofMx rfl rfl rfl rfl fun _ => rfl

theorem mxMpre (f : Frame) (p : MxFields) : Statement (.mxMpre f p) := ofMx rfl rfl rfl rfl fun _ => rfl

theorem mxMtrn (f : Frame) (p : MxFields) : Statement (.mxMtrn f p) := ofMx rfl rfl rfl rfl fun _ => rfl

theorem mxMcpy (f : Frame) (p : MxFields) : Statement (.mxMcpy f p) := ofMx rfl rfl rfl rfl fun _ => rfl

theorem mxMfil (f : Frame) (p : MxFields) : Statement (.mxMfil f p) := ofMx rfl rfl rfl rfl fun _ => rfl

theorem mxMret (f : Frame) (p : MxFields) : Statement (.mxMret f p) := ofMx rfl rfl rfl rfl fun _ => rfl

theorem mxMrcv (f : Frame) (p : MxFields) : Statement (.mxMrcv f p) := ofMx rfl rfl rfl rfl fun _ => rfl

theorem mxMswp (f : Frame) (p : MxFields) : Statement (.mxMswp f p) := ofMx rfl rfl rfl rfl fun _ => rfl

theorem mxMadd (f : Frame) (p : MxFields) : Statement (.mxMadd f p) := ofMx rfl rfl rfl rfl fun _ => rfl

theorem mxWelt (f : Frame) (p : MxFields) : Statement (.mxWelt f p) := ofMx rfl rfl rfl rfl fun _ => rfl

theorem mxIssueEnd (c : Nat) : Statement (.mxIssueEnd c) := ofEvent rfl fun _ => rfl

theorem mxReplay (c : Nat) : Statement (.mxReplay c) := ofEvent rfl fun _ => rfl

theorem cpCopy (f : Frame) (p : CpFields) : Statement (.cpCopy f p) := ofCp rfl rfl fun _ => rfl

theorem cpRcopy (f : Frame) (p : CpFields) : Statement (.cpRcopy f p) := ofCp rfl rfl fun _ => rfl

theorem cpRamo (f : Frame) (p : CpFields) : Statement (.cpRamo f p) := ofCp rfl rfl fun _ => rfl

theorem cpWswr (f : Frame) (p : CpFields) : Statement (.cpWswr f p) := ofCp rfl rfl fun _ => rfl

theorem cpBcast (f : Frame) (p : CpFields) : Statement (.cpBcast f p) := ofCp rfl rfl fun _ => rfl

theorem cpFill (f : Frame) (p : CpFields) : Statement (.cpFill f p) := ofCp rfl rfl fun _ => rfl

theorem cpGath (f : Frame) (p : CpFields) : Statement (.cpGath f p) := ofCp rfl rfl fun _ => rfl

theorem cpScat (f : Frame) (p : CpFields) : Statement (.cpScat f p) := ofCp rfl rfl fun _ => rfl

theorem cpBgemv (f : Frame) (p : CpFields) : Statement (.cpBgemv f p) := ofCp rfl rfl fun _ => rfl

theorem cpBgemva (f : Frame) (p : CpFields) : Statement (.cpBgemva f p) := ofCp rfl rfl fun _ => rfl

theorem cpBatom (f : Frame) (p : CpFields) : Statement (.cpBatom f p) := ofCp rfl rfl fun _ => rfl

theorem cpBqry (f : Frame) (p : CpFields) : Statement (.cpBqry f p) := ofCp rfl rfl fun _ => rfl

theorem footprintEdgeRelease (c j : Nat) : Statement (.footprintEdgeRelease c j) := ofEvent rfl fun _ => rfl

theorem gatedJobRelease (c j : Nat) : Statement (.gatedJobRelease c j) := ofEvent rfl fun _ => rfl

theorem cpJobDelivery (c j : Nat) : Statement (.cpJobDelivery c j) := ofEvent rfl fun _ => rfl

theorem cpJobComplete (c j : Nat) : Statement (.cpJobComplete c j) := ofEvent rfl fun _ => rfl

theorem bankJobDelivery (c j : Nat) : Statement (.bankJobDelivery c j) := ofEvent rfl fun _ => rfl

theorem bankJobComplete (c j : Nat) : Statement (.bankJobComplete c j) := ofEvent rfl fun _ => rfl

theorem atomicUnitOp (c j : Nat) : Statement (.atomicUnitOp c j) := ofEvent rfl fun _ => rfl

theorem bankAluAtomic (c j : Nat) : Statement (.bankAluAtomic c j) := ofEvent rfl fun _ => rfl

theorem remoteWriteArrival (m : Nat) : Statement (.remoteWriteArrival m) := ofEvent rfl fun _ => rfl

theorem pageWalk (c k : Nat) : Statement (.pageWalk c k) := ofEvent rfl fun _ => rfl

theorem wsRefreshWindowOpen (d b : Nat) : Statement (.wsRefreshWindowOpen d b) := ofEvent rfl fun _ => rfl

theorem wsRefreshWindowClose (d b : Nat) : Statement (.wsRefreshWindowClose d b) := ofEvent rfl fun _ => rfl

theorem ownershipPass (c : Nat) : Statement (.ownershipPass c) := ofEvent rfl fun _ => rfl

theorem contextSwitch (c : Nat) : Statement (.contextSwitch c) := ofEvent rfl fun _ => rfl

theorem launchPacket (d q : Nat) : Statement (.launchPacket d q) := ofEvent rfl fun _ => rfl

theorem launchSeqReread (d q : Nat) : Statement (.launchSeqReread d q) := ofEvent rfl fun _ => rfl

theorem taskPlace (d q : Nat) : Statement (.taskPlace d q) := ofEvent rfl fun _ => rfl

theorem taskDispatch (c : Nat) : Statement (.taskDispatch c) := ofEvent rfl fun _ => rfl

theorem exchangeDelivery (t r : Nat) : Statement (.exchangeDelivery t r) := ofEvent rfl fun _ => rfl

theorem exchangeDeadline (t r : Nat) : Statement (.exchangeDeadline t r) := ofEvent rfl fun _ => rfl

theorem boostBoundary : Statement (.boostBoundary) := ofEvent rfl fun _ => rfl

theorem linkRetrainEnd (l : Nat) : Statement (.linkRetrainEnd l) := ofEvent rfl fun _ => rfl

theorem linkWindowBoundary : Statement (.linkWindowBoundary) := ofEvent rfl fun _ => rfl

theorem flitCrcError (site : FlitSite) (dir m lane : Nat) : Statement (.flitCrcError site dir m lane) := ofEvent rfl fun _ => rfl

theorem wslDescriptor (d q : Nat) : Statement (.wslDescriptor d q) := ofEvent rfl fun _ => rfl

theorem wslAck (d q : Nat) (refused : Bool) (old : Word) : Statement (.wslAck d q refused old) := ofEvent rfl fun _ => rfl

theorem wslPortDown (d p : Nat) : Statement (.wslPortDown d p) := ofEvent rfl fun _ => rfl

theorem wslInboundOp (op : WslOp) : Statement (.wslInboundOp op) := ofEvent rfl fun _ => rfl

theorem hostPcieWrite (w : HostWrite) : Statement (.hostPcieWrite w) := ofEvent rfl fun _ => rfl

theorem hostPcieRead (r : HostRead) : Statement (.hostPcieRead r) := ofEvent rfl fun _ => rfl

theorem ethernetFrame (port : Nat) (op : EthOp) (frame : List Byte) : Statement (.ethernetFrame port op frame) := ofEvent rfl fun _ => rfl

theorem thermalSample (cl : Nat) (reading : BitVec 8) : Statement (.thermalSample cl reading) := ofEvent rfl fun _ => rfl

theorem criticalPowerDown : Statement (.criticalPowerDown) := ofEvent rfl fun _ => rfl

theorem ageingMeasure (cl drift : Nat) : Statement (.ageingMeasure cl drift) := ofEvent rfl fun _ => rfl

theorem lifetimeSample : Statement (.lifetimeSample) := ofEvent rfl fun _ => rfl

theorem lifetimeWriteback : Statement (.lifetimeWriteback) := ofEvent rfl fun _ => rfl

theorem coreRetire (c : Nat) : Statement (.coreRetire c) := ofEvent rfl fun _ => rfl

theorem bankUnitRetire (sd u : Nat) : Statement (.bankUnitRetire sd u) := ofEvent rfl fun _ => rfl

theorem hbmRowRepair (sd row : Nat) : Statement (.hbmRowRepair sd row) := ofEvent rfl fun _ => rfl

theorem cycle (c : Nat) : Statement (.cycle c) := ofEvent rfl fun _ => rfl

theorem storePerformedAtHome (c k i : Nat) : Statement (.storePerformedAtHome c k i) := ofEvent rfl fun _ => rfl

theorem scalarCacheEviction (c line : Nat) : Statement (.scalarCacheEviction c line) := ofEvent rfl fun _ => rfl

theorem softPinEviction (c : Nat) (lvl : Bool) (line : Nat) : Statement (.softPinEviction c lvl line) := ofEvent rfl fun _ => rfl

theorem softError (at_ : SoftLoc) : Statement (.softError at_) := ofEvent rfl fun _ => rfl

theorem exchangeEnd (t : Nat) : Statement (.exchangeEnd t) := ofEvent rfl fun _ => rfl

theorem powerLoss : Statement (.powerLoss) := ofEvent rfl fun _ => rfl

theorem sendQueueSeqReread (d q : Nat) : Statement (.sendQueueSeqReread d q) := ofEvent rfl fun _ => rfl

end Sys2Proof.Laws.RoundTrip
end

