-- ==== Sys2Proof/Laws/Run.lean ====
section
/-! SUPPORT. What each instruction of the sequencer runs, for the context whose instruction it is. -/
namespace Sys2Proof.Machine
open Sys2Proof

theorem run_scalarAlu {a : AluForm} {s : State} {c k : Nat} (h : s.at_ = .seq c k) :
    exec (.scalarAlu a) s =
      .next (
        let r := AluForm.eval a (s.ctx c k)
        s.seqDone c k r.1 r.2) :=
  (show _ = execScalarAlu a s from rfl).trans (asSeq_of h)

theorem run_scalarLoad {w : LoadWidth} {rd rs1 : BitVec 5} {imm : BitVec 12} {s : State} {c k : Nat} (h : s.at_ = .seq c k) :
    exec (.scalarLoad w rd rs1 imm) s = .next (s.seqLoad c k w rd rs1 imm) :=
  (show _ = execScalarLoad w rd rs1 imm s from rfl).trans (asSeq_of h)

theorem run_scalarStore {w : StoreWidth} {rs1 rs2 : BitVec 5} {imm : BitVec 12} {s : State} {c k : Nat} (h : s.at_ = .seq c k) :
    exec (.scalarStore w rs1 rs2 imm) s = .next (s.seqStore c k w rs1 rs2 imm) :=
  (show _ = execScalarStore w rs1 rs2 imm s from rfl).trans (asSeq_of h)

theorem run_scalarBranchJump {j : JumpForm} {s : State} {c k : Nat} (h : s.at_ = .seq c k) :
    exec (.scalarBranchJump j) s = .next (s.seqBranch c k j) :=
  (show _ = execScalarBranchJump j s from rfl).trans (asSeq_of h)

theorem run_fence {imm : BitVec 12} {rs1 rd : BitVec 5} {s : State} {c k : Nat} (h : s.at_ = .seq c k) :
    exec (.fence imm rs1 rd) s = .next (s.seqFence c k 4) :=
  (show _ = execFence imm rs1 rd s from rfl).trans (asSeq_of h)

theorem run_ecall {s : State} {c k : Nat} (h : s.at_ = .seq c k) :
    exec .ecall s = .next (s.seqTrap c k 0x24 0 0) :=
  (show _ = execEcall s from rfl).trans (asSeq_of h)

theorem run_ebreak {s : State} {c k : Nat} (h : s.at_ = .seq c k) :
    exec .ebreak s = .next (s.seqTrap c k 0x25 0 0) :=
  (show _ = execEbreak s from rfl).trans (asSeq_of h)

theorem run_fenceI {imm : BitVec 12} {rs1 rd : BitVec 5} {s : State} {c k : Nat} (h : s.at_ = .seq c k) :
    exec (.fenceI imm rs1 rd) s = .next (s.seqFenceI c k) :=
  (show _ = execFenceI imm rs1 rd s from rfl).trans (asSeq_of h)

theorem run_illegalInstruction {w : BitVec 32} {s : State} {c k : Nat} (h : s.at_ = .seq c k) :
    exec (.illegalInstruction w) s = .next (s.illegal c k w) :=
  (show _ = execIllegalInstruction w s from rfl).trans (asSeq_of h)

theorem run_fenceS {scope : BitVec 3} {s : State} {c k : Nat} (h : s.at_ = .seq c k) :
    exec (.fenceS scope) s = .next (s.seqFence c k scope.toNat) :=
  (show _ = execFenceS scope s from rfl).trans (asSeq_of h)

theorem run_csrWrite {op : CsrOp} {imm : Bool} {csr : BitVec 12} {rs rd : BitVec 5} {s : State} {c k : Nat} (h : s.at_ = .seq c k) :
    exec (.csrWrite op imm csr rs rd) s =
      .next (
        if csrKnown csr.toNat then s.csrAccess c k op imm csr.toNat rs rd fun s v => (true, s.csrPut c k csr.toNat v)
        else s.illegalInstr c k (.csrWrite op imm csr rs rd)) :=
  (show _ = execCsrWrite op imm csr rs rd s from rfl).trans (asSeq_of h)

theorem run_rstkWrite {op : CsrOp} {imm : Bool} {rs rd : BitVec 5} {s : State} {c k : Nat} (h : s.at_ = .seq c k) :
    exec (.rstkWrite op imm rs rd) s =
      .next (
        s.csrAccess c k op imm 0x821 rs rd fun s v => s.rstkPut c k (.rstkWrite op imm rs rd) v) :=
  (show _ = execRstkWrite op imm rs rd s from rfl).trans (asSeq_of h)

theorem run_rsmarkWrite {op : CsrOp} {imm : Bool} {rs rd : BitVec 5} {s : State} {c k : Nat} (h : s.at_ = .seq c k) :
    exec (.rsmarkWrite op imm rs rd) s = .next (s.csrAccess c k op imm 0x823 rs rd fun s v => s.rsmarkPut c v) :=
  (show _ = execRsmarkWrite op imm rs rd s from rfl).trans (asSeq_of h)

theorem run_grdWrite {op : CsrOp} {imm : Bool} {g : BitVec 3} {rs rd : BitVec 5} {s : State} {c k : Nat} (h : s.at_ = .seq c k) :
    exec (.grdWrite op imm g rs rd) s =
      .next (
        s.csrAccess c k op imm (0x840 + g.toNat) rs rd fun s v => (true, s.grdPut c g.toNat v)) :=
  (show _ = execGrdWrite op imm g rs rd s from rfl).trans (asSeq_of h)

theorem run_savebWrite {op : CsrOp} {imm : Bool} {rs rd : BitVec 5} {s : State} {c k : Nat} (h : s.at_ = .seq c k) :
    exec (.savebWrite op imm rs rd) s =
      .next (
        s.csrAccess c k op imm 0x837 rs rd fun s v =>
        (true, s.modCtx c k fun x => { x with saveb := savebOf v })) :=
  (show _ = execSavebWrite op imm rs rd s from rfl).trans (asSeq_of h)

theorem run_boostWrite {op : CsrOp} {imm : Bool} {rs rd : BitVec 5} {s : State} {c k : Nat} (h : s.at_ = .seq c k) :
    exec (.boostWrite op imm rs rd) s =
      .next (
        s.csrAccess c k op imm 0x836 rs rd fun s v =>
        (true, s.modCtx c k fun x => { x with boost := boostOf v })) :=
  (show _ = execBoostWrite op imm rs rd s from rfl).trans (asSeq_of h)

theorem run_qhselClr {op : CsrOp} {imm : Bool} {rs rd : BitVec 5} {s : State} {c k : Nat} (h : s.at_ = .seq c k) :
    exec (.qhselClr op imm rs rd) s =
      .next (
        s.csrAccess c k op imm 0x859 rs rd fun s v => (true, s.modCore c fun q => q.qhselPut v)) :=
  (show _ = execQhselClr op imm rs rd s from rfl).trans (asSeq_of h)

theorem run_trctlWrite {op : CsrOp} {imm : Bool} {rs rd : BitVec 5} {s : State} {c k : Nat} (h : s.at_ = .seq c k) :
    exec (.trctlWrite op imm rs rd) s =
      .next (
        s.csrAccess c k op imm 0x85B rs rd fun s v => (true, s.modCore c fun q => q.trctlPut v)) :=
  (show _ = execTrctlWrite op imm rs rd s from rfl).trans (asSeq_of h)

theorem run_fork {m r d : BitVec 5} {s : State} {c k : Nat} (h : s.at_ = .seq c k) :
    exec (.fork m r d) s = .next (s.seqFork c k m r d) :=
  (show _ = execFork m r d s from rfl).trans (asSeq_of h)

theorem run_rendv {m r : BitVec 5} {s : State} {c k : Nat} (h : s.at_ = .seq c k) :
    exec (.rendv m r) s = .next (s.seqRendv c k m r) :=
  (show _ = execRendv m r s from rfl).trans (asSeq_of h)

theorem run_genf {d : BitVec 5} {s : State} {c k : Nat} (h : s.at_ = .seq c k) :
    exec (.genf d) s = .next (s.seqGenf c k d) :=
  (show _ = execGenf d s from rfl).trans (asSeq_of h)

theorem run_eset {r : BitVec 5} {e : BitVec 3} {s : State} {c k : Nat} (h : s.at_ = .seq c k) :
    exec (.eset r e) s = .next (s.seqEset c k e fun s => (s.ctx c k).reg r) :=
  (show _ = execEset r e s from rfl).trans (asSeq_of h)

theorem run_eseti {i : BitVec 12} {e : BitVec 3} {s : State} {c k : Nat} (h : s.at_ = .seq c k) :
    exec (.eseti i e) s = .next (s.seqEset c k e fun _ => i.signExtend 64) :=
  (show _ = execEseti i e s from rfl).trans (asSeq_of h)

theorem run_tshape {r : BitVec 5} {t : BitVec 3} {s : State} {c k : Nat} (h : s.at_ = .seq c k) :
    exec (.tshape r t) s = .next (s.seqTshape c k r t) :=
  (show _ = execTshape r t s from rfl).trans (asSeq_of h)

theorem run_qalign {s : State} {c k : Nat} (h : s.at_ = .seq c k) :
    exec .qalign s = .next (s.seqQalign c k) :=
  (show _ = execQalign s from rfl).trans (asSeq_of h)

theorem run_bfence {scope : BitVec 3} {s : State} {c k : Nat} (h : s.at_ = .seq c k) :
    exec (.bfence scope) s = .next (s.seqBfence c k scope) :=
  (show _ = execBfence scope s from rfl).trans (asSeq_of h)

theorem run_prept {m : BitVec 10} {s : State} {c k : Nat} (h : s.at_ = .seq c k) :
    exec (.prept m) s = .next (s.seqPrept c k m) :=
  (show _ = execPrept m s from rfl).trans (asSeq_of h)

theorem run_rqpop {n : Bool} {d : BitVec 5} {s : State} {c k : Nat} (h : s.at_ = .seq c k) :
    exec (.rqpop n d) s = .next (s.seqRqpop c k n d) :=
  (show _ = execRqpop n d s from rfl).trans (asSeq_of h)

theorem run_segb {r : BitVec 5} {s : State} {c k : Nat} (h : s.at_ = .seq c k) :
    exec (.segb r) s = .next (s.seqSegb c k r) :=
  (show _ = execSegb r s from rfl).trans (asSeq_of h)

theorem run_sege {r d : BitVec 5} {s : State} {c k : Nat} (h : s.at_ = .seq c k) :
    exec (.sege r d) s = .next (s.seqSege c k r d) :=
  (show _ = execSege r d s from rfl).trans (asSeq_of h)

theorem run_waitcW {b r d : BitVec 5} {s : State} {c k : Nat} (h : s.at_ = .seq c k) :
    exec (.waitcW b r d) s = .next (s.seqWaitc c k false b r d) :=
  (show _ = execWaitcW b r d s from rfl).trans (asSeq_of h)

theorem run_waitcD {b r d : BitVec 5} {s : State} {c k : Nat} (h : s.at_ = .seq c k) :
    exec (.waitcD b r d) s = .next (s.seqWaitc c k true b r d) :=
  (show _ = execWaitcD b r d s from rfl).trans (asSeq_of h)

theorem run_signlW {b r d : BitVec 5} {s : State} {c k : Nat} (h : s.at_ = .seq c k) :
    exec (.signlW b r d) s = .next (s.seqSignl c k false b r d) :=
  (show _ = execSignlW b r d s from rfl).trans (asSeq_of h)

theorem run_signlD {b r d : BitVec 5} {s : State} {c k : Nat} (h : s.at_ = .seq c k) :
    exec (.signlD b r d) s = .next (s.seqSignl c k true b r d) :=
  (show _ = execSignlD b r d s from rfl).trans (asSeq_of h)

theorem run_join {r d : BitVec 5} {s : State} {c k : Nat} (h : s.at_ = .seq c k) :
    exec (.join r d) s = .next (s.seqJoin c k r d) :=
  (show _ = execJoin r d s from rfl).trans (asSeq_of h)

theorem run_leave {r d : BitVec 5} {s : State} {c k : Nat} (h : s.at_ = .seq c k) :
    exec (.leave r d) s = .next (s.seqLeave c k r d) :=
  (show _ = execLeave r d s from rfl).trans (asSeq_of h)

theorem run_sstep {t : BitVec 3} {r d : BitVec 5} {s : State} {c k : Nat} (h : s.at_ = .seq c k) :
    exec (.sstep t r d) s = .next (s.seqSstep c k t.toNat r d) :=
  (show _ = execSstep t r d s from rfl).trans (asSeq_of h)

theorem run_exwait {t : BitVec 3} {d : BitVec 5} {s : State} {c k : Nat} (h : s.at_ = .seq c k) :
    exec (.exwait t d) s = .next (s.seqExwait c k t.toNat d) :=
  (show _ = execExwait t d s from rfl).trans (asSeq_of h)

theorem run_explan {t : BitVec 3} {b r d : BitVec 5} {s : State} {c k : Nat} (h : s.at_ = .seq c k) :
    exec (.explan t b r d) s = .next (s.seqExplan c k t.toNat b r d) :=
  (show _ = execExplan t b r d s from rfl).trans (asSeq_of h)

theorem run_ttload {b r d : BitVec 5} {s : State} {c k : Nat} (h : s.at_ = .seq c k) :
    exec (.ttload b r d) s = .next (s.seqTtload c k b r d) :=
  (show _ = execTtload b r d s from rfl).trans (asSeq_of h)

theorem run_probe {b r d : BitVec 5} {s : State} {c k : Nat} (h : s.at_ = .seq c k) :
    exec (.probe b r d) s = .next (s.seqProbe c k b r d) :=
  (show _ = execProbe b r d s from rfl).trans (asSeq_of h)

theorem run_pin {l : Bool} {b r d : BitVec 5} {s : State} {c k : Nat} (h : s.at_ = .seq c k) :
    exec (.pin l b r d) s = .next (s.seqPin c k l b r d) :=
  (show _ = execPin l b r d s from rfl).trans (asSeq_of h)

theorem run_unpin {l : Bool} {b r d : BitVec 5} {s : State} {c k : Nat} (h : s.at_ = .seq c k) :
    exec (.unpin l b r d) s = .next (s.seqUnpin c k l b r d) :=
  (show _ = execUnpin l b r d s from rfl).trans (asSeq_of h)

theorem run_ipref {l : Bool} {b r : BitVec 5} {s : State} {c k : Nat} (h : s.at_ = .seq c k) :
    exec (.ipref l b r) s = .next (s.seqIpref c k l b r) :=
  (show _ = execIpref l b r s from rfl).trans (asSeq_of h)

theorem run_amoS {o : BitVec 4} {scope : BitVec 3} {b r d : BitVec 5} {s : State} {c k : Nat} (h : s.at_ = .seq c k) :
    exec (.amoS o scope b r d) s = .next (s.seqAmo c k o scope b r d) :=
  (show _ = execAmoS o scope b r d s from rfl).trans (asSeq_of h)

theorem run_traprEnd {s : State} {c k : Nat} (h : s.at_ = .seq c k) :
    exec .traprEnd s = .next (s.seqTrapr c k 0) :=
  (show _ = execTraprEnd s from rfl).trans (asSeq_of h)

theorem run_trapr {code : BitVec 12} {s : State} {c k : Nat} (h : s.at_ = .seq c k) :
    exec (.trapr code) s = .next (s.seqTrapr c k code) :=
  (show _ = execTrapr code s from rfl).trans (asSeq_of h)

theorem run_haltD {code : BitVec 12} {s : State} {c k : Nat} (h : s.at_ = .seq c k) :
    exec (.haltD code) s = .next (s.seqHalt c k code) :=
  (show _ = execHaltD code s from rfl).trans (asSeq_of h)

end Sys2Proof.Machine
end

