-- ==== Sys2Proof/Laws/Work.lean ====
section
/-! SUPPORT. What handing work to the engines changes: numbers for markers, items placed in queues, and records of the
remainder stack written to their region. -/
namespace Sys2Proof.Machine
open Sys2Proof

theorem runTo {i : Instr} {s t u : State} (h : exec i s = .next t) (e : t = u) : exec i s = .next u := e ▸ h

theorem CoreSt.queue_modQ (q : CoreSt) (e n : Nat) (f : EngQ → EngQ) :
    (q.modQ e f).own.queue n = if n = e then f (q.own.queue e) else q.own.queue n := by
  unfold CoreSt.modQ; exact Own.queue_setQueue ..

theorem CoreSt.foldModQ {es : List Nat} (hn : es.Nodup) (f : Nat → EngQ → EngQ) : ∀ q : CoreSt,
    (∀ n, ((es.foldl (fun q e => q.modQ e (f e)) q).own.queue n) =
      if n ∈ es then f n (q.own.queue n) else q.own.queue n) ∧
    ∃ x, es.foldl (fun q e => q.modQ e (f e)) q = { q with own := { q.own with q := x } } := by
  induction es with
  | nil => intro q; exact ⟨fun n => by simp, q.own.q, rfl⟩
  | cons e r ih =>
    intro q
    rw [List.nodup_cons] at hn
    obtain ⟨i1, x, i2⟩ := ih hn.2 (q.modQ e (f e))
    refine ⟨fun n => ?_, x, ?_⟩
    · rw [List.foldl_cons, i1, CoreSt.queue_modQ]
      by_cases h : n = e
      · subst h; rw [if_neg hn.1, if_pos rfl, if_pos (List.mem_cons_self ..)]
      · rw [if_neg h]
        by_cases h2 : n ∈ r
        · rw [if_pos h2, if_pos (List.mem_cons_of_mem _ h2)]
        · rw [if_neg h2, if_neg (by simp [h, h2])]
    · rw [List.foldl_cons, i2]; rfl

/-- An item placed in queues is their last, and nothing else has changed. -/
theorem placeItems_spec (s : State) (c : Nat) {es : List Nat} (hn : es.Nodup) (i : QItem) :
    (∀ n, ((s.placeItems c es i).own c).queue n =
      if n ∈ es then { (s.own c).queue n with items := ((s.own c).queue n).items ++ [i] } else (s.own c).queue n) ∧
    (∃ x, (s.placeItems c es i).own c = { s.own c with q := x }) ∧ OnlyCore c s (s.placeItems c es i) ∧
    SameBytes s (s.placeItems c es i) ∧ (∀ k, (s.placeItems c es i).ctx c k = s.ctx c k) ∧
    (∃ x, (s.placeItems c es i).core c = { s.core c with own := { s.own c with q := x } }) := by
  obtain ⟨a, x, b⟩ := CoreSt.foldModQ hn (fun _ w => { w with items := w.items ++ [i] }) (s.core c)
  have e : (s.placeItems c es i).core c = { s.core c with own := { s.own c with q := x } } := by
    unfold State.placeItems; rw [State.core_modCore_self, b]; rfl
  refine ⟨fun n => ?_, ⟨x, ?_⟩, onlyCore_modCore .., ?_, fun k => ?_, x, e⟩
  · have := a n
    unfold State.own State.placeItems; rw [State.core_modCore_self]; exact this
  · unfold State.own; rw [e]; rfl
  · refine sameBytes_of rfl rfl fun d => ?_
    by_cases hd : d = c
    · subst hd; rw [e]; exact ⟨rfl, rfl⟩
    · unfold State.placeItems; rw [State.core_modCore_other _ _ hd]; exact ⟨rfl, rfl⟩
  · unfold State.ctx; rw [e]; rfl

theorem core_freshId (s : State) (c : Nat) :
    (s.freshId c).2.core c = { s.core c with nextJob := (s.core c).nextJob + 1 } := by
  unfold State.freshId; rw [State.core_modCore_self]

/-- Taking a number changes nothing but the next one. -/
theorem freshId_spec (s : State) (c : Nat) :
    (s.freshId c).2.own c = s.own c ∧ (∀ k, (s.freshId c).2.ctx c k = s.ctx c k) ∧ OnlyCore c s (s.freshId c).2 ∧
      SameBytes s (s.freshId c).2 := by
  refine ⟨?_, fun k => ?_, (onlyCore_setCore c s _ :), sameBytes_setCore c s _ rfl rfl⟩
  · unfold State.own; rw [core_freshId]
  · unfold State.ctx; rw [core_freshId]; rfl

@[simp] theorem State.spWrite_own (s : State) (c a : Nat) (bs : List Byte) : (s.spWrite c a bs).own c = s.own c := by
  unfold State.own; rw [State.spWrite_core]; split
  · unfold CoreSt.spWriteRaw CoreSt.spPutAll; dsimp only; split <;> rfl
  · rfl

/-- A record of the remainder stack goes to its region, and nothing else of the owner state or a context changes. -/
theorem spillOne_frame (s : State) (c i : Nat) (e : RemEnt) :
    (s.spillOne c i e).own c = s.own c ∧ (∀ k, (s.spillOne c i e).ctx c k = s.ctx c k) ∧
      (s.spillOne c i e).mem = s.mem := by
  have sm : ∀ (s : State) a bs, (s.spWrite c a bs).mem = s.mem := fun s a bs => by
    obtain ⟨x, y, h⟩ := s.spWrite_only c a bs; rw [h]
  unfold State.spillOne
  dsimp only
  refine ⟨?_, fun k => ?_, ?_⟩
  · unfold State.own; rw [State.core_modCore_self, State.core_modCore_self]
    exact (State.spWrite_own _ _ _ _).trans (State.spWrite_own _ _ _ _)
  · rw [ctx_modCore _ fun _ => by rfl, ctx_modCore _ fun _ => by rfl, State.spWrite_ctx, State.spWrite_ctx]
  · exact (sm _ _ _).trans (sm _ _ _)

/-- Spilling entries none of which lies beyond the scratchpad takes entries off the core, and changes nothing else of the
owner state or a context. -/
theorem spillAll_frame (c : Nat) (s : State) (l : List (Nat × RemEnt)) (f : Option Nat)
    (h : ∀ e ∈ l, (s.own c).stack.beyond e.1 = none) :
    ∃ u x, s.spillAll c l f = (u, f) ∧ u.own c = { s.own c with stack := { (s.own c).stack with ents := x } } ∧
      (∀ k, u.ctx c k = s.ctx c k) ∧ u.mem = s.mem := by
  induction l generalizing s with
  | nil => exact ⟨s, _, rfl, rfl, fun _ => rfl, rfl⟩
  | cons e r ih =>
    have hr : ∀ x ∈ r, (s.own c).stack.beyond x.1 = none := fun x hx => h x (List.mem_cons_of_mem _ hx)
    rw [show e = (e.1, e.2) from rfl]
    simp only [State.spillAll, h e (List.mem_cons_self ..)]
    split
    · exact ih s hr
    · split
      · exact ih s hr
      · obtain ⟨a1, a2, a3⟩ := spillOne_frame s c e.1 e.2
        have e1 : ((s.spillOne c e.1 e.2).modCore c fun q => q.dropEnt e.1).own c =
            { s.own c with stack := { (s.own c).stack with ents := tblErase (s.own c).stack.ents e.1 } } := by
          unfold State.own; rw [State.core_modCore_self]; unfold CoreSt.dropEnt
          have : ((s.spillOne c e.1 e.2).core c).own = s.own c := a1
          rw [this]; rfl
        obtain ⟨u, x, b0, b1, b2, b3⟩ := ih ((s.spillOne c e.1 e.2).modCore c fun q => q.dropEnt e.1) fun y hy => by
          rw [e1]; exact hr y hy
        refine ⟨u, x, b0, ?_, fun k => ?_, b3.trans a3⟩
        · rw [b1, e1]
        · rw [b2, ctx_modCore _ fun _ => by rfl, a2]

end Sys2Proof.Machine
end

