-- ==== Sys2Proof/Tests/Slice0.lean ====
section
/-! SUPPORT. The tests of the model: small facts from the manual, and for the statements of Certificates a state that
meets what each of their clauses asks. -/
namespace Sys2Proof.Tests
open Sys2Proof Sys2Proof.Machine

-- Proofs one after another: each waiting proof would keep a thread and its stack.
set_option Elab.async false

/-! ## Ill-formed terms -/

/-- WellFormed.lean: the sequencer's terms that no encoding gives. -/
theorem test_wf_sequencer :
    (Instr.csrWrite .rw false 0x821 1 1).wf = false ∧ (Instr.csrWrite .rw false 0x123 1 1).wf = false ∧
    (Instr.scalarAlu (.shift .slliw 1 1 32)).wf = false ∧ (Instr.illegalInstruction 0x13).wf = false ∧
    (Instr.bfence 5).wf = false ∧ (Instr.fenceS 7).wf = false ∧ (Instr.amoS 12 0 1 1 1).wf = false ∧
    (Instr.amoS 0 5 1 1 1).wf = false ∧ (Instr.trapr 0).wf = false ∧
    (Instr.csrWrite .rw false 0x811 1 1).wf = true ∧ (Instr.amoS 11 4 1 1 1).wf = true := by decide

/-- Engine words whose fields break the rules of their payload (03_words.md R60, R61, R63, R64). -/
theorem test_wf_words :
    (Instr.engineIgnoredWord 0xF ⟨false, false, false, false, 0, 0⟩ 0).wf = false ∧
    (Instr.illegalWord 0 0).wf = false ∧
    (Instr.vxAdd ⟨false, false, false, false, 0, 0⟩ ⟨0, false, 1, 2, 3, 0, 6, 0, 0⟩).wf = false ∧
    (Instr.vxAdd ⟨false, false, false, false, 0, 0⟩ ⟨0, false, 1, 2, 3, 0, 1, 0, 1⟩).wf = false ∧
    (Instr.vxRmix ⟨false, false, false, false, 0, 0⟩ ⟨0, false, 1, 2, 3, 1, 5, 0, 0⟩).wf = false ∧
    (Instr.ldLn ⟨false, false, false, false, 0, 0⟩ ⟨0, false, 1, 1, 1, false, 0⟩).wf = false ∧
    (Instr.stRc ⟨false, false, false, false, 0, 0⟩ ⟨0, false, 2, 1, 1, false, 0⟩).wf = false ∧
    (Instr.mxMtrn ⟨false, false, false, false, 0, 0⟩ ⟨1, 0, 1, false, 9, 0⟩).wf = false ∧
    (Instr.vxAdd ⟨false, false, false, false, 0, 0⟩ ⟨0, false, 1, 2, 3, 0, 1, 1, 1⟩).wf = true := by decide

/-- Steps about places that the module does not have (01_module.md R17 to R25). -/
theorem test_wf_places :
    (Instr.forkEnqueue 0 8).wf = false ∧ (Instr.cycle 512).wf = false ∧ (Instr.launchPacket 4 0).wf = false ∧
    (Instr.taskPlace 0 16).wf = false ∧ (Instr.barrierComplete 8).wf = false ∧ (Instr.exchangeDeadline 8 0).wf = false ∧
    (Instr.fqcfgWrite 8 0).wf = false ∧ (Instr.rtbindWrite .hypervisor 8 0).wf = false ∧
    (Instr.tactResume 0 false 0 9 0).wf = false ∧ (Instr.tactEnd 9 false 0 0 0).wf = false ∧
    (Instr.lkctlRetrain 8).wf = false ∧ (Instr.lkretRetire 0 0 0 68).wf = false ∧ (Instr.flitCrcError (.link 0) 2 0 0).wf = false ∧
    (Instr.debugSlotRead 0 16).wf = false ∧ (Instr.debugWrite 0 (.guard 8 0)).wf = false ∧
    (Instr.debugWrite 0 (.tileByte 8 0 0)).wf = false ∧ (Instr.debugWrite 0 (.accElem 0 32768 0)).wf = false ∧
    (Instr.transferComplete 0 .vx).wf = false ∧ (Instr.wsRefreshWindowOpen 0 32).wf = false ∧
    (Instr.wslPortDown 0 12).wf = false ∧ (Instr.thermalSample 32 0).wf = false ∧ (Instr.bankUnitRetire 12 0).wf = false ∧
    (Instr.hbmRowRepair 12 0).wf = false ∧ (Instr.softError (.slot 0 16 0)).wf = false ∧
    (Instr.softError (.weight 4 0)).wf = false ∧ (Instr.softError (.control 0 8)).wf = false ∧
    (Instr.softError (.hbm (576 * 2 ^ 27))).wf = false ∧ (Instr.cycle 511).wf = true := by decide

/-- Requests from outside that no endpoint can carry, and a fabric operation at a die that the module does not have
(21_links.md R370, R375). -/
theorem test_wf_outside :
    (Instr.hostPcieWrite (.mem 0 0 (List.replicate 513 0) false)).wf = false ∧
    (Instr.hostPcieWrite (.mem 0 0 (List.replicate 512 0) false)).wf = true ∧
    (Instr.hostPcieRead (.mem 0 0 4097)).wf = false ∧ (Instr.hostPcieRead (.mem 0 0 4096)).wf = true ∧
    (Instr.wslInboundOp ⟨4, 0, false, false, 0, 0, 0, 0, []⟩).wf = false ∧
    (Instr.wslInboundOp ⟨3, 8, false, false, 0, 0, 0, 0, []⟩).wf = false := by decide +kernel

/-! ## Words written out from the encodings -/

/-- 12_sequencer.md R264 to R287, by the formats of 03_words.md R73 to R75. -/
theorem test_words_xpz :
    decodeSeq 0x2A04820B = .fork 0x15 9 4 ∧
    decodeSeq 0x01A3100B = .rendv 0x1A 6 ∧
    decodeSeq 0x0000258B = .genf 11 ∧
    decodeSeq 0x000FB38B = .eset 31 7 ∧
    decodeSeq 0xFC00418B = .eseti 0xFC0 3 ∧
    decodeSeq 0x0008D30B = .tshape 17 6 ∧
    decodeSeq 0x0000600B = .qalign ∧
    decodeSeq 0x00C5728B = .ttload 12 10 5 ∧
    decodeSeq 0x003202AB = .waitcW 3 4 5 ∧
    decodeSeq 0x023202AB = .waitcD 3 4 5 ∧
    decodeSeq 0x0063942B = .signlW 6 7 8 ∧
    decodeSeq 0x0263942B = .signlD 6 7 8 ∧
    decodeSeq 0x0004A52B = .join 9 10 ∧
    decodeSeq 0x0004B52B = .leave 9 10 ∧
    decodeSeq 0x0054C52B = .sstep 5 9 10 ∧
    decodeSeq 0x006056AB = .exwait 6 13 ∧
    decodeSeq 0x06E7E82B = .explan 3 14 15 16 ∧
    decodeSeq 0x001078AB = .rqpop true 17 ∧
    decodeSeq 0x03298A5B = .pin true 18 19 20 ∧
    decodeSeq 0x01299A5B = .unpin false 18 19 20 ∧
    decodeSeq 0x0329A05B = .ipref true 18 19 ∧
    decodeSeq 0x015B3BDB = .probe 21 22 23 ∧
    decodeSeq 0x0040405B = .bfence 4 ∧
    decodeSeq 0x0020505B = .fenceS 2 ∧
    decodeSeq 0x778CED5B = .amoS 7 3 24 25 26 ∧
    decodeSeq 0x000D807B = .segb 27 ∧
    decodeSeq 0x000E1EFB = .sege 28 29 ∧
    decodeSeq 0x2A50207B = .prept 0x2A5 ∧
    decodeSeq 0x0000307B = .traprEnd ∧
    decodeSeq 0x8120307B = .trapr 0x812 ∧
    decodeSeq 0x1230407B = .haltD 0x123 := by decide

/-- 12_sequencer.md R260: words of RV64IM, Zicsr and Zifencei. -/
theorem test_words_scalar :
    decodeSeq 0x00C58533 = .scalarAlu (.rr .add 10 11 12) ∧
    decodeSeq 0x40C58533 = .scalarAlu (.rr .sub 10 11 12) ∧
    decodeSeq 0x02C5C53B = .scalarAlu (.rr .divw 10 11 12) ∧
    decodeSeq 0x43F2D213 = .scalarAlu (.shift .srai 4 5 0x3F) ∧
    decodeSeq 0xFFF28213 = .scalarAlu (.imm .addi 4 5 0xFFF) ∧
    decodeSeq 0xABCDE237 = .scalarAlu (.lui 4 0xABCDE) ∧
    decodeSeq 0xABCDE217 = .scalarAlu (.auipc 4 0xABCDE) ∧
    decodeSeq 0xFF833283 = .scalarLoad .d 5 6 0xFF8 ∧
    decodeSeq 0x00436283 = .scalarLoad .wu 5 6 4 ∧
    decodeSeq 0xFE533C23 = .scalarStore .d 6 5 0xFF8 ∧
    decodeSeq 0xFE628EE3 = .scalarBranchJump (.branch .beq 5 6 0xFFE) ∧
    decodeSeq 0x008000EF = .scalarBranchJump (.jal 1 4) ∧
    decodeSeq 0x00008067 = .scalarBranchJump (.jalr 0 1 0) ∧
    decodeSeq 0x0FF0000F = .fence 0x0FF 0 0 ∧
    decodeSeq 0x0000100F = .fenceI 0 0 0 ∧
    decodeSeq 0x00000073 = .ecall ∧
    decodeSeq 0x00100073 = .ebreak ∧
    decodeSeq 0x81129373 = .csrWrite .rw false 0x811 5 6 ∧
    decodeSeq 0x82119073 = .rstkWrite .rw false 3 0 ∧
    decodeSeq 0x8231A073 = .rsmarkWrite .rs false 3 0 ∧
    decodeSeq 0x8431B073 = .grdWrite .rc false 3 3 0 ∧
    decodeSeq 0x83715073 = .savebWrite .rw true 2 0 ∧
    decodeSeq 0x83616073 = .boostWrite .rs true 2 0 ∧
    decodeSeq 0x8591F073 = .qhselClr .rc true 3 0 ∧
    decodeSeq 0x85B0D073 = .trctlWrite .rw true 1 0 := by decide

/-- 03_words.md R56, R59 and R65; 09_vector.md. -/
theorem test_words_vx :
    decodeWord .vx 0x019402312010 = .vxAdd ⟨true, false, false, true, 1, 0⟩ ⟨1, false, 3, 1, 2, 0, 1, 0, 0⟩ ∧
    decodeWord .vx 0x026835FED017 = .vxSub ⟨false, true, true, false, 2, 3⟩ ⟨2, true, 15, 14, 13, 0, 1, 1, 3⟩ ∧
    decodeWord .vx 0x031FF056701C = .vxMul ⟨false, false, false, true, 3, 63⟩ ⟨0, false, 5, 6, 7, 0, 1, 3, 0⟩ ∧
    decodeWord .vx 0x04C45F312419 = .vxFma ⟨true, true, false, false, 1, 5⟩ ⟨7, true, 3, 1, 2, 4, 1, 2, 1⟩ ∧
    decodeWord .vx 0x059402FED510 = .vxFms ⟨true, false, false, true, 1, 0⟩ ⟨1, false, 15, 14, 13, 5, 1, 0, 0⟩ ∧
    decodeWord .vx 0x066835567217 = .vxFnma ⟨false, true, true, false, 2, 3⟩ ⟨2, true, 5, 6, 7, 2, 1, 1, 3⟩ ∧
    decodeWord .vx 0x071FF031201C = .vxMin ⟨false, false, false, true, 3, 63⟩ ⟨0, false, 3, 1, 2, 0, 1, 3, 0⟩ ∧
    decodeWord .vx 0x08C45FFED019 = .vxMax ⟨true, true, false, false, 1, 5⟩ ⟨7, true, 15, 14, 13, 0, 1, 2, 1⟩ ∧
    decodeWord .vx 0x099402560010 = .vxAbs ⟨true, false, false, true, 1, 0⟩ ⟨1, false, 5, 6, 0, 0, 1, 0, 0⟩ ∧
    decodeWord .vx 0x0A6835310017 = .vxNeg ⟨false, true, true, false, 2, 3⟩ ⟨2, true, 3, 1, 0, 0, 1, 1, 3⟩ ∧
    decodeWord .vx 0x0B1FF0FED51C = .vxClamp ⟨false, false, false, true, 3, 63⟩ ⟨0, false, 15, 14, 13, 5, 1, 3, 0⟩ ∧
    decodeWord .vx 0x0CC45F560019 = .vxRcp ⟨true, true, false, false, 1, 5⟩ ⟨7, true, 5, 6, 0, 0, 1, 2, 1⟩ ∧
    decodeWord .vx 0x0D9402310010 = .vxRsq ⟨true, false, false, true, 1, 0⟩ ⟨1, false, 3, 1, 0, 0, 1, 0, 0⟩ ∧
    decodeWord .vx 0x0E6835FE0017 = .vxExp2 ⟨false, true, true, false, 2, 3⟩ ⟨2, true, 15, 14, 0, 0, 1, 1, 3⟩ ∧
    decodeWord .vx 0x0F1FF056001C = .vxLog2 ⟨false, false, false, true, 3, 63⟩ ⟨0, false, 5, 6, 0, 0, 1, 3, 0⟩ ∧
    decodeWord .vx 0x10C45F312019 = .vxAnd ⟨true, true, false, false, 1, 5⟩ ⟨7, true, 3, 1, 2, 0, 1, 2, 1⟩ ∧
    decodeWord .vx 0x119402FED010 = .vxOr ⟨true, false, false, true, 1, 0⟩ ⟨1, false, 15, 14, 13, 0, 1, 0, 0⟩ ∧
    decodeWord .vx 0x126835567017 = .vxXor ⟨false, true, true, false, 2, 3⟩ ⟨2, true, 5, 6, 7, 0, 1, 1, 3⟩ ∧
    decodeWord .vx 0x131FF031001C = .vxNot ⟨false, false, false, true, 3, 63⟩ ⟨0, false, 3, 1, 0, 0, 1, 3, 0⟩ ∧
    decodeWord .vx 0x14C45FFED059 = .vxShl ⟨true, true, false, false, 1, 5⟩ ⟨7, true, 15, 14, 13, 0, 5, 2, 1⟩ ∧
    decodeWord .vx 0x159402567040 = .vxShr ⟨true, false, false, true, 1, 0⟩ ⟨1, false, 5, 6, 7, 0, 4, 0, 0⟩ ∧
    decodeWord .vx 0x166835312057 = .vxSra ⟨false, true, true, false, 2, 3⟩ ⟨2, true, 3, 1, 2, 0, 5, 1, 3⟩ ∧
    decodeWord .vx 0x171FF0FE501C = .vxAdds ⟨false, false, false, true, 3, 63⟩ ⟨0, false, 15, 14, 5, 0, 1, 3, 0⟩ ∧
    decodeWord .vx 0x18C45F567019 = .vxMuls ⟨true, true, false, false, 1, 5⟩ ⟨7, true, 5, 6, 7, 0, 1, 2, 1⟩ ∧
    decodeWord .vx 0x199402312410 = .vxFmas ⟨true, false, false, true, 1, 0⟩ ⟨1, false, 3, 1, 2, 4, 1, 0, 0⟩ ∧
    decodeWord .vx 0x1A6835FED057 = .vxMulh ⟨false, true, true, false, 2, 3⟩ ⟨2, true, 15, 14, 13, 0, 5, 1, 3⟩ ∧
    decodeWord .vx 0x1B1FF056701C = .vxMins ⟨false, false, false, true, 3, 63⟩ ⟨0, false, 5, 6, 7, 0, 1, 3, 0⟩ ∧
    decodeWord .vx 0x1CC45F312019 = .vxMaxs ⟨true, true, false, false, 1, 5⟩ ⟨7, true, 3, 1, 2, 0, 1, 2, 1⟩ ∧
    decodeWord .vx 0x2094023ED210 = .vxCeq ⟨true, false, false, true, 1, 0⟩ ⟨1, false, 3, 14, 13, 2, 1, 0, 0⟩ ∧
    decodeWord .vx 0x216835367217 = .vxCne ⟨false, true, true, false, 2, 3⟩ ⟨2, true, 3, 6, 7, 2, 1, 1, 3⟩ ∧
    decodeWord .vx 0x221FF031221C = .vxClt ⟨false, false, false, true, 3, 63⟩ ⟨0, false, 3, 1, 2, 2, 1, 3, 0⟩ ∧
    decodeWord .vx 0x23C45F3ED219 = .vxCle ⟨true, true, false, false, 1, 5⟩ ⟨7, true, 3, 14, 13, 2, 1, 2, 1⟩ ∧
    decodeWord .vx 0x249402367210 = .vxCgt ⟨true, false, false, true, 1, 0⟩ ⟨1, false, 3, 6, 7, 2, 1, 0, 0⟩ ∧
    decodeWord .vx 0x256835312217 = .vxCge ⟨false, true, true, false, 2, 3⟩ ⟨2, true, 3, 1, 2, 2, 1, 1, 3⟩ ∧
    decodeWord .vx 0x261FF03ED21C = .vxCun ⟨false, false, false, true, 3, 63⟩ ⟨0, false, 3, 14, 13, 2, 1, 3, 0⟩ ∧
    decodeWord .vx 0x27C45F365219 = .vxCcl ⟨true, true, false, false, 1, 5⟩ ⟨7, true, 3, 6, 5, 2, 1, 2, 1⟩ ∧
    decodeWord .vx 0x289402312210 = .vxSel ⟨true, false, false, true, 1, 0⟩ ⟨1, false, 3, 1, 2, 2, 1, 0, 0⟩ ∧
    decodeWord .vx 0x296835765007 = .vxGand ⟨false, true, true, false, 2, 3⟩ ⟨2, true, 7, 6, 5, 0, 0, 1, 3⟩ ∧
    decodeWord .vx 0x2A1FF056700C = .vxGor ⟨false, false, false, true, 3, 63⟩ ⟨0, false, 5, 6, 7, 0, 0, 3, 0⟩ ∧
    decodeWord .vx 0x2BC45F312009 = .vxGxor ⟨true, true, false, false, 1, 5⟩ ⟨7, true, 3, 1, 2, 0, 0, 2, 1⟩ := by decide

/-- 03_words.md R65; 09_vector.md and 10_reversible.md. -/
theorem test_words_vx_more :
    decodeWord .vx 0x2C9402765000 = .vxGandn ⟨true, false, false, true, 1, 0⟩ ⟨1, false, 7, 6, 5, 0, 0, 0, 0⟩ ∧
    decodeWord .vx 0x2D6835560007 = .vxGmov ⟨false, true, true, false, 2, 3⟩ ⟨2, true, 5, 6, 0, 0, 0, 1, 3⟩ ∧
    decodeWord .vx 0x2E1FF091000C = .vxGtov ⟨false, false, false, true, 3, 63⟩ ⟨0, false, 9, 1, 0, 0, 0, 3, 0⟩ ∧
    decodeWord .vx 0x2FC45F5E0019 = .vxVtog ⟨true, true, false, false, 1, 5⟩ ⟨7, true, 5, 14, 0, 0, 1, 2, 1⟩ ∧
    decodeWord .vx 0x309402560110 = .vxCvt ⟨true, false, false, true, 1, 0⟩ ⟨1, false, 5, 6, 0, 1, 1, 0, 0⟩ ∧
    decodeWord .vx 0x316835314627 = .vxCvtb ⟨false, true, true, false, 2, 3⟩ ⟨2, true, 3, 1, 4, 6, 2, 1, 3⟩ ∧
    decodeWord .vx 0x321FF0FE001C = .vxTag ⟨false, false, false, true, 3, 63⟩ ⟨0, false, 15, 14, 0, 0, 1, 3, 0⟩ ∧
    decodeWord .vx 0x40C45F560019 = .vxReda ⟨true, true, false, false, 1, 5⟩ ⟨7, true, 5, 6, 0, 0, 1, 2, 1⟩ ∧
    decodeWord .vx 0x419402310010 = .vxRedx ⟨true, false, false, true, 1, 0⟩ ⟨1, false, 3, 1, 0, 0, 1, 0, 0⟩ ∧
    decodeWord .vx 0x426835FE0017 = .vxRedn ⟨false, true, true, false, 2, 3⟩ ⟨2, true, 15, 14, 0, 0, 1, 1, 3⟩ ∧
    decodeWord .vx 0x431FF056701C = .vxRedd ⟨false, false, false, true, 3, 63⟩ ⟨0, false, 5, 6, 7, 0, 1, 3, 0⟩ ∧
    decodeWord .vx 0x50C45F310019 = .vxMov ⟨true, true, false, false, 1, 5⟩ ⟨7, true, 3, 1, 0, 0, 1, 2, 1⟩ ∧
    decodeWord .vx 0x519402FED010 = .vxSwz ⟨true, false, false, true, 1, 0⟩ ⟨1, false, 15, 14, 13, 0, 1, 0, 0⟩ ∧
    decodeWord .vx 0x526835567017 = .vxLrot ⟨false, true, true, false, 2, 3⟩ ⟨2, true, 5, 6, 7, 0, 1, 1, 3⟩ ∧
    decodeWord .vx 0x531FF031201C = .vxBcst ⟨false, false, false, true, 3, 63⟩ ⟨0, false, 3, 1, 2, 0, 1, 3, 0⟩ ∧
    decodeWord .vx 0x54C45FFED119 = .vxZip ⟨true, true, false, false, 1, 5⟩ ⟨7, true, 15, 14, 13, 1, 1, 2, 1⟩ ∧
    decodeWord .vx 0x559402567110 = .vxUzp ⟨true, false, false, true, 1, 0⟩ ⟨1, false, 5, 6, 7, 1, 1, 0, 0⟩ ∧
    decodeWord .vx 0x566835312517 = .vxSlide ⟨false, true, true, false, 2, 3⟩ ⟨2, true, 3, 1, 2, 5, 1, 1, 3⟩ ∧
    decodeWord .vx 0x571FF0F0601C = .vxSplat ⟨false, false, false, true, 3, 63⟩ ⟨0, false, 15, 0, 6, 0, 1, 3, 0⟩ ∧
    decodeWord .vx 0x60C45F515719 = .vxAcrd ⟨true, true, false, false, 1, 5⟩ ⟨7, true, 5, 1, 5, 7, 1, 2, 1⟩ ∧
    decodeWord .vx 0x619400010010 = .vxSret ⟨true, false, false, true, 1, 0⟩ ⟨0, false, 0, 1, 0, 0, 1, 0, 0⟩ ∧
    decodeWord .vx 0x626835000017 = .vxSretc ⟨false, true, true, false, 2, 3⟩ ⟨2, true, 0, 0, 0, 0, 1, 1, 3⟩ ∧
    decodeWord .vx 0x801FF056734C = .vxRmulq ⟨false, false, false, true, 3, 63⟩ ⟨0, false, 5, 6, 7, 3, 4, 3, 0⟩ ∧
    decodeWord .vx 0x81C45F312349 = .vxUmulq ⟨true, true, false, false, 1, 5⟩ ⟨7, true, 3, 1, 2, 3, 4, 2, 1⟩ ∧
    decodeWord .vx 0x829402FE6050 = .vxRsra ⟨true, false, false, true, 1, 0⟩ ⟨1, false, 15, 14, 6, 0, 5, 0, 0⟩ ∧
    decodeWord .vx 0x836835566057 = .vxUsra ⟨false, true, true, false, 2, 3⟩ ⟨2, true, 5, 6, 6, 0, 5, 1, 3⟩ ∧
    decodeWord .vx 0x841FF031154C = .vxRnrw ⟨false, false, false, true, 3, 63⟩ ⟨0, false, 3, 1, 1, 5, 4, 3, 0⟩ ∧
    decodeWord .vx 0x85C45FFE1549 = .vxUnrw ⟨true, true, false, false, 1, 5⟩ ⟨7, true, 15, 14, 1, 5, 4, 2, 1⟩ ∧
    decodeWord .vx 0x869402566050 = .vxRleak ⟨true, false, false, true, 1, 0⟩ ⟨1, false, 5, 6, 6, 0, 5, 0, 0⟩ ∧
    decodeWord .vx 0x876835316057 = .vxUleak ⟨false, true, true, false, 2, 3⟩ ⟨2, true, 3, 1, 6, 0, 5, 1, 3⟩ ∧
    decodeWord .vx 0x881FF0FED04C = .vxRaddq ⟨false, false, false, true, 3, 63⟩ ⟨0, false, 15, 14, 13, 0, 4, 3, 0⟩ ∧
    decodeWord .vx 0x89C45F567049 = .vxUsubq ⟨true, true, false, false, 1, 5⟩ ⟨7, true, 5, 6, 7, 0, 4, 2, 1⟩ ∧
    decodeWord .vx 0x8A9402123450 = .vxRmix ⟨true, false, false, true, 1, 0⟩ ⟨1, false, 1, 2, 3, 4, 5, 0, 0⟩ ∧
    decodeWord .vx 0x8B6835123457 = .vxUmix ⟨false, true, true, false, 2, 3⟩ ⟨2, true, 1, 2, 3, 4, 5, 1, 3⟩ ∧
    decodeWord .vx 0x8C1FF0200000 = .vxRmark ⟨false, false, false, true, 3, 63⟩ ⟨0, false, 2, 0, 0, 0, 0, 0, 0⟩ ∧
    decodeWord .vx 0x8DC450205000 = .vxRchk ⟨true, true, false, false, 1, 5⟩ ⟨0, false, 2, 0, 5, 0, 0, 0, 0⟩ ∧
    decodeWord .vx 0x8E9400200000 = .vxRdrop ⟨true, false, false, true, 1, 0⟩ ⟨0, false, 2, 0, 0, 0, 0, 0, 0⟩ := by decide

/-- 03_words.md R56, R59 and R66; 08_load_store.md. -/
theorem test_words_ld :
    decodeWord .ld 0x019402142000 = .ldV ⟨true, false, false, true, 1, 0⟩ ⟨1, false, 1, 2, 1, false, 0⟩ ∧
    decodeWord .ld 0x026835EA3001 = .ldVb ⟨false, true, true, false, 2, 3⟩ ⟨2, true, 14, 5, 1, true, 1⟩ ∧
    decodeWord .ld 0x031FFF9EAABC = .ldVg ⟨false, false, false, true, 3, 63⟩ ⟨7, true, 9, 7, 5, false, 2748⟩ ∧
    decodeWord .ld 0x049402151000 = .ldLn ⟨true, false, false, true, 1, 0⟩ ⟨1, false, 1, 2, 8, true, 0⟩ ∧
    decodeWord .ld 0x0568306A0001 = .ldGd ⟨false, true, true, false, 2, 3⟩ ⟨0, false, 6, 5, 0, false, 1⟩ ∧
    decodeWord .ld 0x061FFF9E3ABC = .ldVd ⟨false, false, false, true, 3, 63⟩ ⟨7, true, 9, 7, 1, true, 2748⟩ ∧
    decodeWord .ld 0x089400142000 = .ldT ⟨true, false, false, true, 1, 0⟩ ⟨0, false, 1, 2, 1, false, 0⟩ ∧
    decodeWord .ld 0x0968306A3001 = .ldTw ⟨false, true, true, false, 2, 3⟩ ⟨0, false, 6, 5, 1, true, 1⟩ ∧
    decodeWord .ld 0x0A1FF01E2ABC = .ldTd ⟨false, false, false, true, 3, 63⟩ ⟨0, false, 1, 7, 1, false, 2748⟩ ∧
    decodeWord .ld 0x0B9400141000 = .ldSc ⟨true, false, false, true, 1, 0⟩ ⟨0, false, 1, 2, 0, true, 0⟩ ∧
    decodeWord .ld 0x0C68306AA001 = .ldTr ⟨false, true, true, false, 2, 3⟩ ⟨0, false, 6, 5, 5, false, 1⟩ ∧
    decodeWord .ld 0x101FFF9E3ABC = .ldAm ⟨false, false, false, true, 3, 63⟩ ⟨7, true, 9, 7, 1, true, 2748⟩ := by decide

/-- 03_words.md R66; 08_load_store.md. -/
theorem test_words_st :
    decodeWord .st 0x019402142000 = .stV ⟨true, false, false, true, 1, 0⟩ ⟨1, false, 1, 2, 1, false, 0⟩ ∧
    decodeWord .st 0x026835EAB001 = .stVs ⟨false, true, true, false, 2, 3⟩ ⟨2, true, 14, 5, 5, true, 1⟩ ∧
    decodeWord .st 0x031FFF9F0ABC = .stLn ⟨false, false, false, true, 3, 63⟩ ⟨7, true, 9, 7, 8, false, 2748⟩ ∧
    decodeWord .st 0x049400141000 = .stGd ⟨true, false, false, true, 1, 0⟩ ⟨0, false, 1, 2, 0, true, 0⟩ ∧
    decodeWord .st 0x056835EA2001 = .stVd ⟨false, true, true, false, 2, 3⟩ ⟨2, true, 14, 5, 1, false, 1⟩ ∧
    decodeWord .st 0x061FFF9EBABC = .stVe ⟨false, false, false, true, 3, 63⟩ ⟨7, true, 9, 7, 5, true, 2748⟩ ∧
    decodeWord .st 0x089400142000 = .stT ⟨true, false, false, true, 1, 0⟩ ⟨0, false, 1, 2, 1, false, 0⟩ ∧
    decodeWord .st 0x0968301A3001 = .stRc ⟨false, true, true, false, 2, 3⟩ ⟨0, false, 1, 5, 1, true, 1⟩ ∧
    decodeWord .st 0x0A1FF01E2ABC = .stRd ⟨false, false, false, true, 3, 63⟩ ⟨0, false, 1, 7, 1, false, 2748⟩ ∧
    decodeWord .st 0x109402143000 = .stAm ⟨true, false, false, true, 1, 0⟩ ⟨1, false, 1, 2, 1, true, 0⟩ := by decide

/-- 03_words.md R67; 11_matrix.md. -/
theorem test_words_mx :
    decodeWord .mx 0x019400040000 = .mxMzero ⟨true, false, false, true, 1, 0⟩ ⟨0, 0, 0, true, 0, 0⟩ ∧
    decodeWord .mx 0x02681B84C000 = .mxMma ⟨false, true, true, false, 2, 1⟩ ⟨5, 6, 0, true, 3, 0⟩ ∧
    decodeWord .mx 0x031FFB864000 = .mxMmac ⟨false, false, false, true, 3, 63⟩ ⟨5, 6, 0, true, 9, 0⟩ ∧
    decodeWord .mx 0x04940B848000 = .mxMmat ⟨true, false, false, true, 1, 0⟩ ⟨5, 6, 0, true, 2, 0⟩ ∧
    decodeWord .mx 0x05681B84C000 = .mxMman ⟨false, true, true, false, 2, 1⟩ ⟨5, 6, 0, true, 3, 0⟩ ∧
    decodeWord .mx 0x081FF004008E = .mxMscl ⟨false, false, false, true, 3, 63⟩ ⟨0, 0, 0, true, 0, 142⟩ ∧
    decodeWord .mx 0x0994001C407F = .mxMpre ⟨true, false, false, true, 1, 0⟩ ⟨0, 0, 3, true, 1, 127⟩ ∧
    decodeWord .mx 0x0A681A1A4000 = .mxMtrn ⟨false, true, true, false, 2, 1⟩ ⟨5, 0, 3, false, 9, 0⟩ ∧
    decodeWord .mx 0x0B1FFA180000 = .mxMcpy ⟨false, false, false, true, 3, 63⟩ ⟨5, 0, 3, false, 0, 0⟩ ∧
    decodeWord .mx 0x0C94001900A5 = .mxMfil ⟨true, false, false, true, 1, 0⟩ ⟨0, 0, 3, false, 4, 165⟩ ∧
    decodeWord .mx 0x106810040000 = .mxMret ⟨false, true, true, false, 2, 1⟩ ⟨0, 0, 0, true, 0, 0⟩ ∧
    decodeWord .mx 0x111FF01E01FF = .mxMrcv ⟨false, false, false, true, 3, 63⟩ ⟨0, 0, 3, true, 8, 511⟩ ∧
    decodeWord .mx 0x12940A180000 = .mxMswp ⟨true, false, false, true, 1, 0⟩ ⟨5, 0, 3, false, 0, 0⟩ ∧
    decodeWord .mx 0x136810040000 = .mxMadd ⟨false, true, true, false, 2, 1⟩ ⟨0, 0, 0, true, 0, 0⟩ ∧
    decodeWord .mx 0x181FF0040000 = .mxWelt ⟨false, false, false, true, 3, 63⟩ ⟨0, 0, 0, true, 0, 0⟩ := by decide

/-- 03_words.md R67; 05_bank_units.md and 06_copy_scratchpad.md. -/
theorem test_words_cp :
    decodeWord .cp 0x011401C00001 = .cpCopy ⟨false, false, false, true, 1, 0⟩ ⟨0, 7, false, 1⟩ ∧
    decodeWord .cp 0x024813A01FFF = .cpRcopy ⟨false, true, false, false, 2, 1⟩ ⟨1, 6, true, 8191⟩ ∧
    decodeWord .cp 0x031FF5400AA0 = .cpRamo ⟨false, false, false, true, 3, 63⟩ ⟨2, 5, false, 2720⟩ ∧
    decodeWord .cp 0x041407200001 = .cpWswr ⟨false, false, false, true, 1, 0⟩ ⟨3, 4, true, 1⟩ ∧
    decodeWord .cp 0x054818C01FFF = .cpBcast ⟨false, true, false, false, 2, 1⟩ ⟨4, 3, false, 8191⟩ ∧
    decodeWord .cp 0x061FFAA00AA0 = .cpFill ⟨false, false, false, true, 3, 63⟩ ⟨5, 2, true, 2720⟩ ∧
    decodeWord .cp 0x07140C400001 = .cpGath ⟨false, false, false, true, 1, 0⟩ ⟨6, 1, false, 1⟩ ∧
    decodeWord .cp 0x08481E201FFF = .cpScat ⟨false, true, false, false, 2, 1⟩ ⟨7, 0, true, 8191⟩ ∧
    decodeWord .cp 0x101FF1C00AA0 = .cpBgemv ⟨false, false, false, true, 3, 63⟩ ⟨0, 7, false, 2720⟩ ∧
    decodeWord .cp 0x111403A00001 = .cpBgemva ⟨false, false, false, true, 1, 0⟩ ⟨1, 6, true, 1⟩ ∧
    decodeWord .cp 0x124815401FFF = .cpBatom ⟨false, true, false, false, 2, 1⟩ ⟨2, 5, false, 8191⟩ ∧
    decodeWord .cp 0x131FF7200AA0 = .cpBqry ⟨false, false, false, true, 3, 63⟩ ⟨3, 4, true, 2720⟩ := by decide

/-- 03_words.md R63, R64 and R76: NOP and ignored words; trap cells and broken field rules are no instruction. -/
theorem test_words_rejected :
    decodeWord .mx 0xF00000000000 = .engineNop ⟨false, false, false, false, 0, 0⟩ ∧
    decodeWord .ld 0xF10000000005 = .engineIgnoredWord 1 ⟨false, false, false, false, 0, 0⟩ 5 ∧
    decodeWord .vx 0x700000000000 = .illegalWord 0x700000000000 1 ∧
    decodeSeq 0x5004028B = .illegalInstruction 0x5004028B ∧ decodeSeq 0x0000705B = .illegalInstruction 0x0000705B ∧
    decodeSeq 0x0050505B = .illegalInstruction 0x0050505B ∧ decodeSeq 0x80000073 = .illegalInstruction 0x80000073 := by decide
/-! ## States that meet the hypotheses of the statements -/

/-- Context 0 of core 0 executes an instruction. -/
def here (g : CoreSt → CoreSt) (o : Own → Own) (f : Ctx → Ctx) : State :=
  { State.reset.setCore 0
      (g { CoreSt.reset with own := o Own.reset, ctxs := tblSet Ctx.reset [] 0 (f { Ctx.reset with live := true }) })
    with at_ := .seq 0 0 }
/-- It owns the engines. -/
def owns (o : Own → Own) (f : Ctx → Ctx) : State := here (fun c => { c with owner := some 0 }) o f
/-- It has registers. -/
def withX (x : Tbl Word) (u : Ctx) : Ctx := { u with x := x }
/-- A page of device memory, of class NONE, at DVA and DPA 0x1000, and no other. -/
def pageNone : Word × Word := (0x1000, 0x0000_0000_0000_100F)
/-- Core 0 with a word of engine `e` at the head of what its stream unit has fetched. -/
def cursorOf (w : EWord) (words rep : Nat) : Cursor :=
  ⟨⟨1, 0, 0x2000, words, 1, 0, [], 0, 0, 0⟩, 0, 0, rep, some w, 0, false⟩
/-- Engine `e` of core 0 stands at a word. -/
def stands (e : Engine) (r : Cursor) (g : CoreSt → CoreSt) (o : Own → Own) : State :=
  { here (fun c => g { c with owner := some 0 })
      (fun u => o { u with q := tblSet EngQ.empty [] (engNo e) { EngQ.empty with run := some r } }) id with
    at_ := .engine 0 e }

theorem wit_StepRunsDecoded_sequencer :
    let s := State.reset.withFetchWord 32 0x13
    s.turns = .sequencer 0 :: [] ∧ s.runs = true ∧ s.seqPick 0 = some (0, false) ∧ s.memOk ∧ s.links = [] ∧
      s.memBad = [] ∧ s.reaches 0 ((s.core 0).dpas (s.ctx 0 0).pc.toNat 4) = true ∧ (s.core 0).icache = [] ∧
      (s.core 0).check false (s.ctx 0 0).pc.toNat 4 = none ∧
      ((s.core 0).dpas (s.ctx 0 0).pc.toNat 4).map (fun a => tblFind s.mem a) = (bytesLe 4 0x13).map some ∧
      (State.seqFetch { s with turns := [] } 0 0).1 = some 0x13 := by unfold State.memOk; decide
theorem wit_StepRunsDecoded_again :
    let s : State := { here id id (fun u => { u with wait := .again, cur := 0x13 }) with turns := [.sequencer 0] }
    s.turns = .sequencer 0 :: [] ∧ s.runs = true ∧ s.seqPick 0 = some (0, true) := by
  refine ⟨rfl, by decide, ?_⟩
  simp only [State.seqPick]
  have h : ∀ n : Nat, n % (1 + b2n (none : Option (Nat × Bool)).isSome) = 0 := fun n => Nat.mod_one n
  exact congrArg (fun i => match [0][i]? with | some k => some (k, true) | none => none) (h _)
theorem wit_StepRunsDecoded_engine :
    let s : State := { stands .vx (cursorOf 0x504000125010 1 0) id id with turns := [.engine 0 .vx] }
    s.turns = .engine 0 .vx :: [] ∧ ((s.core 0).standing .vx).isSome = true := by decide
theorem wit_StepRunsDecoded_event :
    let s : State := { State.reset with turns := [.event (.scalarCacheEviction 0 0)] }
    s.turns = .event (.scalarCacheEviction 0 0) :: [] ∧ s.mayStep (.scalarCacheEviction 0 0) = true := by decide
theorem wit_StepKeepsMemoryCanonical :
    let s : State := { State.reset with turns := [.event (.scalarCacheEviction 0 0)] }
    s.memOk ∧ ∃ t, step s = .next t := ⟨by unfold State.memOk; decide, _, rfl⟩
theorem wit_runsCtx : (here id id id).runsCtx 0 0 := by unfold State.runsCtx; decide
theorem wit_runsOwner : (owns id id).runsOwner 0 0 := by unfold State.runsOwner State.runsCtx; decide

theorem wit_ScalarMulDivIntegers :
    ((3 : Word) ≠ 0 ∧ ¬ ((5 : Word) = BitVec.intMin 64 ∧ (3 : Word) = BitVec.allOnes 64)) ∧
      (BitVec.intMin 64 : Word) ≠ 0 ∧ ¬ (BitVec.allOnes 64 : Word) = BitVec.intMin 64 := by decide
theorem wit_ScalarLoads_window :
    let s := here id id (withX [(1, 0xFFFFFFFF80007)])
    s.runsCtx 0 0 ∧ ((s.ctx 0 0).reg 1 + (0x001 : BitVec 12).signExtend 64).toNat = 0xFFFFFFFF80008 ∧
      0xFFFFFFFF80008 % LoadWidth.bytes .d = 0 ∧ inWindow 0xFFFFFFFF80008 = true ∧ (s.ctx 0 0).stores = [] ∧
      (s.core 0).pendingAt (0xFFFFFFFF80008 % 2 ^ 19) 8 = none ∧
      (s.core 0).banksFree (0xFFFFFFFF80008 % 2 ^ 19) 8 = true ∧ (s.core 0).spBad = [] := by
  unfold State.runsCtx; decide
theorem wit_ScalarLoads_device :
    let s : State := { here (fun c => { c with tt := [pageNone] }) id (withX [(1, 0x1FFF)]) with mem := [(0x1FFF, 0x80)] }
    s.runsCtx 0 0 ∧ ((s.ctx 0 0).reg 1 + (0 : BitVec 12).signExtend 64).toNat = 0x1FFF ∧
      0x1FFF % LoadWidth.bytes .b = 0 ∧ inWindow 0x1FFF = false ∧ (s.ctx 0 0).stores = [] ∧
      (s.core 0).check false 0x1FFF 1 = none ∧ s.links = [] ∧ s.missed = [] ∧ (s.core 0).loadHeld 0 [0x1FFF] = false ∧
      { s.core 0 with posted := [⟨2, false, 0x1FFE, [1, 2], 4, true, 3, 4⟩] }.loadHeld 0 [0x1FFF] = true ∧
      ((s.core 0).dpas 0x1FFF 1).map (fun d => tblFind s.mem d) = [(0x80 : Byte)].map some ∧ s.memBad = [] := by
  unfold State.runsCtx; decide
theorem wit_ScalarStores_issue :
    let s := here (fun c => { c with tt := [pageNone] }) id (withX [(1, 0x1FF8), (2, 7)])
    s.runsCtx 0 0 ∧ ((s.ctx 0 0).reg 1 + (0 : BitVec 12).signExtend 64).toNat = 0x1FF8 ∧
      0x1FF8 % StoreWidth.bytes .d = 0 ∧ (s.core 0).check true 0x1FF8 8 = none := by unfold State.runsCtx; decide
theorem wit_ScalarStores_home :
    let b : BufStore := ⟨1, false, 0x1FF8, [1, 2, 3, 4], 3, false, 9, 9⟩
    let s := here id id (fun u => { u with stores := [b] })
    let w := here (fun c => { c with posted := [{ b with id := 2, fenced := true, since := 3 }] }) id
      (fun u => { u with stores := [b] })
    s.memOk ∧ s.links = [] ∧ (s.ctx 0 0).stores = b :: [] ∧ b.scratch = false ∧
      s.fencedStore 0 9 (upFrom 0x1FF8 4) = false ∧ (w.ctx 0 0).stores = b :: [] ∧
      w.fencedStore 0 9 (upFrom 0x1FF8 4) = true := by unfold State.memOk; decide
theorem wit_ScalarStores_scratchpad :
    let b : BufStore := ⟨1, true, 0x7FFBC, [1, 2, 3, 4], 0, false, 9, 9⟩
    let s := here id id (fun u => { u with stores := [b] })
    s.spOk 0 ∧ (s.ctx 0 0).stores = b :: [] ∧ b.scratch = true ∧ b.addr + b.data.length ≤ 0x7FFC0 ∧
      (s.core 0).banksFree b.addr b.data.length = true := by unfold State.spOk; decide
theorem wit_TrapsOfInstructions :
    let s := here id id (withX [(1, 0x1006)])
    s.runsCtx 0 0 ∧ ((s.ctx 0 0).reg 1 + (0 : BitVec 12).signExtend 64).toNat % LoadWidth.bytes .w ≠ 0 ∧
      ((s.ctx 0 0).reg 1 + (1 : BitVec 12).signExtend 64).toNat % StoreWidth.bytes .h ≠ 0 ∧
      ((s.ctx 0 0).pc + ((1 : BitVec 20) ++ (0 : BitVec 1)).signExtend 64).toNat % 4 ≠ 0 ∧
      (((s.ctx 0 0).reg 1 + (0 : BitVec 12).signExtend 64) &&& ~~~1).toNat % 4 ≠ 0 ∧
      BranchOp.taken .beq ((s.ctx 0 0).reg 0) ((s.ctx 0 0).reg 0) = true ∧
      ((s.ctx 0 0).pc + ((1 : BitVec 12) ++ (0 : BitVec 1)).signExtend 64).toNat % 4 ≠ 0 ∧
      (0x7FF : BitVec 12) ≠ 0 ∧ (0x7FF : BitVec 12).getLsbD 11 = false ∧ (0x800 : BitVec 12).getLsbD 11 = true := by
  unfold State.runsCtx; decide
theorem wit_BranchesAndJumps :
    let s := here id id (withX [(1, 0x1005)])
    s.runsCtx 0 0 ∧ BranchOp.taken .beq ((s.ctx 0 0).reg 0) ((s.ctx 0 0).reg 0) = true ∧
      ((s.ctx 0 0).pc + ((2 : BitVec 12) ++ (0 : BitVec 1)).signExtend 64).toNat % 4 = 0 ∧
      BranchOp.taken .bne ((s.ctx 0 0).reg 0) ((s.ctx 0 0).reg 0) = false ∧
      ((s.ctx 0 0).pc + ((0xFFFFE : BitVec 20) ++ (0 : BitVec 1)).signExtend 64).toNat % 4 = 0 ∧
      (((s.ctx 0 0).reg 1 + (0 : BitVec 12).signExtend 64) &&& ~~~1).toNat % 4 = 0 := by
  unfold State.runsCtx; decide
theorem wit_FencesAndCaches :
    let s (cls : Nat) := here id id (fun u => { u with stores := [⟨1, false, 0, [1], cls, false, 9, 9⟩] })
    (here id id id).runsCtx 0 0 ∧ ((here id id id).ctx 0 0).stores = [] ∧ (s 1).runsCtx 0 0 ∧ (4 : BitVec 3).toNat ≤ 4 ∧
      (∀ b ∈ ((s 1).ctx 0 0).stores, if b.scratch then (4 : BitVec 3) = 0 else min 4 b.cls < 2) ∧ (s 2).runsCtx 0 0 ∧
      (∃ b ∈ ((s 2).ctx 0 0).stores, if b.scratch then (4 : BitVec 3) ≠ 0 else 2 ≤ min 4 b.cls) ∧
      ((s 2).ctx 0 0).stores ≠ [] := by
  unfold State.runsCtx; decide
theorem wit_AtomicOfTheSequencer_window :
    let s := here id id (withX [(1, 0xFFFFFFFFFFFB8), (2, 5)])
    s.runsCtx 0 0 ∧ (1 : BitVec 4).toNat ≤ 11 ∧ ((s.ctx 0 0).reg 1).toNat = 0xFFFFFFFFFFFB8 ∧
      0xFFFFFFFFFFFB8 % 8 = 0 ∧ (s.ctx 0 0).stores = [] ∧ inWindow 0xFFFFFFFFFFFB8 = true ∧
      (s.core 0).pendingAt (0xFFFFFFFFFFFB8 % 2 ^ 19) 8 = none ∧
      (s.core 0).banksFree (0xFFFFFFFFFFFB8 % 2 ^ 19) 8 = true ∧ (s.core 0).spBad = [] ∧ s.spOk 0 ∧
      0xFFFFFFFFFFFB8 % 2 ^ 19 + 8 ≤ 0x7FFC0 := by unfold State.runsCtx State.spOk; decide
theorem wit_AtomicOfTheSequencer_device :
    let s : State := { here (fun c => { c with tt := [pageNone] }) id (withX [(1, 0x1000)]) with
      mem := [(0x1000, 1), (0x1001, 2), (0x1002, 3), (0x1003, 4)] }
    s.runsCtx 0 0 ∧ (11 : BitVec 4).toNat ≤ 11 ∧ ((s.ctx 0 0).reg 1).toNat = 0x1000 ∧ 0x1000 % 4 = 0 ∧
      (s.ctx 0 0).stores = [] ∧ inWindow 0x1000 = false ∧ (s.core 0).check false 0x1000 4 = none ∧
      (s.core 0).check true 0x1000 4 = none ∧ ((s.core 0).dpas 0x1000 4).Nodup ∧ s.links = [] ∧
      s.reaches 0 ((s.core 0).dpas 0x1000 4) = true ∧ s.memBad = [] ∧ s.memOk ∧ ((s.core 0).dpas 0x1000 4).map (fun e => tblFind s.mem e) = [1, 2, 3, (4 : Byte)].map some ∧
      [1, 2, 3, (4 : Byte)].length = 4 := by unfold State.runsCtx State.memOk; decide
theorem wit_AtomicOfTheSequencer_misaligned :
    let s := here id id (withX [(1, 0x1004)])
    s.runsCtx 0 0 ∧ (4 : BitVec 4).toNat ≤ 11 ∧ ((s.ctx 0 0).reg 1).toNat % 8 ≠ 0 := by unfold State.runsCtx; decide
theorem wit_CsrReadsAndWrites :
    let s := owns id (withX [(1, 3)])
    s.runsCtx 0 0 ∧ csrKnown 0x820 = true ∧ csrOwned 0x820 = true ∧ (s.core 0).owner = some 0 ∧
      csrNew .rw 1 (s.csrRead 0 0 0x820) ((s.ctx 0 0).reg 1) = some 3 ∧
      csrNew .rs 0 (s.csrRead 0 0 0x820) ((s.ctx 0 0).reg 0) = none ∧ csrKnown 0x868 = true := by
  unfold State.runsCtx; decide
theorem wit_CsrRowsWrite :
    let s := owns id (withX [(1, 7)])
    s.runsCtx 0 0 ∧ (s.core 0).owner = some 0 ∧
      csrNew .rw 1 ((s.own 0).guard 7) ((s.ctx 0 0).reg 1) = some 7 ∧
      csrNew .rs 1 (s.ctx 0 0).saveb ((s.ctx 0 0).reg 1) = some 7 ∧
      csrNew .rw 3 ((s.ctx 0 0).boost.setWidth 64) ((3 : BitVec 5).setWidth 64) = some 3 ∧
      csrNew .rw 1 (s.csrRead 0 0 0x859) ((s.ctx 0 0).reg 1) = some 7 ∧
      csrNew .rs 1 (s.csrRead 0 0 0x85B) ((s.ctx 0 0).reg 1) = some 7 := by unfold State.runsCtx; decide
theorem wit_RemainderRegisterWrites :
    let s := owns id (withX [(1, 0x0004_0000_0000_0004), (2, 5)])
    let b := owns (fun u => { u with q := tblSet EngQ.empty [] 3 { EngQ.empty with drain := [(cursorOf 0 1 0).entry] } })
      (withX [(1, 0x0004_0000_0000_0004)])
    s.runsOwner 0 0 ∧ (s.own 0).vxDrained = true ∧
      csrNew .rw 1 (s.csrRead 0 0 0x821) ((s.ctx 0 0).reg 1) = some 0x0004_0000_0000_0004 ∧
      ((s.own 0).stack.depth ≤ (s.own 0).stack.cap ∨ (s.own 0).stack.depth = 0) ∧
      (wfld 0x0004_0000_0000_0004 0 16 ≤ wfld 0x0004_0000_0000_0004 48 16 ∨ wfld 0x0004_0000_0000_0004 0 16 = 0) ∧
      (∀ e ∈ (s.own 0).stack.ents, (s.own 0).stack.beyond e.1 = none) ∧
      csrNew .rw 2 (s.csrRead 0 0 0x821) ((s.ctx 0 0).reg 2) = some 5 ∧ wfld 5 48 16 < wfld 5 0 16 ∧ wfld 5 0 16 ≠ 0 ∧
      csrNew .rw 1 (s.csrRead 0 0 0x823) ((s.ctx 0 0).reg 1) = some 0x0004_0000_0000_0004 ∧
      b.runsOwner 0 0 ∧ (b.own 0).vxDrained = false ∧
      csrNew .rw 1 (b.csrRead 0 0 0x821) ((b.ctx 0 0).reg 1) = some 0x0004_0000_0000_0004 ∧
      csrNew .rw 1 (b.csrRead 0 0 0x823) ((b.ctx 0 0).reg 1) = some 0x0004_0000_0000_0004 := by
  unfold State.runsOwner State.runsCtx; decide
theorem wit_EsetWritesEs : (owns id id).runsOwner 0 0 ∧ 8 ≤ (8 : BitVec 5).toNat ∧ 8 ≤ (31 : BitVec 5).toNat := by
  unfold State.runsOwner State.runsCtx; decide
theorem wit_TileShape :
    let s := owns id (withX [(1, 0x7FFF), (2, 0x80FF), (3, 0x10000)])
    s.runsOwner 0 0 ∧ wfld ((s.ctx 0 0).reg 1) 16 48 = 0 ∧
      (wfld ((s.ctx 0 0).reg 1) 8 8 + 1) * (wfld ((s.ctx 0 0).reg 1) 0 8 + 1) = 32768 ∧
      32768 < (wfld ((s.ctx 0 0).reg 2) 8 8 + 1) * (wfld ((s.ctx 0 0).reg 2) 0 8 + 1) ∧
      wfld ((s.ctx 0 0).reg 3) 16 48 ≠ 0 := by unfold State.runsOwner State.runsCtx; decide
theorem wit_MarkersPlaced :
    let s := owns (fun u => { u with q := tblSet EngQ.empty [] 1 { EngQ.empty with items := [.qalign 1] } }) id
    s.runsOwner 0 0 ∧ (∀ g ∈ (s.own 0).unfinished, ((s.ctx 0 0).gen + 1 - g).toNat ≤ 127) ∧
      (∀ e, e < 5 → ((s.own 0).queue e).fences < 16) ∧ (∀ e, e < 5 → ((s.own 0).queue e).qaligns < 16) ∧
      ((s.own 0).gates.filter fun g => !(g.cpCrossed && g.ldCrossed && g.stCrossed)).length < 16 ∧
      (s.own 0).seg = none := by unfold State.runsOwner State.runsCtx; decide
theorem wit_ForkEnqueues_enqueue :
    let s := owns id (fun u => { u with wait := .fork 0x09 [(0x2000, 0), (0x3000, 1)] 5 })
    s.waitsIn 0 0 (.fork 0x09 [(0x2000, 0), (0x3000, 1)] 5) ∧ (s.core 0).owner = some 0 ∧
      2 = (maskEngines 0x09).length ∧ (s.own 0).hasRoom 0x09 = true := by unfold State.waitsIn; decide
theorem wit_ForkEnqueues_read :
    let s := owns id (withX [(1, 0xFFFFFFFF80000), (2, 0xFFFFFFFFFFFB0), (3, 8)])
    let t := here (fun c => { c with owner := some 0, sp := [(0x7FFBA, 1)] }) id (withX [(2, 0xFFFFFFFFFFFB0)])
    s.runsOwner 0 0 ∧ (0x1F : BitVec 5) ≠ 0 ∧ 0xFFFFFFFFFFFB0 % 16 = 0 ∧ 0xFFFFFFFFFFFB0 + 80 ≤ 2 ^ 52 ∧
      ((s.ctx 0 0).reg 1).toNat = 0xFFFFFFFF80000 ∧ ((s.ctx 0 0).reg 2).toNat = 0xFFFFFFFFFFFB0 ∧
      (s.core 0).pendMode = false ∧ (s.core 0).spBad = [] ∧ (s.ctx 0 0).stores = [] ∧ (s.own 0).hasRoom 0x1F = true ∧
      (s.core 0).banksFree (0xFFFFFFFF80000 % 2 ^ 19) (16 * (maskEngines 0x1F).length) = true ∧
      (∀ i, i < (maskEngines 0x1F).length →
        ofBytesLe ((s.core 0).spBytes (0xFFFFFFFF80000 % 2 ^ 19 + 16 * i + 8) 8) < 2 ^ 16) ∧
      ((s.ctx 0 0).reg 3).toNat % 16 ≠ 0 ∧ t.runsOwner 0 0 ∧
      (t.core 0).banksFree (0xFFFFFFFFFFFB0 % 2 ^ 19) (16 * (maskEngines 0x1F).length) = true ∧ ((t.ctx 0 0).reg 2).toNat = 0xFFFFFFFFFFFB0 ∧
      (∃ i, i < (maskEngines 0x1F).length ∧
        2 ^ 16 ≤ ofBytesLe ((t.core 0).spBytes (0xFFFFFFFFFFFB0 % 2 ^ 19 + 16 * i + 8) 8)) := by
  unfold State.runsOwner State.runsCtx; decide
theorem wit_RendvAndRqpop :
    let q := tblSet EngQ.empty [] 3 { EngQ.empty with items := [.entry (cursorOf 0 1 0).entry] }
    let s := owns id id
    let b := owns (fun u => { u with q := q }) id
    let r := owns (fun u => { u with rq := [⟨7, 1, 2⟩] }) id
    s.runsCtx 0 0 ∧ (s.core 0).owner = some 0 ∧ (s.core 0).drainedUpTo 0 0x1F 0 = true ∧ (s.own 0).rq = [] ∧
      ((s.own 0).queue 3).count = 0 ∧ b.runsCtx 0 0 ∧ (b.core 0).drainedUpTo 0 0x08 0 = false ∧ ((b.own 0).queue 3).count ≠ 0 ∧ (b.own 0).rq = [] ∧
      r.runsCtx 0 0 ∧ (r.own 0).rq = ⟨7, 1, 2⟩ :: [] ∧
      (owns id (fun u => { u with wait := .rendv 0x1F 0 })).waitsIn 0 0 (.rendv 0x1F 0) ∧
      (owns (fun u => { u with q := q }) (fun u => { u with wait := .rendv 8 0 })).waitsIn 0 0 (.rendv 8 0) ∧
      (owns (fun u => { u with rq := [⟨7, 1, 2⟩] }) (fun u => { u with wait := .rqpop 3 })).waitsIn 0 0 (.rqpop 3) ∧
      (owns id (fun u => { u with wait := .rqpop 3 })).waitsIn 0 0 (.rqpop 3) := by
  unfold State.runsCtx State.waitsIn; decide
/-- An open segment that engine CP, LD, MX, VX and ST have closed as said, with `n` words counted. -/
def segOf (n : Nat) (closed : List Nat) : Seg := ⟨1, 2, n, [], [0, 1, 2, 3, 4], closed, []⟩
theorem wit_SegmentCheck_open :
    let s := owns (fun u => { u with seg := some (segOf 0 []) }) id
    let b := owns (fun u => { u with seg := some (segOf 2 [0, 1]) }) (fun u => { u with wait := .sege 0 false 5 })
    s.runsCtx 0 0 ∧ (s.core 0).owner = some 0 ∧ (s.own 0).seg = some (segOf 0 []) ∧ (s.own 0).closing = false ∧
      b.waitsIn 0 0 (.sege 0 false 5) ∧ (b.own 0).seg = some (segOf 2 [0, 1]) ∧
      (upFrom 0 5).all (fun e => (segOf 2 [0, 1]).closed.contains e) = false := by
  unfold State.runsCtx State.waitsIn; decide
set_option maxRecDepth 8000 in
theorem wit_SegmentCheck_measured :
    let g := segOf 2 [0, 1, 2, 3, 4]
    let s := owns (fun u => { u with seg := some g }) (fun u => { u with wait := .sege g.measured.2 false 5 })
    let b := owns (fun u => { u with seg := some g }) (fun u => { u with wait := .sege (g.measured.2 + 1) false 5 })
    s.waitsIn 0 0 (.sege g.measured.2 false 5) ∧ (s.own 0).seg = some g ∧
      (upFrom 0 5).all (fun e => g.closed.contains e) = true ∧ g.measured = (g.expect, g.measured.2) ∧
      b.waitsIn 0 0 (.sege (g.measured.2 + 1) false 5) ∧ g.measured ≠ (g.expect, g.measured.2 + 1) ∧
      (∀ e, e < 5 → tblGet 0 g.words e ≤ 64) ∧ ∃ e, e < 5 ∧ 64 < tblGet 0 { g with words := [(4, 65)] }.words e := by
  unfold State.waitsIn; decide
set_option maxRecDepth 8000 in
theorem wit_SegmentCheck_again :
    let g := segOf 2 [0, 1, 2, 3, 4]
    let s := owns (fun u => { u with seg := some { g with expect := ((Own.reset).remeasured g).1 } })
      (fun u => { u with wait := .sege ((Own.reset).remeasured g).2 true 5 })
    let b := owns (fun u => { u with seg := some g }) (fun u => { u with wait := .sege 0x55 true 5 })
    s.waitsIn 0 0 (.sege ((Own.reset).remeasured g).2 true 5) ∧ (s.core 0).segLaps = 0 ∧
      (s.own 0).remeasured { g with expect := ((Own.reset).remeasured g).1 } =
        (((Own.reset).remeasured g).1, ((Own.reset).remeasured g).2) ∧
      b.waitsIn 0 0 (.sege 0x55 true 5) ∧ (b.own 0).seg = some g ∧ (b.core 0).segLaps = 0 ∧
      (b.own 0).remeasured g ≠ (g.expect, 0x55) := by unfold State.waitsIn; decide
theorem wit_OwnershipAndSwitches_wait :
    let s := here (fun c => { c with owner := some 3 }) id id
    s.runsCtx 0 0 ∧ (s.core 0).owner = some 3 ∧ 3 ≠ 0 ∧ (s.ctx 0 0).want = none ∧ ownerOnly .qalign = true ∧
      ownerOnly (.csrWrite .rw false 0x820 1 1) = true := by unfold State.runsCtx; decide
theorem wit_OwnershipAndSwitches_pass :
    let s := here id id (fun u => { u with want := some 1 })
    (s.core 0).nextOwner = some 0 ∧ (s.core 0).owner = none ∧ (s.own 0).inFlight = false ∧ (s.core 0).stall = none ∧
      (s.core 0).swap = none ∧ (s.ctx 0 0).saved = false ∧ ((owns id id).core 0).passNow = false ∧
      ((owns id id).core 0).swapDone = false := by decide
/-- Bytes of memory from `a` on. -/
def bytesFrom (a n : Nat) : Tbl Byte := (upFrom a n).map fun i => (i, 1)
theorem bytesFrom_rising (a n lo : Nat) (h : lo ≤ a) : tblRising lo (bytesFrom a n) = true := by
  induction n generalizing a lo with
  | zero => rfl
  | succ n ih =>
    simp only [bytesFrom, upFrom, List.map_cons, tblRising, Bool.and_eq_true, decide_eq_true_eq] at ih ⊢
    exact ⟨h, ih _ _ (by omega)⟩
theorem bytesFrom_find (a n x : Nat) (h : a ≤ x ∧ x < a + n) : tblFind (bytesFrom a n) x = some 1 := by
  induction n generalizing a with
  | zero => omega
  | succ n ih =>
    simp only [bytesFrom, upFrom, List.map_cons, tblFind] at ih ⊢
    split
    · rfl
    · exact ih _ (by omega)
/-- A switch whose laps have passed: the next context begins anew, or is restored from its image. -/
def swapped (saved : Bool) : State :=
  { here (fun c => { c with swap := some ⟨0, 0⟩, tt := [(0x200000, 0x0000_0000_0020_002F)] }) id (fun u => { u with
      want := some 1, saved := saved, saveb := 0x200001 }) with mem := bytesFrom 0x200000 imageSize }
theorem wit_OwnershipAndSwitches_swap :
    let n := swapped false
    let r := swapped true
    (n.core 0).owner = none ∧ (n.core 0).swap = some { next := 0, left := 0 } ∧ (n.ctx 0 0).live = true ∧
      (n.ctx 0 0).want ≠ none ∧ (n.ctx 0 0).saved = false ∧ (r.core 0).owner = none ∧
      (r.core 0).swap = some { next := 0, left := 0 } ∧ (r.ctx 0 0).live = true ∧ (r.ctx 0 0).want ≠ none ∧
      (r.ctx 0 0).saved = true ∧ (r.ctx 0 0).aband = false ∧
      ((r.ctx 0 0).side.getD SaveSide.none).profile = Config.profile ∧
      ((some { SaveSide.none with profile := 1 }).getD SaveSide.none).profile ≠ Config.profile ∧ r.memBad = [] ∧ r.links = [] ∧
      (r.core 0).check true ((r.ctx 0 0).imageBase) imageSize = none ∧
      (r.core 0).check false ((r.ctx 0 0).imageBase) imageSize = none := by decide +kernel
theorem wit_OwnershipAndSwitches_image :
    (swapped true).memOk ∧ ∀ a ∈ ((swapped true).core 0).dpas (((swapped true).ctx 0 0).imageBase) imageSize,
      tblFind (swapped true).mem a ≠ none := by
  have hb : ((swapped true).ctx 0 0).imageBase = 0x200000 := by decide
  have ht : ((swapped true).core 0).tt = [(0x200000, 0x0000_0000_0020_002F)] := rfl
  have hm : (swapped true).mem = bytesFrom 0x200000 imageSize := rfl
  refine ⟨?_, fun a ha => ?_⟩
  · exact bytesFrom_rising _ _ _ (by decide)
  · rw [hb] at ha
    simp only [CoreSt.dpas, ht, List.mem_filterMap] at ha
    obtain ⟨i, hi, h⟩ := ha
    rw [mem_upFrom] at hi
    have hp : pageBits (wfld (0x0000_0000_0020_002F : Word) 4 3) = 21 := by decide
    have hd : leafDpa 0x0000_0000_0020_002F i = 0x200000 + i % 2 ^ 21 := by
      have h1 : wfld (0x0000_0000_0020_002F : Word) 12 28 <<< 12 = 0x200000 := by decide
      have h2 : wfld (0x0000_0000_0020_002F : Word) 60 4 = 0 := by decide
      simp only [leafDpa, hp, h1, h2, placeIn]
      rw [if_neg (by decide), if_neg (by decide)]
    have hs : imageSize = 0xA0000 := rfl
    simp only [findPage, List.find?_cons, List.find?_nil, hp] at h
    split at h <;> simp only [Option.map_some, Option.map_none, Option.some.injEq, reduceCtorEq] at h
    rw [hm, bytesFrom_find _ _ _ (by omega)]
    simp
theorem wit_OwnershipAndSwitches_switch :
    let cx := tblSet Ctx.reset (tblSet Ctx.reset [] 0 { Ctx.reset with live := true, saveb := 0x200001 }) 1
      { Ctx.reset with live := true, want := some 1, prio := 200 }
    let g := fun c : CoreSt => { c with owner := some 0, ctxs := cx, tt := [(0x200000, 0x0000_0000_0020_002F)] }
    let s := here g id id
    let b := here g (fun u => { u with
      q := (upFrom 0 5).map fun e => (e, { EngQ.empty with items := [.fence 1 0x3FF, .entry (cursorOf 0 1 0).entry] }) }) id
    (s.core 0).nextOwner = some 1 ∧ (s.core 0).owner = some 0 ∧ (s.ctx 0 0).want = none ∧ (s.ctx 0 1).saved = false ∧
      (s.own 0).stack.ents = [] ∧ (s.core 0).check true ((s.ctx 0 0).imageBase) imageSize = none ∧
      (s.core 0).check false ((s.ctx 0 0).imageBase) imageSize = none ∧ (s.core 0).passNow = true ∧
      (s.core 0).switchNow = none ∧
      (b.core 0).nextOwner = some 1 ∧ (b.core 0).owner = some 0 ∧ (b.core 0).switchNow = some 0x3FF ∧
      (b.core 0).passNow = false := by decide
theorem wordAt_window {s : State} {c a n home v : Nat} (hw : inWindow a = true)
    (h : a % n = 0 ∧ home = a % 2 ^ 19 ∧ (s.core c).pendingAt home n = none ∧ (s.core c).spBad = [] ∧
      (s.core c).banksFree home n = true ∧ v = ofBytesLe ((s.core c).spBytes home n)) : s.wordAt c a n home v :=
  ⟨h.1, by rw [if_pos hw]; exact h.2⟩
theorem wit_WaitcComparesAndArms :
    let s := owns id (withX [(1, 0xFFFFFFFF80040)])
    let w := here (fun c => { c with sp := [(0x40, 9)] }) id
      (fun u => { u with wait := .waitc true 0xFFFFFFFF80040 9 5 })
    let f : State := { s with conts := (upFrom 0 64).map fun i =>
      ⟨i, 0, true, 0x80, false, 0, 0, 0, [], 0, 0, false, [], none⟩ }
    s.runsCtx 0 0 ∧ ((s.ctx 0 0).reg 1).toNat = 0xFFFFFFFF80040 ∧ s.wordAt 0 0xFFFFFFFF80040 4 0x40 0 ∧
      s.workDrained 0 0 ∧ (s.core 0).owner = some 0 ∧ (s.own 0).stack.ents = [] ∧ (s.ctx 0 0).stores = [] ∧
      s.contCount 0 < 64 ∧ 0 = ((s.ctx 0 0).reg 0).toNat % 2 ^ (8 * 4) ∧ 0 ≠ ((s.ctx 0 0).reg 1).toNat % 2 ^ (8 * 4) ∧
      f.runsCtx 0 0 ∧ 64 ≤ f.contCount 0 ∧ f.wordAt 0 0xFFFFFFFF80040 4 0x40 0 ∧ f.workDrained 0 0 ∧
      w.waitsIn 0 0 (.waitc true 0xFFFFFFFF80040 9 5) ∧ w.wordAt 0 0xFFFFFFFF80040 8 0x40 9 ∧ w.workDrained 0 0 ∧
      w.contCount 0 < 64 ∧ 9 = (9 : Word).toNat % 2 ^ (8 * 8) := by
  unfold State.runsCtx State.waitsIn State.workDrained
  exact ⟨by decide +kernel, by decide, wordAt_window (by decide) (by decide +kernel), by decide +kernel, by decide +kernel,
    by decide +kernel, by decide +kernel, by decide +kernel, by decide, by decide, by decide +kernel, by decide +kernel,
    wordAt_window (by decide) (by decide +kernel), by decide +kernel, by decide +kernel,
    wordAt_window (by decide) (by decide +kernel), by decide +kernel, by decide +kernel, by decide⟩
theorem wit_WaitcComparesAndArms_device :
    let s : State := { here (fun c => { c with tt := [pageNone] }) id (withX [(1, 0x1000)]) with
      mem := [(0x1000, 1), (0x1001, 2), (0x1002, 3), (0x1003, 4)] }
    s.runsCtx 0 0 ∧ ((s.ctx 0 0).reg 1).toNat = 0x1000 ∧ s.wordAt 0 0x1000 4 0x1000 0x04030201 ∧ s.workDrained 0 0 := by
  unfold State.runsCtx State.wordAt State.workDrained
  refine ⟨by decide +kernel, by decide +kernel, ⟨by decide +kernel, ?_⟩, by decide +kernel⟩
  rw [if_neg (by decide +kernel)]
  exact ⟨by decide +kernel, by decide +kernel, by decide +kernel, rfl, rfl, [1, 2, 3, 4], by decide +kernel, by decide +kernel⟩
/-- Work that has not drained: an entry in a queue of the owner, a job of the task. -/
theorem wit_WaitcComparesAndArms_work :
    let b := owns (fun u => { u with q := tblSet EngQ.empty [] 3 { EngQ.empty with items := [.entry (cursorOf 0 1 0).entry] } })
      (fun u => { u with wait := .waitc true 0xFFFFFFFF80040 9 5 })
    b.waitsIn 0 0 (.waitc true 0xFFFFFFFF80040 9 5) ∧ (b.core 0).owner = some 0 ∧ ((b.own 0).queue 3).count ≠ 0 := by
  unfold State.waitsIn; decide
theorem wit_SignalsAndContinuations :
    let e : Cont := ⟨1, 0, true, 0x40, false, 0, 0x2000, 5, [], 7, 3, false, [], none⟩
    let s : State := { here id id (withX [(1, 0xFFFFFFFF80040)]) with conts := [e] }
    let w : State := { s with conts := [{ e with woken := some 2 }] }
    s.runsCtx 0 0 ∧ s.spOk 0 ∧ ((s.ctx 0 0).reg 1).toNat = 0xFFFFFFFF80040 ∧ 0xFFFFFFFF80040 % 8 = 0 ∧
      inWindow 0xFFFFFFFF80040 = true ∧ 0xFFFFFFFF80040 % 2 ^ 19 + 8 ≤ 0x7FFC0 ∧ (s.ctx 0 0).stores = [] ∧
      (s.core 0).banksFree (0xFFFFFFFF80040 % 2 ^ 19) 8 = true ∧ e.watches true 0 (0xFFFFFFFF80040 % 2 ^ 19) 8 = true ∧
      w.conts.find? (fun y => y.id == 1) = some { e with woken := some 2 } ∧
      (w.wokenOf 0).head? = some { e with woken := some 2 } ∧ (w.core 0).taskQ.length < 256 := by
  unfold State.runsCtx State.spOk; decide
theorem wit_JoinAndLeave :
    let s := here id id (fun u => { u with x := [(1, 0x10000), (2, 5)] })
    let g : Group := ⟨s.partOf 0, 5, [7]⟩
    let m : State := { here id id (fun u => { u with x := [(2, 5)], groups := [5], task := 7 }) with groups := [g] }
    let n : State := { s with groups := [g] }
    let f : State := { s with groups := (upFrom 6 4096).map fun i => ⟨s.partOf 0, BitVec.ofNat 16 i, []⟩ }
    let h : State := { s with groups := [⟨s.partOf 0, 5, List.replicate 65535 0⟩] }
    s.runsCtx 0 0 ∧ wfld ((s.ctx 0 0).reg 1) 16 48 ≠ 0 ∧ wfld ((s.ctx 0 0).reg 2) 16 48 = 0 ∧
      ((s.ctx 0 0).reg 2).setWidth 16 ∉ (s.ctx 0 0).groups ∧ s.group? (s.partOf 0) 5 = none ∧
      (s.groups.filter fun g => g.part == s.partOf 0).length < 4096 ∧ n.runsCtx 0 0 ∧
      n.group? (n.partOf 0) 5 = some g ∧ g.members.length < 65535 ∧ m.runsCtx 0 0 ∧
      ((m.ctx 0 0).reg 2).setWidth 16 ∈ (m.ctx 0 0).groups ∧ f.runsCtx 0 0 ∧ h.runsCtx 0 0 := by
  unfold State.runsCtx; decide
theorem wit_SuperstepBarrier :
    let s := here id id (fun u => { u with x := [(1, 5)] })
    let m := here id id (fun u => { u with x := [(1, 5)], groups := [5], task := 7 })
    let b : State := { m with hub := [(offPassign 0, (1 : Word)), (offRtbind 2, (0x8000000000000005 : Word))], groups := [⟨0, 5, [7]⟩] }
    let r : State := { b with tags := [(2, { TagSt.reset with entered := [(0, 0)], tlast := some 0, release := some 0 })] }
    s.runsCtx 0 0 ∧ ((s.ctx 0 0).reg 1).setWidth 16 ∉ (s.ctx 0 0).groups ∧ m.runsCtx 0 0 ∧
      (5 : BitVec 16) ∈ (m.ctx 0 0).groups ∧ m.bound 2 ≠ some (m.partOf 0, 5) ∧
      b.runsCtx 0 0 ∧ (5 : BitVec 16) ∈ (b.ctx 0 0).groups ∧ b.bound 2 = some (b.partOf 0, 5) ∧
      (b.core 0).jobsOf 0 = [] ∧ (b.core 0).faults = [] ∧ (b.core 0).owner ≠ some 0 ∧ (b.ctx 0 0).saved = false ∧
      (b.ctx 0 0).stores = [] ∧ (b.tag 2).t0 = none ∧ (b.tag 2).tlast = none ∧
      b.members (b.partOf 0) 5 = [(b.ctx 0 0).task] ∧ bit (b.hubGet (offXrt 2)).toNat 63 = false ∧
      r.bound 2 = some (0, 5) ∧ (r.tag 2).release = some 0 ∧ 0 ≤ r.ftick ∧ r.setsFor 2 0 5 = [] ∧
      (r.tag 2).entered.Nodup := by unfold State.runsCtx; decide
/-- Words in device memory from an address on. -/
def words (a : Nat) (ws : List Word) : Tbl Byte := (upFrom a (8 * ws.length)).zip (ws.flatMap fun w => bytesLe 8 w.toNat)
/-- The hub with core 0 in partition 0, whose root table is at 0x40000, and its first GiB granted. -/
def hub0 : Tbl Word := [(offPtroot 0, 0x40001), (offPassign 0, 1), (offPgrant 0 0, 0x8000000100000000)]
/-- A root table whose first leaf maps the first 128 GiB, class SYSTEM, readable and writable. -/
def root : Tbl Byte := words 0x40000 [0x040000000000006F]

theorem wit_ExchangePlansAndWaits_wait :
    let r : ExRec := ⟨9, 0, 1, 0, 0, 8, 0, [], 0, false⟩
    let s := here id id id
    let x : State := { s with ftick := 5, tags := [(3, { TagSt.reset with t0 := some 5, recs := [r] })] }
    let w : State := { here id id (fun u => { u with wait := .exwait 3 5 }) with tags := x.tags }
    let v : State := { w with ftick := 14, tags := [(3, { TagSt.reset with t0 := some 5, recs := [{ r with done := 8 }] })] }
    s.runsCtx 0 0 ∧ (s.tag 3).t0 = none ∧ x.runsCtx 0 0 ∧ (x.tag 3).t0 = some 5 ∧
      (x.tag 3).overFor x.ftick 0 = false ∧ w.waitsIn 0 0 (.exwait 3 5) ∧ (w.tag 3).overFor w.ftick 0 = false ∧
      v.waitsIn 0 0 (.exwait 3 5) ∧ (v.tag 3).overFor v.ftick 0 = true := by unfold State.runsCtx State.waitsIn; decide
theorem wit_ExchangePlansAndWaits_plan :
    let s := here (fun c => { c with sp := [(0, 1), (0x50, 8)] }) id
      (fun u => { u with x := [(1, 5), (2, 0xFFFFFFFF80000), (3, 4)], groups := [5], task := 7 })
    let m : State := { s with hub := hub0, groups := [⟨0, 5, [7]⟩] }
    let n := here id id (withX [(1, 5)])
    let x : State := { s with tags := [(3, { TagSt.reset with t0 := some 0 })] }
    let e := here (fun c => { c with sp := [(7, 1)] }) id (fun u => { u with x := [(1, 5), (2, 0xFFFFFFFF80000)], groups := [5] })
    n.runsCtx 0 0 ∧ ((n.ctx 0 0).reg 1).setWidth 16 ∉ (n.ctx 0 0).groups ∧ s.runsCtx 0 0 ∧
      ((s.ctx 0 0).reg 1).setWidth 16 ∈ (s.ctx 0 0).groups ∧ (s.tag 3).t0 = none ∧ ((s.ctx 0 0).reg 3).toNat % 8 ≠ 0 ∧
      x.runsCtx 0 0 ∧ (x.tag 3).t0 ≠ none ∧ m.runsCtx 0 0 ∧
      (match (m.readSet 0 0 ((m.ctx 0 0).reg 2).toNat (m.memberCores (m.partOf 0) 5)).1 with
        | .ok _ => true | .error _ => false) = true ∧ e.runsCtx 0 0 ∧ (5 : BitVec 16) ∈ (e.ctx 0 0).groups ∧
      (e.tag 3).t0 = none ∧
      (match (e.readSet 0 0 ((e.ctx 0 0).reg 2).toNat (e.memberCores (e.partOf 0) 5)).1 with
        | .error .unreadable => true | _ => false) = true := by
  unfold State.runsCtx; decide
theorem wit_TranslationLoads :
    let s : State := { here id id (withX [(1, 0x1000), (2, 1), (3, 0x1008)]) with
      hub := hub0, mem := words 0x1000 [0x1001, 0x010000000000100F] ++ root }
    let b := here id (fun u => { u with q := tblSet EngQ.empty [] 3 { EngQ.empty with drain := [(cursorOf 0 1 0).entry] } })
      (withX [(1, 0x1000), (2, 1)])
    let w : State := { here id id (fun u => { u with wait := .ttload 0x1000 1 5 }) with hub := hub0, mem := s.mem }
    s.runsCtx 0 0 ∧ ((s.ctx 0 0).reg 1).toNat % 16 = 0 ∧ ((s.ctx 0 0).reg 3).toNat % 16 ≠ 0 ∧
      ((s.ctx 0 0).reg 2).toNat = 1 ∧ (s.core 0).quiet = true ∧
      s.rangeHeld 0 (s.partOf 0) 0x1000 (16 * 1) = false ∧ s.readImage 0 (s.partOf 0) 0x1000 1 0 [] = .ok [(0x1001, 0x010000000000100F)] ∧
      b.runsCtx 0 0 ∧ (b.core 0).quiet = false ∧ w.waitsIn 0 0 (.ttload 0x1000 1 5) ∧ (w.core 0).quiet = true ∧
      w.rangeHeld 0 (w.partOf 0) 0x1000 (16 * 1) = false ∧
      w.readImage 0 (w.partOf 0) 0x1000 1 0 [] = .ok [(0x1001, 0x010000000000100F)] ∧
      (here id id (fun u => { u with wait := .ttload 0x1000 1 5 })).readImage 0 8 0x1000 1 0 [] = .error 0x50000 := by
  unfold State.runsCtx State.waitsIn
  refine ⟨by decide, by decide, by decide, by decide, by decide, by decide, rfl, by decide, by decide, by decide, by decide,
    by decide, rfl, rfl⟩
/-- An image of one live record that passes, and one of two, of which the second overlaps the first. -/
theorem wit_TranslationLoads_image :
    let e : Word × Word := (0x1001, 0x010000000000100F)
    let s : State := { State.reset with hub := hub0, mem := words 0x1000 [e.1, e.2, e.1, e.2] ++ root }
    s.walkWord 0 (s.partOf 0) 0x1000 = some e.1 ∧ s.walkWord 0 (s.partOf 0) 0x1008 = some e.2 ∧
      s.walkWord 0 (s.partOf 0) 0x1010 = some e.1 ∧ s.walkWord 0 (s.partOf 0) 0x1018 = some e.2 ∧
      e.1.getLsbD 0 = true ∧ s.recordPasses (s.partOf 0) [] e ∧ ¬ s.recordPasses (s.partOf 0) [e] e ∧
      s.readImage 0 (s.partOf 0) 0x1000 2 0 [] = .error (2 ^ 16 * 3 + 1) := by
  refine ⟨by decide, by decide, by decide, by decide, by decide,
    ⟨by decide, by decide, by decide, (fun e h => nomatch h), by decide +kernel⟩,
    fun h => absurd (h.2.2.2.1 _ (List.mem_singleton.2 rfl)) (by decide), rfl⟩
theorem wit_Probes :
    let w : State := { here id id (fun u => { u with wait := .probe 0x1000 0x1000 0x1001 true 0 5 }) with
      hub := hub0, mem := root }
    let r : State := { w with mem := words 0x40000 [0x0400000000000067] }
    let v : State := { here id id (fun u => { u with wait := .probe 0x1000 0x1000 0x2000000001 true 0 5 }) with
      hub := hub0, mem := root }
    (here id id id).runsCtx 0 0 ∧ wfld ((((here id id id).ctx 0 0).reg 1)) 52 11 = 0 ∧
      w.waitsIn 0 0 (.probe 0x1000 0x1000 0x1001 true 0 5) ∧ (w.core 0).quiet = true ∧
      w.walkHeld 0 (w.partOf 0) 0x1000 = false ∧ w.walk 0 (w.partOf 0) 0x1000 = .leaf 0x040000000000006F 0 ∧ leafReads 0x040000000000006F = true ∧
      leafWrites 0x040000000000006F = true ∧
      0x1001 ≤ 0x1000 + (2 ^ pageBits (wfld 0x040000000000006F 4 3) - 0x1000 % 2 ^ pageBits (wfld 0x040000000000006F 4 3)) ∧
      r.waitsIn 0 0 (.probe 0x1000 0x1000 0x1001 true 0 5) ∧ r.walk 0 (r.partOf 0) 0x1000 = .leaf 0x0400000000000067 0 ∧
      leafWrites 0x0400000000000067 = false ∧
      (here id id (fun u => { u with wait := .probe 0x1000 0x1000 0x1001 true 0 5 })).walk 0 8 0x1000 = .fail 1 ∧
      v.waitsIn 0 0 (.probe 0x1000 0x1000 0x2000000001 true 0 5) ∧ v.walk 0 (v.partOf 0) 0x1000 = .leaf 0x040000000000006F 0 ∧
      0x1000 + (2 ^ pageBits (wfld 0x040000000000006F 4 3) - 0x1000 % 2 ^ pageBits (wfld 0x040000000000006F 4 3)) <
        0x2000000001 := by
  unfold State.runsCtx State.waitsIn; decide
theorem wit_CodePins :
    let s := here (fun c => { c with tt := [pageNone] }) id (withX [(1, 0x1040), (2, 0x80)])
    let f := here (fun c => { c with tt := [pageNone] }) id (fun u => { u with
      x := [(1, 0x1040), (2, 0x80)], pins := (upFrom 1000 256).map fun i => ⟨false, i, false⟩ })
    s.runsCtx 0 0 ∧ rangeLines ((s.ctx 0 0).reg 1).toNat ((s.ctx 0 0).reg 2).toNat = (0x20, 2) ∧
      (∀ i, i < 2 → (s.core 0).check false (128 * (0x20 + i)) 128 = none) ∧
      (s.locked 0 true).length + 2 ≤ lockable true ∧ 64 ∉ s.locked 0 true ∧
      64 ∈ (here id id (fun u => { u with pins := [⟨false, 64, false⟩] })).locked 0 false ∧ f.runsCtx 0 0 ∧
      rangeLines ((f.ctx 0 0).reg 1).toNat ((f.ctx 0 0).reg 2).toNat = (0x20, 2) ∧
      (f.core 0).check false (128 * 0x20) 128 = none ∧ (f.core 0).lineKey 0x20 ∉ f.locked 0 false ∧
      lockable false ≤ (f.locked 0 false).length := by unfold State.runsCtx; decide +kernel
theorem wit_TaskEndAndHalt :
    let s := owns id (fun u => { u with groups := [5], task := 7 })
    let b := owns (fun u => { u with q := tblSet EngQ.empty [] 3 { EngQ.empty with items := [.entry (cursorOf 0 1 0).entry] } }) id
    let j := here (fun c => { c with faults := [] }) (fun u => u) (fun u => { u with wait := .taskEnd })
    let h : State := { here id id id with hub := [(offDbgctl 0, (4 : Word))] }
    s.runsCtx 0 0 ∧ (s.core 0).faults = [] ∧ (s.core 0).jobsOf 0 = [] ∧
      (∀ e, e < 5 → ((s.own 0).queue e).count = 0) ∧ j.waitsIn 0 0 .taskEnd ∧ (j.core 0).jobsOf 0 = [] ∧
      (j.core 0).owner ≠ some 0 ∧ (j.ctx 0 0).saved = false ∧ b.runsCtx 0 0 ∧
      h.runsCtx 0 0 ∧ bit (h.hubGet (offDbgctl 0)).toNat 2 = true ∧ bit (s.hubGet (offDbgctl 0)).toNat 2 = false := by
  unfold State.runsCtx State.waitsIn; decide
/-- Launch queue 0 of die 0 enabled for partition 0 at DVA 0, one packet behind HEAD. -/
def lq0 (stat : Word) : Tbl Word := hub0 ++ [(offLqcfg 0 0, 0x8400000000000000), (offLqkick 0 0, 1), (offLqstat 0 0, stat)]
/-- The state after a queue's turn has passed. -/
def nextTurn (s : State) (d q : Nat) : State := { s with lqTurn := tblSet 0 s.lqTurn d ((q + 1) % 16), draws := s.draws + 1 }
theorem wit_LaunchPacketRead :
    let s : State := { State.reset with hub := lq0 0, mem := words 0x38 [7] ++ root }
    let n : State := { State.reset with hub := [(offLqcfg 0 0, (0x8400000000000000 : Word)), (offLqkick 0 0, 1)] }
    let r : State := { s with lqs := [(qKey 0 0, { LqPos.reset with nextRead := some 0, rereads := 7 })] }
    State.reset.lqNext 0 ≠ some 0 ∧ s.lqNext 0 = some 0 ∧ s.rangeHeld 4 (s.lqPart 0 0) (s.lqAddr 0 0) 64 = false ∧
      (nextTurn s 0 0).walkWord 4 (s.lqPart 0 0) (s.lqAddr 0 0 + 56) = some 7 ∧
      wfld 7 0 32 ≠ (s.lqHead 0 0 + 1) % 2 ^ 32 ∧ n.lqNext 0 = some 0 ∧
      (nextTurn n 0 0).walkWord 4 (n.lqPart 0 0) (n.lqAddr 0 0 + 56) = none ∧
      (r.lqPos 0 0).nextRead = some 0 ∧ 0 ≤ r.ftick ∧ r.walkWord 4 (r.lqPart 0 0) (r.lqAddr 0 0 + 56) = some 7 := by decide
theorem wit_LaunchPacketRead_packet :
    let ws (e : Word) : List Word := [e, 0x0500010000000001, 1, 2, 3, 4, 5]
    let s (e : Word) : State := { State.reset with hub := lq0 0, mem := words 0 (ws e ++ [1]) ++ root }
    let b : State := { s 0x2000 with hub := lq0 0 ++ [(offLbp 0 3, 0xC000000000002000)] }
    (s 0x2000).lqNext 0 = some 0 ∧
      (nextTurn (s 0x2000) 0 0).walkWord 4 ((s 0x2000).lqPart 0 0) ((s 0x2000).lqAddr 0 0 + 56) = some 1 ∧
      wfld 1 0 32 = ((s 0x2000).lqHead 0 0 + 1) % 2 ^ 32 ∧
      ((upFrom 0 7).all fun i =>
        (nextTurn (s 0x2000) 0 0).walkWord 4 ((s 0x2000).lqPart 0 0) ((s 0x2000).lqAddr 0 0 + 8 * i) == (ws 0x2000)[i]?) = true ∧
      (nextTurn (s 0x2000) 0 0).packetGood 0 0 (ws 0x2000 ++ [1]) = true ∧
      (nextTurn (s 0x2000) 0 0).breakAt 0 0 (ws 0x2000 ++ [1]) = none ∧ b.lqNext 0 = some 0 ∧
      (nextTurn b 0 0).packetGood 0 0 (ws 0x2000 ++ [1]) = true ∧
      (nextTurn b 0 0).breakAt 0 0 (ws 0x2000 ++ [1]) = some 3 ∧ (s 0x2001).lqNext 0 = some 0 ∧
      ((upFrom 0 7).all fun i =>
        (nextTurn (s 0x2001) 0 0).walkWord 4 ((s 0x2001).lqPart 0 0) ((s 0x2001).lqAddr 0 0 + 8 * i) == (ws 0x2001)[i]?) = true ∧
      (nextTurn (s 0x2001) 0 0).packetGood 0 0 (ws 0x2001 ++ [1]) = false := by decide +kernel
theorem wit_TasksPlacedAndDispatched :
    let w : List Word := [0x2000, 0x0500010000000001, 1, 2, 3, 4, 5, 0]
    let s : State := { State.reset with hub := lq0 0, lqs := [(qKey 0 0, { LqPos.reset with placing := some (w, 1) })] }
    let x : QTask := ⟨0x2000, 5, false, 9, [(9, 1)], [], 3, false⟩
    let q := here (fun c => { c with taskQ := [x, { x with prio := 4 }] }) id id
    let y : QTask := { x with kernel := true }
    let k := here (fun c => { c with taskQ := [y] }) id id
    let l : LiveWord := ⟨1, .cp, 1, 0, 0, false, false, 1, true, 0, 0, 0, 0x2000, 1, 0, false, 0, 0, none⟩
    let j : Job :=
      { id := 2, ctx := 0, task := 0, lw := l, op := .wswr, ch := 1, card := 0, c := [], code := 0, scode := 0, order := 0
        kernel := false, issue := 0, stage := 4, gated := false, gate := 0, inp := [], inp2 := [], pieces := [], buf := []
        lo := 0, snt := [], land := [], acts := 0, sum := 0, poison := false }
    let b := here (fun c => { c with taskQ := [y], jobs := [j] }) id id
    (s.lqPos 0 0).placing = some (w, 1) ∧ bit (s.hubGet (offLqstat 0 0)).toNat 5 = false ∧
      (s.launchCores 0 (wfld (w.getD 1 0) 40 8) (s.lqPart 0 0))[1 %
        (s.launchCores 0 (wfld (w.getD 1 0) 40 8) (s.lqPart 0 0)).length]? = some 1 ∧ (s.core 1).taskRoom = true ∧
      s.wokenOf 1 = [] ∧ q.inService 0 = true ∧ (q.ctx 0 1).live = false ∧ (∀ j, j < 1 → (q.ctx 0 j).live = true) ∧
      (q.core 0).taskQ = x :: [{ x with prio := 4 }] ∧
      (∀ y ∈ [{ x with prio := 4 }], y.prio ≤ x.prio) ∧ (∀ y ∈ x :: [{ x with prio := 4 }], y.waited < 65535) ∧
      k.inService 0 = true ∧ (k.core 0).taskQ = y :: [] ∧ k.weightsComing 0 = false ∧ b.inService 0 = true ∧
      (b.core 0).taskQ = y :: [] ∧ b.weightsComing 0 = true := by
  decide +kernel
/-- A record of context 0 of core 0. -/
def recOf (cause : BitVec 8) : Record :=
  ⟨cause, 5, 0, 0, 0, 7, 0, 0, 0, 0, 0x2000, 0, [], 0, 0, 0, 0, 0⟩
theorem wit_FaultRecordPosted :
    let s : State := { here id id (fun u => { u with trapped := some ⟨recOf 0x24, none⟩ }) with
      hub := hub0 ++ [(offFqcfg 0, (0x8040000000000000 : Word))], mem := root, held := [recOf 0x24] }
    let f : State := { s with hub := hub0 ++ [(offFqcfg 0, (0x8040000000000000 : Word)), (offFqstat 0, 0x1000000000)] }
    let d : State := { s with hub := hub0 }
    s.heldOf 0 = recOf 0x24 :: [] ∧ bit (s.hubGet (offFqcfg 0)).toNat 63 = true ∧ s.fqFull 0 = false ∧
      s.rangeHeld 4 0 (ringSlot (s.hubGet (offFqcfg 0)) (s.fqSize 0) (s.fqTail 0)) 64 = false ∧
      (recOf 0x24).eng ≠ 6 ∧ (s.ctx (recOf 0x24).core (recOf 0x24).ctx).trapped = some ⟨recOf 0x24, none⟩ ∧
      f.heldOf 0 = recOf 0x24 :: [] ∧ f.fqFull 0 = true ∧ d.heldOf 0 = recOf 0x24 :: [] ∧
      bit (d.hubGet (offFqcfg 0)).toNat 63 = false := by decide
theorem wit_RuntimeActions :
    let s (c : BitVec 8) : State := { owns id (fun u => { u with trapped := some ⟨recOf c, some 1⟩ }) with hub := hub0 }
    (s 0x24).actedOn 0 0 0 2 = none ∧ (s 0x24).actedOn 0 0 0 1 = some (recOf 0x24) ∧
      (s 0x27).actedOn 0 0 0 1 = some (recOf 0x27) ∧ (s 0x20).actedOn 0 0 0 1 = some (recOf 0x20) ∧
      0x20 ≤ (recOf 0x20).cause.toNat ∧ (recOf 0x20).core = 0 ∧ (recOf 0x20).ctx = 0 ∧
      ((s 0x20).core 0).kept.find? (fun y => y.ctx == 0) = none ∧ ((s 0x20).ctx 0 0).live = true ∧
      ((s 0x20).core 0).owner = some 0 ∧ (s 0x01).actedOn 0 0 0 1 = some (recOf 0x01) ∧ 0x01 ≤ (recOf 0x01).cause.toNat ∧
      (s 0x0A).actedOn 0 0 0 1 = some (recOf 0x0A) ∧ (recOf 0x0A).cause.toNat ≤ 0x0A ∧ { recOf 0x01 with eng := 4 }.eng < 5 := by decide
theorem wit_HubRegisters :
    let s := State.reset
    let x : State := { s with hub := [(offPassign 1, (1 : Word))] }
    vfReg 0 0x8 ≠ none ∧ vfReg 0 0xFF8 = none ∧ hubReg 0xF0 = none ∧
      s.passignGood 0 (1 &&& 0xFFFFF000FFFFFFFF) = true ∧ x.passignGood 0 (1 &&& 0xFFFFF000FFFFFFFF) = false ∧ bit (s.hubGet (offLqcfg 3 15)).toNat 63 = false ∧
      (0x8000000000000000 : Word).getLsbD 63 = true ∧ s.lqPart 3 15 ≠ 7 ∧ s.lqPart 3 15 = 0 ∧
      bit (s.hubGet (offFqcfg 7)).toNat 63 = false ∧ wfld (s.hubGet (offRtbind 7)) 60 3 = 0 ∧
      wfld (s.hubGet (offRtbind 7)) 60 3 ≠ 1 ∧ bit (s.hubGet (offWsqcfg 3 15)).toNat 63 = false := by decide
theorem wit_LinkControl :
    let s := State.reset
    let t : State := { s with links := [(7, { Link.reset with train := some 5, again := [(0, 0, 1)] })] }
    let e : State := { s with links := [(7, { Link.reset with train := some 0 })] }
    wfld (0x4000000000040000 : Word) 16 4 ≤ 4 ∧ (1, 3, 63) ∉ (s.link 7).ret ∧ (1, 3, 63) ∉ (s.link 7).again ∧
      (s.link 7).train = none ∧ (t.link 7).train = some 5 ∧ t.ftick < 5 ∧ (e.link 7).train = some 0 ∧ 0 ≤ e.ftick ∧
      (e.link 7).again = [] ∧ bit ({ s with hub := [(offLkctl 7, (2 : Word))] }.hubGet (offLkctl 7)).toNat 2 = false ∧
      s.ftick % 65536 = 0 := by decide
/-- Send queue 0 of die 0 enabled for partition 0 at DVA 0, one descriptor behind HEAD. -/
def sq0 : Tbl Word := hub0 ++ [(offWsqcfg 0 0, 0x8400000000000000), (offWsqkick 0 0, 1)]
theorem wit_FabricHostAndEthernet_queue :
    let s : State := { State.reset with hub := sq0, mem := words 0x38 [7] ++ root }
    let r : State := { s with sqs := [(qKey 0 0, { LqPos.reset with nextRead := some 0, rereads := 7 })] }
    let a : State := { s with sqs := [(qKey 0 0, { LqPos.reset with sent := some [1] })] }
    State.reset.sqServed 0 0 = false ∧ s.sqServed 0 0 = true ∧
      s.walkWord 0 (s.sqPart 0 0) (s.sqAddr 0 0 + 56) = some 7 ∧ wfld 7 32 32 ≠ (s.sqHead 0 0 + 1) % 2 ^ 32 ∧
      (r.sqPos 0 0).nextRead = some 0 ∧ r.walkWord 0 (r.sqPart 0 0) (r.sqAddr 0 0 + 56) = some 7 ∧
      (s.sqPos 0 0).sent = none ∧ (a.sqPos 0 0).sent = some [1] := by decide
/-- A send queue whose descriptor at HEAD names 2 bytes at DVA 0x100, good with an operation of 0. -/
def sending (op : Word) (ports : Tbl Word) : State :=
  { State.reset with hub := sq0 ++ ports, mem := words 0 [0x100, 0x200, op, 0, 0, 0, 0, 0x100000000] ++ [(0x100, 1), (0x101, 2)] ++ root }
/-- A link retrains on the way of walks: from the hub and from die 1 to a table of die 0, and from die 0 to one of die 1. -/
theorem wit_Held :
    let s : State := { State.reset with hub := sq0, mem := root, links := (upFrom 0 8).map fun l => (l, { Link.reset with train := some 9 }) }
    let r : State := { s with hub := [(offPtroot 0, 0x2400000001), (offPassign 0, 1)] }
    s.rangeHeld 4 0 0x100 64 = true ∧ s.sqHeld 1 0 = true ∧ r.rangeHeld 0 (r.partOf 0) 0x1000 16 = true ∧
      r.walkHeld 0 (r.partOf 0) 0x1000 = true ∧ State.reset.sqHeld 0 0 = false := by decide +kernel
theorem wit_FabricHostAndEthernet_descriptor :
    let s := sending 1 []
    let b := sending 0x2000000000000000 []
    let ws (op : Word) : List Word := [0x100, 0x200, op, 0, 0, 0, 0]
    s.sqServed 0 0 = true ∧ s.walkWord 0 (s.sqPart 0 0) (s.sqAddr 0 0 + 56) = some 0x100000000 ∧
      wfld 0x100000000 32 32 = (s.sqHead 0 0 + 1) % 2 ^ 32 ∧
      ((upFrom 0 7).all fun i => s.draw.2.walkWord 0 (s.sqPart 0 0) (s.sqAddr 0 0 + 8 * i) == (ws 1)[i]?) = true ∧
      descGood (ws 1 ++ [0x100000000]) = true ∧
      s.draw.2.walkDpas 0 (s.sqPart 0 0) leafReads 0x100 2 = some [0x100, 0x101] ∧
      s.portTo 0 (s.sqPeer 0 0) = false ∧ s.links = [] ∧ (∀ a ∈ [0x100, 0x101], (s.outByte a).2 = false) ∧
      b.sqServed 0 0 = true ∧
      ((upFrom 0 7).all fun i => b.draw.2.walkWord 0 (b.sqPart 0 0) (b.sqAddr 0 0 + 8 * i) ==
        (ws 0x2000000000000000)[i]?) = true ∧
      descGood (ws 0x2000000000000000 ++ [0x100000000]) = false := by
  refine ⟨by decide, by decide, by decide, by decide +kernel, by decide, by decide +kernel, ?_, rfl,
    by decide, by decide, by decide +kernel, by decide⟩
  have h : (upFrom 0 4).all (fun e => (upFrom 0 12).all fun p =>
      !bit ((sending 1 []).hubGet (offWslport e p)).toNat 63) = true := by decide +kernel
  simp only [List.all_eq_true, Bool.not_eq_true'] at h
  refine List.any_eq_false.2 fun e he hc => ?_
  obtain ⟨p, hp, hb⟩ := List.any_eq_true.1 (Bool.and_eq_true_iff.1 hc).2
  exact Bool.false_ne_true ((h e he p hp).symm.trans (Bool.and_eq_true_iff.1 hb).1)
/-- A port whose peer is the one that the queue's list names. -/
theorem wit_FabricHostAndEthernet_port :
    let w : Word := 0x8000000000000000 ||| (Config.peerList 0).setWidth 64
    let s := sending 1 [(offWslport 0 0, w)]
    s.sqServed 0 0 = true ∧ s.portTo 0 (s.sqPeer 0 0) = true := by
  refine ⟨by decide, ?_⟩
  have h : ∀ x : BitVec 12, bit (0x8000000000000000 ||| x.setWidth 64 : Word).toNat 63 = true ∧
      (0x8000000000000000 ||| x.setWidth 64 : Word).setWidth 12 = x := by decide +kernel
  have hp : (sending 1 [(offWslport 0 0, 0x8000000000000000 ||| (Config.peerList 0).setWidth 64)]).sqPeer 0 0 =
    Config.peerList 0 := rfl
  rw [hp, State.portTo, List.any_eq_true]
  refine ⟨0, by decide, ?_⟩
  rw [Bool.and_eq_true, List.any_eq_true]
  refine ⟨rfl, 0, by decide, ?_⟩
  have hw : (sending 1 [(offWslport 0 0, 0x8000000000000000 ||| (Config.peerList 0).setWidth 64)]).hubGet (offWslport 0 0) =
    0x8000000000000000 ||| (Config.peerList 0).setWidth 64 := rfl
  simp only [hw, (h (Config.peerList 0)).1, (h (Config.peerList 0)).2, Bool.true_and, beq_self_eq_true]
theorem wit_FabricHostAndEthernet_pages :
    let op (p : Nat) : WslOp := ⟨0, p, false, false, 0, 0, 0, 0x100, [1, 2]⟩
    let s : State := { State.reset with hub := hub0, mem := words 0x100 [0] ++ root }
    8 ≤ (op 9).part ∧ (op 0).part < 8 ∧ (op 0).scratch = false ∧ (op 0).atomic = false ∧ (op 0).die < 4 ∧
      State.reset.rangeHeld 0 0 0x100 2 = false ∧ State.reset.rangeHeld 4 0 0x100 2 = false ∧
      State.reset.walkDpas 0 0 (wslLeaf false) 0x100 2 = none ∧ s.memOk ∧ s.links = [] ∧
      s.walkDpas 0 0 (wslLeaf false) 0x100 2 = some [0x100, 0x101] ∧ [0x100, 0x101].Nodup ∧
      State.reset.walkDpas 4 0 hostWrites 0x100 2 = none ∧ s.walkDpas 4 0 hostWrites 0x100 2 = some [0x100, 0x101] ∧
      State.reset.walkDpas 4 0 hostReads 0x100 2 = none ∧ s.walkDpas 4 0 hostReads 0x100 2 = some [0x100, 0x101] ∧
      (∀ a ∈ [0x100, 0x101], (s.outByte a).2 = false) ∧ s.unseen = [] ∧ tblFind s.mem 0x100 = some 0 := by
  unfold State.memOk; decide
theorem wit_FabricHostAndEthernet_ports :
    let s : State := { State.reset with eth := [(1, [3, 4])] }
    (EthOp.assign [3, 4]).wf 1 [] = true ∧ (EthOp.frame 4 1 true).wf 1 [0xFF] = true ∧ (tblGet [] s.eth 1)[1]? = some 4 ∧
      (tblGet [] s.eth 1)[0]? ≠ some 4 := by decide
theorem wit_ResetsAndBoot :
    let s := State.reset
    let v : State := { s with svc := { s.svc with verified := true } }
    let t : State := { s with svc := { s.svc with verified := true, tested := true } }
    let b : State := { s with svc := { s.svc with verified := true, tested := true, booted := true } }
    let x : State := { s with svc := { s.svc with stopped := true } }
    s.power = true ∧ x.svc.stopped = true ∧ s.svc.stopped = false ∧ s.svc.verified = false ∧ v.svc.verified = true ∧
      v.svc.tested = false ∧ v.svc.stopped = false ∧ t.svc.stopped = false ∧ t.svc.verified = true ∧ t.svc.tested = true ∧
      t.svc.booted = false ∧ b.svc.stopped = false ∧ b.svc.verified = true ∧ b.svc.tested = true ∧ b.svc.booted = true := by
  decide
theorem wit_ThermalAgeingLifetime :
    let s := State.reset
    let d (n : Nat) : State := { s with svc := { s.svc with downAt := some n } }
    let l : State := { s with wslReplays := [(47, 5)] }
    wfld (s.hubGet (offThcfg 3)) 16 8 ≤ (0x73 : BitVec 8).toNat ∧ s.svc.downAt = none ∧
      wfld (s.hubGet (offThcfg 3)) 8 8 ≤ (0x69 : BitVec 8).toNat ∧
      (0x69 : BitVec 8).toNat < wfld (s.hubGet (offThcfg 3)) 16 8 ∧
      (0x59 : BitVec 8).toNat + 5 < wfld (s.hubGet (offThcfg 3)) 0 8 ∧
      wfld (s.hubGet (offThcfg 3)) 0 8 ≤ wfld (s.hubGet (offThcfg 3)) 8 8 ∧
      wfld (s.hubGet (offThcfg 3)) 8 8 ≤ wfld (s.hubGet (offThcfg 3)) 16 8 ∧ (d 0).svc.downAt = some 0 ∧
      0 ≤ (d 0).ftick ∧ (d 9).svc.downAt = some 9 ∧ (d 9).ftick < 9 ∧
      (l.lifeSources.filter fun e => e.1 == lifeKey 3 2 47) = [(lifeKey 3 2 47, 5)] ∧
      (l.lifeSources.filter fun e => e.1 == lifeKey 7 0 0) = [] := by decide +kernel
theorem wit_RetirementAndErrors :
    let s := State.reset
    let u : State := { s with clusters := [(31, { Cluster.reset with spareUsed := true })]
                              svc := { s.svc with unitSpares := [(11, 4)] } }
    (s.cluster (clusterOf 511)).inService = true ∧ (s.cluster (clusterOf 511)).spareUsed = false ∧
      (u.cluster (clusterOf 511)).inService = true ∧ (u.cluster (clusterOf 511)).spareUsed = true ∧
      s.spareUnits 11 < 4 ∧ 4 ≤ u.spareUnits 11 ∧ ((here id id id).ctx 0 0).live = true := by decide
theorem wit_BoostAndRefresh :
    let t : State := { State.reset with ftick := 8001 }
    State.reset.ftick % 8000 = 0 ∧ t.ftick % 8000 ≠ 0 ∧
      1600 ≤ (State.reset.ftick + 102400 - 3200 * 31) % 102400 ∧
      ¬ 1600 ≤ (State.reset.ftick + 102400 - 3200 * 0) % 102400 := by decide
/-- A frame without tokens that issues once. -/
def fr : Frame := ⟨false, false, false, false, 0, 0⟩
/-- The cursor of a stream unit that has fetched the word of an instruction. -/
def curs (e : Engine) (i : Instr) (n : Nat) : Cursor := cursorOf (((encodeWord e i).map (·.2)).getD 0) 2 n
/-- Engine `e` stands at an instruction before its issue `n`. -/
def atWord (e : Engine) (i : Instr) (n : Nat) (g : CoreSt → CoreSt) (o : Own → Own) : State := stands e (curs e i n) g o
/-- `State.issues` as a test. -/
def canIssue (s : State) (e : Engine) (i : Instr) (n : Nat) : Bool :=
  (s.at_ == .engine 0 e) && (((s.own 0).queue (engNo e)).run == some (curs e i n)) && ((curs e i n).instr e == some i) &&
    (s.core 0).mayIssue e (curs e i n) i && ((curs e i n).pops (engNo e)).all fun q => (s.own 0).token q != 0
theorem issues_of_canIssue {s : State} {e : Engine} {i : Instr} {n : Nat} (h : canIssue s e i n = true) :
    s.issues 0 e (curs e i n) (((encodeWord e i).map (·.2)).getD 0) i := by
  simp only [canIssue, Bool.and_eq_true, beq_iff_eq, List.all_eq_true, bne_iff_ne] at h
  exact ⟨h.1.1.1.1, h.1.1.1.2, rfl, h.1.1.2, h.1.2, h.2⟩

/-- VX words: one with a pop, a do word, an undo word, a check and a drop. -/
def wAdd : Instr := .vxAdd { fr with pl := true, k := 1, rep := 3 } ⟨2, true, 1, 15, 3, 0, 4, 0, 0⟩
def wRsra : Instr := .vxRsra fr ⟨0, false, 1, 1, 0, 0, 4, 0, 0⟩
def wUsra : Instr := .vxUsra fr ⟨0, false, 1, 1, 0, 0, 4, 0, 0⟩
def wRchk : Instr := .vxRchk fr ⟨0, false, 3, 0, 0, 0, 0, 0, 0⟩
def wRdrop : Instr := .vxRdrop fr ⟨0, false, 3, 0, 0, 0, 0, 0, 0⟩
def entRsra : RemEnt := ⟨7, entTag 1 1 1 4, 0, false, 3, 0, [], false⟩
/-- A remainder stack of `n` entries, all on core. -/
def stackOf (cap n : Nat) (e : RemEnt) : Stack := { Stack.reset with cap := cap, depth := n, ents := (upFrom 0 n).map fun i => (i, e) }
theorem wit_VxWordsIssue :
    let s := atWord .vx wAdd 2 id (fun u => { u with tokens := (upFrom 0 40).map fun i => (i, 1) })
    let d := atWord .vx wRsra 0 id id
    let v := atWord .vx wUsra 0 id (fun u => { u with stack := stackOf 4 1 entRsra })
    canIssue s .vx wAdd 2 = true ∧ (s.own 0).stack.waits .add = false ∧
      (match (s.own 0).stack.marks3 .add ⟨2, true, 1, 15, 3, 0, 4, 0, 0⟩ [] with
        | .ok st => (match st.act .add ⟨2, true, 1, 15, 3, 0, 4, 0, 0⟩ 0 1 with | .ok _ => true | .error _ => false)
        | .error _ => false) = true ∧
      canIssue d .vx wRsra 0 = true ∧ (d.own 0).stack.waits .rsra = false ∧
      (match (d.own 0).stack.marks3 .rsra ⟨0, false, 1, 1, 0, 0, 4, 0, 0⟩ [] with
        | .ok st => (match st.act .rsra ⟨0, false, 1, 1, 0, 0, 4, 0, 0⟩ 0 2 with | .ok x => x.2.isNone | .error _ => false)
        | .error _ => false) = true ∧
      canIssue v .vx wUsra 0 = true ∧ (v.own 0).stack.waits .usra = false ∧
      (match (v.own 0).stack.marks3 .usra ⟨0, false, 1, 1, 0, 0, 4, 0, 0⟩ [] with
        | .ok st => (match st.act .usra ⟨0, false, 1, 1, 0, 0, 4, 0, 0⟩ 0 2 with | .ok x => x.2.isSome | .error _ => false)
        | .error _ => false) = true := by decide +kernel
theorem wit_RemainderStack_checks :
    let full := atWord .vx wRsra 0 id (fun u => { u with stack := { stackOf 64 48 entRsra with depth := 64 } })
    let empty := atWord .vx wUsra 0 id id
    let other := atWord .vx wUsra 0 id (fun u => { u with stack := stackOf 4 1 { entRsra with tag := 0 } })
    let bad := atWord .vx wUsra 0 id (fun u => { u with stack := stackOf 4 1 { entRsra with abn := true } })
    let chk := atWord .vx wRchk 0 id (fun u => { u with stack := stackOf 4 1 entRsra })
    let drop := atWord .vx wRdrop 0 id (fun u => { u with stack := { Stack.reset with marks := [(3, 5)] } })
    canIssue full .vx wRsra 0 = true ∧ (full.own 0).stack.waits .rsra = false ∧ vxDo .rsra = some 1 ∧
      (full.own 0).stack.depth = max (full.own 0).stack.cap 48 ∧ (∀ w ∈ (full.own 0).live, w.id < (full.core 0).nextJob) ∧
      canIssue empty .vx wUsra 0 = true ∧ (empty.own 0).stack.waits .usra = false ∧ vxUndo .usra = some 1 ∧
      (empty.own 0).stack.depth = 0 ∧ canIssue other .vx wUsra 0 = true ∧ (other.own 0).stack.waits .usra = false ∧
      (other.own 0).stack.top = some { entRsra with tag := 0 } ∧ 0 ≠ entTag 1 1 1 4 ∧
      canIssue bad .vx wUsra 0 = true ∧ (bad.own 0).stack.waits .usra = false ∧
      (bad.own 0).stack.top = some { entRsra with abn := true } ∧ (esAt [] 0).toNat % 2 ^ 16 = 0 ∧ canIssue chk .vx wRchk 0 = true ∧
      ((chk.own 0).stack.depth + 2 ^ 16 - ((chk.own 0).stack.mark 3).toNat) % 2 ^ 16 ≠ (esAt [] 0).toNat % 2 ^ 16 ∧
      canIssue drop .vx wRdrop 0 = true ∧ (drop.own 0).stack.depth < ((drop.own 0).stack.mark 3).toNat := by decide +kernel
/-- A part of a move whose port and banks are free, and what the move is after the part that the step chooses. -/
theorem wit_RemainderStack_moves :
    let w := atWord .vx wUsra 0 id (fun u => { u with stack := { Stack.reset with cap := 4, depth := 1 } })
    let sp := here (fun c => { c with owner := some 0 }) (fun u => { u with stack := stackOf 49 49 entRsra }) id
    let rf := here (fun c => { c with owner := some 0, sp := [(Stack.reset.dataAt 0, 7)] }) (fun u => { u with
      stack := { Stack.reset with cap := 4, depth := 1 } }) id
    let m : SpillMove := ⟨true, 0, false, false, false, entRsra⟩
    let n : SpillMove := ⟨false, 0, false, false, false, rf.regionEntry 0 0⟩
    let on := here (fun c => { c with owner := some 0, move := some { m with port := true, info := true } })
      (fun u => { u with stack := stackOf 49 49 entRsra }) id
    (w.own 0).stack.waits .usra = true ∧ (w.core 0).move = none ∧ (w.own 0).stack.on ≤ 48 ∧ (sp.core 0).move = none ∧
      (sp.core 0).owner.isSome = true ∧ (sp.own 0).stack.beyond m.pos = none ∧
      (sp.own 0).stack.ents.head? = some (m.pos, m.ent) ∧ 48 < (sp.own 0).stack.on ∧ m.ent.writer = 0 ∧
      (sp.core 0).cyc.port = false ∧ (sp.core 0).banksFree ((sp.own 0).stack.dataAt 0) 128 = true ∧
      (sp.core 0).banksFree ((sp.own 0).stack.metaAt 0) 8 = true ∧ (sp.own 0).stack.metaAt 0 + 8 ≤ 0x7FFC0 ∧
      tblWfD (0 : Byte) (sp.core 0).sp = true ∧ tblFind (sp.own 0).stack.ents 0 = some entRsra ∧ (sp.core 0).swap = none ∧
      entRsra.id = m.ent.id ∧ entRsra.id ≠ { m.ent with id := 4 }.id ∧
      (on.core 0).move = some { m with port := true, info := true } ∧ (rf.core 0).move = none ∧
      (rf.core 0).owner.isSome = true ∧ (rf.own 0).stack.beyond n.pos = none ∧ (rf.own 0).stack.on < 16 ∧
      (rf.own 0).stack.on < (rf.own 0).stack.depth ∧ (rf.own 0).stack.hold = false ∧
      n.pos = (rf.own 0).stack.depth - (rf.own 0).stack.on - 1 ∧ n.ent = rf.regionEntry 0 n.pos ∧
      (rf.core 0).cyc.port = false ∧ (rf.core 0).banksFree ((rf.own 0).stack.dataAt 0) 128 = true ∧
      (rf.core 0).banksFree ((rf.own 0).stack.metaAt 0) 8 = true ∧ (rf.core 0).spBad = [] ∧
      (rf.core 0).spBytes ((rf.own 0).stack.dataAt 0) 128 = bytesLe 128 (7 : BitVec 1024).toNat ∧
      (rf.core 0).spBytes ((rf.own 0).stack.metaAt 0) 8 =
        bytesLe 8 (⟨7, 0, 0, false, 0, 0, [], false⟩ : RemEnt).metaWord := by decide +kernel
/-- Whichever part is chosen, there is a move after it that the three clauses name. -/
theorem wit_RemainderStack_parts (p : Nat) (a b d : SpillMove) :
    ∃ m', (p = 0 → m' = a) ∧ (p = 1 → m' = b) ∧ (p = 2 → m' = d) :=
  ⟨if p = 0 then a else if p = 1 then b else d, by simp +contextual, by simp +contextual, by simp +contextual⟩
/-- A flight of an instruction that reads as said, at cycles as said. -/
def flightOf (e : Engine) (i : Instr) (reads : List SlotRead) (x w : Nat) : Flight :=
  { id := 1, live := 1, eng := e, instr := i, issue := 0, t := 0, es := [], mode := 0, ctx := 0, gen := 0, g := 3, g2 := 0
    g3 := 0, d := 1, c := 0, reads := reads, addr := 0, acc := none, data := [], done := 0, x := x, w := w, w2 := 0
    quiet := false, arrived := false, gate := 0, rem := none, res := none, res2 := none }
/-- A word that has issued. -/
def liveOf (id : Nat) (hr : Bool) (issued : Bool) : LiveWord :=
  ⟨id, .vx, 1, 0, 0, false, hr, 1, issued, 0, 0, 0, 0x2000, 1, 0, false, 0, 128, none⟩
/-- Core 0, owned by context 0, with flights, transfers or a job. -/
def flying (f : List Flight) (o : Own → Own) : State := owns (fun u => o { u with flights := f }) id
/-- The operands of a VX issue: words of INT32 or INT16 lanes and a guard of every lane. -/
def vxInOf (fmt : BitVec 4) : VxIn :=
  { p := ⟨0, false, 1, 2, 3, 4, fmt, 0, 0⟩, es := [], mode := 0, g := BitVec.allOnes 64, ga := 0, gb := 0
    a := ⟨7, fmt, []⟩, b := ⟨5, fmt, []⟩, c := Slot.zero, ent := 0, entBad := false }

theorem wit_VxReadsAndResults_reads :
    let i : Instr := .vxAdd fr ⟨0, false, 1, 2, 3, 0, 4, 0, 0⟩
    let rd : SlotRead := ⟨0, 2, 0, none⟩
    let s (m : BitVec 4) := flying [{ flightOf .vx i [rd, ⟨1, 3, 9, none⟩] 12 13 with mode := m }]
      (fun u => { u with ring := [(2, ⟨1, 5, []⟩)] })
    ((s 0).own 0).flight 1 = some { flightOf .vx i [rd, ⟨1, 3, 9, none⟩] 12 13 with mode := 0 } ∧
      ([rd, ⟨1, 3, 9, none⟩].map (·.role)).Nodup ∧
      (∀ y ∈ [rd, ⟨1, 3, 9, none⟩], y.role < 3 ∧ y.got = none) ∧
      (0, 4) ∈ vxSources .add ⟨0, false, 1, 2, 3, 0, 4, 0, 0⟩ ∧ (1, 4) ∈ vxSources .add ⟨0, false, 1, 2, 3, 0, 4, 0, 0⟩ ∧
      rd.due = ((s 0).own 0).sigma ∧ tagPass 4 (((s 0).own 0).slot 2).tag = false ∧ modeCount 0 = false ∧
      modeCount 8 = true ∧ ((s 8).ctx 0 0).live = true ∧ ((s 0).core 0).owner.isSome = true := by decide +kernel
theorem wit_VxReadsAndResults_results :
    let i : Instr := .vxAdd fr ⟨0, false, 1, 2, 3, 0, 4, 0, 0⟩
    let j : Instr := .vxCeq fr ⟨0, false, 1, 2, 3, 0, 4, 0, 0⟩
    let k : Instr := .vxSret fr ⟨0, false, 0, 2, 0, 0, 4, 0, 0⟩
    let got : List SlotRead := [⟨0, 2, 0, some ⟨7, 4, []⟩⟩, ⟨1, 3, 0, some ⟨7, 4, []⟩⟩]
    let s := flying [flightOf .vx i got 0 0] id
    let fl := flightOf .vx i got 0 0
    let g := flightOf .vx j got 0 0
    let t := flightOf .vx k [⟨0, 2, 0, some ⟨7, 4, []⟩⟩] 0 0
    (s.own 0).flight 1 = some fl ∧ fl.x = (s.own 0).sigma ∧ fl.arrived = false ∧ fl.quiet = false ∧
      (vxEval .add (fl.vxIn ⟨0, false, 1, 2, 3, 0, 4, 0, 0⟩)).d.isSome = true ∧ fl.w = (s.own 0).sigma ∧
      (vxEval .add (fl.vxIn ⟨0, false, 1, 2, 3, 0, 4, 0, 0⟩)).c = none ∧
      (vxEval .add (fl.vxIn ⟨0, false, 1, 2, 3, 0, 4, 0, 0⟩)).guards = [] ∧
      (vxEval .add (fl.vxIn ⟨0, false, 1, 2, 3, 0, 4, 0, 0⟩)).push = none ∧ 0 ≠ fl.d ∧ fl.res = none ∧ fl.res2 = none ∧
      ((flying [g] id).own 0).flight 1 = some g ∧
      ((vxEval .ceq (g.vxIn ⟨0, false, 1, 2, 3, 0, 4, 0, 0⟩)).guards.filter fun x => x.1 == 1).length = 1 ∧
      (vxEval .ceq (g.vxIn ⟨0, false, 1, 2, 3, 0, 4, 0, 0⟩)).d = none ∧
      ((flying [g] id).core 0).cyc.gOld = [] ∧ ((flying [t] id).own 0).flight 1 = some t ∧
      (vxEval .sret (t.vxIn ⟨0, false, 0, 2, 0, 0, 4, 0, 0⟩)).push.isSome = true ∧
      ((flying [t] id).own 0).rq.length < 16 := by decide +kernel
theorem wit_VxReadsAndResults_mark :
    let i : Instr := .vxRmark fr ⟨0, false, 3, 0, 0, 0, 0, 0, 0⟩
    let fl := { flightOf .vx i [] 0 0 with addr := 5 }
    let s := flying [fl] id
    (s.own 0).flight 1 = some fl ∧ fl.instr = VxOp.toInstr .rmark fr ⟨0, false, 3, 0, 0, 0, 0, 0, 0⟩ ∧
      fl.x = (s.own 0).sigma ∧ fl.arrived = false ∧ fl.quiet = false ∧ (s.core 0).owner.isSome = true := by decide +kernel
theorem wit_VxFloatLanes_lanes :
    let c : VxIn := { vxInOf 1 with p := ⟨0, false, 1, 2, 1, 2, 1, 0, 0⟩ }
    isFp (vxInOf 1).p.fmt = true ∧ (vxInOf 1).a.bad = [] ∧ (vxInOf 1).b.bad = [] ∧ (vxInOf 1).c.bad = [] ∧
      (vxInOf 9).p.fmt = 9 ∧ isFp 9 = false ∧ c.p.c = 2 ∧ c.p.fmt = 1 ∧ cvtPart 1 2 c.p.b = true ∧ lanesOf 1 < lanesOf 2 ∧
      laneOn 1 (vxInOf 1).g 31 = true := by decide
/-- 1.0, 1.5 and −0 in FP32, and halves of CF16. -/
theorem wit_VxFloatLanes_values :
    fpVal 1 0x3F800000 = .fin false 0x800000 (-23) ∧ fpVal 1 0xBFC00000 = .fin true 0xC00000 (-23) ∧
      fpVal 1 0x80000000 = .fin true 0 (-149) ∧ fpVal 2 (0x3C004000 % 2 ^ 16) = .fin false 0x400 (-9) ∧
      fpVal 2 (0x3C004000 / 2 ^ 16) = .fin false 0x400 (-10) := by decide +kernel
theorem wit_VxFloatLanes_specials :
    (∃ s f w, fpVal 1 0x7F800001 = .nan s f w) ∧ isNan (fpVal 1 0x3F800000) = false ∧ fpVal 1 0x7F800000 = .inf false ∧
      fpVal 1 0xFF800000 = .inf (!false) ∧ fpVal 1 0x80000000 = .fin true 0 (-149) ∧
      1 ≤ (8 : Fmt).toNat ∧ 63 < 2 ^ packBits 8 := by
  refine ⟨⟨false, 1, 23, by decide +kernel⟩, ?_⟩
  decide +kernel
theorem wit_VxReductions :
    let i : VxIn := { vxInOf 4 with mode := 4 }
    modeWrap i.mode = true ∧ i.p.fmt = 4 ∧ i.a.bad = [] ∧ i.b.bad = [] ∧ laneOn 4 i.g 0 = true ∧
      isFp (vxInOf 2).p.fmt = true ∧ laneOn 2 (vxInOf 2).g 0 = true := by decide
theorem wit_VxIntegerLanes :
    ((vxInOf 4).p.fmt = 4 ∧ (vxInOf 5).p.fmt = 5) ∧ (vxInOf 4).a.bad = [] ∧ (vxInOf 5).b.bad = [] ∧ 63 < lanesOf 5 := by
  decide
theorem wit_UndoRestoresDo_narrow :
    let i : VxIn := { vxInOf 1 with p := ⟨0, false, 1, 2, 1, 2, 1, 0, 0⟩ }
    (narrows i.p.fmt i.p.c && cvtPart i.p.fmt i.p.c i.p.b) = true ∧ i.a.bad = [] ∧ i.entBad = false ∧
      63 = i.p.b.toNat * lanesOf i.p.fmt + 31 ∧ 31 < lanesOf i.p.fmt ∧ laneOn i.p.fmt i.g 31 = true := by decide
theorem wit_UndoRestoresDo :
    (vxInOf 5).p.fmt = 5 ∧ (vxInOf 5).a.bad = [] ∧ (vxInOf 5).b.bad = [] ∧ (vxInOf 5).entBad = false ∧
      63 < lanesOf (vxInOf 5).p.fmt ∧ laneOn (vxInOf 5).p.fmt (vxInOf 5).g 63 = true := by decide
/-- Words of LD and ST at es0, whose base is 0. -/
def lsF (slot : BitVec 4) (fmt : BitVec 4) (off : BitVec 12) : LsFields := ⟨0, false, slot, 0, fmt, false, off⟩
/-- `State.issues` and the address of an issue. -/
def issuesAt (s : State) (e : Engine) (i : Instr) (p : LsFields) (scaled : Bool) (size a : Nat) : Bool :=
  canIssue s e i 0 && (lsAddr [] p scaled 0 size == a)
theorem wit_LdWordsIssue_ring :
    let v : Instr := .ldV fr (lsF 3 1 4095)
    let b : Instr := .ldVb fr (lsF 3 1 1)
    let d : Instr := .ldVd fr (lsF 3 1 32)
    let n : Instr := .ldV { fr with rep := 1 } ⟨0, true, 3, 0, 1, false, 0⟩
    let l (i : Instr) := atWord .ld i 0 (fun c => { c with tt := [pageNone] }) id
    issuesAt (l v) .ld v (lsF 3 1 4095) true (ldStepSize .v 1) 0x7FF80 = true ∧
      guardN ((l v).own 0) 0 false = BitVec.allOnes 64 ∧ ldSpan .v 1 = 128 ∧ 0x7FF80 % ldAlign .v 1 = 0 ∧
      0x7FF80 + 128 ≤ 0x80000 ∧ issuesAt (l d) .ld d (lsF 3 1 32) true (ldStepSize .vd 1) 0x1000 = true ∧
      0x1000 % ldAlign .vd 1 = 0 ∧ ((l d).core 0).check false 0x1000 128 = none ∧ canIssue (l n) .ld n 0 = true ∧
      guardN ((l n).own 0) 0 true = 0 ∧ issuesAt (l b) .ld b (lsF 3 1 1) true (ldStepSize .vb 1) 128 = true := by
  decide +kernel
/-- A cursor of an entry with a value in es0. -/
def cursE (e : Engine) (i : Instr) (v : Word) : Cursor :=
  { curs e i 0 with entry := { (curs e i 0).entry with es := [v] } }
/-- Engine `e` stands at an instruction of such an entry. -/
def atE (e : Engine) (i : Instr) (v : Word) (g : CoreSt → CoreSt) (o : Own → Own) : State := stands e (cursE e i v) g o
/-- `State.issues` for it. -/
def canIssueE (s : State) (e : Engine) (i : Instr) (v : Word) : Bool :=
  (s.at_ == .engine 0 e) && (((s.own 0).queue (engNo e)).run == some (cursE e i v)) && ((cursE e i v).instr e == some i) &&
    (s.core 0).mayIssue e (cursE e i v) i && ((cursE e i v).pops (engNo e)).all fun q => (s.own 0).token q != 0
theorem wit_LdWordsIssue_faults :
    let v : Instr := .ldV fr (lsF 3 1 0)
    let s (a : Word) := atE .ld v a id id
    canIssueE (s 4) .ld v 4 = true ∧ lsAddr [4] (lsF 3 1 0) true 0 (ldStepSize .v 1) = 4 ∧ 4 % ldAlign .v 1 ≠ 0 ∧
      (∀ w ∈ ((s 4).own 0).live, w.id < ((s 4).core 0).nextJob) ∧ canIssueE (s 0x80000) .ld v 0x80000 = true ∧
      lsAddr [0x80000] (lsF 3 1 0) true 0 (ldStepSize .v 1) = 0x80000 ∧ 0x80000 % ldAlign .v 1 = 0 ∧
      0x80000 < 0x80000 + 128 ∧ ((s 0x80000).ctx 0 0).live = true := by decide +kernel
theorem wit_LdWordsIssue_transfers :
    let g : Instr := .ldVg fr (lsF 3 1 0x100)
    let t : Instr := .ldT fr (lsF 7 1 0)
    let r : Instr := .ldTr fr (lsF 7 1 0)
    let d : Instr := .ldTd fr (lsF 7 1 32)
    let o : Own → Own := fun u => { u with tiles := [(7, { Tile.reset with rows := 3, width := 127 })] }
    let s (i : Instr) := atWord .ld i 0 (fun c => { c with tt := [pageNone] }) o
    canIssue (s g) .ld g 0 = true ∧ lsAddr [] (lsF 3 1 0x100) false 0 128 % elemBytes 1 = 0 ∧
      canIssue (s t) .ld t 0 = true ∧ (((s t).own 0).tile 7).size = 512 ∧ lsAddr [] (lsF 7 1 0) true 0 512 = 0 ∧
      0 + 512 ≤ 0x80000 ∧ canIssue (s r) .ld r 0 = true ∧ (((s r).own 0).tile 7).nWidth % elemBytes 1 = 0 ∧
      canIssue (s d) .ld d 0 = true ∧ lsAddr [] (lsF 7 1 32) true 0 512 = 0x1000 ∧ 0x1000 % 128 = 0 ∧
      ((s d).core 0).check false 0x1000 512 = none := by decide +kernel
theorem wit_LdWordsIssue_tileFaults :
    let g : Instr := .ldVg fr (lsF 3 1 0x100)
    let t : Instr := .ldT fr (lsF 7 1 0)
    let r : Instr := .ldTr fr (lsF 7 1 0)
    let s := atWord .ld r 0 id (fun u => { u with tiles := [(7, { Tile.reset with rows := 3, width := 126 })] })
    canIssueE (atE .ld t 64 id id) .ld t 64 = true ∧ lsAddr [64] (lsF 7 1 0) true 0 0 % 128 ≠ 0 ∧
      ((atE .ld t 64 id id).own 0).live = [] ∧ canIssue s .ld r 0 = true ∧
      ((s.own 0).tile 7).nWidth % elemBytes 1 ≠ 0 ∧ canIssueE (atE .ld g 2 id id) .ld g 2 = true ∧
      lsAddr [2] (lsF 3 1 0x100) false 0 128 % elemBytes 1 ≠ 0 ∧ guardN ((atE .ld g 2 id id).own 0) 0 false ≠ 0 := by
  decide +kernel
theorem wit_StWordsIssue_ring :
    let v : Instr := .stV fr (lsF 3 1 4094)
    let g : Instr := .stGd fr (lsF 3 0 0)
    let x : Instr := .stVs fr (lsF 3 1 0x100)
    let s (i : Instr) := atWord .st i 0 id id
    canIssue (s v) .st v 0 = true ∧ lsAddr [] (lsF 3 1 4094) true 0 128 = 0x7FF00 ∧ 0x7FF00 % stAlign .v 1 = 0 ∧
      0x7FF00 + 128 ≤ 0x80000 ∧ canIssue (s g) .st g 0 = true ∧ lsAddr [] (lsF 3 0 0) true 0 8 % stAlign .gd 0 = 0 ∧
      canIssue (s x) .st x 0 = true ∧ lsAddr [] (lsF 3 1 0x100) false 0 128 % elemBytes 1 = 0 ∧
      canIssueE (atE .st v 4 id id) .st v 4 = true ∧ lsAddr [4] (lsF 3 1 4094) true 0 128 % stAlign .v 1 ≠ 0 := by
  decide +kernel
theorem wit_StWordsIssue_transfers :
    let t : Instr := .stT fr (lsF 7 1 0)
    let r : Instr := .stRc fr (lsF 1 1 0)
    let s (i : Instr) (tag : BitVec 4) := atWord .st i 0 id (fun u => { u with
      tiles := [(7, { Tile.reset with rows := 3, width := 127, tag := tag })] })
    canIssue (s t 1) .st t 0 = true ∧ tagPass 1 (((s t 1).own 0).tile 7).tag = true ∧
      (((s t 1).own 0).tile 7).size = 512 ∧ lsAddr [] (lsF 7 1 0) true 0 512 = 0 ∧ canIssue (s t 5) .st t 0 = true ∧
      tagPass 1 (((s t 5).own 0).tile 7).tag = false ∧ modeCount (curs .st t 0).entry.mode = false ∧
      canIssue (s r 1) .st r 0 = true ∧ 0 + 128 * rowBytes 1 ≤ 0x80000 ∧ canIssueE (atE .st r 64 id id) .st r 64 = true ∧
      lsAddr [64] (lsF 1 1 0) true 0 0 % 128 ≠ 0 := by decide +kernel
theorem wit_StWordsIssue_scatterFault :
    let x : Instr := .stVs fr (lsF 3 1 0x100)
    canIssueE (atE .st x 2 id id) .st x 2 = true ∧ lsAddr [2] (lsF 3 1 0x100) false 0 128 % elemBytes 1 ≠ 0 ∧
      guardN ((atE .st x 2 id id).own 0) 0 false ≠ 0 := by decide +kernel
theorem wit_LdStAccesses_scratchpad :
    let i : Instr := .stV fr (lsF 3 1 0)
    let l : Instr := .ldV fr (lsF 3 1 0)
    let rd : SlotRead := ⟨3, 3, 0, none⟩
    let got : SlotRead := ⟨3, 3, 0, some ⟨7, 1, []⟩⟩
    let a := flying [flightOf .st i [rd] 0 0] (fun u => { u with ring := [(3, ⟨7, 1, []⟩)] })
    let b := flying [{ flightOf .st i [got] 0 0 with acc := some 0, addr := 0x7FF40 }] id
    let d := flying [{ flightOf .ld l [] 0 0 with data := List.replicate 128 (5, false) }] id
    (a.own 0).flight 1 = some (flightOf .st i [rd] 0 0) ∧ rd.due = (a.own 0).sigma ∧
      tagPass 1 ((a.own 0).slot 3).tag = true ∧
      (b.own 0).flight 1 = some { flightOf .st i [got] 0 0 with acc := some 0, addr := 0x7FF40 } ∧
      (b.own 0).sigma = 0 ∧ ((flightOf .st i [got] 0 0).got 3).bad = [] ∧ 0x7FF40 + 128 ≤ 0x7FFC0 ∧
      tblWfD (0 : Byte) (b.core 0).sp = true ∧ (d.own 0).flight 1 =
        some { flightOf .ld l [] 0 0 with data := List.replicate 128 (5, false) } ∧ (d.own 0).sigma = 0 := by
  decide +kernel
theorem wit_LdStAccesses_device :
    let i : Instr := .ldVd fr (lsF 3 1 32)
    let j : Instr := .stVd fr (lsF 3 1 32)
    let f : Flight := { flightOf .ld i [] 0 0 with addr := 0x1000 }
    let g : Flight := { flightOf .st j [] 0 0 with addr := 0x1000, data := List.replicate 128 (5, true) }
    let m : Tbl Byte := (upFrom 0x1000 128).map fun a => (a, 9)
    let s (x : Flight) : State :=
      { here (fun c => { c with owner := some 0, tt := [pageNone] }) (fun u => { u with flights := [x], sigma := 1 }) id with
        mem := m }
    let t : State := owns (fun u => { u with xfers := [⟨1, 1, .ld, .ldT fr (lsF 7 1 0), 0, 0, 0, 0, 7, 0, 4, 128, 1, 512,
      128, 0, 4, false, 0, false, [], none⟩] }) id
    ((s f).own 0).flight 1 = some f ∧ f.arrived = false ∧ ((s f).core 0).gateOpen f.gate = true ∧
      f.t < ((s f).own 0).sigma ∧ (s f).memOk ∧ (s f).memBad = [] ∧ (s f).links = [] ∧ (s f).missed = [] ∧
      (s f).reaches 0 (((s f).core 0).dpas f.addr 128) = true ∧
      (((s f).core 0).dpas f.addr 128).map (fun a => tblFind (s f).mem a) = (List.replicate 128 (9 : Byte)).map some ∧
      ((s g).own 0).flight 1 = some g ∧ g.data.length = 128 ∧ (((s g).core 0).dpas g.addr 128).length = 128 ∧
      (((s g).core 0).dpas g.addr 128).Nodup ∧ ((s g).core 0).postedBefore 1 g.addr 128 = false ∧ (s g).links = [] ∧
      (s g).reaches 0 (((s g).core 0).dpas g.addr 128) = true ∧
      ((t.own 0).xfers.map (·.id)).Nodup ∧ ((t.own 0).xfers.any fun x => decide (x.total ≤ x.done * x.rate)) = true := by
  unfold State.memOk; decide +kernel
/-- A tile of 4 rows of 64 bytes, with a tag. -/
def tileOf (tag : BitVec 4) : Tile := { Tile.reset with rows := 3, width := 63, tag := tag }
theorem wit_MxWordsIssue :
    let i : Instr := .mxMma fr ⟨1, 2, 0, false, 2, 0⟩
    let s (a b : BitVec 4) (w : BitVec 8) := atWord .mx i 0 id (fun u => { u with
      tiles := [(1, tileOf a), (2, { tileOf b with width := w })] })
    canIssue (s 2 2 63) .mx i 0 = true ∧ mxTagsOk .mma 2 (tileOf 2) (tileOf 2) Tile.reset = true ∧
      canIssue (s 5 2 63) .mx i 0 = true ∧
      mxTagsOk .mma 2 (((s 5 2 63).own 0).tile 1) (((s 5 2 63).own 0).tile 2) (((s 5 2 63).own 0).tile 0) = false ∧
      modeCount (curs .mx i 0).entry.mode = false ∧ modeCount 8 = true ∧ ((s 5 2 63).ctx 0 0).live = true ∧
      (∀ w ∈ ((s 2 2 9).own 0).live, w.id < ((s 2 2 9).core 0).nextJob) ∧ canIssue (s 2 2 9) .mx i 0 = true ∧
      (mxShape .mma 2 0 (((s 2 2 9).own 0).acc 0) (((s 2 2 9).own 0).acc 1) (((s 2 2 9).own 0).tile 1).shape
        (((s 2 2 9).own 0).tile 2).shape (((s 2 2 9).own 0).tile 0).shape).isSome = true := by decide +kernel
/-- An issue of MX in progress from cycle 0 on. -/
def runOf (i : Instr) (dur : Nat) : MxRun := ⟨i, 1, 0, 0, dur, 0, 0, 0, (4, 64), (4, 64), (4, 64), false, false⟩
theorem wit_MxIssueEnds :
    let z : Instr := .mxMzero fr ⟨0, 0, 0, true, 0, 0⟩
    let w : Instr := .mxMswp fr ⟨1, 0, 2, false, 0, 0⟩
    let f : Instr := .mxMfil fr ⟨0, 0, 2, false, 4, 0xA5⟩
    let r : Instr := .mxMret fr ⟨0, 0, 0, true, 0, 0⟩
    let s (i : Instr) (n : Nat) := owns (fun u => { u with mx := some (runOf i n), live := [liveOf 1 false true] }) id
    ((s z 1).own 0).mx = some (runOf z 1) ∧ (runOf z 1).start + (runOf z 1).dur ≤ ((s z 1).own 0).sigma + 1 ∧
      ((s z 1).own 0).tiles = [] ∧ ((s z 1).own 0).accs = [] ∧ Tile.reset.bad = [] ∧ Tile.reset.badScales = [] ∧
      Acc.reset.bad = [] ∧ Acc.reset.badParts = [] ∧ (((s z 1).own 0).liveWord 1).isSome = true ∧
      ((s w 1).own 0).mx = some (runOf w 1) ∧ ((s f 1).own 0).mx = some (runOf f 1) ∧
      tblWfD (0 : Byte) (((s f 1).own 0).tile 2).bytes = true ∧ ((s r 1).own 0).mx = some (runOf r 1) ∧
      (((s r 1).own 0).acc 1).blk = none ∧ ((s z 9).own 0).mx = some (runOf z 9) ∧
      ((s z 9).own 0).sigma + 1 < (runOf z 9).start + (runOf z 9).dur := by decide +kernel
theorem wit_MxIssueEnds_replay :
    let i : Instr := .mxMscl fr ⟨0, 0, 0, false, 0, 0x7F⟩
    let s := owns (fun u => { u with
      mx := some (runOf i 1), live := [liveOf 1 false true], win := [(2, [⟨0, 0, 1, 0, 0⟩])]
      accs := [(0, { Acc.reset with bad := [3], welt := some ⟨0, false, 0, false, some true⟩ })] }) id
    (s.own 0).mx = some (runOf i 1) ∧ (runOf i 1).replayed = false ∧
      (runOf i 1).start + (runOf i 1).dur = (s.own 0).sigma + 1 ∧ ((s.own 0).replayFrom 0).isSome = true ∧
      (s.own 0).mxStruck (runOf i 1) = true := by decide +kernel
theorem wit_MxIssueEnds_finish :
    let l : LiveWord := { liveOf 1 false true with eng := .mx, retires := some 1 }
    let s := owns (fun u => { u with live := [l] }) id
    (s.own 0).liveWord l.id = some l ∧ l.retires = some 1 ∧ (l.ready = true ∧ (s.own 0).room l = true) := by decide +kernel
/-- A job of a CP word with its card. -/
def jobOf (id : Nat) (op : CpOp) (a : Nat) (c : List Word) : Job :=
  { id := id, ctx := 0, task := 0, lw := { liveOf 1 false true with eng := .cp }, op := op, ch := 1, card := a, c := c
    code := 0, scode := 0, order := 0, kernel := false, issue := 0, stage := 4, gated := false, gate := 0, inp := []
    inp2 := [], pieces := [], buf := [], lo := 0, snt := [], land := [], acts := 0, sum := 0, poison := false }
/-- Core 0 with a job. -/
def withJob (j : Job) (g : CoreSt → CoreSt) : State := here (fun c => g { c with owner := some 0, jobs := [j] }) id id
theorem wit_CpWordsIssue :
    let i : Instr := .cpFill fr ⟨1, 0, false, 1⟩
    let s := atWord .cp i 0 id id
    let f := atWord .cp i 0 (fun c => { c with jobs := List.replicate 1024 (jobOf 0 .fill 0x100 []) }) id
    let j : Job := { jobOf 2 .fill 0x40 [] with stage := 0 }
    canIssue s .cp i 0 = true ∧ cardAddr [] ⟨1, 0, false, 1⟩ 0 = 0x40 ∧ 0x40 + 64 ≤ 0x7FFC0 ∧
      2 = (s.core 0).nextJob + 1 ∧ j.order = (curs .cp i 0).entry.order ∧
      (s.core 0).mayWrite 0 j { space := 1, who := 0, lo := 0x40 + 56, len := 8 } = true ∧
      (s.core 0).banksFree (0x40 + 56) 8 = true ∧ (s.core 0).jobs = [] ∧ tblWfD (0 : Byte) (s.core 0).sp = true ∧
      canIssue f .cp i 0 = true ∧ (f.core 0).mayWrite 0 j { space := 1, who := 0, lo := 0x40 + 56, len := 8 } = true ∧
      ((f.core 0).jobs.all fun e => decide (e.id < (f.core 0).nextJob)) = true ∧
      ((f.core 0).jobs.filter fun e => decide (1 ≤ e.stage)).length = 1024 := by decide +kernel
theorem wit_CpWordsIssue_beyond :
    let i : Instr := .cpFill fr ⟨1, 0, false, 0⟩
    let s := atE .cp i 0x80000 id id
    canIssueE s .cp i 0x80000 = true ∧ 0x80000 < cardAddr [0x80000] ⟨1, 0, false, 0⟩ 0 + 64 ∧ (s.own 0).live = [] ∧
      (s.ctx 0 0).live = true := by decide +kernel
/-- The premises of the checks of a job whose card is read, and what its checks find. -/
def checkedAs (s : State) (j : Job) (code : Nat) : Bool :=
  let k := { j with code := if j.bank then (s.core 0).lastAt j.src else 0
                    scode := if j.bank then (s.core 0).lastAt j.dst else 0 }
  (s.core 0).job 2 == some j && j.stage == 1 && !j.c.isEmpty && !j.idxKnown && (s.core 0).c7Free j &&
    ((j.firsts (s.core 0)).all fun x => ((s.core 0).regionFault x.1 x.2.1 x.2.2).isNone) &&
    ((k.regions 0).all fun x => ((s.core 0).regionFault x.1 x.2.1 x.2.2).isNone) && (s.jobCode 0 k).1 == code
theorem wit_CpWordsIssue_steps :
    let f (w : Word) : Job := { jobOf 2 .fill 0x40 [0, 0x100, w, 0, 0, 0, 0, 0] with stage := 1 }
    let w : Job := { jobOf 2 .wswr 0x40 [0x200, 0x100, 0x3100000007, 0, 0, 0, 0, 0] with stage := 1, kernel := true }
    let n : Job := { jobOf 2 .fill 0x40 [] with stage := 1 }
    let b : Job := { jobOf 2 .bqry 0x40 [0, 1, 0, 0, 0, 0, 0, 0] with stage := 1 }
    let q : Job := { jobOf 2 .bqry 0x40 [0, 1, 0, 0, 0, 0, 0, 0] with stage := 3 }
    let c : Job := { jobOf 2 .copy 0x40 [0x200, 0x100, 0x1100000FFF, 0, 0, 0, 0, 0] with stage := 2 }
    ((withJob n id).core 0).job 2 = some n ∧ n.c = [] ∧ ((withJob n id).core 0).spBad = [] ∧
      ((withJob n id).core 0).pendMode = false ∧ tblWfD (0 : Byte) ((withJob n id).core 0).sp = true ∧
      n.card + 64 ≤ 0x7FFC0 ∧ ((withJob n id).core 0).mayRead 0 n { space := 1, who := 0, lo := 0x40, len := 64 } = true ∧
      ((withJob n id).core 0).banksFree 0x40 64 = true ∧ checkedAs (withJob (f 0x1000000007) id) (f 0x1000000007) 0 = true ∧
      checkedAs (withJob (f 0x3000000007) id) (f 0x3000000007) 0x17 = true ∧ (f 0).lw.eng = .cp ∧
      (f 0).lw.faulted = false ∧ ((withJob (f 0) id).ctx 0 0).live = true ∧ ((withJob (f 0) id).ctx 0 0).task = (f 0).task ∧
      checkedAs (withJob w id) w 0 = true ∧ (withJob w id).wsDropped 0 w = true ∧ w.dsp = 3 ∧ w.dst + w.len ≤ 2 ^ 28 ∧
      ((withJob b id).core 0).job 2 = some b ∧ b.idxKnown = false ∧ ((withJob b id).core 0).c7Free b = true ∧
      ((b.firsts ((withJob b id).core 0)).findSome? fun x => ((withJob b id).core 0).regionFault x.1 x.2.1 x.2.2).isSome =
        true ∧ b.lw.ctx < 8 ∧ ((withJob b id).ctx 0 b.lw.ctx).live = true ∧
      c.nextInput = none ∧ c.small = false ∧ c.bank = false ∧ ((withJob c id).core 0).job 2 = some c ∧ q.bank = true ∧
      ((withJob q id).core 0).job 2 = some q := by decide +kernel
theorem wit_JobSteps_launched :
    let g : Job := { jobOf 2 .copy 0x40 [0x200, 0x100, 0x1100000FFF, 0, 0, 0, 0x8000000000000000, 0] with gated := true }
    let u : Job := { jobOf 2 .copy 0x40 [0x200, 0x100, 0x1100000FFF, 0, 0, 0, 0x8000000000000001, 0] with gated := true }
    let d : Job := { jobOf 2 .fill 0x40 [0, 0x100, 0x1000000007, 0, 0, 0, 0, 0] with land := [(0, 8)] }
    let b : Job := { jobOf 2 .bgemv 0x40 [] with land := [(0, 4)] }
    ((withJob g id).core 0).job 2 = some g ∧ ((withJob g id).core 0).gateReached 0 g = true ∧
      ((withJob u id).core 0).gateReached 0 u = false ∧ ((withJob u id).core 0).jobHeld u = true ∧
      ((withJob d id).core 0).job 2 = some d ∧ d.allDone 0 = true ∧ ((withJob d id).core 0).jobHeld d = false ∧
      ((withJob d id).core 0).mayWrite 0 d (d.c7 0) = true ∧ ((withJob d id).core 0).c7Free d = true ∧
      d.card + 64 ≤ 0x7FFC0 ∧ b.bank = true ∧ b.allDone 0 = true ∧ ((withJob b id).core 0).jobHeld b = false ∧
      ((withJob b id).core 0).mayWrite 0 b (b.c7 0) = true ∧ (jobOf 2 .fill 0 []).allDone 0 = false ∧
      (jobOf 2 .bgemv 0 []).allDone 0 = false := by decide +kernel
theorem wit_JobSteps_atomics :
    let b : Job := { jobOf 2 .batom 0x40 [0x1000, 0, 0, 0, 0, 0, 0, 0] with inp := [1, 0, 0, 0] }
    let r : Job := { jobOf 2 .ramo 0x40 [0x7FFBC, 0, 0, 0, 0, 0, 0, 0] with inp := [1, 0, 0, 0] }
    let s : State := { withJob b (fun c => { c with tt := [pageNone] }) with
      mem := [(0x1000, 1), (0x1001, 2), (0x1002, 3), (0x1003, 4)] }
    let k := (withJob r id).core 0
    let m : Msg := ⟨1, 0, 1, 2, 2, 0x7FFBE, [5, 6], false, []⟩
    let a : State := { withJob (jobOf 2 .rcopy 0x40 []) id with msgs := [m] }
    (s.core 0).job 2 = some b ∧ (s.core 0).jobHeld b = false ∧ b.acts < b.elems ∧ b.e = 4 ∧
      (s.core 0).mayWrite 0 b { space := 3, who := 0, lo := b.src + b.acts * b.e, len := b.e } = true ∧ s.memOk ∧
      s.links = [] ∧ s.reaches 0 ((s.core 0).dpas 0x1000 4) = true ∧ s.memBad = [] ∧ ((s.core 0).dpas 0x1000 4).Nodup ∧ b.src = 0x1000 ∧
      ((s.core 0).dpas 0x1000 4).map (fun a => tblFind s.mem a) = [1, 2, 3, (4 : Byte)].map some ∧
      k.job 2 = some r ∧ r.w 0 0 19 + r.acts * r.e = 0x7FFBC ∧ r.dcore = 0 ∧ k.jobHeld r = false ∧ r.acts < r.elems ∧
      k.mayWrite 0 r { space := 1, who := 0, lo := 0x7FFBC, len := r.e } = true ∧ k.banksFree 0x7FFBC r.e = true ∧
      k.beating r.ch = false ∧ k.spBad = [] ∧ 0x7FFBC + r.e ≤ 0x7FFC0 ∧
      (a.core 0).job 2 = some (jobOf 2 .rcopy 0x40 []) ∧
      a.msgs.find? (fun x => x.src == m.src && x.dst == m.dst && x.ch == m.ch) = some m ∧
      a.msgs.find? (fun x => x.id == m.id) = some m ∧ m.dst ≠ 0 ∧ (a.core m.dst).banksFree m.addr 2 = true ∧
      (a.core m.dst).beating m.ch = false ∧ tblWfD (0 : Byte) (a.core 1).sp = true := by unfold State.memOk; decide +kernel
theorem wit_JobSteps_fill :
    let j : Job := { jobOf 2 .fill 0x40 [0x0807060504030201, 0x100, 0x1000000007, 0, 0, 0, 0, 0] with buf := [1, 2, 3] }
    let k := (withJob j id).core 0
    k.jobs = [j] ∧ j.dsp = 1 ∧ j.stage = 4 ∧ j.gated = false ∧ k.gateOpen j.gate = true ∧ k.stages = [] ∧
      j.dst + j.len ≤ 0x7FFC0 ∧ tblWfD (0 : Byte) k.sp = true ∧ j.lo = tblGet 0 j.snt 0 ∧ j.prod ≤ j.len ∧
      j.buf = (upFrom j.lo j.buf.length).map (fun i => (bytesLe 8 (j.c.getD 0 0).toNat).getD (i % 8) 0) := by
  decide +kernel
theorem wit_JobSteps_products :
    let j : Job := { jobOf 2 .bgemv 0x40 [0x1000, 0, 0x1000000, 0, 0, 0, 0, 0] with
      code := 4, pieces := (upFrom 0x40 8).map fun i => (i, List.replicate 64 ((1 : Byte), false)) }
    let x : Job := { jobOf 2 .bgemv 0x40 [0x1000, 0x2000, 0x1000000, 0, 0, 0, 0, 0] with
      code := 1, pieces := (upFrom 0x40 3 ++ [0x80]).map fun i => (i, List.replicate 64 ((1 : Byte), false)) }
    ((withJob j id).core 0).job 2 = some j ∧ ((withJob j id).core 0).jobHeld j = false ∧ j.nb = 1 ∧ j.blockLen 0 = 1 ∧
      j.acts < j.rows * j.nb ∧ ((j.recPieces 0 0).all fun p => (tblFind j.pieces p).isSome) = true ∧
      j.held (j.recAt 0) j.recSize = some (List.replicate 512 (1, false)) ∧ j.scaled = false ∧
      ((j.used (List.replicate 512 (1, false)) 0).all fun b => !b.2) = true ∧
      ((j.used (List.replicate 512 (1, true)) 0).any fun b => b.2) = true ∧
      ((withJob x id).core 0).job 2 = some x ∧ ((x.recPieces 0 0).all fun p => (tblFind x.pieces p).isSome) = true ∧
      (x.held (x.recAt 0) x.recSize).isSome = true ∧ x.scaled = true ∧
      (x.held (x.scaleAt 0 0) 1).map (·.head?) = some (some (1, false)) := by decide +kernel
theorem wit_JobSteps_deliveries :
    let j (o : CpOp) : Job := { jobOf 2 o 0x40 [0, 0, 0x0001000000000000, 0x7FFB8, 0, 0, 0, 0] with
      buf := [1, 2, 3, 4, 5, 6, 7, 8] }
    let s (o : CpOp) := withJob (j o) id
    ((s .bgemva).core 0).jobs = [j .bgemva] ∧ (j .bgemva).id = 2 ∧ (j .bgemva).dcore = 0 ∧ ((s .bgemva).core 0).stages = [] ∧
      (s .bgemva).chanLock = [] ∧ tblGet 0 (j .bgemva).snt 0 = 0 ∧ (j .bgemva).lo = 0 ∧ 0 + 8 ≤ (j .bgemva).total ∧
      ((s .bgemva).core 0).banksFree ((j .bgemva).ret + 0) 4 = true ∧ ((s .bgemva).core 0).beating 1 = false ∧
      ((s .bgemva).core 0).spBad = [] ∧ (j .bgemva).ret + 0 + 4 ≤ 0x7FFC0 ∧
      ((s .bgemv).core 0).jobs = [j .bgemv] ∧ 0 + (j .bgemv).buf.length ≤ (j .bgemv).total ∧
      ((s .bgemv).core 0).banksFree ((j .bgemv).ret + 0) 512 = true ∧ (j .bgemv).ret + (j .bgemv).total ≤ 0x7FFC0 ∧
      tblWfD (0 : Byte) ((s .bgemv).core 0).sp = true := by decide +kernel
theorem wit_ExchangeRuns :
    let r : ExRec := ⟨9, 0, 1, 0, 0, 16, 8, [1, 2, 3, 4, 5, 6, 7, 8], 0, false⟩
    let d : ExRec := { r with sent := 16, buf := [], done := 16 }
    let s (n : Nat) (x : ExRec) : State := { State.reset with ftick := n, tags := [(7, { TagSt.reset with t0 := some 5, recs := [x] })] }
    ((s 6 r).tag 7).t0 = some 5 ∧ ((s 6 r).tag 7).recs[0]? = some r ∧ r.len % 8 = 0 ∧ r.sent % 8 = 0 ∧ r.done % 8 = 0 ∧
      r.dst % 8 = 0 ∧ r.sent ≤ r.len ∧ r.buf.length + r.done = r.sent ∧ r.dst + r.len ≤ 0x7FFC0 ∧
      tblWfD (0 : Byte) ((s 6 r).core r.dstc).sp = true ∧ ((s 6 r).core r.srcc).spBad = [] ∧ 5 + r.deadline < 15 ∧
      r.late = false ∧ r.done < r.len ∧ ((s 15 r).tag 7).recs[0]? = some r ∧ 14 ≤ 5 + r.deadline ∧
      (∀ x ∈ ((s 14 d).tag 7).recs, x.len ≤ x.done ∧ 5 + x.deadline ≤ 14) ∧
      (∃ x ∈ ((s 6 r).tag 7).recs, x.done < x.len ∨ 6 < 5 + x.deadline) := by decide +kernel
theorem wit_WordsWithoutEffect :
    let n : Instr := .engineNop { fr with hl := true, rep := 2 }
    let i : Instr := .engineIgnoredWord 3 fr 9
    let s (hr issued : Bool) (t : Nat) := owns (fun u => { u with live := [liveOf 1 hr issued], tokens := [(t, 7)] }) id
    canIssue (atWord .cp n 1 id id) .cp n 1 = true ∧ canIssue (atWord .st i 0 id id) .st i 0 = true ∧
      (atWord .st i 0 id id).at_ = .engine 0 .st ∧ (curs .st i 0).issue = 0 ∧
      ((atWord .st i 0 id id).core 0).faults = [] ∧ ((s true true 39).own 0).liveWord 1 = some (liveOf 1 true true) ∧
      (liveOf 1 true true).ready = true ∧ ((s true true 39).own 0).room (liveOf 1 true true) = true ∧
      (liveOf 1 true false).ready = false ∧ ((s true false 39).own 0).liveWord 1 = some (liveOf 1 true false) := by
  decide +kernel
theorem wit_CyclesAndLaps :
    let st (b : Nat) : Stall := ⟨b, [.bank], 0⟩
    let s (b p : Nat) := here (fun c => { c with owner := some 0, stall := some (st b), p := p }) id id
    let b : Beat := ⟨1, 0x7FFB8, [1, 2, 3, 4, 5, 6, 7, 8], 2, 0, 9⟩
    let w := here (fun c => { c with owner := some 0, beats := [b] }) id id
    ((owns id id).core 0).dbg = [] ∧ ((owns id id).core 0).beats = [] ∧ ((owns id id).core 0).owner = some 0 ∧
      ((owns id id).core 0).stall = none ∧ (w.core 0).dbg = [] ∧ (w.core 0).beats = [b] ∧ b.due ≤ (w.core 0).p + 1 ∧
      b.addr + b.data.length ≤ 0x7FFC0 ∧ tblWfD (0 : Byte) (w.core 0).sp = true ∧
      ((s 0 3).core 0).stall = some (st 0) ∧ ((s 0 3).core 0).lapBoundary = false ∧
      ((s 0 16).core 0).stall = some (st 0) ∧ ((s 0 16).core 0).lapBoundary = true ∧ ((s 0 16).core 0).stop = false := by
  decide +kernel
theorem wit_EngineFaultsTaken :
    let r : Record := ⟨2, 3, 0, 0, 0, 7, 0, 0, 0, 0, 0x2000, 0, [], 0, 0, 0, 0, 0⟩
    let f := here (fun c => { c with owner := some 0, faults := [r], p := 16 }) id id
    let s (n : Nat) := here (fun c => { c with owner := some 0, stall := some ⟨0, [.token], n⟩, p := 16, release := true })
      (fun u => { u with q := tblSet EngQ.empty [] 3 { EngQ.empty with run := some (curs .vx wAdd 0) } }) id
    let q := here (fun c => { c with owner := some 0, stall := some ⟨0, [.token], 65536⟩, p := 16 })
      (fun u => { u with live := [liveOf 1 true true], tokens := (upFrom 0 40).map fun i => (i, 16) }) id
    (f.core 0).faults = [r] ∧ (f.core 0).faultDue (f.moves 0) r = true ∧ r.core = 0 ∧ r.ctx = 0 ∧
      (f.ctx 0 0).trapped = none ∧ (f.ctx 0 0).wait = .none ∧ ((owns id id).core 0).faults = [] ∧
      ((s 65536).core 0).stall = some ⟨0, [.token], 65536⟩ ∧ ((s 65536).core 0).owner = some 0 ∧
      ((s 65536).core 0).holdFault = false ∧ ((s 65536).ctx 0 0).trapped = none ∧
      allEngines.find? (fun e => !(((s 65536).core 0).tokenWaits e).isEmpty) = some .vx ∧
      ((s 65536).core 0).popWaits .vx ≠ [] ∧ ((s 65536).own 0).queue (engNo .vx) =
        { EngQ.empty with run := some (curs .vx wAdd 0) } ∧
      allEngines.find? (fun e => !((q.core 0).tokenWaits e).isEmpty) = some .vx ∧ (q.core 0).popWaits .vx = [] ∧
      ((s 7).core 0).stall = some ⟨0, [.token], 7⟩ ∧ ((s 7).core 0).release = true ∧
      ((s 7).core 0).lapBoundary = true := by decide +kernel
theorem wit_DebuggerActs :
    let h : State := { owns id id with hub := [(offDbgctl 0, (1 : Word))] }
    let d := owns id (fun u => { u with wait := .halted 5 })
    let p := here (fun c => { c with cyc := { c.cyc with port := true } }) id id
    bit (h.hubGet (offDbgctl 0)).toNat 0 = true ∧ (h.core 0).stop = false ∧ (h.core 0).lapBoundary = true ∧
      (d.ctx 0 0).wait = .halted 5 ∧ ((here (fun c => { c with p := 3 }) id id).core 0).lapBoundary = false ∧
      (8 + (h.core 0).phase) % 16 = 8 ∧ (h.core 0).portFree = true ∧ (9 + (h.core 0).phase) % 16 ≠ 8 ∧
      (p.core 0).portFree = false ∧ (h.own 0).flights = [] ∧ (h.own 0).live = [] ∧
      tblWfD (0 : Byte) ((h.own 0).tile 7).bytes = true := by decide +kernel
/-- Words that write a tile, an accumulator or a guard, and words that do not. -/
theorem wit_DebuggerActs_words :
    let w := encodeWord .mx (.mxMzero fr ⟨0, 0, 0, true, 0, 0⟩)
    let l : LiveWord := { liveOf 1 false true with eng := .mx, bits := (w.map (·.2)).getD 0 }
    let o : Own := { Own.reset with live := [l], flights := [flightOf .vx (.vxAdd fr ⟨2, true, 1, 15, 3, 0, 4, 0, 0⟩) [] 0 0] }
    o.writesTile 2 = false ∧ o.writesAcc 0 = false ∧ o.writesAcc 1 = true ∧ l.writesGuard o.flights 3 = false ∧
      (∀ f ∈ o.flights, f.writesGuard 3 = false) := by decide +kernel
/-! ## Worked values of the manual -/

/-- 02_numbers.md, the worked conversions to HS8: code and flags (0x01 INEXACT, 0x04 OVERFLOW, 0x10 SAT). -/
theorem test_hs8 :
    conv 1 6 0 false 0x3F800000 = (0x00, 0x01) ∧ conv 1 6 0 false 0x40000000 = (0x02, 0x01) ∧
      conv 1 6 0 false 0xBF800000 = (0xFE, 0x01) ∧ conv 1 6 0 false 0x80000000 = (0xFF, 0x00) ∧
      conv 1 6 0 false 0x43480000 = (0x7F, 0x15) ∧ conv 1 6 0 true 0x43480000 = (0xC8, 0x05) := by decide
/-- 02_numbers.md, the worked conversions to LN6. -/
theorem test_ln6 :
    (conv 1 8 0 false 0x40400000).1 = 0x16 ∧ (conv 1 8 0 false 0x3D8F5C29).1 = 0x01 ∧
      (conv 1 8 0 false 0xBD4CCCCD).1 = 0x00 ∧ (conv 1 8 0 false 0xBD4CCCCD).2 &&& flUnderflow = flUnderflow := by
  decide +kernel
/-- 02_numbers.md, the worked LN6 block: its three terms, and the accumulator 1.0 that becomes 10.314453125. -/
theorem test_ln6_block :
    blockTerm 8 20 18 = some 2966016 ∧ blockTerm 8 16 0x30 = some (-1048576) ∧ blockTerm 8 13 15 = some 524288 ∧
      closeBlock 8 0x3F800000 ⟨2441728, false⟩ 3 0xFF = (0x41250800, 0) := by decide +kernel
/-- 02_numbers.md, the worked HS4 product: 1.5 times −1.5 adds −9 quarters. -/
theorem test_hs4_product : blockTerm 7 0x1 0xE = some (-9) := by decide
/-- 02_numbers.md R51's example, one step of it: 2^31 − 1 plus 1 clamps, and wraps where WRAP is 1. -/
theorem test_vx_add_saturates :
    let i (m : BitVec 4) : VxIn := { vxInOf 4 with mode := m, a := ⟨0x7FFFFFFF, 4, []⟩, b := ⟨1, 4, []⟩ }
    ((vxEval .add (i 0)).d.map fun x => x.1.data % 2 ^ 32) = some 0x7FFFFFFF ∧ (vxEval .add (i 0)).fl = 0x14 ∧
      ((vxEval .add (i 4)).d.map fun x => x.1.data % 2 ^ 32) = some 0x80000000 ∧ (vxEval .add (i 4)).fl = 0x04 := by
  decide +kernel
/-- 10_reversible.md, the example of leaking four lanes by es = 2. -/
theorem test_rleak :
    let i : VxIn := { vxInOf 5 with p := ⟨0, false, 5, 4, 5, 0, 5, 0, 0⟩, es := [0, 0, 0, 0, 0, 2], a := ⟨0xFFFFFB1EFFF90028, 5, []⟩ }
    ((vxEval .rleak i).d.map fun x => x.1.data % 2 ^ 64) = some 0xFFFFFEC7FFFE0028 ∧
      (((vxEval .rleak i).ent.map fun e => (e % 2 ^ 16, e >>> 16 % 2 ^ 16, e >>> 32 % 2 ^ 16, e >>> 48 % 2 ^ 16)) =
        some (0, 1, 2, 3)) := by decide +kernel
/-- 10_reversible.md, the same example: the un-leak gives the lanes back. -/
theorem test_uleak :
    let i : VxIn := { vxInOf 5 with
      p := ⟨0, false, 4, 5, 5, 0, 5, 0, 0⟩, es := [0, 0, 0, 0, 0, 2], a := ⟨0xFFFFFEC7FFFE0028, 5, []⟩
      ent := 0x0003000200010000 }
    ((vxEval .uleak i).d.map fun x => x.1.data % 2 ^ 64) = some 0xFFFFFB1EFFF90028 := by decide +kernel
/-- 07_ring.md, the worked example of when slots are read and written. -/
theorem test_ring_cycles :
    readCycle 101 3 2 = 111 ∧ readCycle 100 1 2 = 113 ∧ readCycle 100 2 6 = 116 ∧ meetCycle 120 3 14 = 123 ∧
      readCycle 115 3 2 = 127 ∧ readCycle 40 7 12 = 53 ∧ meetCycle 65 2 0 = 78 := by decide
/-- 04_device_memory.md, the worked translation through a 2 MiB page. -/
theorem test_translation :
    ({ CoreSt.reset with tt := [(0x0000000020A600001, 0x030000158000002F)] }.dpas 0x20A612345 1) = [0x1580012345] := by
  decide
/-- 08_load_store.md, the worked words of a gather and of a retirement, as stored. -/
theorem test_words_stored :
    decodeWord .ld 0x038406224702 = .ldVg ⟨true, false, false, false, 1, 0⟩ ⟨3, false, 2, 1, 2, false, 0x702⟩ ∧
      decodeWord .st 0x092800186040 = .stRc ⟨false, false, true, false, 2, 0⟩ ⟨0, false, 1, 4, 3, false, 64⟩ := by decide

/-! ## Steps of the sequencer -/

/-- Registers 5 and the program counter of context 0 after its instruction. -/
def after (i : Instr) (s : State) : Option (Word × Word) :=
  match exec i s with
  | .next t => some ((t.ctx 0 0).reg 5, (t.ctx 0 0).pc)
  | _ => none
/-- What trapped context 0: cause, status and address. -/
def trapOf (i : Instr) (s : State) : Option (BitVec 8 × BitVec 32 × Word) :=
  match exec i s with
  | .next t => (t.ctx 0 0).trapped.map fun o => (o.r.cause, o.r.status, o.r.addr)
  | _ => none
/-- RV64IM (12_sequencer.md R260): a sum that wraps, a shift of a word, quotients by zero and of the least number. -/
theorem test_scalar_arithmetic :
    let s := here id id (withX [(1, 0xFFFFFFFFFFFFFFFF), (2, 0x8000000000000000), (3, 1)])
    after (.scalarAlu (.rr .add 5 1 3)) s = some (0, 4) ∧ after (.scalarAlu (.rr .sraw 5 2 3)) s = some (0, 4) ∧
      after (.scalarAlu (.rr .div 5 3 0)) s = some (0xFFFFFFFFFFFFFFFF, 4) ∧
      after (.scalarAlu (.rr .div 5 2 1)) s = some (0x8000000000000000, 4) ∧
      after (.scalarAlu (.rr .mulhu 5 1 1)) s = some (0xFFFFFFFFFFFFFFFE, 4) ∧
      after (.scalarAlu (.lui 5 0x80000)) s = some (0xFFFFFFFF80000000, 4) := by decide
/-- R260: a load extends by its width; a store that has not reached its home is seen by its own context (14_consistency.md
R294). -/
theorem test_scalar_load :
    let s := here (fun c => { c with sp := [(0x40, 0x80)] }) id (withX [(1, 0xFFFFFFFF80040)])
    let b := here (fun c => { c with sp := [(0x40, 0x80)] }) id
      (fun u => { u with x := [(1, 0xFFFFFFFF80040)], stores := [⟨1, true, 0x40, [0x7F], 0, 0, 9, 9⟩] })
    after (.scalarLoad .b 5 1 0) s = some (0xFFFFFFFFFFFFFF80, 4) ∧ after (.scalarLoad .bu 5 1 0) s = some (0x80, 4) ∧
      after (.scalarLoad .b 5 1 0) b = some (0x7F, 4) := by decide
/-- R260: x0 reads as zero, and a jump through it goes to its offset. -/
theorem test_scalar_x0 :
    let s := here id id (withX [(1, 9)])
    after (.scalarAlu (.imm .addi 0 1 5)) s = some (0, 4) ∧ after (.scalarBranchJump (.jalr 5 0 0x7FC)) s = some (4, 0x7FC) ∧
      after (.scalarBranchJump (.branch .bltu 0 1 0x800)) s = some (0, 0xFFFFFFFFFFFFF000) := by decide
/-- 19_faults.md R335 and 12_sequencer.md R286: the causes of traps. -/
theorem test_traps :
    let s := here id id (withX [(1, 0x1002)])
    trapOf .ecall s = some (0x24, 0, 0) ∧ trapOf .ebreak s = some (0x25, 0, 0) ∧
      trapOf (.scalarLoad .w 5 1 0) s = some (0x21, 0, 0x1002) ∧ trapOf (.trapr 0x7FF) s = some (0x26, 0x7FF, 0) ∧
      trapOf (.illegalInstruction 0xFFFFFFFF) s = some (0x20, 0xFFFFFFFF, 0) := by decide
/-- 12_sequencer.md R282: an atomic returns the old value, and the memory of the word changes. -/
theorem test_amo :
    let s := here (fun c => { c with sp := [(0x40, 0xFF), (0x41, 0xFF), (0x42, 0xFF), (0x43, 0xFF)] }) id
      (withX [(1, 0xFFFFFFFF80040), (2, 2)])
    after (.amoS 0 1 2 1 5) s = some (0xFFFFFFFFFFFFFFFF, 4) ∧
      (match exec (.amoS 0 1 2 1 5) s with
        | .next t => (t.core 0).spBytes 0x40 5
        | _ => []) = [1, 0, 0, 0, 0] := by decide
/-- 12_sequencer.md R266 and R268: GENF gives the generation that it begins; a shape of 32,768 bytes is legal. -/
theorem test_genf_tshape :
    after (.genf 5) (owns id (fun u => { u with gen := 0xFF })) = some (0, 4) ∧
      after (.tshape 1 7) (owns id (withX [(1, 0x7FFF)])) = some (0, 4) ∧
      (trapOf (.tshape 1 7) (owns id (withX [(1, 0x80FF)]))).isSome = true := by decide
/-- 12_sequencer.md R276: joining a new group gives 1, joining it again changes nothing, leaving it gives 0. -/
theorem test_groups :
    let s := here id id (withX [(1, 7)])
    after (.join 1 5) s = some (1, 4) ∧
      (match exec (.join 1 5) s with | .next t => after (.join 1 5) t | _ => none) = some (1, 8) ∧
      (match exec (.join 1 5) s with | .next t => after (.leave 1 5) t | _ => none) = some (0, 8) := by decide
end Sys2Proof.Tests
end

section
/-! SUPPORT. 12_sequencer.md R267 and R268: es registers and the shapes of tiles. The decoder's facts about the words of
`eset`, `eseti` and `tshape`, the frame of an owner's instruction that changes the owner state and goes on, and the two
statements. -/
namespace Sys2Proof.Machine
open Sys2Proof

/-! ## Words with a three-bit register in rd -/

/-- A word of format XR whose rd is written as rd[4:3] and rd[2:0] (03_words.md R73). -/
theorem xr_splitRd (f7 : BitVec 7) (b s : BitVec 5) (f3 : BitVec 3) (z : BitVec 2) (d : BitVec 3) (op : BitVec 7) :
    (f7 ++ b ++ s ++ f3 ++ z ++ d ++ op : BitVec 32) = xr f7 b s f3 (z ++ d) op := by
  unfold xr; exact congrArg (· ++ op) BitVec.append_assoc

/-- A word of format XI whose rd is written as rd[4:3] and rd[2:0]. -/
theorem xi_splitRd (i : BitVec 12) (s : BitVec 5) (f3 : BitVec 3) (z : BitVec 2) (d : BitVec 3) (op : BitVec 7) :
    (i ++ s ++ f3 ++ z ++ d ++ op : BitVec 32) = xi i s f3 (z ++ d) op := by
  unfold xi; exact congrArg (· ++ op) BitVec.append_assoc

theorem decodeSeq_eset (r : BitVec 5) (e : BitVec 3) : decodeSeq (xr 0 0 r 3 (0#2 ++ e) 0x0B) = .eset r e :=
  (Laws.RoundTrip.eset r e rfl).1 _ rfl

theorem decodeSeq_eseti (i : BitVec 12) (e : BitVec 3) : decodeSeq (xi i 0 4 (0#2 ++ e) 0x0B) = .eseti i e :=
  (Laws.RoundTrip.eseti i e rfl).1 _ rfl

theorem decodeSeq_tshape (r : BitVec 5) (t : BitVec 3) : decodeSeq (xr 0 0 r 5 (0#2 ++ t) 0x0B) = .tshape r t :=
  (Laws.RoundTrip.tshape r t rfl).1 _ rfl

/-- A register number of 8 or more has a bit above the lower three. -/
theorem upperRd_ne_zero : ∀ d : BitVec 5, 8 ≤ d.toNat → d.extractLsb' 3 2 ≠ 0 := by decide

/-- A word that decodes as no instruction is an illegal one by name (03_words.md R76). -/
theorem decodeSeq_of_none {w : BitVec 32} (h : decodeSeq? w = none) : decodeSeq w = .illegalInstruction w := by
  rw [decodeSeq, h]; rfl

theorem decodeSeq_eset_illegal (r d : BitVec 5) (h : 8 ≤ d.toNat) :
    decodeSeq (xr 0 0 r 3 d 0x0B) = .illegalInstruction (xr 0 0 r 3 d 0x0B) := by
  refine decodeSeq_of_none ?_
  rw [decodeSeq_xr]
  exact if_neg fun hz => upperRd_ne_zero d h hz.2.2

theorem decodeSeq_eseti_illegal (i : BitVec 12) (d : BitVec 5) (h : 8 ≤ d.toNat) :
    decodeSeq (xi i 0 4 d 0x0B) = .illegalInstruction (xi i 0 4 d 0x0B) := by
  refine decodeSeq_of_none ?_
  rw [decodeSeq_xi]
  exact if_neg fun hz => upperRd_ne_zero d h hz.2

/-! ## A change of the owner state by an instruction that goes on -/

@[simp] theorem own_modOwn_seqNext (s : State) (c k : Nat) (f : Own → Own) :
    ((s.modOwn c f).seqNext c k).own c = f (s.own c) := by rw [own_seqNext, State.own_modOwn_self]

/-- The context goes on, no other of its registers and nothing outside its core changes, and no byte does. -/
theorem modOwn_seqNext_frame {s : State} {c k : Nat} (f : Own → Own) (hw : (s.ctx c k).wait = .none) :
    (((s.modOwn c f).seqNext c k).ctx c k).pc = (s.ctx c k).pc + 4 ∧
      OnlyPcRegOf c k 0 s ((s.modOwn c f).seqNext c k) ∧ OnlyCore c s ((s.modOwn c f).seqNext c k) ∧
      SameBytes s ((s.modOwn c f).seqNext c k) :=
  ⟨by rw [pc_seqNext, State.ctx_modOwn], onlyPcRegOf_goesOn hw (State.ctx_modOwn ..),
    (onlyCore_modOwn c s f).trans (onlyCore_modCtx c k _ _), (sameBytes_modOwn c s f).trans (sameBytes_modCtx c k _ _)⟩

/-! ## es registers -/

theorem Own.es_setEs (o : Own) (e : BitVec 3) (v : Word) (i : Nat) :
    tblGet 0 (o.setEs e v).es i = if i = e.toNat then v else tblGet 0 o.es i := tblGet_set ..

/-- R267: the write of an es register by the owner, and what it leaves. -/
theorem seqEset_spec {s : State} {c k : Nat} (e : BitVec 3) (v : State → Word) (h : s.runsOwner c k) :
    (∀ i, tblGet 0 ((s.seqEset c k e v).own c).es i = if i = e.toNat then v s else tblGet 0 (s.own c).es i) ∧
      (s.seqEset c k e v).own c = { s.own c with es := ((s.seqEset c k e v).own c).es } ∧
      ((s.seqEset c k e v).ctx c k).pc = (s.ctx c k).pc + 4 ∧
      OnlyPcRegOf c k 0 s (s.seqEset c k e v) ∧ OnlyCore c s (s.seqEset c k e v) ∧
      SameBytes s (s.seqEset c k e v) := by
  obtain ⟨⟨-, -, hw, -⟩, ho⟩ := h
  have hrun : s.seqEset c k e v = (s.modOwn c fun o => o.setEs e (v s)).seqNext c k := asOwner_of ho _
  rw [hrun, own_modOwn_seqNext]
  exact ⟨Own.es_setEs _ _ _, rfl, modOwn_seqNext_frame _ hw⟩

/-! ## Shapes of tiles -/

/-- R268: a value that is a shape sets ROWS and WIDTH of one tile. -/
theorem seqTshape_of_shape {s : State} {c k : Nat} {r : BitVec 5} {i : BitVec 3} (ho : (s.core c).owner = some k)
    (hz : wfld ((s.ctx c k).reg r) 16 48 = 0)
    (hn : (wfld ((s.ctx c k).reg r) 8 8 + 1) * (wfld ((s.ctx c k).reg r) 0 8 + 1) ≤ 32768) :
    s.seqTshape c k r i =
      (s.modOwn c fun o =>
        o.setTile i.toNat
          { o.tile i.toNat with
            rows := ((s.ctx c k).reg r).extractLsb' 8 8, width := ((s.ctx c k).reg r).setWidth 8 }).seqNext c k :=
  (asOwner_of ho _).trans (if_neg (not_or.2 ⟨not_not.2 hz, not_lt.2 hn⟩))

/-- R268: any other value takes the illegal-instruction trap. -/
theorem seqTshape_of_noShape {s : State} {c k : Nat} {r : BitVec 5} {i : BitVec 3} (ho : (s.core c).owner = some k)
    (h : wfld ((s.ctx c k).reg r) 16 48 ≠ 0 ∨
      32768 < (wfld ((s.ctx c k).reg r) 8 8 + 1) * (wfld ((s.ctx c k).reg r) 0 8 + 1)) :
    s.seqTshape c k r i = s.illegalInstr c k (.tshape r i) := (asOwner_of ho _).trans (if_pos h)

/-! ## The statements -/

/-- Settles O16: the words decode as the round trip of the encoder says, rd[4:3] other than 0 fails the decoder's check,
and the write is one to the owner's es file. -/
theorem esetWritesEs : Obligations.EsetWritesEs := by
  unfold Obligations.EsetWritesEs
  refine ⟨fun r e => ?_, fun i e => ?_, ?_, fun r d h => decodeSeq_eset_illegal r d h,
    fun i d h => decodeSeq_eseti_illegal i d h, fun s c k e h => ⟨fun r => ?_, fun n => ?_⟩⟩
  · rw [xr_splitRd]; exact decodeSeq_eset r e
  · rw [xi_splitRd]; exact decodeSeq_eseti i e
  · exact decodeSeq_eset 7 1
  · exact ⟨_, run_eset h.1.1, seqEset_spec e _ h⟩
  · exact ⟨_, run_eseti h.1.1, seqEset_spec e _ h⟩

/-- Settles O17: the check of the value decides between the write of one tile's shape and the trap. -/
theorem tileShape : Obligations.TileShape := by
  unfold Obligations.TileShape
  refine ⟨fun r i => ?_, fun s c k ⟨⟨hat, _, hw, ht⟩, ho⟩ => ⟨fun r i hz hn => ?shape, fun r i hbad => ?trap⟩⟩
  · rw [xr_splitRd]; exact decodeSeq_tshape r i
  case shape =>
    refine ⟨_, runTo (run_tshape hat) (seqTshape_of_shape ho hz hn), ?_⟩
    rw [own_modOwn_seqNext]
    refine ⟨?_, fun j hj => ?_, rfl, modOwn_seqNext_frame _ hw⟩
    · rw [Own.tile_setTile, if_pos rfl, BitVec.setWidth_eq_extractLsb' (by decide)]
    · rw [Own.tile_setTile, if_neg hj]
  case trap =>
    exact ⟨_, runTo (run_tshape hat) (seqTshape_of_noShape ho hbad), trapTaken_seqTrap c k s _ _ _ _ hw ht⟩

end Sys2Proof.Machine
end
